-- ==== Sys2Proof/Word.lean ====
section
/-! DEFINITION. The bit vectors of the YCPU: the 16-bit word, the 8-bit byte, the 32-bit segment register value
(00_scope.md R9) and the index of a general register (10_state.md R31). -/

namespace Sys2Proof

/-- The natural data unit, a general register, a program word, a logical address (R9). -/
abbrev Word := BitVec 16

/-- The addressable unit of memory (R9). -/
abbrev Byte := BitVec 8

/-- The value of a segment register (10_state.md R51, R52). -/
abbrev SegReg := BitVec 32

/-- The index of a general register R0 to R7 (10_state.md R31). -/
abbrev Reg := Fin 8

end Sys2Proof
end

