-- ==== Sys2Proof/Syntax.lean ====
section
/-! DEFINITION. The instructions of the YCPU as decoded: one constructor of `Instr` per row of spec/opcode_table.json.
A constructor keeps EVERY bit of the opcode word that its row does not fix, the bits the pattern draws `.`
included (30_encoding.md R157): they change nothing an instruction does, but they are part of the error code a fault
pushes (60_exceptions.md R348; log 20). -/

namespace Sys2Proof

/-- The second operand M of the ALU pattern (30_encoding.md R134 to R140): bits 15..8 of the opcode word and the
immediate word. `es` is bit 15 (ES instead of DS in the memory modes, ignored in the others), `e` is bit 8 (8-bit mode). -/
inductive Operand where
  /-- `.000 000e`, the value is the immediate word. -/
  | immediate (es e : Bool) (value : Word)
  /-- `s000 001e`, the memory at the immediate word. -/
  | absolute (es e : Bool) (address : Word)
  /-- `.000 01..`, not in the mode table: undefined (R156); `x` is bit 9. -/
  | undefinedMode (es x e : Bool)
  /-- `.000 1ppp`, control register `p`, always 16 bits. -/
  | control (es : Bool) (p : BitVec 3)
  /-- `.001 rrre`. -/
  | register (es e : Bool) (r : Reg)
  /-- `s010 rrre`, the memory at the register. -/
  | indirect (es e : Bool) (r : Reg)
  /-- `s011 rrre`, the memory at the register plus the immediate word. -/
  | indirectOffset (es e : Bool) (r : Reg) (offset : Word)
  /-- `s1ii rrre`, the memory at the register plus index register R4 + ii. -/
  | indirectIndexed (es e : Bool) (ii : BitVec 2) (r : Reg)
  deriving DecidableEq, Repr

/-- The operand of the JMI pattern (30_encoding.md R146, R147), without bit 8 (the row's F bit) but in Register mode, where
bit 8 is not interpreted. -/
inductive JumpOperand where
  /-- `.000 000F`: the target word and, in the far form, the segment value of the two words after it. -/
  | immediate (es : Bool) (target : Word) (segment : SegReg)
  /-- `s000 001F`. -/
  | absolute (es : Bool) (address : Word)
  /-- `.000` with `rrr` from 010 to 111: undefined (R156); `x` is `rrr`. -/
  | undefinedMode (es : Bool) (x : BitVec 3)
  /-- `.001 rrr.`: always near; `f` is the ignored bit 8. -/
  | register (es : Bool) (r : Reg) (f : Bool)
  /-- `s010 rrrF`. -/
  | indirect (es : Bool) (r : Reg)
  /-- `s011 rrrF`. -/
  | indirectOffset (es : Bool) (r : Reg) (offset : Word)
  /-- `s1ii rrrF`. -/
  | indirectIndexed (es : Bool) (ii : BitVec 2) (r : Reg)
  deriving DecidableEq, Repr

/-- Bits 12..8 of the SHF and BTI patterns (30_encoding.md R142, R151): a constant field `s`, or the register whose low
four bits are used; `x` is the ignored bit 11 of the register form. -/
inductive CountOperand where
  | constant (s : BitVec 4)
  | register (x : Bool) (r : Reg)
  deriving DecidableEq, Repr

/-- One constructor per row of spec/opcode_table.json, in the table's order. `d` is the register of the row's R or r
field; other fields are named as the patterns of 30_encoding.md R134 to R154 name them. -/
inductive Instr where
  | cmp (d : Reg) (m : Operand)
  | neg (d : Reg) (m : Operand)
  | add (d : Reg) (m : Operand)
  | sub (d : Reg) (m : Operand)
  | adc (d : Reg) (m : Operand)
  | sbc (d : Reg) (m : Operand)
  | mul (d : Reg) (m : Operand)
  | div (d : Reg) (m : Operand)
  | mli (d : Reg) (m : Operand)
  | dvi (d : Reg) (m : Operand)
  | mod (d : Reg) (m : Operand)
  | mdi (d : Reg) (m : Operand)
  | and (d : Reg) (m : Operand)
  | orr (d : Reg) (m : Operand)
  | eor (d : Reg) (m : Operand)
  | not (d : Reg) (m : Operand)
  | lod (d : Reg) (m : Operand)
  | sto (d : Reg) (m : Operand)
  | bcc (b : BitVec 8)
  | bcs (b : BitVec 8)
  | bne (b : BitVec 8)
  | beq (b : BitVec 8)
  | bpl (b : BitVec 8)
  | bmi (b : BitVec 8)
  | bvc (b : BitVec 8)
  | bvs (b : BitVec 8)
  | bug (b : BitVec 8)
  | bsg (b : BitVec 8)
  | baw (b : BitVec 8)
  /-- Low octet $9A with any high octet: undefined (43_branch.md R262). -/
  | undefined9A (high : BitVec 8)
  | undefined9B (high : BitVec 8)
  | undefined9C (high : BitVec 8)
  | undefined9D (high : BitVec 8)
  | undefined9E (high : BitVec 8)
  | asl (d : Reg) (n : CountOperand)
  | lsl (d : Reg) (n : CountOperand)
  | rol (d : Reg) (n : CountOperand)
  | rnl (d : Reg) (n : CountOperand)
  | asr (d : Reg) (n : CountOperand)
  | lsr (d : Reg) (n : CountOperand)
  | ror (d : Reg) (n : CountOperand)
  | rnr (d : Reg) (n : CountOperand)
  | btt (d : Reg) (n : CountOperand)
  | btx (d : Reg) (n : CountOperand)
  | btc (d : Reg) (n : CountOperand)
  | bts (d : Reg) (n : CountOperand)
  /-- `a` is the alternate value select, bit 0 of the low octet. -/
  | set (a : Bool) (d : Reg) (v : BitVec 5)
  /-- The high octet: N Z C V in bits 7..4 and four ignored bits. -/
  | sef (bits : BitVec 8)
  | clf (bits : BitVec 8)
  /-- General registers: bit n of the mask selects Rn. -/
  | pshGeneral (mask : BitVec 8)
  /-- Control registers: bits 7 SP, 6 USP, 2 PS, 1 PC, 0 FL of the mask; bits 5..3 are ignored. -/
  | pshControl (mask : BitVec 8)
  | popGeneral (mask : BitVec 8)
  | popControl (mask : BitVec 8)
  | rts
  | rtsF
  | rti
  | swi
  | slp
  /-- `u` selects the user set, `x` the ignored bits 14..12, `r` the register. -/
  | lsg (u : Bool) (x : BitVec 3) (r : BitVec 3)
  | ssg (u : Bool) (x : BitVec 3) (r : BitVec 3)
  /-- The operand is `v + 1`. -/
  | adi (d : Reg) (v : BitVec 5)
  | sbi (d : Reg) (v : BitVec 5)
  | jmp (m : JumpOperand)
  | jmpF (m : JumpOperand)
  | jsr (m : JumpOperand)
  | jsrF (m : JumpOperand)
  | hwq00
  | hwq01
  | hwq02
  | hwq03
  | hwq80
  | hwq82
  | hwq83
  /-- Signed count of stack words. -/
  | stx (i : BitVec 8)
  /-- A program word whose low octet is $BC to $BF: undefined (30_encoding.md R155). -/
  | undefinedBCtoBF (w : Word)
  /-- A program word whose low octet is $C0 to $FF: undefined (30_encoding.md R155). -/
  | undefinedC0toFF (w : Word)
  deriving DecidableEq, Repr

end Sys2Proof
end

