-- ==== Sys2Proof/Decode.lean ====
section
/-! DEFINITION. Decoding program words, instruction lengths, and encoding, from the bit patterns of 30_encoding.md.
A decoded instruction keeps every bit of its words, so `opcode` gives back the opcode word itself. -/

namespace Sys2Proof

/-! ### Field helpers -/

/-- The register index in the three bits from bit `lo`. -/
def regField (w : Word) (lo : Nat) : Reg := (w.extractLsb' lo 3).toFin

/-- The three bits that name a register. -/
def regBits (r : Reg) : BitVec 3 := BitVec.ofFin r

/-- Bits 7..0 of a program word (30_encoding.md R132). -/
def lowOctet (w : Word) : BitVec 8 := w.extractLsb' 0 8

/-- Bits 15..8 of a program word. -/
def highOctet (w : Word) : BitVec 8 := w.extractLsb' 8 8

/-- The 16-bit word whose byte at the lower address is `lo` (20_memory.md R84). -/
def wordOfBytes (lo hi : Byte) : Word := hi ++ lo

/-- The byte of a word stored at the lower address (20_memory.md R84). -/
def lowByte (w : Word) : Byte := w.extractLsb' 0 8

/-- The byte of a word stored at the higher address (20_memory.md R84). -/
def highByte (w : Word) : Byte := w.extractLsb' 8 8

/-! ### Decoding -/

/-- Words in a defined low octet that no row of the table covers, by name. The fetch raises what the spec gives them
(`Machine.fetchInstruction`). -/
inductive Reject where
  /-- PRX with function index $05 to $FF (47_processor_functions.md R317). -/
  | undefinedProcessorFunction
  /-- HWQ with an operation index that is not listed (47_processor_functions.md R302). -/
  | undefinedHwqIndex
  /-- Fewer bytes than the instruction has (only from `decodeBytes`). -/
  | truncated
  deriving DecidableEq, Repr

/-- The addressing mode of an ALU word (30_encoding.md R135); `i1` is the immediate word. -/
def decodeOperand (w i1 : Word) : Operand :=
  let es := w.getLsbD 15
  let e := w.getLsbD 8
  let r := regField w 9
  if w.getLsbD 14 then .indirectIndexed es e (w.extractLsb' 12 2) r
  else if w.getLsbD 13 then
    if w.getLsbD 12 then .indirectOffset es e r i1 else .indirect es e r
  else if w.getLsbD 12 then .register es e r
  else if w.getLsbD 11 then .control es (w.extractLsb' 8 3)
  else if w.getLsbD 10 then .undefinedMode es (w.getLsbD 9) e
  else if w.getLsbD 9 then .absolute es e i1
  else .immediate es e i1

/-- The addressing mode of a JMI word (30_encoding.md R146, R147); `i1` to `i3` are the immediate words. -/
def decodeJumpOperand (w i1 i2 i3 : Word) : JumpOperand :=
  let es := w.getLsbD 15
  let f := w.getLsbD 8
  let r := regField w 9
  if w.getLsbD 14 then .indirectIndexed es (w.extractLsb' 12 2) r
  else if w.getLsbD 13 then
    if w.getLsbD 12 then .indirectOffset es r i1 else .indirect es r
  else if w.getLsbD 12 then .register es r f
  else if w.getLsbD 11 || w.getLsbD 10 then .undefinedMode es (w.extractLsb' 9 3)
  else if w.getLsbD 9 then .absolute es i1
  else .immediate es i1 (if f then i3 ++ i2 else 0)

/-- A JMI word is far when bit 8 is set and the mode is not Register (45_jump_call.md R280, 30_encoding.md R146). -/
def isFarJump (w : Word) : Bool := w.getLsbD 8 && !(w.extractLsb' 12 3 == 1#3)

/-- Bits 12..8 of a SHF or BTI word (30_encoding.md R142, R151). -/
def decodeCount (w : Word) : CountOperand :=
  if w.getLsbD 12 then .register (w.getLsbD 11) (regField w 8) else .constant (w.extractLsb' 8 4)

/-- The ALU instruction of operation `op`, w[7:3] (30_encoding.md R134); operations from 18 on are no ALU words. -/
def decodeAlu (op : BitVec 5) (d : Reg) (m : Operand) : Option Instr :=
  match op.toNat with
  | 0 => some (.cmp d m) | 1 => some (.neg d m) | 2 => some (.add d m) | 3 => some (.sub d m)
  | 4 => some (.adc d m) | 5 => some (.sbc d m) | 6 => some (.mul d m) | 7 => some (.div d m)
  | 8 => some (.mli d m) | 9 => some (.dvi d m) | 10 => some (.mod d m) | 11 => some (.mdi d m)
  | 12 => some (.and d m) | 13 => some (.orr d m) | 14 => some (.eor d m) | 15 => some (.not d m)
  | 16 => some (.lod d m) | 17 => some (.sto d m) | _ => none

/-- The processor functions, w[15:8] (30_encoding.md R149). -/
def decodeProcessorFunction (i : BitVec 8) : Except Reject Instr :=
  match i.toNat with
  | 0x00 => .ok .rts | 0x01 => .ok .rtsF | 0x02 => .ok .rti | 0x03 => .ok .swi | 0x04 => .ok .slp
  | _ => .error .undefinedProcessorFunction

/-- The hardware queries, w[15:8] (30_encoding.md R144). -/
def decodeHwq (i : BitVec 8) : Except Reject Instr :=
  match i.toNat with
  | 0x00 => .ok .hwq00 | 0x01 => .ok .hwq01 | 0x02 => .ok .hwq02 | 0x03 => .ok .hwq03
  | 0x80 => .ok .hwq80 | 0x82 => .ok .hwq82 | 0x83 => .ok .hwq83
  | _ => .error .undefinedHwqIndex

/-- The low octets $90 to $BB, w[7:0] (30_encoding.md R133). -/
def decodeOther (w i1 i2 i3 : Word) : Except Reject Instr :=
  let h := highOctet w
  let d := regField w 13
  let n := decodeCount w
  let v := w.extractLsb' 8 5
  let m := decodeJumpOperand w i1 i2 i3
  match (lowOctet w).toNat with
  | 0x90 => .ok (.bcc h) | 0x91 => .ok (.bcs h) | 0x92 => .ok (.bne h) | 0x93 => .ok (.beq h)
  | 0x94 => .ok (.bpl h) | 0x95 => .ok (.bmi h) | 0x96 => .ok (.bvc h) | 0x97 => .ok (.bvs h)
  | 0x98 => .ok (.bug h) | 0x99 => .ok (.bsg h)
  | 0x9A => .ok (.undefined9A h) | 0x9B => .ok (.undefined9B h) | 0x9C => .ok (.undefined9C h)
  | 0x9D => .ok (.undefined9D h) | 0x9E => .ok (.undefined9E h)
  | 0x9F => .ok (.baw h)
  | 0xA0 => .ok (.asl d n) | 0xA1 => .ok (.lsl d n) | 0xA2 => .ok (.rol d n) | 0xA3 => .ok (.rnl d n)
  | 0xA4 => .ok (.asr d n) | 0xA5 => .ok (.lsr d n) | 0xA6 => .ok (.ror d n) | 0xA7 => .ok (.rnr d n)
  | 0xA8 => .ok (.btt d n) | 0xA9 => .ok (.btx d n) | 0xAA => .ok (.btc d n) | 0xAB => .ok (.bts d n)
  | 0xAC => .ok (.set false d v) | 0xAD => .ok (.set true d v)
  | 0xAE => .ok (.sef h) | 0xAF => .ok (.clf h)
  | 0xB0 => .ok (.pshGeneral h) | 0xB1 => .ok (.pshControl h)
  | 0xB2 => .ok (.popGeneral h) | 0xB3 => .ok (.popControl h)
  | 0xB4 => decodeProcessorFunction h
  | 0xB5 =>
    if w.getLsbD 8 then .ok (.ssg (w.getLsbD 15) (w.extractLsb' 12 3) (w.extractLsb' 9 3))
    else .ok (.lsg (w.getLsbD 15) (w.extractLsb' 12 3) (w.extractLsb' 9 3))
  | 0xB6 => .ok (.adi d v) | 0xB7 => .ok (.sbi d v)
  | 0xB8 => .ok (if isFarJump w then .jmpF m else .jmp m)
  | 0xB9 => .ok (if isFarJump w then .jsrF m else .jsr m)
  | 0xBA => decodeHwq h
  | 0xBB => .ok (.stx h)
  | _ => if w.getLsbD 6 then .ok (.undefinedC0toFF w) else .ok (.undefinedBCtoBF w)

/-- The instruction of opcode word `w` with immediate words `i1`, `i2`, `i3` (those it has not are ignored):
"All instructions are defined by the 8-bit low octet of the 16-bit program word" (30_encoding.md R132). -/
def decodeWords (w i1 i2 i3 : Word) : Except Reject Instr :=
  match decodeAlu (w.extractLsb' 3 5) (regField w 0) (decodeOperand w i1) with
  | some i => .ok i
  | none => decodeOther w i1 i2 i3

/-- How many immediate words follow the opcode word `w` (30_encoding.md R131). -/
def immediateCount (w : Word) : Nat :=
  let lo := (lowOctet w).toNat
  if lo ≤ 0x8F || lo == 0xB8 || lo == 0xB9 then
    if w.extractLsb' 9 6 == 0#6 then (if (lo == 0xB8 || lo == 0xB9) && w.getLsbD 8 then 3 else 1)
    else if w.extractLsb' 9 6 == 1#6 then 1
    else if w.extractLsb' 12 3 == 3#3 then 1
    else 0
  else 0

/-- The length in bytes of the instruction with opcode word `w` (30_encoding.md R131). -/
def instrLength (w : Word) : Nat := 2 * (immediateCount w + 1)

/-- Little-endian words of a byte list; an odd last byte is dropped (30_encoding.md R130, 20_memory.md R86). -/
def wordsOfBytes : List Byte → List Word
  | lo :: hi :: rest => wordOfBytes lo hi :: wordsOfBytes rest
  | _ => []

/-- Decode the instruction at the front of a byte list and give the rest of the list. -/
def decodeBytes (bs : List Byte) : Except Reject (Instr × List Byte) :=
  match wordsOfBytes bs with
  | [] => .error .truncated
  | w :: imms =>
    if imms.length < immediateCount w then .error .truncated
    else
      match decodeWords w (imms.getD 0 0) (imms.getD 1 0) (imms.getD 2 0) with
      | .error e => .error e
      | .ok i => .ok (i, bs.drop (instrLength w))

/-! ### Encoding -/

/-- Bits 15..8 of an ALU word (30_encoding.md R135). -/
def Operand.high : Operand → BitVec 8
  | .immediate es e _ => (BitVec.ofBool es ++ 0#6 ++ BitVec.ofBool e : BitVec 8)
  | .absolute es e _ => (BitVec.ofBool es ++ 1#6 ++ BitVec.ofBool e : BitVec 8)
  | .undefinedMode es x e => (BitVec.ofBool es ++ 1#5 ++ BitVec.ofBool x ++ BitVec.ofBool e : BitVec 8)
  | .control es p => (BitVec.ofBool es ++ 1#4 ++ p : BitVec 8)
  | .register es e r => (BitVec.ofBool es ++ 1#3 ++ regBits r ++ BitVec.ofBool e : BitVec 8)
  | .indirect es e r => (BitVec.ofBool es ++ 2#3 ++ regBits r ++ BitVec.ofBool e : BitVec 8)
  | .indirectOffset es e r _ => (BitVec.ofBool es ++ 3#3 ++ regBits r ++ BitVec.ofBool e : BitVec 8)
  | .indirectIndexed es e ii r => (BitVec.ofBool es ++ 1#1 ++ ii ++ regBits r ++ BitVec.ofBool e : BitVec 8)

/-- The immediate word of an ALU operand, where its mode has one (30_encoding.md R135). -/
def Operand.immediates : Operand → List Word
  | .immediate _ _ v => [v]
  | .absolute _ _ a => [a]
  | .indirectOffset _ _ _ off => [off]
  | .undefinedMode _ _ _ | .control _ _ | .register _ _ _ | .indirect _ _ _ | .indirectIndexed _ _ _ _ => []

/-- Bits 15..8 of a JMI word whose F bit is `far` (30_encoding.md R146). -/
def JumpOperand.high (far : Bool) : JumpOperand → BitVec 8
  | .immediate es _ _ => (BitVec.ofBool es ++ 0#6 ++ BitVec.ofBool far : BitVec 8)
  | .absolute es _ => (BitVec.ofBool es ++ 1#6 ++ BitVec.ofBool far : BitVec 8)
  | .undefinedMode es x => (BitVec.ofBool es ++ 0#3 ++ x ++ BitVec.ofBool far : BitVec 8)
  | .register es r f => (BitVec.ofBool es ++ 1#3 ++ regBits r ++ BitVec.ofBool f : BitVec 8)
  | .indirect es r => (BitVec.ofBool es ++ 2#3 ++ regBits r ++ BitVec.ofBool far : BitVec 8)
  | .indirectOffset es r _ => (BitVec.ofBool es ++ 3#3 ++ regBits r ++ BitVec.ofBool far : BitVec 8)
  | .indirectIndexed es ii r => (BitVec.ofBool es ++ 1#1 ++ ii ++ regBits r ++ BitVec.ofBool far : BitVec 8)

/-- The immediate words of a jump operand (30_encoding.md R147: the segment's lo word first). -/
def JumpOperand.immediates (far : Bool) : JumpOperand → List Word
  | .immediate _ t g => if far then [t, g.extractLsb' 0 16, g.extractLsb' 16 16] else [t]
  | .absolute _ a => [a]
  | .indirectOffset _ _ off => [off]
  | .undefinedMode _ _ | .register _ _ _ | .indirect _ _ | .indirectIndexed _ _ _ => []

/-- Bits 12..8 of a SHF or BTI word (30_encoding.md R142, R151). -/
def CountOperand.bits : CountOperand → BitVec 5
  | .constant s => (0#1 ++ s : BitVec 5)
  | .register x r => (1#1 ++ BitVec.ofBool x ++ regBits r : BitVec 5)

/-- An ALU word: `sAAA rrrE OOOO ORRR` (30_encoding.md R134). -/
def aluWord (op : BitVec 5) (d : Reg) (m : Operand) : Word := (m.high ++ op ++ regBits d : BitVec 16)

/-- A SHF or BTI word: `rrrR ssss OOOO OOOO`. -/
def countWord (low : BitVec 8) (d : Reg) (n : CountOperand) : Word := (regBits d ++ n.bits ++ low : BitVec 16)

/-- An IMM or SEI word: `RRRv vvvv OOOO OOOO`. -/
def valueWord (low : BitVec 8) (d : Reg) (v : BitVec 5) : Word := (regBits d ++ v ++ low : BitVec 16)

/-- The patterns whose high octet is one field. -/
def octetWord (low : BitVec 8) (h : BitVec 8) : Word := (h ++ low : BitVec 16)

/-- An MMU word: `u... rrro 1011 0101` (30_encoding.md R148). -/
def segmentWord (store u : Bool) (x r : BitVec 3) : Word :=
  (BitVec.ofBool u ++ x ++ r ++ BitVec.ofBool store ++ 0xB5#8 : BitVec 16)

/-- The opcode word of an instruction (30_encoding.md R133 to R154). -/
def opcode : Instr → Word
  | .cmp d m => aluWord 0 d m | .neg d m => aluWord 1 d m | .add d m => aluWord 2 d m
  | .sub d m => aluWord 3 d m | .adc d m => aluWord 4 d m | .sbc d m => aluWord 5 d m
  | .mul d m => aluWord 6 d m | .div d m => aluWord 7 d m | .mli d m => aluWord 8 d m
  | .dvi d m => aluWord 9 d m | .mod d m => aluWord 10 d m | .mdi d m => aluWord 11 d m
  | .and d m => aluWord 12 d m | .orr d m => aluWord 13 d m | .eor d m => aluWord 14 d m
  | .not d m => aluWord 15 d m | .lod d m => aluWord 16 d m | .sto d m => aluWord 17 d m
  | .bcc b => octetWord 0x90 b | .bcs b => octetWord 0x91 b | .bne b => octetWord 0x92 b
  | .beq b => octetWord 0x93 b | .bpl b => octetWord 0x94 b | .bmi b => octetWord 0x95 b
  | .bvc b => octetWord 0x96 b | .bvs b => octetWord 0x97 b | .bug b => octetWord 0x98 b
  | .bsg b => octetWord 0x99 b | .baw b => octetWord 0x9F b
  | .undefined9A h => octetWord 0x9A h | .undefined9B h => octetWord 0x9B h
  | .undefined9C h => octetWord 0x9C h | .undefined9D h => octetWord 0x9D h
  | .undefined9E h => octetWord 0x9E h
  | .asl d n => countWord 0xA0 d n | .lsl d n => countWord 0xA1 d n | .rol d n => countWord 0xA2 d n
  | .rnl d n => countWord 0xA3 d n | .asr d n => countWord 0xA4 d n | .lsr d n => countWord 0xA5 d n
  | .ror d n => countWord 0xA6 d n | .rnr d n => countWord 0xA7 d n
  | .btt d n => countWord 0xA8 d n | .btx d n => countWord 0xA9 d n
  | .btc d n => countWord 0xAA d n | .bts d n => countWord 0xAB d n
  | .set a d v => valueWord (if a then 0xAD else 0xAC) d v
  | .sef h => octetWord 0xAE h | .clf h => octetWord 0xAF h
  | .pshGeneral h => octetWord 0xB0 h | .pshControl h => octetWord 0xB1 h
  | .popGeneral h => octetWord 0xB2 h | .popControl h => octetWord 0xB3 h
  | .rts => 0x00B4 | .rtsF => 0x01B4 | .rti => 0x02B4 | .swi => 0x03B4 | .slp => 0x04B4
  | .lsg u x r => segmentWord false u x r | .ssg u x r => segmentWord true u x r
  | .adi d v => valueWord 0xB6 d v | .sbi d v => valueWord 0xB7 d v
  | .jmp m => octetWord 0xB8 (m.high false) | .jmpF m => octetWord 0xB8 (m.high true)
  | .jsr m => octetWord 0xB9 (m.high false) | .jsrF m => octetWord 0xB9 (m.high true)
  | .hwq00 => 0x00BA | .hwq01 => 0x01BA | .hwq02 => 0x02BA | .hwq03 => 0x03BA
  | .hwq80 => 0x80BA | .hwq82 => 0x82BA | .hwq83 => 0x83BA
  | .stx h => octetWord 0xBB h
  | .undefinedBCtoBF w => w | .undefinedC0toFF w => w

/-- The immediate words of an instruction (30_encoding.md R130). -/
def immediates : Instr → List Word
  | .cmp _ m | .neg _ m | .add _ m | .sub _ m | .adc _ m | .sbc _ m | .mul _ m | .div _ m | .mli _ m
  | .dvi _ m | .mod _ m | .mdi _ m | .and _ m | .orr _ m | .eor _ m | .not _ m | .lod _ m | .sto _ m => m.immediates
  | .jmp m | .jsr m => m.immediates false
  | .jmpF m | .jsrF m => m.immediates true
  | .bcc _ | .bcs _ | .bne _ | .beq _ | .bpl _ | .bmi _ | .bvc _ | .bvs _ | .bug _ | .bsg _ | .baw _
  | .undefined9A _ | .undefined9B _ | .undefined9C _ | .undefined9D _ | .undefined9E _
  | .asl _ _ | .lsl _ _ | .rol _ _ | .rnl _ _ | .asr _ _ | .lsr _ _ | .ror _ _ | .rnr _ _
  | .btt _ _ | .btx _ _ | .btc _ _ | .bts _ _ | .set _ _ _ | .sef _ | .clf _
  | .pshGeneral _ | .pshControl _ | .popGeneral _ | .popControl _
  | .rts | .rtsF | .rti | .swi | .slp | .lsg _ _ _ | .ssg _ _ _ | .adi _ _ | .sbi _ _
  | .hwq00 | .hwq01 | .hwq02 | .hwq03 | .hwq80 | .hwq82 | .hwq83 | .stx _
  | .undefinedBCtoBF _ | .undefinedC0toFF _ => []

/-- The program words of an instruction: the opcode word, then the immediate words (30_encoding.md R130). -/
def encode (i : Instr) : List Word := opcode i :: immediates i

/-- The length in bytes of an instruction (30_encoding.md R130). -/
def lengthOf (i : Instr) : Nat := 2 * (encode i).length

/-- Words as bytes, the low octet of each at the lower address (20_memory.md R86). -/
def bytesOfWords : List Word → List Byte
  | [] => []
  | w :: ws => lowByte w :: highByte w :: bytesOfWords ws

/-- The bytes of an instruction in memory. -/
def encodeBytes (i : Instr) : List Byte := bytesOfWords (encode i)

/-! ### The host's numbering -/

/-- The eight bytes of an instruction whose first `nbits` bits are `w` (bit 0 the least significant bit of the first
word, the low octet of each word first) and whose other bits are 0. -/
def tableBytes (nbits w : Nat) : List Byte :=
  (List.range 8).map fun k => BitVec.ofNat 8 ((w % 2 ^ nbits) / 2 ^ (8 * k))

/-- The instruction the decoder reads from an instruction whose bits are `w`, as spec/opcode_table.json numbers them. -/
def decodeTableWord (nbits w : Nat) : Option Instr :=
  match decodeBytes (tableBytes nbits w) with
  | .ok (i, _) => some i
  | .error _ => none

end Sys2Proof
end

