-- ==== Sys2Proof/Config.lean ====
section
/-! DEFINITION. What a concrete YCPU fixes (the platform parameters of 00_scope.md R10) and the free values the
rules leave to a draw (00_scope.md R22), each an opaque constant. The platform is data held in the machine's state,
so that every statement about a state is about every platform. -/

namespace Sys2Proof

/-- The four identification words HWQ $01 returns (47_processor_functions.md R304). -/
structure Identity where
  deviceType : Word
  manufacturer : Word
  deviceId : Word
  flags : Word
  deriving DecidableEq, Repr, Inhabited

/-- An occupied bus slot: its identification words and the size in bytes of its memory window (60_exceptions.md R371,
20_memory.md R101). What the window holds and how the device answers are free values, which depend on every call the
processor has made on a device (log 13). -/
structure Device where
  identity : Identity
  windowBytes : Nat
  deriving DecidableEq, Repr, Inhabited

/-- The platform parameters of 00_scope.md R10. -/
structure Platform where
  /-- ROM_BYTES. -/
  romBytes : Nat
  /-- RAM_BYTES; 0 when there is no RAM. -/
  ramBytes : Nat
  /-- CPU_HZ, which caps the Clock rate (47_processor_functions.md R309). -/
  cpuHz : Nat
  /-- DEVICES[1..15]: entry `k` is bus slot `k + 1`. -/
  devices : Vector (Option Device) 15
  /-- BUS_DEVICE_COUNT, what HWQ $00 returns (47_processor_functions.md R303). -/
  busDeviceCount : Word
  /-- SELF_DESCRIPTION, what HWQ $01 returns for slot 0 (47_processor_functions.md R304). -/
  selfDescription : Identity
  deriving DecidableEq, Repr

/-- DESIGN CHOICE (log 10; unsafe: a claim about `State.reset` is about this platform only). The platform of the spec's own test
vectors (95_test_vectors.md section 0): $10000 bytes of ROM and of RAM, no device; CPU_HZ is the one section 2.10 assumes. -/
def Platform.testBench : Platform where
  romBytes := 0x10000
  ramBytes := 0x10000
  cpuHz := 102400
  devices := Vector.replicate 15 none
  busDeviceCount := 0
  selfDescription := ⟨0, 0, 0, 0⟩

/-- A call the processor makes on a device (60_exceptions.md R371): `read(addr)` and `write(addr, byte)` of its memory window, and
`message(r1, r2)` of HWQ $02. -/
inductive DeviceCall where
  | read (slot : BitVec 4) (address : Nat)
  | write (slot : BitVec 4) (address : Nat) (value : Byte)
  | message (slot : BitVec 4) (r1 r2 : Word)
  deriving DecidableEq, Repr, Inhabited

/-- How a device answers HWQ $02 (47_processor_functions.md R305). -/
inductive ReplyStatus where
  /-- MSG_ACK ($0001). -/
  | ack
  /-- MSG_WAIT ($0002). -/
  | wait
  /-- MSG_ERROR ($FFFF). -/
  | error
  deriving DecidableEq, Repr, Inhabited

/-- A device's whole reaction to HWQ $02 (47_processor_functions.md R305): the status it puts in R0, the words it
may return in R1 and R2, the bytes it stores to physical RAM, and whether it asserts its IRQ line afterwards. -/
structure DeviceReply where
  status : ReplyStatus
  r1 : Word
  r2 : Word
  stores : List Host.Cell
  irq : Bool
  deriving DecidableEq, Repr, Inhabited

/-- Free value (log 11): `draw(mul8_high)`, what MUL.8 and MLI.8 leave in R0 (40_alu.md R194). -/
opaque Config.mul8High : Nat → Word

/-- Free value (log 11): `draw(mul8_flags)`, the N, Z and C that MUL.8 and MLI.8 leave, N in bit 2, Z in bit 1, C in
bit 0 (40_alu.md R194). -/
opaque Config.mul8Flags : Nat → BitVec 3

/-- Free value (log 12): `draw(errcode)`, the error code where no instruction word exists (60_exceptions.md R348). -/
opaque Config.errcode : Nat → Word

/-- Free value (log 13): the byte a device's memory window returns for (the calls made before, the RAM it finds, slot, device
address, draw) (20_memory.md R107, 60_exceptions.md R371). -/
opaque Config.deviceByte : List DeviceCall → List Host.Cell → BitVec 4 → Nat → Nat → Byte

/-- Free value (log 14): a device's reaction to a message, for (the calls made before, the RAM it finds, slot, R1, R2, draw)
(47_processor_functions.md R305, 60_exceptions.md R371). -/
opaque Config.deviceReply : List DeviceCall → List Host.Cell → BitVec 4 → Word → Word → Nat → DeviceReply

end Sys2Proof
end

