-- ==== Sys2Proof/Machine/State.lean ====
section
/-! DEFINITION. The state of one YCPU with its platform and environment, the reasons a step stops, the outcomes of an
access inside an instruction, and the state right after reset. -/

namespace Sys2Proof.Machine

/-- A byte memory as address and byte pairs: addresses strictly rising, no entry equal to the byte an unlisted address
reads as (`Memory.wf`, Machine/Memory.lean). -/
abbrev Memory := List Host.Cell

/-- The nine 32-bit segment registers (10_state.md R51); `isr` is IS. -/
structure SegRegs where
  css : SegReg
  dss : SegReg
  ess : SegReg
  sss : SegReg
  csu : SegReg
  dsu : SegReg
  esu : SegReg
  ssu : SegReg
  isr : SegReg
  deriving DecidableEq, Repr

/-- The names of the segment registers. -/
inductive SegName where
  | css | dss | ess | sss | csu | dsu | esu | ssu | isr
  deriving DecidableEq, Repr

/-- The five segment kinds an access names (00_scope.md R17, 20_memory.md R82). -/
inductive SegKind where
  | code | ds | es | ss | is
  deriving DecidableEq, Repr

/-- The time of day the RTC keeps, in the widths HWQ $80 returns (47_processor_functions.md R307). -/
structure RtcTime where
  year : BitVec 8
  month : BitVec 4
  day : BitVec 5
  hour : BitVec 5
  minute : BitVec 6
  second : BitVec 6
  tick : Word
  deriving DecidableEq, Repr

/-- The real-time clock (10_state.md R58): the Clock interrupt rate, 0 when disabled, and the time of day. -/
structure Rtc where
  rate : Word
  time : RtcTime
  deriving DecidableEq, Repr

/-- What the environment asserts at the processor (10_state.md R57, R60): the RESET event, a Clock tick, the set of slots
whose device asserts its interrupt request (bit k is slot k), the bus-changed event and the DEBUG event. An event stays until it
is taken (60_exceptions.md R358); a request stays as long as its device asserts it (R355). -/
structure Lines where
  reset : Bool
  clockTick : Bool
  irq : BitVec 16
  busChanged : Bool
  debug : Bool
  deriving DecidableEq, Repr

/-- What the environment can do at an instruction boundary (60_exceptions.md R376). What a device stores between two access cycles is
`State.deviceStores`. -/
inductive EnvEvent where
  /-- The RESET line is pulled high. -/
  | resetLine
  /-- The RTC's interrupt generator ticks (R367). -/
  | clockTick
  /-- From now on exactly these slots assert their interrupt request (R355). -/
  | requests (irq : BitVec 16)
  /-- A device stores a byte in physical RAM (R370, 20_memory.md R108). -/
  | store (address : Nat) (value : Byte)
  /-- The RTC shows this time from now on (R365). -/
  | time (t : RtcTime)
  /-- The devices on the bus change, and BusRefresh is raised (R343). -/
  | busChange (devices : Vector (Option Device) 15) (count : Word)
  /-- The DEBUG line is pulled high (R344). -/
  | debugLine
  deriving DecidableEq, Repr

/-- The state. Every field but `script`, `deviceStores` and `draws` is the spec's (INVENTORY.md, State). -/
structure State where
  /-- R0 to R7 (10_state.md R30). -/
  regs : Vector Word 8
  /-- FL: N Z C V in bits 15 to 12 (10_state.md R41). -/
  fl : Word
  /-- PC (10_state.md R35, R36). -/
  pc : Word
  /-- PS: S M H I Q U V W in bits 15 to 8 (10_state.md R44). -/
  ps : Word
  /-- The supervisor stack pointer (10_state.md R48). -/
  ssp : Word
  /-- The user stack pointer (10_state.md R48). -/
  usp : Word
  /-- The nine segment registers (10_state.md R51). -/
  segs : SegRegs
  /-- Set by SLP, cleared by the next interrupt entry (10_state.md R59). -/
  halted : Bool
  /-- The real-time clock (10_state.md R58). -/
  rtc : Rtc
  /-- RAM by physical address (10_state.md R55, 20_memory.md R80). -/
  ram : Memory
  /-- The on-board ROM (10_state.md R55, 20_memory.md R80). -/
  rom : Memory
  /-- The platform (00_scope.md R10). No instruction changes it; a bus change does (60_exceptions.md R343). -/
  platform : Platform
  /-- What the environment asserts now (10_state.md R57, R60). -/
  lines : Lines
  /-- The MODEL's own field (log 15): what the environment does at the coming boundaries, one list of events a boundary. -/
  script : List (List EnvEvent)
  /-- The MODEL's own field (log 16): what devices store in RAM before each of the processor's coming access cycles, one list of
  (physical address, byte) a cycle (20_memory.md R106, R108, R110; 60_exceptions.md R370, R371 spontaneous step). -/
  deviceStores : List (List Host.Cell)
  /-- What the devices have been told (60_exceptions.md R371, device state): every call made on them, the latest first. Their
  answers are free functions of it (log 13). -/
  calls : List DeviceCall
  /-- The MODEL's own field (log 11): how many draws have been made; a free value is an opaque function of it. -/
  draws : Nat
  deriving DecidableEq, Repr

/-- Reasons a step stops with a fault: NONE. Every fault of the YCPU is an interrupt whose entry the spec describes
(60_exceptions.md R333, R345), so the machine takes it and goes on; an access to an address where nothing is connected reads 0
(20_memory.md R101). -/
inductive Fault where
  deriving DecidableEq, Repr

/-- Reasons a step gives no next state. -/
inductive Refusal where
  /-- Raised by an arm of `exec` whose instruction has no meaning yet; no arm is refused, so nothing raises it. Safe. -/
  | notModelled (mnemonic : String)
  /-- Raised by the fetch at an odd PC: "The model gives an instruction fetch at an odd `pc` no meaning (refused, the
  conservative reading)" (20_memory.md R88, log 2). Safe: no claim about the hardware can be proved from it. -/
  | oddProgramCounter
  deriving DecidableEq, Repr

/-- The four flags as Booleans. -/
structure Flags where
  n : Bool
  z : Bool
  c : Bool
  v : Bool
  deriving DecidableEq, Repr

/-- What an instruction raises, before the opcode word that caused it is attached (00_scope.md R20). -/
inductive Trap where
  | divZero
  | stack
  /-- The segment fault's type code V and W (60_exceptions.md R339). -/
  | segment (v w : Bool)
  | unprivileged
  | undefined
  deriving DecidableEq, Repr

/-- The interrupts taken through the sequence of 60_exceptions.md R345 (all but Reset), with what each records. `code` is the
error code a fault pushes (R348). -/
inductive Interrupt where
  | clock
  | divZeroFault (code : Word)
  | doubleFault (code : Word)
  | stackFault (code : Word)
  | segFault (v w : Bool) (code : Word)
  | unprivFault (code : Word)
  | undefFault (code : Word)
  | hwi (slot : BitVec 4)
  | busRefresh
  | debugQuery
  | swi
  deriving DecidableEq, Repr

/-- The asynchronous interrupts (60_exceptions.md R330). -/
inductive Async where
  | reset
  | clock
  | hwi (slot : BitVec 4)
  | busRefresh
  | debugQuery
  deriving DecidableEq, Repr

/-- Where a logical address leads (20_memory.md R94). -/
inductive Place where
  | ram (address : Nat)
  | rom (address : Nat)
  | device (slot : BitVec 4) (address : Nat)
  deriving DecidableEq, Repr

/-- Who makes an access: a bounds failure is a StackFault for PSH and POP and a SegFault for all others
(20_memory.md R104). -/
inductive Purpose where
  | pshPop
  | other
  deriving DecidableEq, Repr

/-- Which check of 20_memory.md R98 an access fails. -/
inductive Violation where
  | notPresent
  | beyondSize
  | writeProtected
  deriving DecidableEq, Repr

/-- The outcome of a part of an instruction: it is done with a value, or it raises; both leave a state (a raise keeps what
00_scope.md R18 and 46_stack.md R290 say stays). -/
inductive Res (α : Type) where
  | done (a : α) (s : State)
  | trap (t : Trap) (s : State)
  deriving DecidableEq, Repr

/-- What a fetch gives: an instruction to execute, the state after an interrupt the fetch itself raised, or a
refusal. -/
inductive Fetched where
  | instruction (i : Instr) (s : State)
  | interrupted (s : State)
  | refused (r : Refusal)
  deriving DecidableEq, Repr

/-- The machine right after reset (10_state.md R63, R64; 70_reset_and_hazards.md R391): PS is $8000, the Clock rate is 0,
the processor is not halted, and PC holds the word at ROM offset 0, which is $0000 while nothing is listed in ROM (log 9). Where
the spec gives no power-on value: R0 to R7 (log 3), FL (log 4), SSP and USP (log 5), the segment registers (log 6), the RTC time
(log 7) and RAM (log 8) are zero, DESIGN CHOICE, unsafe. -/
def State.reset : State where
  regs := Vector.replicate 8 0
  fl := 0
  pc := 0
  ps := 0x8000
  ssp := 0
  usp := 0
  segs := ⟨0, 0, 0, 0, 0, 0, 0, 0, 0⟩
  halted := false
  rtc := ⟨0, ⟨0, 0, 0, 0, 0, 0, 0⟩⟩
  ram := []
  rom := []
  platform := Platform.testBench
  lines := ⟨false, false, 0, false, false⟩
  script := []
  deviceStores := []
  calls := []
  draws := 0

end Sys2Proof.Machine
end

