-- ==== Sys2Proof/Machine/Memory.lean ====
section
/-! DEFINITION. A byte memory in canonical form: reading, writing, and the form itself. -/

namespace Sys2Proof.Machine

/-- What an address that is not listed reads as. ROM: nothing is programmed there, "all bits clear" (20_memory.md R101). RAM: DESIGN
CHOICE (log 8; unsafe), since its power-on contents are unknown (10_state.md R64). -/
def unlistedByte : Byte := 0

/-- The byte at an address. -/
def Memory.read : Memory → Nat → Byte
  | [], _ => unlistedByte
  | (a, b) :: m, x => if a = x then b else Memory.read m x

/-- Store a byte, keeping the canonical form: storing what an unlisted address reads as removes the entry. -/
def Memory.write : Memory → Nat → Byte → Memory
  | [], x, b => if b = unlistedByte then [] else [(x, b)]
  | (a, c) :: m, x, b =>
    if x < a then (if b = unlistedByte then (a, c) :: m else (x, b) :: (a, c) :: m)
    else if x = a then (if b = unlistedByte then m else (x, b) :: m)
    else (a, c) :: Memory.write m x b

/-- Every address of the memory is above `low`, strictly rising, and no entry equals the unlisted byte. -/
def Memory.wfFrom : Nat → Memory → Bool
  | _, [] => true
  | low, (a, b) :: m => decide (low ≤ a) && !(b == unlistedByte) && Memory.wfFrom (a + 1) m

/-- The canonical form. -/
def Memory.wf (m : Memory) : Bool := Memory.wfFrom 0 m

end Sys2Proof.Machine
end

