-- ==== Sys2Proof/Machine/Segments.lean ====
section
/-! DEFINITION. Bits of the status registers, segment selection, translation, checks, and the byte and word accesses
built from them (20_memory.md R84 to R104). -/

namespace Sys2Proof.Machine

/-! ### Bits -/

/-- `w` with bit `i` set to `b`. -/
def withBit {n : Nat} (w : BitVec n) (i : Nat) (b : Bool) : BitVec n :=
  if b then w ||| BitVec.twoPow n i else w &&& ~~~ BitVec.twoPow n i

/-- PS.S, supervisor mode (10_state.md R44). -/
def State.supervisor (s : State) : Bool := s.ps.getLsbD 15

/-- PS.M, the MMU is on. -/
def State.mmuOn (s : State) : Bool := s.ps.getLsbD 14

/-- PS.H, hardware interrupts enabled. -/
def State.hwiEnabled (s : State) : Bool := s.ps.getLsbD 13

/-- PS.I, interrupt mode. -/
def State.interruptMode (s : State) : Bool := s.ps.getLsbD 12

/-- PS.Q, hardware interrupts blocked. -/
def State.hwiBlocked (s : State) : Bool := s.ps.getLsbD 11

/-! ### Result sequencing -/

/-- Go on with the value and the state of a part that is done; a raise ends the instruction. -/
def Res.andThen {α β : Type} (r : Res α) (k : α → State → Res β) : Res β :=
  match r with
  | .done a s => k a s
  | .trap t s => .trap t s

/-! ### Free values -/

/-- One draw has been made (log 11). -/
def State.afterDraw (s : State) : State := { s with draws := s.draws + 1 }

/-- A call has been made on a device, which took a draw (log 13). -/
def State.afterCall (s : State) (c : DeviceCall) : State := { s with calls := c :: s.calls, draws := s.draws + 1 }

/-! ### Segment registers -/

/-- The value of a segment register. -/
def SegRegs.get (g : SegRegs) : SegName → SegReg
  | .css => g.css | .dss => g.dss | .ess => g.ess | .sss => g.sss
  | .csu => g.csu | .dsu => g.dsu | .esu => g.esu | .ssu => g.ssu | .isr => g.isr

/-- Write a segment register. -/
def SegRegs.set (g : SegRegs) (n : SegName) (v : SegReg) : SegRegs :=
  match n with
  | .css => { g with css := v } | .dss => { g with dss := v } | .ess => { g with ess := v } | .sss => { g with sss := v }
  | .csu => { g with csu := v } | .dsu => { g with dsu := v } | .esu => { g with esu := v } | .ssu => { g with ssu := v }
  | .isr => { g with isr := v }

/-- The state with a segment register written, all 32 bits. -/
def State.setSeg (s : State) (n : SegName) (v : SegReg) : State := { s with segs := s.segs.set n v }

/-- The segment register that governs an access while the MMU is on, from the current PS (20_memory.md R90 to R92). -/
def State.segNameOf (s : State) (k : SegKind) : SegName :=
  match k with
  | .code => if s.interruptMode then .isr else if s.supervisor then .css else .csu
  | .ds => if s.supervisor then .dss else .dsu
  | .es => if s.supervisor then .ess else .esu
  | .ss => if s.supervisor then .sss else .ssu
  | .is => .isr

/-- The fixed values used while the MMU is off: code and the interrupt segment in ROM, the others in RAM, base 0, size $10000
(20_memory.md R93). -/
def defaultSegment : SegKind → SegReg
  | .code => 0x8FF00000
  | .ds => 0x0FF00000
  | .es => 0x0FF00000
  | .ss => 0x0FF00000
  | .is => 0x8FF00000

/-- The value that governs an access of a kind (20_memory.md R90). -/
def State.segValue (s : State) (k : SegKind) : SegReg :=
  if s.mmuOn then s.segs.get (s.segNameOf k) else defaultSegment k

/-- The size in bytes of a segment: `(s << 8) + 256` (20_memory.md R95). -/
def segmentSize (r : SegReg) : Nat := (r.extractLsb' 20 8).toNat * 256 + 256

/-- Translation of a logical offset through a segment value; sums do not wrap (20_memory.md R94 to R97, R103). -/
def translate (r : SegReg) (off : Word) : Place :=
  if r.getLsbD 31 then
    let a := (r.extractLsb' 0 16).toNat * 256 + off.toNat
    let slot := r.extractLsb' 16 4
    if slot = 0 then .rom a else .device slot a
  else .ram ((r.extractLsb' 0 20).toNat * 256 + off.toNat)

/-- The checks of an access, in the order of 20_memory.md R98: not present, beyond the size, write-protected. -/
def checkAccess (r : SegReg) (off : Word) (write : Bool) : Option Violation :=
  if r.getLsbD 29 then some .notPresent
  else if segmentSize r ≤ off.toNat then some .beyondSize
  else if write && r.getLsbD 30 then some .writeProtected
  else none

/-- What a failed check raises (20_memory.md R98, R104). -/
def Violation.trap (p : Purpose) : Violation → Trap
  | .notPresent => .segment false false
  | .beyondSize =>
    match p with
    | .pshPop => .stack
    | .other => .segment true false
  | .writeProtected => .segment false true

/-! ### Physical accesses -/

/-- RAM below RAM_BYTES and 2^28 is connected (20_memory.md R101, R103). -/
def State.ramConnected (s : State) (a : Nat) : Bool := decide (a < s.platform.ramBytes) && decide (a < 2 ^ 28)

/-- ROM below ROM_BYTES and 2^24 is connected (20_memory.md R101, R103). -/
def State.romConnected (s : State) (a : Nat) : Bool := decide (a < s.platform.romBytes) && decide (a < 2 ^ 24)

/-- The device in a bus slot; slot 0 is the YCPU itself (60_exceptions.md R368, R369). -/
def State.deviceAt (s : State) (slot : BitVec 4) : Option Device :=
  if slot = 0 then none else (s.platform.devices[slot.toNat - 1]?).join

/-- The address lies in the window of the device in the slot (20_memory.md R101, R103). -/
def State.windowConnected (s : State) (slot : BitVec 4) (a : Nat) : Bool :=
  match s.deviceAt slot with
  | none => false
  | some d => decide (a < d.windowBytes) && decide (a < 2 ^ 24)

/-- The byte of RAM at a physical address; where nothing is connected, 0 (20_memory.md R101). -/
def State.ramByte (s : State) (a : Nat) : Byte := if s.ramConnected a then Memory.read s.ram a else 0

/-- The byte of ROM at an offset; where nothing is connected, 0 (20_memory.md R101). -/
def State.romByte (s : State) (a : Nat) : Byte := if s.romConnected a then Memory.read s.rom a else 0

/-- Store a byte of RAM; where nothing is connected the write is discarded (20_memory.md R101). -/
def State.storeRam (s : State) (a : Nat) (b : Byte) : State :=
  if s.ramConnected a then { s with ram := Memory.write s.ram a b } else s

/-- Stores of a device to physical RAM, the first one first (60_exceptions.md R370). -/
def State.storeAll (s : State) : List Host.Cell → State
  | [] => s
  | (a, b) :: cs => State.storeAll (s.storeRam a b) cs

/-- The devices' turn before an access cycle of the processor: what they store to RAM meanwhile (20_memory.md R106, R108, R110,
60_exceptions.md R370, log 16). -/
def State.deviceTurn (s : State) : State :=
  match s.deviceStores with
  | [] => s
  | cs :: rest => State.storeAll { s with deviceStores := rest } cs

/-- The devices' turn where a byte access begins an access cycle of its own; none where it belongs to the cycle under way. -/
def State.turnIf (s : State) (begins : Bool) : State := if begins then s.deviceTurn else s

/-- The second byte of a 16-bit access is an access cycle of its own where the access is unaligned (20_memory.md R106). -/
def unaligned (off : Word) : Bool := off.getLsbD 0

/-- Read a place. A connected device window gives a free value, and the access is a call on the device (20_memory.md R107, log 13);
an unconnected address or an empty slot gives 0 (R101). -/
def readPlace (p : Place) (s : State) : Res Byte :=
  match p with
  | .ram a => .done (s.ramByte a) s
  | .rom a => .done (s.romByte a) s
  | .device slot a =>
    if s.windowConnected slot a then .done (Config.deviceByte s.calls s.ram slot a s.draws) (s.afterCall (.read slot a))
    else .done 0 s

/-- Write a place. A write to ROM "will fail silently" (20_memory.md R102); a write where nothing is connected is discarded (R101);
a write to a device window is a call that gives the device the byte (R107, log 13). -/
def writePlace (p : Place) (b : Byte) (s : State) : State :=
  match p with
  | .ram a => s.storeRam a b
  | .rom _ => s
  | .device slot a => if s.windowConnected slot a then s.afterCall (.write slot a b) else s

/-! ### Logical accesses -/

/-- The read of one byte: check, then translate and read. `begins` says whether it begins an access cycle, before which devices have
their turn (20_memory.md R106). -/
def readByteIn (begins : Bool) (k : SegKind) (p : Purpose) (off : Word) (s : State) : Res Byte :=
  match checkAccess (s.segValue k) off false with
  | some v => .trap (v.trap p) s
  | none => readPlace (translate (s.segValue k) off) (s.turnIf begins)

/-- `MemRead(SEG:off, 1)` (00_scope.md R17): one access cycle. -/
def readByte (k : SegKind) (p : Purpose) (off : Word) (s : State) : Res Byte := readByteIn true k p off s

/-- `MemRead(SEG:off, 2)`: two byte accesses, the lower address first, each checked on its own (20_memory.md R84, R100); one access
cycle where it is aligned, else two (R106). -/
def readWord (k : SegKind) (p : Purpose) (off : Word) (s : State) : Res Word :=
  (readByte k p off s).andThen fun lo s1 =>
  (readByteIn (unaligned off) k p (off + 1) s1).andThen fun hi s2 =>
  .done (wordOfBytes lo hi) s2

/-- The accessed bit of the governing register is set by every write that passed its checks, while the MMU is on
(20_memory.md R99). -/
def State.markAccessed (s : State) (k : SegKind) : State :=
  if s.mmuOn then s.setSeg (s.segNameOf k) (withBit (s.segs.get (s.segNameOf k)) 28 true) else s

/-- `MemWrite(SEG:off, 1, b)` (00_scope.md R17): one access cycle (20_memory.md R106). -/
def writeByte (k : SegKind) (p : Purpose) (off : Word) (b : Byte) (s : State) : Res Unit :=
  match checkAccess (s.segValue k) off true with
  | some v => .trap (v.trap p) s
  | none => .done () (writePlace (translate (s.segValue k) off) b (s.markAccessed k).deviceTurn)

/-- `MemWrite(SEG:off, 2, v)`: both bytes are checked, lower address first, before either is written (20_memory.md R84, R100); one
access cycle where it is aligned, else two (R106). -/
def writeWord (k : SegKind) (p : Purpose) (off : Word) (v : Word) (s : State) : Res Unit :=
  match checkAccess (s.segValue k) off true with
  | some x => .trap (x.trap p) s
  | none =>
    match checkAccess (s.segValue k) (off + 1) true with
    | some x => .trap (x.trap p) s
    | none =>
      .done () (writePlace (translate (s.segValue k) (off + 1)) (highByte v)
        ((writePlace (translate (s.segValue k) off) (lowByte v) (s.markAccessed k).deviceTurn).turnIf (unaligned off)))

end Sys2Proof.Machine
end

