-- ==== Sys2Proof/Machine/Ops.lean ====
section
/-! DEFINITION. The named operations over registers and the stack, taking an interrupt (one shared operation for every
fault, software and asynchronous interrupt), returning from one, the reset sequence, and the environment's events. -/

namespace Sys2Proof.Machine

/-! ### Registers -/

/-- Read a general register (10_state.md R30). -/
def State.reg (s : State) (r : Reg) : Word := s.regs[r]

/-- Write a general register; none is hard-wired (10_state.md R31). -/
def State.setReg (s : State) (r : Reg) (v : Word) : State := { s with regs := s.regs.set r v }

/-- Set PC (00_scope.md R16). -/
def State.setPc (s : State) (v : Word) : State := { s with pc := v }

/-- Read FL: bits 11..0 read as 0 (10_state.md R43). -/
def State.readFl (s : State) : Word := s.fl &&& 0xF000

/-- Write FL whole: bits 11..0 are discarded (10_state.md R43). -/
def State.writeFl (s : State) (v : Word) : State := { s with fl := v &&& 0xF000 }

/-- Read PS: bits 7..0 read as 0 (10_state.md R46). -/
def State.readPs (s : State) : Word := s.ps &&& 0xFF00

/-- Write PS whole: bits 7..0 are discarded (10_state.md R46). -/
def State.writePs (s : State) (v : Word) : State := { s with ps := v &&& 0xFF00 }

/-- The four flags of FL (10_state.md R41). -/
def State.flags (s : State) : Flags :=
  ⟨s.fl.getLsbD 15, s.fl.getLsbD 14, s.fl.getLsbD 13, s.fl.getLsbD 12⟩

/-- The four flags as bits 15..12 of FL, N on the left (10_state.md R41). -/
def Flags.nibble (f : Flags) : BitVec 4 :=
  (BitVec.ofBool f.n ++ BitVec.ofBool f.z ++ BitVec.ofBool f.c ++ BitVec.ofBool f.v : BitVec 4)

/-- Write the four flags of FL. -/
def State.setFlags (s : State) (f : Flags) : State :=
  { s with fl := (f.nibble ++ s.fl.extractLsb' 0 12 : BitVec 16) }

/-- Write USP (10_state.md R48). -/
def State.setUsp (s : State) (v : Word) : State := { s with usp := v }

/-- The current stack pointer: SSP in supervisor mode, USP in user mode (00_scope.md R15). -/
def State.sp (s : State) : Word := if s.supervisor then s.ssp else s.usp

/-- Write the current stack pointer (00_scope.md R15). -/
def State.setSp (s : State) (v : Word) : State := if s.supervisor then { s with ssp := v } else { s with usp := v }

/-! ### Stack -/

/-- `Push16` (00_scope.md R18): SP moves first and keeps the decremented value when the write raises. -/
def pushWord (p : Purpose) (v : Word) (s : State) : Res Unit :=
  let s1 := s.setSp (s.sp - 2)
  writeWord .ss p s1.sp v s1

/-- `Pop16` (00_scope.md R18): SP is not moved when the read raises. -/
def popWord (p : Purpose) (s : State) : Res Word :=
  (readWord .ss p s.sp s).andThen fun v s1 => .done v (s1.setSp (s1.sp + 2))

/-- Push a list of words, the first one first; what was pushed before a raise stays pushed (46_stack.md R290). -/
def pushWords (p : Purpose) : List Word → State → Res Unit
  | [], s => .done () s
  | v :: vs, s => (pushWord p v s).andThen fun _ s1 => pushWords p vs s1

/-! ### Taking an interrupt -/

/-- The index of an interrupt (60_exceptions.md R332). -/
def Interrupt.index : Interrupt → Word
  | .clock => 0x1
  | .divZeroFault _ => 0x2
  | .doubleFault _ => 0x3
  | .stackFault _ => 0x4
  | .segFault _ _ _ => 0x5
  | .unprivFault _ => 0x6
  | .undefFault _ => 0x7
  | .hwi _ => 0xC
  | .busRefresh => 0xD
  | .debugQuery => 0xE
  | .swi => 0xF

/-- The error code a fault pushes; the other interrupts push none (60_exceptions.md R333, R345 step 8). -/
def Interrupt.errorCode : Interrupt → Option Word
  | .divZeroFault c | .doubleFault c | .stackFault c | .segFault _ _ c | .unprivFault c | .undefFault c => some c
  | .clock | .hwi _ | .busRefresh | .debugQuery | .swi => none

/-- PS after steps 2 and 3 of the sequence, from the PS `tmp` before it (60_exceptions.md R345, R351): a fault writes U (1 when it
was taken from user mode; a DoubleFault always 0), then S and I are set. -/
def Interrupt.entryPs (iv : Interrupt) (tmp : Word) : Word :=
  let u :=
    match iv with
    | .doubleFault _ => withBit tmp 10 false
    | .divZeroFault _ | .stackFault _ | .segFault _ _ _ | .unprivFault _ | .undefFault _ =>
      withBit tmp 10 (!tmp.getLsbD 15)
    | .clock | .hwi _ | .busRefresh | .debugQuery | .swi => tmp
  withBit (withBit u 15 true) 12 true

/-- Step 6 of the sequence: a hardware interrupt sets Q and pushes the index of the requesting slot (60_exceptions.md R345, R349). -/
def Interrupt.pushSlot (iv : Interrupt) (s : State) : Res Unit :=
  match iv with
  | .hwi slot => pushWord .other (slot.setWidth 16) { s with ps := withBit s.ps 11 true }
  | .clock | .divZeroFault _ | .doubleFault _ | .stackFault _ | .segFault _ _ _ | .unprivFault _ | .undefFault _
  | .busRefresh | .debugQuery | .swi => .done () s

/-- Step 7 of the sequence: a SegFault writes its type code to V and W (60_exceptions.md R345, R339). -/
def Interrupt.recordType (iv : Interrupt) (s : State) : State :=
  match iv with
  | .segFault v w _ => { s with ps := withBit (withBit s.ps 9 v) 8 w }
  | .clock | .divZeroFault _ | .doubleFault _ | .stackFault _ | .unprivFault _ | .undefFault _ | .hwi _
  | .busRefresh | .debugQuery | .swi => s

/-- Step 8 of the sequence: a fault pushes its error code (60_exceptions.md R345). -/
def Interrupt.pushCode (iv : Interrupt) (s : State) : Res Unit :=
  match iv.errorCode with
  | some c => pushWord .other c s
  | none => .done () s

/-- One run of the interrupt sequence (60_exceptions.md R345, R346, R347): save PS, set the mode, push PS and the saved PC on the
supervisor stack, push what the interrupt records, and load PC from the vector table. It raises where one of its accesses
fails. -/
def enterOnce (iv : Interrupt) (savedPc : Word) (s : State) : Res Unit :=
  let tmp := s.readPs
  let s3 : State := { s with ps := iv.entryPs tmp, halted := false }
  (pushWord .other tmp s3).andThen fun _ s4 =>
  (pushWord .other savedPc s4).andThen fun _ s5 =>
  (iv.pushSlot s5).andThen fun _ s6 =>
  (iv.pushCode (iv.recordType s6)).andThen fun _ s8 =>
  (readWord .is .other (2 * iv.index) s8).andThen fun v s9 =>
  .done () (s9.setPc v)

/-- The reset sequence (70_reset_and_hazards.md R391, R392): the Clock rate, PS, the halted state and PC; nothing is pushed and every
other register keeps its contents. PS is written first, so the vector is the word at ROM offset 0. -/
def performReset (s : State) : State :=
  { s with
    rtc := { s.rtc with rate := 0 }
    ps := 0x8000
    halted := false
    pc := wordOfBytes (s.romByte 0) (s.romByte 1) }

/-- TAKING AN INTERRUPT (60_exceptions.md R345, R351, R352): the sequence; if one of its accesses faults, the sequence for
DoubleFault from the state where it stopped, with the same saved PC and a free error code (log 12); if that faults too, the
TripleFault state, which is Reset. DoubleFault is raised nowhere else, so `iv` is always another interrupt. -/
def takeInterrupt (iv : Interrupt) (savedPc : Word) (s : State) : State :=
  match enterOnce iv savedPc s with
  | .done _ t => t
  | .trap _ s1 =>
    match enterOnce (.doubleFault (Config.errcode s1.draws)) savedPc s1.afterDraw with
    | .done _ t => t
    | .trap _ s2 => performReset s2

/-- RETURNING FROM AN INTERRUPT (47_processor_functions.md R314, 60_exceptions.md R353): pop PC, then PS, both from the stack of
the mode in force; PS is written after both. -/
def returnFromInterrupt (s : State) : Res Unit :=
  (popWord .other s).andThen fun t s1 =>
  (popWord .other s1).andThen fun p s2 =>
  .done () ((s2.setPc t).writePs p)

/-- The interrupt a raise inside an instruction becomes, `w` being the opcode word (60_exceptions.md R348). -/
def Trap.interrupt (w : Word) : Trap → Interrupt
  | .divZero => .divZeroFault w
  | .stack => .stackFault w
  | .segment v x => .segFault v x w
  | .unprivileged => .unprivFault w
  | .undefined => .undefFault w

/-- The end of an instruction whose opcode word is `w` and address `pc`: the state it leaves, or the interrupt it raised, which saves
the address of the instruction itself (60_exceptions.md R347). -/
def perform (w pc : Word) (r : Res Unit) : Host.Outcome State Fault Refusal :=
  match r with
  | .done _ t => .next t
  | .trap x t => .next (takeInterrupt (x.interrupt w) pc t)

/-! ### The environment and asynchronous interrupts -/

/-- One environment event (60_exceptions.md R376). A Clock tick while the rate is 0 is no event: the interrupt is raised "never
while f = 0" (R367). -/
def State.applyEvent (s : State) : EnvEvent → State
  | .resetLine => { s with lines := { s.lines with reset := true } }
  | .clockTick => if s.rtc.rate = 0 then s else { s with lines := { s.lines with clockTick := true } }
  | .requests irq => { s with lines := { s.lines with irq := irq } }
  | .store a b => s.storeRam a b
  | .time t => { s with rtc := { s.rtc with time := t } }
  | .busChange ds n =>
    { s with platform := { s.platform with devices := ds, busDeviceCount := n }, lines := { s.lines with busChanged := true } }
  | .debugLine => { s with lines := { s.lines with debug := true } }

/-- A list of events, the first one first. -/
def State.applyEvents (s : State) : List EnvEvent → State
  | [] => s
  | e :: es => State.applyEvents (s.applyEvent e) es

/-- The environment's turn at an instruction boundary: the events of the next entry of the script (60_exceptions.md R358, R376). -/
def State.environmentTurn (s : State) : State :=
  match s.script with
  | [] => s
  | es :: rest => State.applyEvents { s with script := rest } es

/-- The lowest slot from 1 to 15 whose device asserts its interrupt request (60_exceptions.md R355, R356). Slot 0 never does (R369),
and where a slot is empty there is no device to assert one (R371). -/
def State.lowestRequest (s : State) : Option (BitVec 4) :=
  [1, 2, 3, 4, 5, 6, 7, 8, 9, 10, 11, 12, 13, 14, 15].find? fun k : BitVec 4 =>
    (s.deviceAt k).isSome && s.lines.irq.getLsbD k.toNat

/-- The asynchronous interrupt taken at a boundary, if one is pending and enabled (60_exceptions.md R355, R357, R359): Reset first,
then the lowest index. Clock needs a rate that is not 0; HWI needs H set and Q clear; the others are not gated. -/
def State.pendingAsync (s : State) : Option Async :=
  if s.lines.reset then some .reset
  else if s.lines.clockTick && !(s.rtc.rate == 0) then some .clock
  else
    match (if s.hwiEnabled && !s.hwiBlocked then s.lowestRequest else none) with
    | some slot => some (.hwi slot)
    | none =>
      if s.lines.busChanged then some .busRefresh
      else if s.lines.debug then some .debugQuery
      else none

/-- Take an asynchronous interrupt: the event is no longer pending (a device's request stays, R355), and Reset, or the interrupt
sequence with the address of the next instruction, runs (60_exceptions.md R334, R347). -/
def takeAsync (a : Async) (s : State) : State :=
  match a with
  | .reset => performReset { s with lines := { s.lines with reset := false } }
  | .clock => takeInterrupt .clock s.pc { s with lines := { s.lines with clockTick := false } }
  | .hwi slot => takeInterrupt (.hwi slot) s.pc s
  | .busRefresh => takeInterrupt .busRefresh s.pc { s with lines := { s.lines with busChanged := false } }
  | .debugQuery => takeInterrupt .debugQuery s.pc { s with lines := { s.lines with debug := false } }

end Sys2Proof.Machine
end

