-- ==== Sys2Proof/Machine/Operands.lean ====
section
/-! DEFINITION. The operand forms: the second operand M of the ALU pattern, counts and bit indexes, jump targets, and the
conditions of the branches. -/

namespace Sys2Proof.Machine

/-! ### The second operand of the ALU pattern -/

/-- The value M: 8 bits wide in 8-bit mode, else 16 (40_alu.md R172). -/
inductive OpValue where
  | byte (b : Byte)
  | word (v : Word)
  deriving DecidableEq, Repr

/-- The length in bytes of an instruction with this operand, as an amount added to PC (30_encoding.md R135). -/
def operandLength (m : Operand) : Word :=
  match m with
  | .immediate _ _ _ | .absolute _ _ _ | .indirectOffset _ _ _ _ => 4
  | .undefinedMode _ _ _ | .control _ _ | .register _ _ _ | .indirect _ _ _ | .indirectIndexed _ _ _ _ => 2

/-- The segment kind the `s` bit selects (30_encoding.md R138). -/
def dataSegment (es : Bool) : SegKind := if es then .es else .ds

/-- The index register R4 to R7 the `ii` field names (30_encoding.md R139). -/
def indexRegister (ii : BitVec 2) : Reg := ⟨4 + ii.toNat, by have := ii.isLt; omega⟩

/-- The segment kind, effective address and width (8-bit or not) of a memory mode (30_encoding.md R136); sums wrap at 2^16
(20_memory.md R100). -/
def operandAddress (m : Operand) (s : State) : Option (SegKind × Word × Bool) :=
  match m with
  | .absolute es e a => some (dataSegment es, a, e)
  | .indirect es e r => some (dataSegment es, s.reg r, e)
  | .indirectOffset es e r off => some (dataSegment es, s.reg r + off, e)
  | .indirectIndexed es e ii r => some (dataSegment es, s.reg r + s.reg (indexRegister ii), e)
  | .immediate _ _ _ | .undefinedMode _ _ _ | .control _ _ | .register _ _ _ => none

/-- A value of the width the E bit selects, from a 16-bit source (40_alu.md R172). -/
def sized (e : Bool) (v : Word) : OpValue := if e then .byte (lowByte v) else .word v

/-- A control register as M (40_alu.md R174); PC reads as `next` (10_state.md R38); $03 to $05 are undefined. -/
def readControl (p : BitVec 3) (next : Word) (s : State) : Option Word :=
  match p.toNat with
  | 0 => some s.readFl
  | 1 => some next
  | 2 => some s.readPs
  | 6 => some s.usp
  | 7 => some s.sp
  | _ => none

/-- Read memory in the width of the mode (40_alu.md R171 step 4, R172). -/
def readSized (k : SegKind) (a : Word) (e : Bool) (s : State) : Res OpValue :=
  if e then (readByte k .other a s).andThen fun b s1 => .done (.byte b) s1
  else (readWord k .other a s).andThen fun v s1 => .done (.word v) s1

/-- The value M of an operand (40_alu.md R171, R174; 30_encoding.md R136). An undefined mode or a reserved control register
raises UndefFault (30_encoding.md R156). -/
def readOperand (m : Operand) (s : State) : Res OpValue :=
  match m with
  | .immediate _ e v => .done (sized e v) s
  | .register _ e r => .done (sized e (s.reg r)) s
  | .undefinedMode _ _ _ => .trap .undefined s
  | .control _ p =>
    match readControl p (s.pc + 2) s with
    | some v => .done (.word v) s
    | none => .trap .undefined s
  | .absolute es e a => readSized (dataSegment es) a e s
  | .indirect es e r => readSized (dataSegment es) (s.reg r) e s
  | .indirectOffset es e r off => readSized (dataSegment es) (s.reg r + off) e s
  | .indirectIndexed es e ii r => readSized (dataSegment es) (s.reg r + s.reg (indexRegister ii)) e s

/-- STO to a control register (40_alu.md R193). The result says whether PC was written. PS in user mode raises UnprivFault; $03
to $05 raise UndefFault in either mode. -/
def writeControl (p : BitVec 3) (v : Word) (next : Word) (s : State) : Res Unit :=
  match p.toNat with
  | 0 => .done () ((s.writeFl v).setPc next)
  | 1 => .done () (s.setPc v)
  | 2 => if s.supervisor then .done () ((s.writePs v).setPc next) else .trap .unprivileged s
  | 6 => .done () ((s.setUsp v).setPc next)
  | 7 => .done () ((s.setSp v).setPc next)
  | _ => .trap .undefined s

/-- Store the value of a register where the operand says (40_alu.md R192, R193), and advance PC. -/
def storeOperand (m : Operand) (v : Word) (s : State) : Res Unit :=
  match m with
  | .immediate _ _ _ | .register _ _ _ | .undefinedMode _ _ _ => .trap .undefined s
  | .control _ p => writeControl p v (s.pc + 2) s
  | .absolute _ _ _ | .indirect _ _ _ | .indirectOffset _ _ _ _ | .indirectIndexed _ _ _ _ =>
    match operandAddress m s with
    | none => .trap .undefined s
    | some (k, a, e) =>
      (if e then writeByte k .other a (lowByte v) s else writeWord k .other a v s).andThen fun _ s1 =>
      .done () (s1.setPc (s.pc + operandLength m))

/-! ### Counts and bit indexes -/

/-- The count of a shift (41_shift.md R220): constant field plus 1, or the low four bits of a register. -/
def shiftCount (n : CountOperand) (s : State) : Nat :=
  match n with
  | .constant c => c.toNat + 1
  | .register _ r => (s.reg r &&& 0x000F).toNat

/-- The index of the bit tested (42_bit_test.md R240). -/
def bitIndex (n : CountOperand) (s : State) : Nat :=
  match n with
  | .constant c => c.toNat
  | .register _ r => (s.reg r &&& 0x000F).toNat

/-! ### Jump operands -/

/-- The length in bytes of a JMP or JSR with this operand (30_encoding.md R131, R146). -/
def jumpLength (far : Bool) (m : JumpOperand) : Word :=
  match m with
  | .immediate _ _ _ => if far then 8 else 4
  | .absolute _ _ | .indirectOffset _ _ _ => 4
  | .undefinedMode _ _ | .register _ _ _ | .indirect _ _ | .indirectIndexed _ _ _ => 2

/-- The segment kind and effective address of a jump's memory modes (45_jump_call.md R280). -/
def jumpAddress (m : JumpOperand) (s : State) : Option (SegKind × Word) :=
  match m with
  | .absolute es a => some (dataSegment es, a)
  | .indirect es r => some (dataSegment es, s.reg r)
  | .indirectOffset es r off => some (dataSegment es, s.reg r + off)
  | .indirectIndexed es ii r => some (dataSegment es, s.reg r + s.reg (indexRegister ii))
  | .immediate _ _ _ | .undefinedMode _ _ | .register _ _ _ => none

/-- The target T of a near jump (45_jump_call.md R280); an undefined pattern raises UndefFault. -/
def nearTarget (m : JumpOperand) (s : State) : Res Word :=
  match m with
  | .immediate _ t _ => .done t s
  | .register _ r _ => .done (s.reg r) s
  | .undefinedMode _ _ => .trap .undefined s
  | .absolute _ _ | .indirect _ _ | .indirectOffset _ _ _ | .indirectIndexed _ _ _ =>
    match jumpAddress m s with
    | none => .trap .undefined s
    | some (k, a) => readWord k .other a s

/-- The target T and the segment value G of a far jump (45_jump_call.md R280, 30_encoding.md R147), in the order UndefFault for a
pattern not in the table, UnprivFault in user mode, then the reads. Register mode has no far form. -/
def farTarget (m : JumpOperand) (s : State) : Res (Word × SegReg) :=
  match m with
  | .register _ _ _ | .undefinedMode _ _ => .trap .undefined s
  | .immediate _ t g => if s.supervisor then .done (t, g) s else .trap .unprivileged s
  | .absolute _ _ | .indirect _ _ | .indirectOffset _ _ _ | .indirectIndexed _ _ _ =>
    if s.supervisor then
      match jumpAddress m s with
      | none => .trap .undefined s
      | some (k, a) =>
        (readWord k .other a s).andThen fun t s1 =>
        (readWord k .other (a + 2) s1).andThen fun lo s2 =>
        (readWord k .other (a + 4) s2).andThen fun hi s3 =>
        .done (t, (hi ++ lo : BitVec 32)) s3
    else .trap .unprivileged s

/-! ### Segment register selection -/

/-- The register LSG and SSG select (47_processor_functions.md R311); `none` is an undefined selection. -/
def selectSegment (u : Bool) (r : BitVec 3) : Option SegName :=
  match r.toNat with
  | 0 => some (if u then .csu else .css)
  | 1 => some (if u then .dsu else .dss)
  | 2 => some (if u then .esu else .ess)
  | 3 => some (if u then .ssu else .sss)
  | 4 => if u then none else some .isr
  | _ => none

/-! ### Register lists -/

/-- The registers a general mask selects, in the order R0 to R7 (46_stack.md R291). -/
def maskedRegisters (mask : BitVec 8) : List Reg := (List.finRange 8).filter fun r => mask.getLsbD r.val

end Sys2Proof.Machine
end

