-- ==== Sys2Proof/Machine/Flags.lean ====
section
/-! DEFINITION. The results and flags of the arithmetic, logic, shift and bit-test instructions, as functions of the
operands (40_alu.md R173 to R191, 41_shift.md R221 to R229, 42_bit_test.md R240 to R244). -/

namespace Sys2Proof.Machine

/-- A result of `n` bits with the flags after it. -/
structure AluOut (n : Nat) where
  value : BitVec n
  flags : Flags
  deriving DecidableEq, Repr

/-- An ALU operation at width `n`, of the first operand, M and the old flags. -/
abbrev AluOp : Type := (n : Nat) → BitVec n → BitVec n → Flags → AluOut n

/-- `NZ(r)` (40_alu.md R173): N is the top bit, Z says the result is 0; C and V are kept. -/
def Flags.withNZ {n : Nat} (f : Flags) (r : BitVec n) : Flags := { f with n := r.msb, z := r == 0 }

/-- The carry of `addc` (40_alu.md R173). -/
def carryOut {n : Nat} (a b : BitVec n) (cin : Bool) : Bool := decide (2 ^ n ≤ a.toNat + b.toNat + cin.toNat)

/-- The sum of `addc` (40_alu.md R173). -/
def sumWithCarry {n : Nat} (a b : BitVec n) (cin : Bool) : BitVec n := BitVec.ofNat n (a.toNat + b.toNat + cin.toNat)

/-- The overflow of `addc` (40_alu.md R173): equal signs in, another sign out. -/
def signOverflow {n : Nat} (a b r : BitVec n) : Bool := (a.msb == b.msb) && (r.msb != a.msb)

/-- `addc` with `NZ` (40_alu.md R173). -/
def addc {n : Nat} (a b : BitVec n) (cin : Bool) : AluOut n :=
  let r := sumWithCarry a b cin
  ⟨r, ⟨r.msb, r == 0, carryOut a b cin, signOverflow a b r⟩⟩

/-- ADD (40_alu.md R177). -/
def addOp : AluOp := fun _ a m _ => addc a m false

/-- SUB (40_alu.md R178): C is "no borrow". -/
def subOp : AluOp := fun _ a m _ => addc a (~~~m) true

/-- ADC (40_alu.md R179). -/
def adcOp : AluOp := fun _ a m f => addc a m f.c

/-- SBC (40_alu.md R180). -/
def sbcOp : AluOp := fun _ a m f => addc a (~~~m) f.c

/-- NEG (40_alu.md R176): the first operand is not used, C is kept. -/
def negOp : AluOp := fun n _ m f =>
  let r := BitVec.ofNat n (2 ^ n - m.toNat)
  ⟨r, { f.withNZ r with v := decide (m.toNat = 2 ^ (n - 1)) }⟩

/-- AND (40_alu.md R187). -/
def andOp : AluOp := fun _ a m f => ⟨a &&& m, f.withNZ (a &&& m)⟩

/-- ORR (40_alu.md R188). -/
def orrOp : AluOp := fun _ a m f => ⟨a ||| m, f.withNZ (a ||| m)⟩

/-- EOR (40_alu.md R189). -/
def eorOp : AluOp := fun _ a m f => ⟨a ^^^ m, f.withNZ (a ^^^ m)⟩

/-- NOT (40_alu.md R190): the first operand is not used. -/
def notOp : AluOp := fun _ _ m f => ⟨~~~m, f.withNZ (~~~m)⟩

/-- LOD (40_alu.md R191). -/
def lodOp : AluOp := fun _ _ m f => ⟨m, f.withNZ m⟩

/-- DIV, for M not 0 (40_alu.md R182): N is always cleared, C and V are kept. -/
def divOp : AluOp := fun n a m f =>
  let r := BitVec.ofNat n (a.toNat / m.toNat)
  ⟨r, { f with n := false, z := r == 0 }⟩

/-- DVI, for M not 0 (40_alu.md R184): truncating; the quotient that does not fit wraps to the most negative value and sets V. -/
def dviOp : AluOp := fun n a m f =>
  let r := BitVec.ofInt n (a.toInt.tdiv m.toInt)
  ⟨r, { f.withNZ r with v := decide (a.toNat = 2 ^ (n - 1)) && decide (m.toNat = 2 ^ n - 1) }⟩

/-- MOD, for M not 0 (40_alu.md R185). -/
def modOp : AluOp := fun n a m f =>
  let r := BitVec.ofNat n (a.toNat % m.toNat)
  ⟨r, f.withNZ r⟩

/-- MDI, for M not 0 (40_alu.md R186): the remainder of the truncating division, with the sign of the dividend. -/
def mdiOp : AluOp := fun n a m f =>
  let r := BitVec.ofInt n (a.toInt - m.toInt * a.toInt.tdiv m.toInt)
  ⟨r, f.withNZ r⟩

/-- The flags of CMP (40_alu.md R175): N is "Rx >= M (signed)", V is kept. -/
def cmpFlags {n : Nat} (a m : BitVec n) (f : Flags) : Flags :=
  { f with n := decide (m.toInt ≤ a.toInt), z := a == m, c := decide (m.toNat ≤ a.toNat) }

/-- The 32-bit product of MUL (unsigned, 40_alu.md R181) and MLI (signed, R183). -/
def product32 (signed : Bool) (a m : Word) : BitVec 32 :=
  if signed then BitVec.ofInt 32 (a.toInt * m.toInt) else BitVec.ofNat 32 (a.toNat * m.toNat)

/-- The flags of MUL and MLI, from the 32-bit product (40_alu.md R181, R183); V is kept. -/
def productFlags (signed : Bool) (p : BitVec 32) (f : Flags) : Flags :=
  { f with n := signed && p.msb, z := p == 0, c := !(p.extractLsb' 16 16 == 0#16) }

/-- The low byte of the product of two bytes, the same for both signs (40_alu.md R194). -/
def product8Low (signed : Bool) (a m : Byte) : Byte :=
  if signed then BitVec.ofInt 8 (a.toInt * m.toInt) else BitVec.ofNat 8 (a.toNat * m.toNat)

/-- The flags MUL.8 and MLI.8 leave: N, Z and C are free, V is kept (40_alu.md R194, log 11). -/
def freeProductFlags (x : BitVec 3) (f : Flags) : Flags :=
  { f with n := x.getLsbD 2, z := x.getLsbD 1, c := x.getLsbD 0 }

/-! ### Shifts (always 16 bits wide, 41_shift.md) -/

/-- A shift: the old value, the count and the old flags to the new value and flags. -/
abbrev ShiftOp : Type := Word → Nat → Flags → AluOut 16

/-- ASL and LSL (41_shift.md R222, R224). -/
def shiftLeft : ShiftOp := fun v n f =>
  let t := v.toNat * 2 ^ n
  let r := BitVec.ofNat 16 t
  ⟨r, { f.withNZ r with c := decide (2 ^ 16 ≤ t) }⟩

/-- Some of the `n` low bits of `v` is 1 (41_shift.md R223, R225); none for `n = 0`. -/
def anyShiftedOut (v : Word) (n : Nat) : Bool := !(v.toNat % 2 ^ n == 0)

/-- ASR (41_shift.md R223). -/
def shiftRightArithmetic : ShiftOp := fun v n f =>
  let r := v.sshiftRight n
  ⟨r, { f.withNZ r with c := anyShiftedOut v n, v := !(v == 0xFFFF) && (r == 0xFFFF) }⟩

/-- LSR (41_shift.md R225). -/
def shiftRightLogical : ShiftOp := fun v n f =>
  let r := v >>> n
  ⟨r, { f.withNZ r with c := anyShiftedOut v n }⟩

/-- RNL (41_shift.md R226). -/
def rotateLeftPlain : ShiftOp := fun v n f =>
  let r := v.rotateLeft (n % 16)
  ⟨r, f.withNZ r⟩

/-- RNR (41_shift.md R227). -/
def rotateRightPlain : ShiftOp := fun v n f =>
  let r := v.rotateRight (n % 16)
  ⟨r, f.withNZ r⟩

/-- The 17-bit ring of the carry and the register, the carry on the left (41_shift.md R228). -/
def carryRing (c : Bool) (v : Word) : BitVec 17 := (BitVec.ofBool c ++ v : BitVec 17)

/-- ROL (41_shift.md R228); a count of 0 leaves the ring, and so C, as it was. -/
def rotateLeftCarry : ShiftOp := fun v n f =>
  let t := (carryRing f.c v).rotateLeft n
  let r := t.extractLsb' 0 16
  ⟨r, { f.withNZ r with c := t.getLsbD 16 }⟩

/-- ROR (41_shift.md R229). -/
def rotateRightCarry : ShiftOp := fun v n f =>
  let t := (carryRing f.c v).rotateRight n
  let r := t.extractLsb' 0 16
  ⟨r, { f.withNZ r with c := t.getLsbD 16 }⟩

/-! ### Bit tests (42_bit_test.md) -/

/-- A bit test: the old value, the index and the old flags to the new value and flags. -/
abbrev BitOp : Type := Word → Nat → Flags → AluOut 16

/-- BTT (42_bit_test.md R241). -/
def testBit : BitOp := fun v b f => ⟨v, { f with z := !v.getLsbD b }⟩

/-- BTX (42_bit_test.md R242). -/
def testChangeBit : BitOp := fun v b f =>
  ⟨withBit v b (!v.getLsbD b), { f with z := !v.getLsbD b, c := !v.getLsbD b }⟩

/-- BTC (42_bit_test.md R243). -/
def testClearBit : BitOp := fun v b f =>
  ⟨withBit v b false, { f with z := !v.getLsbD b, c := v.getLsbD b }⟩

/-- BTS (42_bit_test.md R244). -/
def testSetBit : BitOp := fun v b f =>
  ⟨withBit v b true, { f with z := !v.getLsbD b, c := !v.getLsbD b }⟩

/-- The constant of SET (44_increment_set.md R274). -/
def setConstant (a : Bool) (v : BitVec 5) : Word :=
  if a then
    if v.toNat ≤ 0x0A then BitVec.ofNat 16 (2 ^ (5 + v.toNat)) else BitVec.ofNat 16 (0xFFE0 + v.toNat)
  else BitVec.ofNat 16 v.toNat

/-- The operand of ADI and SBI, 1 to 32 (44_increment_set.md R270). -/
def incrementValue (v : BitVec 5) : Word := BitVec.ofNat 16 (v.toNat + 1)

end Sys2Proof.Machine
end

