-- ==== Sys2Proof/Machine/Alu.lean ====
section
/-! DEFINITION. The 18 instructions of the ALU pattern (40_alu.md). The shared templates first, then one definition an instruction. -/

namespace Sys2Proof.Machine

/-- The template of the ALU instructions that read M (40_alu.md R170, R171): M is read, `k` computes and writes, PC advances. -/
def aluRun (w : Word) (m : Operand) (s : State) (k : OpValue → State → Res Unit) : Host.Outcome State Fault Refusal :=
  perform w s.pc ((readOperand m s).andThen fun v s1 =>
    (k v s1).andThen fun _ s2 => .done () (s2.setPc (s.pc + operandLength m)))

/-- Compute at the width of M and write the zero-extended result and the flags (40_alu.md R170, R172). -/
def writeResult (f : AluOp) (d : Reg) (v : OpValue) (s : State) : Res Unit :=
  match v with
  | .byte b =>
    let o := f 8 (lowByte (s.reg d)) b s.flags
    .done () ((s.setReg d (o.value.setWidth 16)).setFlags o.flags)
  | .word x =>
    let o := f 16 (s.reg d) x s.flags
    .done () ((s.setReg d o.value).setFlags o.flags)

/-- M is zero in its width (40_alu.md R182, 60_exceptions.md R336). -/
def OpValue.isZero : OpValue → Bool
  | .byte b => b == 0
  | .word x => x == 0

/-- A division: DivZeroFault where M is 0, with register and flags unchanged (60_exceptions.md R336). -/
def divideResult (f : AluOp) (d : Reg) (v : OpValue) (s : State) : Res Unit :=
  if v.isZero then .trap .divZero s else writeResult f d v s

/-- A comparison writes flags only (40_alu.md R175). -/
def compareResult (d : Reg) (v : OpValue) (s : State) : Res Unit :=
  match v with
  | .byte b => .done () (s.setFlags (cmpFlags (lowByte (s.reg d)) b s.flags))
  | .word x => .done () (s.setFlags (cmpFlags (s.reg d) x s.flags))

/-- A multiplication. 16 bits (40_alu.md R181, R183): R0 takes the high half first, then Rx the low half. 8 bits (R194): Rx takes the
low byte of the product; R0, where it is not Rx, and N, Z, C are free values (log 11). -/
def multiplyResult (signed : Bool) (d : Reg) (v : OpValue) (s : State) : Res Unit :=
  match v with
  | .word x =>
    let p := product32 signed (s.reg d) x
    .done () (((s.setReg 0 (p.extractLsb' 16 16)).setReg d (p.extractLsb' 0 16)).setFlags (productFlags signed p s.flags))
  | .byte b =>
    let s1 := s.setReg d ((product8Low signed (lowByte (s.reg d)) b).setWidth 16)
    let s2 := if d = 0 then s1 else s1.setReg 0 (Config.mul8High s.draws)
    .done () ((s2.setFlags (freeProductFlags (Config.mul8Flags s.draws) s.flags)).afterDraw)

/-- CMP (40_alu.md R175). -/
def execCmp (d : Reg) (m : Operand) (s : State) : Host.Outcome State Fault Refusal :=
  aluRun (opcode (.cmp d m)) m s (compareResult d)

/-- NEG (40_alu.md R176). -/
def execNeg (d : Reg) (m : Operand) (s : State) : Host.Outcome State Fault Refusal :=
  aluRun (opcode (.neg d m)) m s (writeResult negOp d)

/-- ADD (40_alu.md R177). -/
def execAdd (d : Reg) (m : Operand) (s : State) : Host.Outcome State Fault Refusal :=
  aluRun (opcode (.add d m)) m s (writeResult addOp d)

/-- SUB (40_alu.md R178). -/
def execSub (d : Reg) (m : Operand) (s : State) : Host.Outcome State Fault Refusal :=
  aluRun (opcode (.sub d m)) m s (writeResult subOp d)

/-- ADC (40_alu.md R179). -/
def execAdc (d : Reg) (m : Operand) (s : State) : Host.Outcome State Fault Refusal :=
  aluRun (opcode (.adc d m)) m s (writeResult adcOp d)

/-- SBC (40_alu.md R180). -/
def execSbc (d : Reg) (m : Operand) (s : State) : Host.Outcome State Fault Refusal :=
  aluRun (opcode (.sbc d m)) m s (writeResult sbcOp d)

/-- MUL (40_alu.md R181, R194). -/
def execMul (d : Reg) (m : Operand) (s : State) : Host.Outcome State Fault Refusal :=
  aluRun (opcode (.mul d m)) m s (multiplyResult false d)

/-- DIV (40_alu.md R182). -/
def execDiv (d : Reg) (m : Operand) (s : State) : Host.Outcome State Fault Refusal :=
  aluRun (opcode (.div d m)) m s (divideResult divOp d)

/-- MLI (40_alu.md R183, R194). -/
def execMli (d : Reg) (m : Operand) (s : State) : Host.Outcome State Fault Refusal :=
  aluRun (opcode (.mli d m)) m s (multiplyResult true d)

/-- DVI (40_alu.md R184). -/
def execDvi (d : Reg) (m : Operand) (s : State) : Host.Outcome State Fault Refusal :=
  aluRun (opcode (.dvi d m)) m s (divideResult dviOp d)

/-- MOD (40_alu.md R185). -/
def execMod (d : Reg) (m : Operand) (s : State) : Host.Outcome State Fault Refusal :=
  aluRun (opcode (.mod d m)) m s (divideResult modOp d)

/-- MDI (40_alu.md R186). -/
def execMdi (d : Reg) (m : Operand) (s : State) : Host.Outcome State Fault Refusal :=
  aluRun (opcode (.mdi d m)) m s (divideResult mdiOp d)

/-- AND (40_alu.md R187). -/
def execAnd (d : Reg) (m : Operand) (s : State) : Host.Outcome State Fault Refusal :=
  aluRun (opcode (.and d m)) m s (writeResult andOp d)

/-- ORR (40_alu.md R188). -/
def execOrr (d : Reg) (m : Operand) (s : State) : Host.Outcome State Fault Refusal :=
  aluRun (opcode (.orr d m)) m s (writeResult orrOp d)

/-- EOR (40_alu.md R189). -/
def execEor (d : Reg) (m : Operand) (s : State) : Host.Outcome State Fault Refusal :=
  aluRun (opcode (.eor d m)) m s (writeResult eorOp d)

/-- NOT (40_alu.md R190). -/
def execNot (d : Reg) (m : Operand) (s : State) : Host.Outcome State Fault Refusal :=
  aluRun (opcode (.not d m)) m s (writeResult notOp d)

/-- LOD (40_alu.md R191). -/
def execLod (d : Reg) (m : Operand) (s : State) : Host.Outcome State Fault Refusal :=
  aluRun (opcode (.lod d m)) m s (writeResult lodOp d)

/-- STO (40_alu.md R192, R193). -/
def execSto (d : Reg) (m : Operand) (s : State) : Host.Outcome State Fault Refusal :=
  perform (opcode (.sto d m)) s.pc (storeOperand m (s.reg d) s)

end Sys2Proof.Machine
end

