-- ==== Sys2Proof/Machine/BitTest.lean ====
section
/-! DEFINITION. The bit-test instructions (42_bit_test.md). -/

namespace Sys2Proof.Machine

/-- The common part of the bit tests that write the register (42_bit_test.md R240). -/
def bitRun (f : BitOp) (d : Reg) (n : CountOperand) (s : State) : Host.Outcome State Fault Refusal :=
  let o := f (s.reg d) (bitIndex n s) s.flags
  .next (((s.setReg d o.value).setFlags o.flags).setPc (s.pc + 2))

/-- BTT (42_bit_test.md R241): the register is not written. -/
def execBtt (d : Reg) (n : CountOperand) (s : State) : Host.Outcome State Fault Refusal :=
  .next ((s.setFlags (testBit (s.reg d) (bitIndex n s) s.flags).flags).setPc (s.pc + 2))

/-- BTX (42_bit_test.md R242). -/
def execBtx (d : Reg) (n : CountOperand) (s : State) : Host.Outcome State Fault Refusal :=
  bitRun testChangeBit d n s

/-- BTC (42_bit_test.md R243). -/
def execBtc (d : Reg) (n : CountOperand) (s : State) : Host.Outcome State Fault Refusal :=
  bitRun testClearBit d n s

/-- BTS (42_bit_test.md R244). -/
def execBts (d : Reg) (n : CountOperand) (s : State) : Host.Outcome State Fault Refusal :=
  bitRun testSetBit d n s

end Sys2Proof.Machine
end

