-- ==== Sys2Proof/Machine/Branch.lean ====
section
/-! DEFINITION. The branch instructions (43_branch.md). -/

namespace Sys2Proof.Machine

/-- The target of a taken branch: the branch's own address plus twice the signed offset (43_branch.md R250). -/
def branchTarget (pc : Word) (b : BitVec 8) : Word := pc + 2 * b.signExtend 16

/-- The common rule of the branches (43_branch.md R250). -/
def branchRun (cond : Bool) (b : BitVec 8) (s : State) : Host.Outcome State Fault Refusal :=
  .next (s.setPc (if cond then branchTarget s.pc b else s.pc + 2))

/-- BCC (43_branch.md R251): C = 0. -/
def execBcc (b : BitVec 8) (s : State) : Host.Outcome State Fault Refusal :=
  branchRun (!s.flags.c) b s

/-- BCS (43_branch.md R252): C = 1. -/
def execBcs (b : BitVec 8) (s : State) : Host.Outcome State Fault Refusal :=
  branchRun s.flags.c b s

/-- BNE (43_branch.md R253): Z = 0. -/
def execBne (b : BitVec 8) (s : State) : Host.Outcome State Fault Refusal :=
  branchRun (!s.flags.z) b s

/-- BEQ (43_branch.md R254): Z = 1. -/
def execBeq (b : BitVec 8) (s : State) : Host.Outcome State Fault Refusal :=
  branchRun s.flags.z b s

/-- BPL (43_branch.md R255): N = 0. -/
def execBpl (b : BitVec 8) (s : State) : Host.Outcome State Fault Refusal :=
  branchRun (!s.flags.n) b s

/-- BMI (43_branch.md R256): N = 1. -/
def execBmi (b : BitVec 8) (s : State) : Host.Outcome State Fault Refusal :=
  branchRun s.flags.n b s

/-- BVC (43_branch.md R257): V = 0. -/
def execBvc (b : BitVec 8) (s : State) : Host.Outcome State Fault Refusal :=
  branchRun (!s.flags.v) b s

/-- BVS (43_branch.md R258): V = 1. -/
def execBvs (b : BitVec 8) (s : State) : Host.Outcome State Fault Refusal :=
  branchRun s.flags.v b s

/-- BUG (43_branch.md R259): Z = 0 and C = 1. -/
def execBug (b : BitVec 8) (s : State) : Host.Outcome State Fault Refusal :=
  branchRun (!s.flags.z && s.flags.c) b s

/-- BSG (43_branch.md R260): N = 1 and Z = 0. -/
def execBsg (b : BitVec 8) (s : State) : Host.Outcome State Fault Refusal :=
  branchRun (s.flags.n && !s.flags.z) b s

/-- BAW (43_branch.md R261): always. -/
def execBaw (b : BitVec 8) (s : State) : Host.Outcome State Fault Refusal :=
  branchRun true b s

end Sys2Proof.Machine
end

