-- ==== Sys2Proof/Machine/Increment.lean ====
section
/-! DEFINITION. ADI, SBI and SET (44_increment_set.md). -/

namespace Sys2Proof.Machine

/-- Write a 16-bit result and all four flags, and advance PC (44_increment_set.md R270). -/
def incrementRun (o : AluOut 16) (d : Reg) (s : State) : Host.Outcome State Fault Refusal :=
  .next (((s.setReg d o.value).setFlags o.flags).setPc (s.pc + 2))

/-- ADI (44_increment_set.md R271). -/
def execAdi (d : Reg) (v : BitVec 5) (s : State) : Host.Outcome State Fault Refusal :=
  incrementRun (addc (s.reg d) (incrementValue v) false) d s

/-- SBI (44_increment_set.md R272). -/
def execSbi (d : Reg) (v : BitVec 5) (s : State) : Host.Outcome State Fault Refusal :=
  incrementRun (addc (s.reg d) (~~~(incrementValue v)) true) d s

/-- SET (44_increment_set.md R274): no flag is written. -/
def execSet (a : Bool) (d : Reg) (v : BitVec 5) (s : State) : Host.Outcome State Fault Refusal :=
  .next ((s.setReg d (setConstant a v)).setPc (s.pc + 2))

end Sys2Proof.Machine
end

