-- ==== Sys2Proof/Machine/Jump.lean ====
section
/-! DEFINITION. JMP and JSR, near and far (45_jump_call.md). -/

namespace Sys2Proof.Machine

/-- JMP near (45_jump_call.md R281). -/
def execJmp (m : JumpOperand) (s : State) : Host.Outcome State Fault Refusal :=
  perform (opcode (.jmp m)) s.pc ((nearTarget m s).andThen fun t s1 => .done () (s1.setPc t))

/-- JMP far (45_jump_call.md R282): CSS is written, also in interrupt mode. -/
def execJmpF (m : JumpOperand) (s : State) : Host.Outcome State Fault Refusal :=
  perform (opcode (.jmpF m)) s.pc ((farTarget m s).andThen fun tg s1 => .done () ((s1.setSeg .css tg.2).setPc tg.1))

/-- JSR near (45_jump_call.md R283): the operand first, then the push of the return address. -/
def execJsr (m : JumpOperand) (s : State) : Host.Outcome State Fault Refusal :=
  perform (opcode (.jsr m)) s.pc ((nearTarget m s).andThen fun t s1 =>
    (pushWord .other (s.pc + jumpLength false m) s1).andThen fun _ s2 => .done () (s2.setPc t))

/-- JSR far (45_jump_call.md R284): CSS hi word, CSS lo word and the return address are pushed. -/
def execJsrF (m : JumpOperand) (s : State) : Host.Outcome State Fault Refusal :=
  perform (opcode (.jsrF m)) s.pc ((farTarget m s).andThen fun tg s1 =>
    (pushWords .other [s1.segs.css.extractLsb' 16 16, s1.segs.css.extractLsb' 0 16, s.pc + jumpLength true m] s1).andThen
      fun _ s2 => .done () ((s2.setSeg .css tg.2).setPc tg.1))

end Sys2Proof.Machine
end

