-- ==== Sys2Proof/Machine/Processor.lean ====
section
/-! DEFINITION. The processor functions: SEF, CLF, RTS, RTS.F, RTI, SWI, SLP, LSG, SSG (47_processor_functions.md). -/

namespace Sys2Proof.Machine

/-- SEF (47_processor_functions.md R300): the selected flags are set; the low four bits of the octet are not examined. -/
def execSef (bits : BitVec 8) (s : State) : Host.Outcome State Fault Refusal :=
  .next ((s.writeFl (s.fl ||| (opcode (.sef bits) &&& 0xF000))).setPc (s.pc + 2))

/-- CLF (47_processor_functions.md R301). -/
def execClf (bits : BitVec 8) (s : State) : Host.Outcome State Fault Refusal :=
  .next ((s.writeFl (s.fl &&& ~~~(opcode (.clf bits) &&& 0xF000))).setPc (s.pc + 2))

/-- Run a part that only supervisor mode may run; in user mode UnprivFault (60_exceptions.md R340). -/
def supervisorOnly (s : State) (r : Res Unit) : Res Unit := if s.supervisor then r else .trap .unprivileged s

/-- RTS (47_processor_functions.md R312). -/
def execRts (s : State) : Host.Outcome State Fault Refusal :=
  perform (opcode .rts) s.pc ((popWord .other s).andThen fun t s1 => .done () (s1.setPc t))

/-- RTS.F (47_processor_functions.md R313). -/
def execRtsF (s : State) : Host.Outcome State Fault Refusal :=
  perform (opcode .rtsF) s.pc (supervisorOnly s
    ((popWord .other s).andThen fun t s1 =>
     (popWord .other s1).andThen fun lo s2 =>
     (popWord .other s2).andThen fun hi s3 =>
     .done () ((s3.setPc t).setSeg .css (hi ++ lo : BitVec 32))))

/-- RTI (47_processor_functions.md R314). -/
def execRti (s : State) : Host.Outcome State Fault Refusal :=
  perform (opcode .rti) s.pc (supervisorOnly s (returnFromInterrupt s))

/-- SWI (47_processor_functions.md R315): the interrupt is taken with the address after the SWI. -/
def execSwi (s : State) : Host.Outcome State Fault Refusal :=
  .next (takeInterrupt .swi (s.pc + 2) s)

/-- SLP (47_processor_functions.md R316). -/
def execSlp (s : State) : Host.Outcome State Fault Refusal :=
  perform (opcode .slp) s.pc (supervisorOnly s (.done () { s with pc := s.pc + 2, halted := true }))

/-- LSG (47_processor_functions.md R310): both words are popped before the register changes. -/
def execLsg (u : Bool) (x r : BitVec 3) (s : State) : Host.Outcome State Fault Refusal :=
  perform (opcode (.lsg u x r)) s.pc (supervisorOnly s
    (match selectSegment u r with
     | none => .trap .undefined s
     | some n =>
       (popWord .other s).andThen fun lo s1 =>
       (popWord .other s1).andThen fun hi s2 =>
       .done () ((s2.setSeg n (hi ++ lo : BitVec 32)).setPc (s.pc + 2))))

/-- SSG (47_processor_functions.md R311): hi word first. -/
def execSsg (u : Bool) (x r : BitVec 3) (s : State) : Host.Outcome State Fault Refusal :=
  perform (opcode (.ssg u x r)) s.pc (supervisorOnly s
    (match selectSegment u r with
     | none => .trap .undefined s
     | some n =>
       (pushWords .other [(s.segs.get n).extractLsb' 16 16, (s.segs.get n).extractLsb' 0 16] s).andThen fun _ s1 =>
       .done () (s1.setPc (s.pc + 2))))

end Sys2Proof.Machine
end

