-- ==== Sys2Proof/Machine/Query.lean ====
section
/-! DEFINITION. HWQ, the hardware query (47_processor_functions.md R302 to R309). No query writes a flag. -/

namespace Sys2Proof.Machine

/-- The end of a query: PC advances. -/
def queryDone (s : State) : Res Unit := .done () (s.setPc (s.pc + 2))

/-- HWQ $00 (47_processor_functions.md R303). -/
def execHwq00 (s : State) : Host.Outcome State Fault Refusal :=
  perform (opcode .hwq00) s.pc (supervisorOnly s (queryDone (s.setReg 0 s.platform.busDeviceCount)))

/-- The identification of a slot: the YCPU's own for slot 0, a device's, or none for an empty slot and for a number above 15
(47_processor_functions.md R304). -/
def slotIdentity (slot : Word) (s : State) : Option Identity :=
  if 15 < slot.toNat then none
  else if slot = 0 then some s.platform.selfDescription
  else (s.deviceAt (slot.setWidth 4)).map Device.identity

/-- HWQ $01 (47_processor_functions.md R304). -/
def execHwq01 (s : State) : Host.Outcome State Fault Refusal :=
  perform (opcode .hwq01) s.pc (supervisorOnly s (queryDone
    (match slotIdentity (s.reg 0) s with
     | none => s.setReg 0 0xFFFF
     | some i => (((s.setReg 0 i.deviceType).setReg 1 i.manufacturer).setReg 2 i.deviceId).setReg 3 i.flags)))

/-- What a reply leaves in R0, R1 and R2 (47_processor_functions.md R305): MSG_ACK with the return parameters, MSG_WAIT and MSG_ERROR
with R1 and R2 unchanged (log 14). -/
def State.replyRegisters (s : State) (r : DeviceReply) : State :=
  match r.status with
  | .ack => ((s.setReg 0 0x0001).setReg 1 r.r1).setReg 2 r.r2
  | .wait => s.setReg 0 0x0002
  | .error => s.setReg 0 0xFFFF

/-- A device's reaction to a message: registers, RAM and its own IRQ line (47_processor_functions.md R305, log 14). -/
def State.deviceReaction (s : State) (slot : BitVec 4) (r : DeviceReply) : State :=
  let s1 := (s.replyRegisters r).storeAll r.stores
  { s1 with lines := { s1.lines with irq := withBit s1.lines.irq slot.toNat r.irq } }

/-- HWQ $02 (47_processor_functions.md R305): a message to the device in slot R0; no effect for slot 0, an empty slot and a number
above 15. The device's reaction is a free value (log 14). -/
def execHwq02 (s : State) : Host.Outcome State Fault Refusal :=
  perform (opcode .hwq02) s.pc (supervisorOnly s (queryDone
    (if 15 < (s.reg 0).toNat then s
     else
       let slot : BitVec 4 := (s.reg 0).setWidth 4
       match s.deviceAt slot with
       | none => s
       | some _ =>
         (s.afterCall (.message slot (s.reg 1) (s.reg 2))).deviceReaction slot
           (Config.deviceReply s.calls s.ram slot (s.reg 1) (s.reg 2) s.draws))))

/-- An amount of memory as two words, low first; $FFFF twice where there is none (47_processor_functions.md R306). -/
def amountWords (bytes : Nat) : Word × Word :=
  if bytes = 0 then (0xFFFF, 0xFFFF) else (BitVec.ofNat 16 bytes, BitVec.ofNat 16 (bytes / 2 ^ 16))

/-- HWQ $03 (47_processor_functions.md R306). -/
def execHwq03 (s : State) : Host.Outcome State Fault Refusal :=
  perform (opcode .hwq03) s.pc (supervisorOnly s (queryDone
    ((((s.setReg 0 (amountWords s.platform.ramBytes).1).setReg 1 (amountWords s.platform.ramBytes).2).setReg 2
      (amountWords s.platform.romBytes).1).setReg 3 (amountWords s.platform.romBytes).2)))

/-- The four words of the RTC time (47_processor_functions.md R307). -/
def RtcTime.words (t : RtcTime) : Word × Word × Word × Word :=
  ((t.year ++ 0#4 ++ t.month : BitVec 16), (0#3 ++ t.day ++ 0#3 ++ t.hour : BitVec 16),
   (0#2 ++ t.minute ++ 0#2 ++ t.second : BitVec 16), t.tick)

/-- HWQ $80 (47_processor_functions.md R307). -/
def execHwq80 (s : State) : Host.Outcome State Fault Refusal :=
  perform (opcode .hwq80) s.pc (supervisorOnly s (queryDone
    ((((s.setReg 0 s.rtc.time.words.1).setReg 1 s.rtc.time.words.2.1).setReg 2 s.rtc.time.words.2.2.1).setReg 3
      s.rtc.time.words.2.2.2)))

/-- HWQ $82 (47_processor_functions.md R308). -/
def execHwq82 (s : State) : Host.Outcome State Fault Refusal :=
  perform (opcode .hwq82) s.pc (supervisorOnly s (queryDone (s.setReg 0 s.rtc.rate)))

/-- The actual Clock rate for a wished one: capped at CPU_HZ / 1024 (47_processor_functions.md R309). -/
def cappedRate (wished : Word) (cpuHz : Nat) : Word := BitVec.ofNat 16 (min wished.toNat (cpuHz / 1024))

/-- Write the Clock interrupt rate (60_exceptions.md R366). -/
def State.setRate (s : State) (v : Word) : State := { s with rtc := { s.rtc with rate := v } }

/-- HWQ $83 (47_processor_functions.md R309). -/
def execHwq83 (s : State) : Host.Outcome State Fault Refusal :=
  perform (opcode .hwq83) s.pc (supervisorOnly s (queryDone
    ((s.setRate (cappedRate (s.reg 0) s.platform.cpuHz)).setReg 0 (cappedRate (s.reg 0) s.platform.cpuHz))))

end Sys2Proof.Machine
end

