-- ==== Sys2Proof/Machine/Shift.lean ====
section
/-! DEFINITION. The shift and rotate instructions (41_shift.md). -/

namespace Sys2Proof.Machine

/-- The common part of the shifts (41_shift.md R220, R221): the count is read before the result is written. -/
def shiftRun (f : ShiftOp) (d : Reg) (n : CountOperand) (s : State) : Host.Outcome State Fault Refusal :=
  let o := f (s.reg d) (shiftCount n s) s.flags
  .next (((s.setReg d o.value).setFlags o.flags).setPc (s.pc + 2))

/-- ASL (41_shift.md R222). -/
def execAsl (d : Reg) (n : CountOperand) (s : State) : Host.Outcome State Fault Refusal :=
  shiftRun shiftLeft d n s

/-- LSL (41_shift.md R224: "The processor treats these two instructions identically"). -/
def execLsl (d : Reg) (n : CountOperand) (s : State) : Host.Outcome State Fault Refusal :=
  shiftRun shiftLeft d n s

/-- ROL (41_shift.md R228). -/
def execRol (d : Reg) (n : CountOperand) (s : State) : Host.Outcome State Fault Refusal :=
  shiftRun rotateLeftCarry d n s

/-- RNL (41_shift.md R226). -/
def execRnl (d : Reg) (n : CountOperand) (s : State) : Host.Outcome State Fault Refusal :=
  shiftRun rotateLeftPlain d n s

/-- ASR (41_shift.md R223). -/
def execAsr (d : Reg) (n : CountOperand) (s : State) : Host.Outcome State Fault Refusal :=
  shiftRun shiftRightArithmetic d n s

/-- LSR (41_shift.md R225). -/
def execLsr (d : Reg) (n : CountOperand) (s : State) : Host.Outcome State Fault Refusal :=
  shiftRun shiftRightLogical d n s

/-- ROR (41_shift.md R229). -/
def execRor (d : Reg) (n : CountOperand) (s : State) : Host.Outcome State Fault Refusal :=
  shiftRun rotateRightCarry d n s

/-- RNR (41_shift.md R227). -/
def execRnr (d : Reg) (n : CountOperand) (s : State) : Host.Outcome State Fault Refusal :=
  shiftRun rotateRightPlain d n s

end Sys2Proof.Machine
end

