-- ==== Sys2Proof/Machine/Stack.lean ====
section
/-! DEFINITION. PSH, POP and STX (46_stack.md). -/

namespace Sys2Proof.Machine

/-- PSH of general registers (46_stack.md R291): R0 first, R7 last. -/
def execPshGeneral (mask : BitVec 8) (s : State) : Host.Outcome State Fault Refusal :=
  perform (opcode (.pshGeneral mask)) s.pc
    ((pushWords .pshPop ((maskedRegisters mask).map s.reg) s).andThen fun _ s1 => .done () (s1.setPc (s.pc + 2)))

/-- PS is named in user mode (46_stack.md R292, R294, R296); PS is bit 10 of the word. -/
def namesPsInUserMode (mask : BitVec 8) (s : State) : Bool := mask.getLsbD 2 && !s.supervisor

/-- The words PSH pushes for a control mask, first to last: SP, USP, PS, PC, FL, all as they are before the operation; PS is skipped in
user mode (46_stack.md R292, R296). PC reads as the address of the next instruction. -/
def controlWords (mask : BitVec 8) (s : State) : List Word :=
  (if mask.getLsbD 7 then [s.sp] else []) ++
  (if mask.getLsbD 6 then [s.usp] else []) ++
  (if mask.getLsbD 2 && s.supervisor then [s.readPs] else []) ++
  (if mask.getLsbD 1 then [s.pc + 2] else []) ++
  (if mask.getLsbD 0 then [s.readFl] else [])

/-- PSH of control registers (46_stack.md R292, R296): the other registers are pushed before UnprivFault is raised. -/
def execPshControl (mask : BitVec 8) (s : State) : Host.Outcome State Fault Refusal :=
  perform (opcode (.pshControl mask)) s.pc
    ((pushWords .pshPop (controlWords mask s) s).andThen fun _ s1 =>
      if namesPsInUserMode mask s then .trap .unprivileged s1 else .done () (s1.setPc (s.pc + 2)))

/-- Pop registers, the first of the list first; what was popped before a raise stays popped (46_stack.md R290). -/
def popRegisters : List Reg → State → Res Unit
  | [], s => .done () s
  | r :: rs, s => (popWord .pshPop s).andThen fun v s1 => popRegisters rs (s1.setReg r v)

/-- POP of general registers (46_stack.md R293): R7 first, R0 last. -/
def execPopGeneral (mask : BitVec 8) (s : State) : Host.Outcome State Fault Refusal :=
  perform (opcode (.popGeneral mask)) s.pc
    ((popRegisters (maskedRegisters mask).reverse s).andThen fun _ s1 => .done () (s1.setPc (s.pc + 2)))

/-- One step of POP's control list: where the mask selects the register, pop a word and write it (46_stack.md R294). -/
def popInto (selected : Bool) (write : State → Word → State) (s : State) : Res Unit :=
  if selected then (popWord .pshPop s).andThen fun v s1 => .done () (write s1 v) else .done () s

/-- POP of control registers (46_stack.md R294, R296), in the order FL, PC, PS, USP, SP, each pop in the state the one before left. The
popped PC is written at the end, and not where UnprivFault is raised. -/
def execPopControl (mask : BitVec 8) (s : State) : Host.Outcome State Fault Refusal :=
  perform (opcode (.popControl mask)) s.pc
    ((popInto (mask.getLsbD 0) State.writeFl s).andThen fun _ s1 =>
     (if mask.getLsbD 1 then popWord .pshPop s1 else .done (s.pc + 2) s1).andThen fun newPc s2 =>
     (popInto (mask.getLsbD 2 && s.supervisor) State.writePs s2).andThen fun _ s3 =>
     (popInto (mask.getLsbD 6) State.setUsp s3).andThen fun _ s4 =>
     (popInto (mask.getLsbD 7) State.setSp s4).andThen fun _ s5 =>
     if namesPsInUserMode mask s then .trap .unprivileged s5 else .done () (s5.setPc newPc))

/-- STX (46_stack.md R295). -/
def execStx (i : BitVec 8) (s : State) : Host.Outcome State Fault Refusal :=
  perform (opcode (.stx i)) s.pc
    (if s.supervisor then .done () ((s.setSp (s.sp + 2 * i.signExtend 16)).setPc (s.pc + 2)) else .trap .unprivileged s)

end Sys2Proof.Machine
end

