-- ==== Sys2Proof/Machine/Undefined.lean ====
section
/-! DEFINITION. The rows of undefined low octets: UndefFault (30_encoding.md R155, 43_branch.md R262, 60_exceptions.md R341). -/

namespace Sys2Proof.Machine

/-- Low octet $9A (43_branch.md R262). -/
def execUndefined9A (high : BitVec 8) (s : State) : Host.Outcome State Fault Refusal :=
  perform (opcode (.undefined9A high)) s.pc (.trap .undefined s)

/-- Low octet $9B (43_branch.md R262). -/
def execUndefined9B (high : BitVec 8) (s : State) : Host.Outcome State Fault Refusal :=
  perform (opcode (.undefined9B high)) s.pc (.trap .undefined s)

/-- Low octet $9C (43_branch.md R262). -/
def execUndefined9C (high : BitVec 8) (s : State) : Host.Outcome State Fault Refusal :=
  perform (opcode (.undefined9C high)) s.pc (.trap .undefined s)

/-- Low octet $9D (43_branch.md R262). -/
def execUndefined9D (high : BitVec 8) (s : State) : Host.Outcome State Fault Refusal :=
  perform (opcode (.undefined9D high)) s.pc (.trap .undefined s)

/-- Low octet $9E (43_branch.md R262). -/
def execUndefined9E (high : BitVec 8) (s : State) : Host.Outcome State Fault Refusal :=
  perform (opcode (.undefined9E high)) s.pc (.trap .undefined s)

/-- Low octets $BC to $BF (30_encoding.md R155). -/
def execUndefinedBCtoBF (w : Word) (s : State) : Host.Outcome State Fault Refusal :=
  perform (opcode (.undefinedBCtoBF w)) s.pc (.trap .undefined s)

/-- Low octets $C0 to $FF (30_encoding.md R155). -/
def execUndefinedC0toFF (w : Word) (s : State) : Host.Outcome State Fault Refusal :=
  perform (opcode (.undefinedC0toFF w)) s.pc (.trap .undefined s)

end Sys2Proof.Machine
end

