-- ==== Sys2Proof/Machine/Dispatch.lean ====
section
/-! DEFINITION. The meaning of every instruction, one arm per constructor of Instr. -/

namespace Sys2Proof.Machine

def exec (i : Instr) (s : State) : Host.Outcome State Fault Refusal :=
  match i with
  | .cmp d m => Sys2Proof.Machine.execCmp d m s
  | .neg d m => Sys2Proof.Machine.execNeg d m s
  | .add d m => Sys2Proof.Machine.execAdd d m s
  | .sub d m => Sys2Proof.Machine.execSub d m s
  | .adc d m => Sys2Proof.Machine.execAdc d m s
  | .sbc d m => Sys2Proof.Machine.execSbc d m s
  | .mul d m => Sys2Proof.Machine.execMul d m s
  | .div d m => Sys2Proof.Machine.execDiv d m s
  | .mli d m => Sys2Proof.Machine.execMli d m s
  | .dvi d m => Sys2Proof.Machine.execDvi d m s
  | .mod d m => Sys2Proof.Machine.execMod d m s
  | .mdi d m => Sys2Proof.Machine.execMdi d m s
  | .and d m => Sys2Proof.Machine.execAnd d m s
  | .orr d m => Sys2Proof.Machine.execOrr d m s
  | .eor d m => Sys2Proof.Machine.execEor d m s
  | .not d m => Sys2Proof.Machine.execNot d m s
  | .lod d m => Sys2Proof.Machine.execLod d m s
  | .sto d m => Sys2Proof.Machine.execSto d m s
  | .bcc b => Sys2Proof.Machine.execBcc b s
  | .bcs b => Sys2Proof.Machine.execBcs b s
  | .bne b => Sys2Proof.Machine.execBne b s
  | .beq b => Sys2Proof.Machine.execBeq b s
  | .bpl b => Sys2Proof.Machine.execBpl b s
  | .bmi b => Sys2Proof.Machine.execBmi b s
  | .bvc b => Sys2Proof.Machine.execBvc b s
  | .bvs b => Sys2Proof.Machine.execBvs b s
  | .bug b => Sys2Proof.Machine.execBug b s
  | .bsg b => Sys2Proof.Machine.execBsg b s
  | .baw b => Sys2Proof.Machine.execBaw b s
  | .undefined9A high => Sys2Proof.Machine.execUndefined9A high s
  | .undefined9B high => Sys2Proof.Machine.execUndefined9B high s
  | .undefined9C high => Sys2Proof.Machine.execUndefined9C high s
  | .undefined9D high => Sys2Proof.Machine.execUndefined9D high s
  | .undefined9E high => Sys2Proof.Machine.execUndefined9E high s
  | .asl d n => Sys2Proof.Machine.execAsl d n s
  | .lsl d n => Sys2Proof.Machine.execLsl d n s
  | .rol d n => Sys2Proof.Machine.execRol d n s
  | .rnl d n => Sys2Proof.Machine.execRnl d n s
  | .asr d n => Sys2Proof.Machine.execAsr d n s
  | .lsr d n => Sys2Proof.Machine.execLsr d n s
  | .ror d n => Sys2Proof.Machine.execRor d n s
  | .rnr d n => Sys2Proof.Machine.execRnr d n s
  | .btt d n => Sys2Proof.Machine.execBtt d n s
  | .btx d n => Sys2Proof.Machine.execBtx d n s
  | .btc d n => Sys2Proof.Machine.execBtc d n s
  | .bts d n => Sys2Proof.Machine.execBts d n s
  | .set a d v => Sys2Proof.Machine.execSet a d v s
  | .sef bits => Sys2Proof.Machine.execSef bits s
  | .clf bits => Sys2Proof.Machine.execClf bits s
  | .pshGeneral mask => Sys2Proof.Machine.execPshGeneral mask s
  | .pshControl mask => Sys2Proof.Machine.execPshControl mask s
  | .popGeneral mask => Sys2Proof.Machine.execPopGeneral mask s
  | .popControl mask => Sys2Proof.Machine.execPopControl mask s
  | .rts => Sys2Proof.Machine.execRts s
  | .rtsF => Sys2Proof.Machine.execRtsF s
  | .rti => Sys2Proof.Machine.execRti s
  | .swi => Sys2Proof.Machine.execSwi s
  | .slp => Sys2Proof.Machine.execSlp s
  | .lsg u x r => Sys2Proof.Machine.execLsg u x r s
  | .ssg u x r => Sys2Proof.Machine.execSsg u x r s
  | .adi d v => Sys2Proof.Machine.execAdi d v s
  | .sbi d v => Sys2Proof.Machine.execSbi d v s
  | .jmp m => Sys2Proof.Machine.execJmp m s
  | .jmpF m => Sys2Proof.Machine.execJmpF m s
  | .jsr m => Sys2Proof.Machine.execJsr m s
  | .jsrF m => Sys2Proof.Machine.execJsrF m s
  | .hwq00 => Sys2Proof.Machine.execHwq00 s
  | .hwq01 => Sys2Proof.Machine.execHwq01 s
  | .hwq02 => Sys2Proof.Machine.execHwq02 s
  | .hwq03 => Sys2Proof.Machine.execHwq03 s
  | .hwq80 => Sys2Proof.Machine.execHwq80 s
  | .hwq82 => Sys2Proof.Machine.execHwq82 s
  | .hwq83 => Sys2Proof.Machine.execHwq83 s
  | .stx n => Sys2Proof.Machine.execStx n s
  | .undefinedBCtoBF w => Sys2Proof.Machine.execUndefinedBCtoBF w s
  | .undefinedC0toFF w => Sys2Proof.Machine.execUndefinedC0toFF w s

end Sys2Proof.Machine
end

