-- ==== Sys2Proof/Machine/Fetch.lean ====
section
/-! DEFINITION. Fetching an instruction: the opcode word, the checks that come before its immediate words, the immediate
words, decoding; and placing an instruction's bytes where the fetch reads them. -/

namespace Sys2Proof.Machine

/-- `MemRead(CODE:off, 2)` (00_scope.md R19, 20_memory.md R86). -/
def fetchWord (off : Word) (s : State) : Res Word := readWord .code .other off s

/-- Fetch `n` immediate words from `off` on, the lower address first (00_scope.md R19). -/
def fetchImmediates : Nat → Word → State → Res (List Word)
  | 0, _, s => .done [] s
  | n + 1, off, s =>
    (fetchWord off s).andThen fun v s1 =>
    (fetchImmediates n (off + 2) s1).andThen fun vs s2 => .done (v :: vs) s2

/-- The instruction raises before its immediate words are fetched (60_exceptions.md R360, causes 4 before 5): STO in Immediate mode
(UndefFault, 40_alu.md R192) and a far jump in user mode (UnprivFault, 45_jump_call.md R280). Its meaning then raises whatever
the immediate words hold (log 21). -/
def raisesBeforeImmediates (w : Word) (s : State) : Bool :=
  (w.extractLsb' 3 5 == 17#5 && w.extractLsb' 9 6 == 0#6) ||
  ((lowOctet w == 0xB8 || lowOctet w == 0xB9) && isFarJump w && !s.supervisor)

/-- What a word that the decoder rejects raises: an undefined HWQ index is UnprivFault in user mode, since HWQ is a privileged low octet
(47_processor_functions.md R302), and UndefFault in supervisor mode; an undefined processor function is UndefFault in both
(R317). -/
def rejectTrap (r : Reject) (s : State) : Trap :=
  match r with
  | .undefinedHwqIndex => if s.supervisor then .undefined else .unprivileged
  | .undefinedProcessorFunction | .truncated => .undefined

/-- Decode the fetched words; a rejected word raises its interrupt, which saves the instruction's own address (60_exceptions.md R347). -/
def decodeFetched (w : Word) (imms : List Word) (s : State) : Fetched :=
  match decodeWords w (imms.getD 0 0) (imms.getD 1 0) (imms.getD 2 0) with
  | .ok i => .instruction i s
  | .error r => .interrupted (takeInterrupt ((rejectTrap r s).interrupt w) s.pc s)

/-- Fetch the instruction at PC (40_alu.md R171, 60_exceptions.md R360). An odd PC is refused (20_memory.md R88). A fault of the opcode
fetch has no instruction word, so its error code is free (60_exceptions.md R348, log 12); a fault of an immediate fetch pushes the
opcode word; both save the instruction's own address (R347). -/
def fetchInstruction (s : State) : Fetched :=
  if s.pc.getLsbD 0 then .refused .oddProgramCounter
  else
    match fetchWord s.pc s with
    | .trap t s1 => .interrupted (takeInterrupt (t.interrupt (Config.errcode s1.draws)) s.pc s1.afterDraw)
    | .done w s1 =>
      match fetchImmediates (if raisesBeforeImmediates w s1 then 0 else immediateCount w) (s.pc + 2) s1 with
      | .trap t s2 => .interrupted (takeInterrupt (t.interrupt w) s.pc s2)
      | .done imms s2 => decodeFetched w imms s2

/-- Place a byte where a code fetch at offset `off` reads it; a device window holds nothing of the model's, and an unconnected
RAM address takes no byte. -/
def placeCodeByte (s : State) (off : Word) (b : Byte) : State :=
  match translate (s.segValue .code) off with
  | .ram a => s.storeRam a b
  | .rom a => { s with rom := Memory.write s.rom a b }
  | .device _ _ => s

/-- Place bytes from offset `off` on. -/
def placeCodeBytes (s : State) (off : Word) : List Byte → State
  | [] => s
  | b :: bs => placeCodeBytes (placeCodeByte s off b) (off + 1) bs

end Sys2Proof.Machine
end

