-- ==== Sys2Proof/Machine/Step.lean ====
section
/-! DEFINITION. One step of the YCPU: one instruction boundary. -/

namespace Sys2Proof.Machine

/-- One step (60_exceptions.md R355, R358, R359, R372): the environment's events of this boundary; then the first asynchronous
interrupt that is pending and enabled; else nothing while halted; else one instruction. -/
def step (s : State) : Host.Outcome State Fault Refusal :=
  let s0 := s.environmentTurn
  match s0.pendingAsync with
  | some a => .next (takeAsync a s0)
  | none =>
    if s0.halted then .next s0
    else
      match fetchInstruction s0 with
      | .instruction i s1 => exec i s1
      | .interrupted s1 => .next s1
      | .refused r => .refused r

/-- The state with an instruction's bytes stored where the next fetch reads them: the program load of 60_exceptions.md R376 (log 9). -/
def State.withFetchWord (s : State) (nbits w : Nat) : State := placeCodeBytes s s.pc (tableBytes nbits w)

end Sys2Proof.Machine
end

