-- ==== Sys2Proof/WellFormed.lean ====
section
/-! DEFINITION. The checks that make a term of `Instr` one that some program words encode. -/

namespace Sys2Proof

/-- The operand of a near JMP or JSR: the near Immediate mode has no segment words (30_encoding.md R146), and the
undefined patterns are those with `rrr` from 010 (R156). -/
def JumpOperand.wfNear : JumpOperand → Bool
  | .immediate _ _ segment => segment == 0
  | .undefinedMode _ x => decide (2 ≤ x.toNat)
  | _ => true

/-- The operand of a far JMP or JSR: "Far jumps cannot use Register addressing" (30_encoding.md R146). -/
def JumpOperand.wfFar : JumpOperand → Bool
  | .register _ _ _ => false
  | .undefinedMode _ x => decide (2 ≤ x.toNat)
  | _ => true

/-- Well-formed instructions: the jump operands fit the row's F bit, and a word of an undefined row has that row's
low octet (30_encoding.md R133). Every other operand is well-formed by its type. -/
def Instr.wf : Instr → Bool
  | .jmp m | .jsr m => m.wfNear
  | .jmpF m | .jsrF m => m.wfFar
  | .undefinedBCtoBF w => decide ((w.extractLsb' 2 6).toNat = 0x2F)
  | .undefinedC0toFF w => decide ((w.extractLsb' 6 2).toNat = 3)
  | _ => true

end Sys2Proof
end

