-- ==== Sys2Proof/Safety.lean ====
section
/-! DEFINITION. What a safe run is, the invariant of the states a run meets, and the terms the statements about the machine use:
numbers of a width, the words of a stack, the frame of an interrupt. -/

namespace Sys2Proof.Machine

/-! ### Safe runs and well-formed states -/

/-- The invariant: both memories in canonical form, RAM listing connected addresses only, the reserved bits of FL and PS clear
(10_state.md R43, R46), and the Clock rate within its cap (47_processor_functions.md R309). -/
def State.wf (s : State) : Bool :=
  Memory.wf s.ram && Memory.wf s.rom && s.ram.all (fun c => s.ramConnected c.1) &&
  (s.fl &&& 0x0FFF == 0) && (s.ps &&& 0x00FF == 0) && decide (s.rtc.rate.toNat ≤ s.platform.cpuHz / 1024)

/-- The coming step is an instruction, or the fetch of one: after the environment's turn nothing is pending and enabled, and the
processor is not halted (60_exceptions.md R355, R358, R372). -/
def State.runsInstruction (s : State) : Bool :=
  s.environmentTurn.pendingAsync.isNone && !s.environmentTurn.halted

/-- A safe run: `k` steps from the state all answer a next state. It can end only at an odd PC (20_memory.md R88). -/
def State.safeFor (k : Nat) (s : State) : Prop := ∃ t, Host.Core.run Sys2Proof.core k s = .next t

/-! ### Numbers -/

/-- The signed value of a number of `w` bits (00_scope.md R12). -/
def signedValue (w k : Nat) : Int := if k < 2 ^ (w - 1) then (k : Int) else (k : Int) - 2 ^ w

/-- The number lies in the signed range of `w` bits (40_alu.md R173). -/
def fitsSigned (w : Nat) (i : Int) : Bool := decide (-(2 : Int) ^ (w - 1) ≤ i) && decide (i < (2 : Int) ^ (w - 1))

/-- An integer modulo `2^w` as a number of `w` bits. -/
def wrapped (w : Nat) (i : Int) : Nat := (i % (2 : Int) ^ w).toNat

/-- The width of M (40_alu.md R172). -/
def OpValue.width : OpValue → Nat
  | .byte _ => 8
  | .word _ => 16

/-- M as an unsigned number. -/
def OpValue.nat : OpValue → Nat
  | .byte b => b.toNat
  | .word v => v.toNat

/-- M as a signed number of its width. -/
def OpValue.int (x : OpValue) : Int := signedValue x.width x.nat

/-- The first operand as an unsigned number of the width of M: "Only the low 8-bits of the input registers are used" (40_alu.md R172). -/
def OpValue.first (x : OpValue) (a : Word) : Nat := a.toNat % 2 ^ x.width

/-- The first operand as a signed number of the width of M. -/
def OpValue.firstInt (x : OpValue) (a : Word) : Int := signedValue x.width (x.first a)

/-- N is the top bit of a result of `w` bits and Z says that it is 0 (40_alu.md R173 `NZ`). -/
def Flags.sign (f : Flags) (w r : Nat) : Flags := { f with n := decide (2 ^ (w - 1) ≤ r), z := decide (r = 0) }

/-! ### Results -/

/-- The address of the following instruction (10_state.md R37, 00_scope.md R16). -/
def nextPc (i : Instr) (s : State) : Word := s.pc + BitVec.ofNat 16 (lengthOf i)

/-- The state with another count of draws. -/
def State.withDraws (s : State) (n : Nat) : State := { s with draws := n }

/-- The state `s` with RAM, the devices' calls and coming stores, and the draws of `t`: all that a read changes, RAM through what
devices store meanwhile (20_memory.md R106, R107). -/
def State.withBus (s t : State) : State :=
  { s with ram := t.ram, deviceStores := t.deviceStores, calls := t.calls, draws := t.draws }

/-- The state with a register, the flags and PC written. -/
def State.finish (s : State) (d : Reg) (r : Nat) (f : Flags) (pc : Word) : State :=
  ((s.setReg d (BitVec.ofNat 16 r)).setFlags f).setPc pc

/-- The count of a shift: the constant field plus 1, or the register modulo 16 (41_shift.md R220). -/
def statedCount (n : CountOperand) (s : State) : Nat :=
  match n with
  | .constant c => c.toNat + 1
  | .register _ r => (s.reg r).toNat % 16

/-- The index of the bit tested: the constant field, or the register modulo 16 (42_bit_test.md R240). -/
def statedIndex (n : CountOperand) (s : State) : Nat :=
  match n with
  | .constant c => c.toNat
  | .register _ r => (s.reg r).toNat % 16

/-! ### Access cycles -/

/-- The state after the devices' turns before `n` access cycles, the processor's own accesses aside (20_memory.md R106, R108). -/
def State.afterCycles : Nat → State → State
  | 0, s => s
  | n + 1, s => State.afterCycles n s.deviceTurn

/-- The access cycles of a 16-bit access: one where it is aligned, else two (20_memory.md R106). -/
def wordCycles (off : Word) : Nat := if off.toNat % 2 = 0 then 1 else 2

/-- In their turns before the coming `n` access cycles, devices store to no address in the set. "A claim about a program therefore
either quantifies over device accesses or takes as a premise which devices are present and which memory they may touch"
(20_memory.md R108). -/
def State.devicesKeepOff (s : State) (n : Nat) (addresses : Nat → Prop) : Prop :=
  ∀ stores ∈ s.deviceStores.take n, ∀ c ∈ stores, ¬ addresses c.1

/-! ### Words of memory and of the stack -/

/-- The words at an offset and at the offsets 2, 4, ... above it, read one after the other; none where a read is refused by its
checks. -/
def readWords (k : SegKind) (p : Purpose) : Nat → Word → State → Option (List Word × State)
  | 0, _, s => some ([], s)
  | n + 1, off, s =>
    match readWord k p off s with
    | .trap _ _ => none
    | .done v s1 =>
      match readWords k p n (off + 2) s1 with
      | none => none
      | some (vs, s2) => some (v :: vs, s2)

/-- The byte a logical address leads to, for a place that is RAM or ROM. -/
def State.peek (s : State) (r : SegReg) (off : Word) : Byte :=
  match translate r off with
  | .ram a => s.ramByte a
  | .rom a => s.romByte a
  | .device _ _ => 0

/-- The word a logical address leads to, its lower byte first (20_memory.md R84, R100). -/
def State.peekWord (s : State) (r : SegReg) (off : Word) : Word :=
  wordOfBytes (s.peek r off) (s.peek r (off + 1))

/-- The segment value leads into RAM or ROM, not into a device window (20_memory.md R94). -/
def onBoard (r : SegReg) : Bool := !r.getLsbD 31 || r.extractLsb' 16 4 == 0#4

/-- The physical RAM address of a stack offset, for a stack segment in RAM (20_memory.md R96). -/
def State.stackAddress (s : State) (off : Word) : Nat := ((s.segValue .ss).toNat % 2 ^ 20) * 256 + off.toNat

/-- The `2 n` bytes below the current stack pointer lie in a present, writable part of the stack segment that is connected RAM. -/
def State.stackRoom (s : State) (n : Nat) : Prop :=
  (s.segValue .ss).getLsbD 31 = false ∧ (s.segValue .ss).getLsbD 30 = false ∧ (s.segValue .ss).getLsbD 29 = false ∧
  ∀ j, j < 2 * n →
    (s.sp - BitVec.ofNat 16 (j + 1)).toNat < segmentSize (s.segValue .ss) ∧
    s.ramConnected (s.stackAddress (s.sp - BitVec.ofNat 16 (j + 1))) = true

/-- The `n` bytes below the current stack pointer. -/
def State.belowSp (s : State) (n : Nat) (a : Nat) : Prop := ∃ j, j < n ∧ a = s.stackAddress (s.sp - BitVec.ofNat 16 (j + 1))

/-- The `k`-th word of the stack, from the stack pointer upward. -/
def State.stackWord (s : State) (k : Nat) : Word := s.peekWord (s.segValue .ss) (s.sp + BitVec.ofNat 16 (2 * k))

/-- The state `t` is `s` after the words of the list were pushed, the first one first, and PC was set to `pc`: the stack pointer
moved down, the words lie on the stack, every other byte of RAM is as the devices' turns before the access cycles of the pushes
left it, and every other register is as it was. -/
def Pushed (ws : List Word) (pc : Word) (s t : State) : Prop :=
  t.sp = s.sp - BitVec.ofNat 16 (2 * ws.length) ∧
  (∀ k, k < ws.length → ws.reverse[k]? = some (t.stackWord k)) ∧
  (∀ a, ¬ s.belowSp (2 * ws.length) a → t.ramByte a = (State.afterCycles (ws.length * wordCycles s.sp) s).ramByte a) ∧
  t = { ((if ws = [] then s else s.markAccessed .ss).setSp t.sp).setPc pc with
        ram := t.ram, deviceStores := s.deviceStores.drop (ws.length * wordCycles s.sp) }

/-- The control registers a mask selects, as the words PSH pushes, the first one first: SP, USP, PS (not in user mode), PC and FL, all as
they are before the operation (46_stack.md R292, R296). -/
def State.statedControlWords (s : State) (mask : BitVec 8) : List Word :=
  (if mask.getLsbD 7 then [s.sp] else []) ++ (if mask.getLsbD 6 then [s.usp] else []) ++
  (if mask.getLsbD 2 && s.supervisor then [s.ps &&& 0xFF00] else []) ++ (if mask.getLsbD 1 then [s.pc + 2] else []) ++
  (if mask.getLsbD 0 then [s.fl &&& 0xF000] else [])

/-- What POP writes with a popped word: the mask bit of a control register and the state with the register written
(46_stack.md R294). -/
def controlPops : List (Nat × (State → Word → State)) :=
  [(0, fun t v => { t with fl := v &&& 0xF000 }), (1, fun t v => { t with pc := v }),
   (2, fun t v => { t with ps := v &&& 0xFF00 }), (6, fun t v => { t with usp := v }), (7, fun t v => t.setSp v)]

/-- The selected control registers popped in the order of the list, each from the current stack of the state the one before left; none
where a read is refused by its checks. `all` says that PS is popped too: the mode is the one before the operation. -/
def popControls (mask : BitVec 8) (all : Bool) : List (Nat × (State → Word → State)) → State → Option State
  | [], s => some s
  | c :: cs, s =>
    if mask.getLsbD c.1 && (c.1 != 2 || all) then
      match readWord .ss .pshPop s.sp s with
      | .trap _ _ => none
      | .done v s1 => popControls mask all cs (c.2 (s1.setSp (s.sp + 2)) v)
    else popControls mask all cs s

/-! ### Interrupt entry -/

/-- The index of an interrupt in the vector table (60_exceptions.md R332). -/
def Interrupt.entryNumber : Interrupt → Nat
  | .clock => 1
  | .divZeroFault _ => 2
  | .doubleFault _ => 3
  | .stackFault _ => 4
  | .segFault _ _ _ => 5
  | .unprivFault _ => 6
  | .undefFault _ => 7
  | .hwi _ => 12
  | .busRefresh => 13
  | .debugQuery => 14
  | .swi => 15

/-- The interrupt is one of the six faults (60_exceptions.md R333). -/
def Interrupt.isFault (iv : Interrupt) : Bool := decide (2 ≤ iv.entryNumber) && decide (iv.entryNumber ≤ 7)

/-- The words an entry leaves on the supervisor stack, from SSP upward (60_exceptions.md R349). -/
def Interrupt.frame (iv : Interrupt) (savedPc ps : Word) : List Word :=
  match iv with
  | .hwi slot => [BitVec.ofNat 16 slot.toNat, savedPc, ps]
  | .divZeroFault c | .doubleFault c | .stackFault c | .segFault _ _ c | .unprivFault c | .undefFault c => [c, savedPc, ps]
  | .clock | .busRefresh | .debugQuery | .swi => [savedPc, ps]

/-- The state with PS.S set: the supervisor's view of the stack, which every push of an entry uses (60_exceptions.md R346). -/
def State.asSupervisor (s : State) : State := { s with ps := s.ps ||| 0x8000 }

/-- The access cycles of an entry: the pushes of its frame, and the read of the vector (60_exceptions.md R345). -/
def Interrupt.entryCycles (iv : Interrupt) (s : State) : Nat := (iv.frame 0 0).length * wordCycles s.ssp + 1

/-- An entry can complete: the supervisor stack has room for its frame, which devices keep off meanwhile, and the vector table is
present and in RAM or ROM. -/
def EntryReady (iv : Interrupt) (s : State) : Prop :=
  s.asSupervisor.stackRoom (iv.frame 0 0).length ∧
  s.devicesKeepOff (iv.entryCycles s) (s.asSupervisor.belowSp (2 * (iv.frame 0 0).length)) ∧
  (s.segValue .is).getLsbD 29 = false ∧ onBoard (s.segValue .is) = true

/-- The bits of PS after an entry (60_exceptions.md R345 steps 2, 3, 6, 7; R351 for DoubleFault). -/
def EntryPs (iv : Interrupt) (before after : Word) : Prop :=
  after.getLsbD 15 = true ∧ after.getLsbD 14 = before.getLsbD 14 ∧ after.getLsbD 13 = before.getLsbD 13 ∧
  after.getLsbD 12 = true ∧
  (after.getLsbD 11 = match iv with | .hwi _ => true | _ => before.getLsbD 11) ∧
  (after.getLsbD 10 =
    match iv with
    | .doubleFault _ => false
    | _ => if iv.isFault then !before.getLsbD 15 else before.getLsbD 10) ∧
  (after.getLsbD 9 = match iv with | .segFault v _ _ => v | _ => before.getLsbD 9) ∧
  (after.getLsbD 8 = match iv with | .segFault _ w _ => w | _ => before.getLsbD 8) ∧
  after.extractLsb' 0 8 = 0

/-- The state `t` is `s` after the entry of an interrupt with a saved PC: PS as the sequence leaves it, the frame on the supervisor
stack, PC from the vector table, the halted state ended, and nothing else changed but SSS.A and what devices store in RAM meanwhile
(60_exceptions.md R345 to R349). -/
def Entered (iv : Interrupt) (savedPc : Word) (s t : State) : Prop :=
  EntryPs iv s.ps t.ps ∧
  t.ssp = s.ssp - BitVec.ofNat 16 (2 * (iv.frame 0 0).length) ∧
  (∀ k, k < (iv.frame 0 0).length → (iv.frame savedPc (s.ps &&& 0xFF00))[k]? = some (t.stackWord k)) ∧
  (∀ a, ¬ s.asSupervisor.belowSp (2 * (iv.frame 0 0).length) a →
    t.ramByte a = (State.afterCycles (iv.entryCycles s) s).ramByte a) ∧
  t.pc = t.peekWord (t.segValue .is) (BitVec.ofNat 16 (2 * iv.entryNumber)) ∧
  t = { s.asSupervisor.markAccessed .ss with
        ps := t.ps, halted := false, ssp := t.ssp, ram := t.ram, pc := t.pc
        deviceStores := s.deviceStores.drop (iv.entryCycles s) }

/-- The state `t` is in the reset state of 70_reset_and_hazards.md R391, R392 as seen from `s`: PS, the Clock rate, the halted state
and PC are written, and nothing is pushed. -/
def ResetFrom (s t : State) : Prop :=
  t = { s with
        ps := 0x8000, halted := false, rtc := { s.rtc with rate := 0 },
        pc := wordOfBytes (s.romByte 0) (s.romByte 1) }

end Sys2Proof.Machine
end

