-- ==== Sys2Proof/Certificates/Slice0/Obligations.lean ====
section
/-! DEFINITION. The statements about the machine, from the numbered rules of spec/. The terms they use are those of Sys2Proof/Safety.lean.
A statement about an instruction gives its whole next state as an equation, so it is the instruction's frame too. -/

open Sys2Proof Sys2Proof.Machine

/-! ### Decoding and encoding -/

/-- 30_encoding.md R130 to R156: decoding the bytes of a well-formed instruction gives the instruction back, with all its operands,
and leaves what follows it.
That ignored bits are kept is log 20.
That they change nothing else is decision D15. -/
def Obligations.DecodeOfEncode : Prop :=
  ∀ (i : Instr) (rest : List Byte), i.wf = true → decodeBytes (encodeBytes i ++ rest) = .ok (i, rest)

/-- 30_encoding.md R132: a decoded instruction is well-formed, and it encodes to the very words it was read from, ignored bits
included, with as many immediate words as R131 says.
That ignored bits are kept is log 20.
That they change nothing else is decision D15. -/
def Obligations.EncodeOfDecode : Prop :=
  ∀ (w i1 i2 i3 : Word) (i : Instr), decodeWords w i1 i2 i3 = .ok i →
    i.wf = true ∧ encode i = w :: [i1, i2, i3].take (immediateCount w)

/-- 30_encoding.md R133, R144, R149, R156: the words no instruction stands for are the processor functions from $05 and the hardware
queries that are not listed; every other word of the 65536 decodes.
That the functions from $05 are undefined is decision D13. -/
def Obligations.RejectedWords : Prop :=
  ∀ (w i1 i2 i3 : Word),
    (decodeWords w i1 i2 i3 = .error .undefinedProcessorFunction ↔ w.toNat % 256 = 0xB4 ∧ 5 ≤ w.toNat / 256) ∧
    (decodeWords w i1 i2 i3 = .error .undefinedHwqIndex ↔
      w.toNat % 256 = 0xBA ∧ w.toNat / 256 ∉ [0x00, 0x01, 0x02, 0x03, 0x80, 0x82, 0x83]) ∧
    decodeWords w i1 i2 i3 ≠ .error .truncated

/-- 30_encoding.md R131: the length of an instruction is the one that rule computes from the opcode word alone. -/
def Obligations.InstructionLength : Prop :=
  ∀ (i : Instr), i.wf = true →
    let w := (opcode i).toNat
    let lo := w % 256
    let mode := w / 512 % 64
    lengthOf i =
      if lo ≤ 0x8F ∨ lo = 0xB8 ∨ lo = 0xB9 then
        if mode = 0 then (if (lo = 0xB8 ∨ lo = 0xB9) ∧ w / 256 % 2 = 1 then 8 else 4)
        else if mode = 1 then 4
        else if mode / 8 = 3 then 4
        else 2
      else 2

/-- Words the spec writes out: `LOD R0, $1234` (30_encoding.md R135), `CLF Z`, `CLF C, V, Z` (47 R301), `PSH R1` (46 R291), `POP FL, USP`
(46 R294), `ASL R0, 8` and `ASL R0, R1` (41 R222), `JMP.F $FF06, $83600008` (45 R285), RTI (47 R314), `LSG SSU` (47 R310), HWQ $83 (47 R309).
The field of `ASL R0, 8` is decision D11 (log 1). -/
def Obligations.SpecWordsDecode : Prop :=
  decodeTableWord 32 0x12340080 = some (.lod 0 (.immediate false false 0x1234)) ∧
  decodeTableWord 16 0x40AF = some (.clf 0x40) ∧
  decodeTableWord 16 0x70AF = some (.clf 0x70) ∧
  decodeTableWord 16 0x02B0 = some (.pshGeneral 0x02) ∧
  decodeTableWord 16 0x41B3 = some (.popControl 0x41) ∧
  decodeTableWord 16 0x07A0 = some (.asl 0 (.constant 7)) ∧
  decodeTableWord 16 0x11A0 = some (.asl 0 (.register false 1)) ∧
  decodeTableWord 64 0x83600008FF0601B8 = some (.jmpF (.immediate false 0xFF06 0x83600008)) ∧
  decodeTableWord 16 0x02B4 = some .rti ∧
  decodeTableWord 16 0x86B5 = some (.lsg true 0 3) ∧
  decodeTableWord 16 0x83BA = some .hwq83

/-! ### Steps -/

/-- 10_state.md R36, 40_alu.md R171: where the words at PC, as the code segment gives them, decode to an instruction, a step that no
asynchronous interrupt and no halted wait takes is the meaning of that instruction, in the state the fetch left. STO in Immediate
mode, and JMP.F and JSR.F in user mode, raise before their immediate words are fetched (60_exceptions.md R360, D27, log 21): there the
opcode word alone is read.
The access cycles of the fetch are decision D25, what devices store before each log 16; the environment's turn is log 15. -/
def Obligations.StepRunsTheDecodedInstruction : Prop :=
  ∀ (s s1 : State) (ws : List Word) (i : Instr),
    s.runsInstruction = true → s.environmentTurn.pc.getLsbD 0 = false →
    decodeBytes (ws.flatMap fun v => [BitVec.ofNat 8 v.toNat, BitVec.ofNat 8 (v.toNat / 256)]) = .ok (i, []) →
    let e := s.environmentTurn
    let raisesFirst := (∃ d es x v, i = .sto d (.immediate es x v)) ∨ (e.supervisor = false ∧ ∃ m, i = .jmpF m ∨ i = .jsrF m)
    ((¬ raisesFirst ∧ readWords .code .other ws.length e.pc e = some (ws, s1)) ∨
      (raisesFirst ∧ ∃ w, ws.head? = some w ∧ readWord .code .other e.pc e = .done w s1)) →
    s1 = e.withBus s1 ∧ step s = exec i s1

/-- 47_processor_functions.md R302, R317 and 60_exceptions.md R347, R348, R360: a word that stands for no instruction raises UndefFault, and an HWQ
word in user mode UnprivFault, with the word as the error code; a fault of the opcode fetch itself has a free value as its error code
(decision D20, log 12); a fault of the fetch of an immediate word has the opcode word. Each saves the address of the opcode word. STO in Immediate
mode and a far jump in user mode raise before their immediate words are fetched.
Which of the two faults user mode gets is log 22, the order of the causes D27 (log 21); the saved address is decision D5 (log 1).
That the processor functions from $05 are undefined is decision D13.
The error code is the whole opcode word, ignored bits included (log 20). -/
def Obligations.FetchRaisesInterrupts : Prop :=
  ∀ (s : State), s.runsInstruction = true → s.environmentTurn.pc.getLsbD 0 = false →
    let e := s.environmentTurn
    (∀ (w i1 i2 i3 : Word) (r : Reject) (s1 : State), readWord .code .other e.pc e = .done w s1 →
      decodeWords w i1 i2 i3 = .error r →
      step s = .next (takeInterrupt
        (if r = .undefinedHwqIndex ∧ e.supervisor = false then .unprivFault w else .undefFault w) e.pc s1)) ∧
    (∀ (v w : Bool) (s1 : State), readWord .code .other e.pc e = .trap (.segment v w) s1 →
      ∃ c, step s = .next (takeInterrupt (.segFault v w c) e.pc (s1.withDraws (s1.draws + 1)))) ∧
    (∀ (w : Word) (ws : List Word) (s1 s2 s3 : State) (v x : Bool), readWord .code .other e.pc e = .done w s1 →
      ws.length < immediateCount w → readWords .code .other ws.length (e.pc + 2) s1 = some (ws, s2) →
      readWord .code .other (e.pc + 2 + BitVec.ofNat 16 (2 * ws.length)) s2 = .trap (.segment v x) s3 →
      ¬ (w.toNat % 256 / 8 = 17 ∧ w.toNat / 512 % 64 = 0) →
      ¬ ((w.toNat % 256 = 0xB8 ∨ w.toNat % 256 = 0xB9) ∧ w.toNat / 256 % 2 = 1 ∧ e.supervisor = false) →
      step s = .next (takeInterrupt (.segFault v x w) e.pc s3))

/-- 20_memory.md R88: a step is refused exactly when it would fetch at an odd PC, and then by that name. The refusal is decision D24, log 2.
The rest is the model's choice, log 25 (DESIGN CHOICE): no step answers a fault, since every fault is an interrupt that the machine
takes, to the TripleFault reset at last (60_exceptions.md R345, R352); and a halted processor that nothing wakes, which the spec calls
stuck (47_processor_functions.md R316, U24, decision D35), still answers a next state, as the environment can wake it. -/
def Obligations.OnlyAnOddPcIsRefused : Prop :=
  ∀ (s : State),
    (∀ f, step s ≠ .fault f) ∧
    (∀ r, step s = .refused r → r = .oddProgramCounter) ∧
    ((∃ t, step s = .next t) ↔ ¬ (s.runsInstruction = true ∧ s.environmentTurn.pc.getLsbD 0 = true))

/-! ### Invariants and confinement -/

/-- Every step keeps the invariant `State.wf`: canonical memories, RAM entries at connected addresses, reserved bits of FL and PS clear,
the Clock rate within its cap.
That the reserved bits read 0 is decision D6.
The canonical form and the byte of unlisted RAM are log 8, the connected addresses log 23. -/
def Obligations.StepKeepsWellFormed : Prop :=
  ∀ (s t : State), s.wf = true → step s = .next t → t.wf = true

/-- The state after reset has the invariant.
The values that the spec leaves open at reset are the choices of logs 3 to 10, the reserved bits decision D6. -/
def Obligations.ResetIsWellFormed : Prop := State.reset.wf = true

/-- 10_state.md R63: after reset PS is $8000, the Clock rate is 0, the processor is not halted, and PC is the word at ROM offset 0. -/
def Obligations.ResetState : Prop :=
  State.reset.ps = 0x8000 ∧ State.reset.rtc.rate = 0 ∧ State.reset.halted = false ∧
  State.reset.pc = wordOfBytes (State.reset.romByte 0) (State.reset.romByte 1)

/-- 60_exceptions.md R361, R363, R364: an instruction that user mode executes either ends in supervisor mode (it raised an
interrupt) or leaves PS, SSP, the segment registers but for their A bits, the RTC, ROM, the platform, the lines and the halted
state as they were.
That STX and STO to PS are privileged are decisions D31 and D14; the script is log 15. -/
def Obligations.UserModeIsConfined : Prop :=
  ∀ (i : Instr) (s t : State), s.supervisor = false → exec i s = .next t → t.supervisor = false →
    t.ps = s.ps ∧ t.ssp = s.ssp ∧ t.rtc = s.rtc ∧ t.rom = s.rom ∧ t.platform = s.platform ∧ t.lines = s.lines ∧
    t.halted = s.halted ∧ t.script = s.script ∧
    ∀ n : SegName, t.segs.get n ||| 0x10000000 = s.segs.get n ||| 0x10000000

/-- 20_memory.md R92, R98, R108: with the MMU on, an instruction that user mode executes without an interrupt leaves every byte of RAM that
no user data, extra data or stack segment maps for writing as the devices' turns before its access cycles left it.
The access cycles are decision D25; that what devices store before each is data of the state is log 16 (DESIGN CHOICE). -/
def Obligations.UserModeStoresStayInUserSegments : Prop :=
  ∀ (i : Instr) (s t : State) (a : Nat),
    Memory.wf s.ram = true → s.supervisor = false → s.mmuOn = true →
    (∀ n ∈ [SegName.dsu, SegName.esu, SegName.ssu], ∀ off : Word,
      checkAccess (s.segs.get n) off true = none → Machine.translate (s.segs.get n) off ≠ .ram a) →
    exec i s = .next t → t.supervisor = false →
    ∃ n, t.deviceStores = s.deviceStores.drop n ∧ t.ramByte a = (State.afterCycles n s).ramByte a

/-! ### Memory -/

/-- 20_memory.md R90 to R98, R101, R103, R104, R107: what a read of one byte gives, for every segment kind and every state. A read that passes its
checks is one access cycle, before which devices have their turn (R106); a read of a connected device window is a call on the device.
The order of the checks is decision D17, the StackFault of PSH and POP D18, the cycle D25 (log 16), that addresses from 2^24 and 2^28
are not connected D33; what a device returns is free (log 13). -/
def Obligations.ReadingAByte : Prop :=
  ∀ (k : SegKind) (p : Purpose) (off : Word) (s : State),
    let r : SegReg :=
      if s.mmuOn then
        match k with
        | .code => if s.interruptMode then s.segs.isr else if s.supervisor then s.segs.css else s.segs.csu
        | .ds => if s.supervisor then s.segs.dss else s.segs.dsu
        | .es => if s.supervisor then s.segs.ess else s.segs.esu
        | .ss => if s.supervisor then s.segs.sss else s.segs.ssu
        | .is => s.segs.isr
      else if k = .code ∨ k = .is then 0x8FF00000 else 0x0FF00000
    let size := (r.toNat / 2 ^ 20 % 2 ^ 8) * 256 + 256
    let device := r.toNat / 2 ^ 16 % 2 ^ 4
    let a := (if r.getLsbD 31 then r.toNat % 2 ^ 16 else r.toNat % 2 ^ 20) * 256 + off.toNat
    let connected := ∃ d, (s.platform.devices[device - 1]?).join = some d ∧ a < d.windowBytes ∧ a < 2 ^ 24
    let e := s.deviceTurn
    (r.getLsbD 29 = true → readByte k p off s = .trap (.segment false false) s) ∧
    (r.getLsbD 29 = false → size ≤ off.toNat →
      readByte k p off s = .trap (if p = .pshPop then .stack else .segment true false) s) ∧
    (r.getLsbD 29 = false → off.toNat < size → r.getLsbD 31 = false →
      readByte k p off s =
        .done (if a < s.platform.ramBytes ∧ a < 2 ^ 28 then Memory.read e.ram a else 0) e) ∧
    (r.getLsbD 29 = false → off.toNat < size → r.getLsbD 31 = true → device = 0 →
      readByte k p off s =
        .done (if a < s.platform.romBytes ∧ a < 2 ^ 24 then Memory.read s.rom a else 0) e) ∧
    (r.getLsbD 29 = false → off.toNat < size → r.getLsbD 31 = true → device ≠ 0 → ¬ connected →
      readByte k p off s = .done 0 e) ∧
    (r.getLsbD 29 = false → off.toNat < size → r.getLsbD 31 = true → device ≠ 0 → connected →
      ∃ b, readByte k p off s =
        .done b { e with calls := .read (BitVec.ofNat 4 device) a :: s.calls, draws := s.draws + 1 })

/-- 20_memory.md R93: with the MMU off no access is refused by a check, and no write touches a segment register; each is as many access cycles
as R106 says, and changes nothing but RAM.
The cycles are decision D25 (log 16). -/
def Obligations.MmuOffNeverFaults : Prop :=
  ∀ (k : SegKind) (p : Purpose) (off v : Word) (b : Byte) (s : State), s.mmuOn = false →
    (∃ x, readByte k p off s = .done x s.deviceTurn) ∧
    (∃ x, readWord k p off s = .done x (State.afterCycles (wordCycles off) s)) ∧
    (∃ t, writeByte k p off b s = .done () t ∧ t = { s with ram := t.ram, deviceStores := s.deviceStores.drop 1 }) ∧
    (∃ t, writeWord k p off v s = .done () t ∧
      t = { s with ram := t.ram, deviceStores := s.deviceStores.drop (wordCycles off) })

/-- 20_memory.md R98, R99, R102, R107: a write is refused by the first check that fails; a write that passes its checks sets the A bit of the
governing register while the MMU is on, and changes one byte of RAM at most, or is a call that gives the byte to a device.
The order of the checks is decision D17, the A bit D32, the StackFault of PSH and POP D18, the access cycle D25 (log 16).
A write to a window as a call is log 13. -/
def Obligations.WritingAByte : Prop :=
  ∀ (k : SegKind) (p : Purpose) (off : Word) (b : Byte) (s : State),
    let r := s.segValue k
    (r.getLsbD 29 = true → writeByte k p off b s = .trap (.segment false false) s) ∧
    (r.getLsbD 29 = false → segmentSize r ≤ off.toNat →
      writeByte k p off b s = .trap (if p = .pshPop then .stack else .segment true false) s) ∧
    (r.getLsbD 29 = false → off.toNat < segmentSize r → r.getLsbD 30 = true →
      writeByte k p off b s = .trap (.segment false true) s) ∧
    (r.getLsbD 29 = false → off.toNat < segmentSize r → r.getLsbD 30 = false →
      ∃ t, writeByte k p off b s = .done () t ∧
        (∀ a, Machine.translate r off ≠ .ram a → t.ramByte a = s.deviceTurn.ramByte a) ∧
        t = { s with
              ram := t.ram, deviceStores := s.deviceStores.drop 1, calls := t.calls, draws := t.draws, segs := t.segs } ∧
        (∀ slot a, Machine.translate r off = .device slot a → s.windowConnected slot a = true →
          t.calls = .write slot a b :: s.calls ∧ t.draws = s.draws + 1) ∧
        ((∀ slot a, Machine.translate r off = .device slot a → s.windowConnected slot a = false) →
          t.calls = s.calls ∧ t.draws = s.draws) ∧
        ∀ n, t.segs.get n =
          if s.mmuOn = true ∧ n = s.segNameOf k then s.segs.get n ||| 0x10000000 else s.segs.get n)

/-- 20_memory.md R84, R100: after a word is written where both its bytes lie in connected RAM, which devices keep off meanwhile, its low byte
reads at its address and its high byte at the next, through the same segment, and the word reads back whole.
The byte order is decision D1, the wrap of the second byte D16, the access cycles D25 (log 16). -/
def Obligations.WordReadsBackAsWritten : Prop :=
  ∀ (k : SegKind) (p q : Purpose) (off v : Word) (s t : State) (a b : Nat),
    Memory.wf s.ram = true → writeWord k p off v s = .done () t →
    Machine.translate (s.segValue k) off = .ram a → Machine.translate (s.segValue k) (off + 1) = .ram b →
    s.ramConnected a = true → s.ramConnected b = true →
    s.devicesKeepOff (2 * wordCycles off) (fun x => x = a ∨ x = b) →
    readByte k q off t = .done (BitVec.ofNat 8 v.toNat) t.deviceTurn ∧
    readByte k q (off + 1) t = .done (BitVec.ofNat 8 (v.toNat / 256)) t.deviceTurn ∧
    readWord k q off t = .done v (State.afterCycles (wordCycles off) t)

/-! ### ALU instructions -/

/-- 40_alu.md R171, R174, 30_encoding.md R136: the value M of every addressing mode, in both widths. Reading it takes at most
two access cycles (20_memory.md R106) and changes nothing else but the calls on devices and the count of draws.
PC reads as the next address by decision D4 (log 1); the undefined forms are D13, the wrap of addresses D16. The access cycles are
decision D25; that what devices store before each is data of the state is log 16 (DESIGN CHOICE); the calls and draws are log 13.
The reserved bits of FL and PS are decision D6. -/
def Obligations.OperandValue : Prop :=
  ∀ (m : Operand) (s : State),
    (∀ x s1, readOperand m s = .done x s1 →
      (∃ n ≤ 2, s1 = { State.afterCycles n s with calls := s1.calls, draws := s1.draws }) ∧ s.draws ≤ s1.draws) ∧
    match m with
    | .immediate _ e v =>
      ∃ x, readOperand m s = .done x s ∧ x.width = (if e then 8 else 16) ∧ x.nat = v.toNat % 2 ^ x.width
    | .register _ e r =>
      ∃ x, readOperand m s = .done x s ∧ x.width = (if e then 8 else 16) ∧ x.nat = (s.reg r).toNat % 2 ^ x.width
    | .undefinedMode _ _ _ => readOperand m s = .trap .undefined s
    | .control _ p =>
      readOperand m s =
        if p = 0 then .done (.word (s.fl &&& 0xF000)) s
        else if p = 1 then .done (.word (s.pc + 2)) s
        else if p = 2 then .done (.word (s.ps &&& 0xFF00)) s
        else if p = 6 then .done (.word s.usp) s
        else if p = 7 then .done (.word (if s.supervisor then s.ssp else s.usp)) s
        else .trap .undefined s
    | .absolute es e a =>
      readOperand m s = readSized (if es then .es else .ds) a e s
    | .indirect es e r =>
      readOperand m s = readSized (if es then .es else .ds) (s.reg r) e s
    | .indirectOffset es e r off =>
      readOperand m s = readSized (if es then .es else .ds) (BitVec.ofNat 16 ((s.reg r).toNat + off.toNat)) e s
    | .indirectIndexed es e ii r =>
      ∀ j : Reg, j.val = 4 + ii.toNat →
        readOperand m s =
          readSized (if es then .es else .ds) (BitVec.ofNat 16 ((s.reg r).toNat + (s.reg j).toNat)) e s

/-- 60_exceptions.md R350, 40_alu.md R171: where M cannot be read, an ALU instruction takes the interrupt with its own address and its
opcode word, before it writes a register or a flag.
Precision is decision D39, the saved address D5 (log 1).
The error code is the whole opcode word, ignored bits included (log 20). The access cycles are decision D25, what devices store before each
log 16. -/
def Obligations.OperandFaultIsPrecise : Prop :=
  ∀ (d : Reg) (m : Operand) (s s1 : State) (x : Trap), readOperand m s = .trap x s1 →
    s1 = s.withBus s1 ∧
    ∀ i ∈ [Instr.cmp d m, .neg d m, .add d m, .sub d m, .adc d m, .sbc d m, .mul d m, .div d m, .mli d m, .dvi d m, .mod d m,
           .mdi d m, .and d m, .orr d m, .eor d m, .not d m, .lod d m],
      exec i s = .next (takeInterrupt (x.interrupt (opcode i)) s.pc s1)

/-- 40_alu.md R177, R179 (R172 for 8 bits): ADD and ADC.
C and V of the 8-bit form are decision D7. -/
def Obligations.AdditionSetsSumAndFlags : Prop :=
  ∀ (d : Reg) (m : Operand) (s s1 : State) (x : OpValue), readOperand m s = .done x s1 →
    ∀ (i : Instr) (cin : Bool), (i = .add d m ∧ cin = false) ∨ (i = .adc d m ∧ cin = s.flags.c) →
      let w := x.width
      let t := x.first (s.reg d) + x.nat + cin.toNat
      let r := t % 2 ^ w
      exec i s = .next ((s.withBus s1).finish d r
        { n := decide (2 ^ (w - 1) ≤ r), z := decide (r = 0), c := decide (2 ^ w ≤ t)
          v := !fitsSigned w (x.firstInt (s.reg d) + x.int + cin.toNat) } (nextPc i s))

/-- 40_alu.md R178, R180 (R172 for 8 bits): SUB and SBC; C is "no borrow".
The polarity of C is decision D9, C and V of the 8-bit form D7. -/
def Obligations.SubtractionSetsDifferenceAndFlags : Prop :=
  ∀ (d : Reg) (m : Operand) (s s1 : State) (x : OpValue), readOperand m s = .done x s1 →
    ∀ (i : Instr) (borrow : Nat),
      (i = .sub d m ∧ borrow = 0) ∨ (i = .sbc d m ∧ borrow = 1 - s.flags.c.toNat) →
      let w := x.width
      let r := wrapped w ((x.first (s.reg d) : Int) - x.nat - borrow)
      exec i s = .next ((s.withBus s1).finish d r
        { n := decide (2 ^ (w - 1) ≤ r), z := decide (r = 0)
          c := decide (x.nat + borrow ≤ x.first (s.reg d))
          v := !fitsSigned w (x.firstInt (s.reg d) - x.int - borrow) } (nextPc i s))

/-- 40_alu.md R176, R187 to R191 (R172 for 8 bits): NEG, AND, ORR, EOR, NOT and LOD write the result, N and Z; NEG writes V; C, and V but for
NEG, are kept. -/
def Obligations.NegationLogicAndLoad : Prop :=
  ∀ (d : Reg) (m : Operand) (s s1 : State) (x : OpValue), readOperand m s = .done x s1 →
    let w := x.width
    let a := x.first (s.reg d)
    ∀ (i : Instr) (r : Nat) (v : Bool),
      (i = .neg d m ∧ r = wrapped w (0 - (x.nat : Int)) ∧ v = decide (x.nat = 2 ^ (w - 1))) ∨
        (i = .and d m ∧ r = a &&& x.nat ∧ v = s.flags.v) ∨ (i = .orr d m ∧ r = a ||| x.nat ∧ v = s.flags.v) ∨
        (i = .eor d m ∧ r = a ^^^ x.nat ∧ v = s.flags.v) ∨ (i = .not d m ∧ r = 2 ^ w - 1 - x.nat ∧ v = s.flags.v) ∨
        (i = .lod d m ∧ r = x.nat ∧ v = s.flags.v) →
      exec i s = .next ((s.withBus s1).finish d r { s.flags.sign w r with v := v } (nextPc i s))

/-- 40_alu.md R175 (R172 for 8 bits): CMP writes N, Z and C, keeps V, and writes no register.
That CMP.8 compares the low bytes, as unsigned and as signed numbers, is decision D7. -/
def Obligations.CompareSetsFlags : Prop :=
  ∀ (d : Reg) (m : Operand) (s s1 : State) (x : OpValue), readOperand m s = .done x s1 →
    exec (.cmp d m) s = .next (((s.withBus s1).setFlags
      { s.flags with
        n := decide (x.int ≤ x.firstInt (s.reg d)), z := decide (x.first (s.reg d) = x.nat)
        c := decide (x.nat ≤ x.first (s.reg d)) }).setPc (nextPc (.cmp d m) s))

/-- 40_alu.md R181, R183, 10_state.md R32: the 16-bit MUL and MLI put the high half of the product in R0 and then the low half in Rx. -/
def Obligations.MultiplySetsBothHalves : Prop :=
  ∀ (d : Reg) (m : Operand) (s s1 : State) (v : Word), readOperand m s = .done (.word v) s1 →
    ∀ (i : Instr) (p : Nat) (n : Bool),
      (i = .mul d m ∧ p = (s.reg d).toNat * v.toNat ∧ n = false) ∨
        (i = .mli d m ∧ p = wrapped 32 (signedValue 16 (s.reg d).toNat * signedValue 16 v.toNat) ∧ n = decide (2 ^ 31 ≤ p)) →
      exec i s = .next (((s.withBus s1).setReg 0 (BitVec.ofNat 16 (p / 2 ^ 16))).finish d (p % 2 ^ 16)
        { s.flags with n := n, z := decide (p = 0), c := decide (p / 2 ^ 16 ≠ 0) } (nextPc i s))

/-- 40_alu.md R194: MUL.8 and MLI.8 put the low byte of the product in Rx, zero-extended. What R0 (where it is not Rx) and N, Z, C hold
is a free value (decision D8, log 11): the statement holds whatever it is. -/
def Obligations.MultiplyBytes : Prop :=
  ∀ (d : Reg) (m : Operand) (s s1 : State) (b : Byte), readOperand m s = .done (.byte b) s1 →
    ∀ (i : Instr) (p : Int),
      (i = .mul d m ∧ p = ((s.reg d).toNat % 2 ^ 8 : Nat) * (b.toNat : Int)) ∨
        (i = .mli d m ∧ p = signedValue 8 ((s.reg d).toNat % 2 ^ 8) * signedValue 8 b.toNat) →
      ∃ (h : Word) (n z c : Bool),
        exec i s = .next ((if d = 0 then s.withBus s1.afterDraw else (s.withBus s1.afterDraw).setReg 0 h).finish d
          (wrapped 8 p) { s.flags with n := n, z := z, c := c } (nextPc i s))

/-- 40_alu.md R182, R185: DIV and MOD, and DivZeroFault with register and flags unchanged.
That flags are unchanged by the fault is decision D39; that it saves the instruction's own address is D5 (log 1, 60_exceptions.md R347).
The error code is the whole opcode word, ignored bits included (log 20). -/
def Obligations.DivideUnsigned : Prop :=
  ∀ (d : Reg) (m : Operand) (s s1 : State) (x : OpValue), readOperand m s = .done x s1 →
    let a := x.first (s.reg d)
    (x.nat ≠ 0 →
      exec (.div d m) s = .next ((s.withBus s1).finish d (a / x.nat)
        { s.flags with n := false, z := decide (a / x.nat = 0) } (nextPc (.div d m) s)) ∧
      exec (.mod d m) s = .next ((s.withBus s1).finish d (a % x.nat)
        (s.flags.sign x.width (a % x.nat)) (nextPc (.mod d m) s))) ∧
    (x.nat = 0 → ∀ i ∈ [Instr.div d m, .mod d m],
      exec i s = .next (takeInterrupt (.divZeroFault (opcode i)) s.pc (s.withBus s1)))

/-- 40_alu.md R184, R186: DVI and MDI truncate toward zero; the one quotient that does not fit wraps and sets V; DivZeroFault with
register and flags unchanged.
Truncation is decision D10, V of DVI.8 D7, unchanged flags by the fault D39; that the fault saves the instruction's own address is D5
(log 1, 60_exceptions.md R347).
The error code is the whole opcode word, ignored bits included (log 20). -/
def Obligations.DivideSigned : Prop :=
  ∀ (d : Reg) (m : Operand) (s s1 : State) (x : OpValue), readOperand m s = .done x s1 →
    let w := x.width
    let q := (x.firstInt (s.reg d)).tdiv x.int
    let r := wrapped w (x.firstInt (s.reg d) - x.int * q)
    (x.nat ≠ 0 →
      exec (.dvi d m) s = .next ((s.withBus s1).finish d (wrapped w q)
        { s.flags.sign w (wrapped w q) with v := !fitsSigned w q } (nextPc (.dvi d m) s)) ∧
      exec (.mdi d m) s = .next ((s.withBus s1).finish d r (s.flags.sign w r) (nextPc (.mdi d m) s))) ∧
    (x.nat = 0 → ∀ i ∈ [Instr.dvi d m, .mdi d m],
      exec i s = .next (takeInterrupt (.divZeroFault (opcode i)) s.pc (s.withBus s1)))

/-- 40_alu.md R192: STO to memory writes one byte or one word of Rx at the operand's address and nothing else: every other byte of RAM is as the
devices' turns before its access cycles left it, and of the segment registers only the A bit of the one that governs the store changes
(20_memory.md R99). Immediate and Register mode raise UndefFault, and a store that its checks refuse raises the fault with memory as it
was.
That the faults save the instruction's own address is decision D5 (log 1, 60_exceptions.md R347); the access cycles are D25 (log 16).
The two bytes of a word, at `a` and `a + 1` modulo 2^16 and both checked before either is written, are decision D16 (R100), the A bit D32.
The error code is the whole opcode word, ignored bits included (log 20). The calls on a device and the draws are log 13. -/
def Obligations.StoreToMemory : Prop :=
  ∀ (d : Reg) (m : Operand) (s : State),
    (∀ k a e t, operandAddress m s = some (k, a, e) →
      (if e then writeByte k .other a (BitVec.ofNat 8 (s.reg d).toNat) s else writeWord k .other a (s.reg d) s) = .done () t →
      let cycles := if e then 1 else wordCycles a
      exec (.sto d m) s = .next (t.setPc (nextPc (.sto d m) s)) ∧
      t = { s with
            ram := t.ram, deviceStores := s.deviceStores.drop cycles, calls := t.calls, draws := t.draws
            segs := (s.markAccessed k).segs } ∧
      s.draws ≤ t.draws ∧ t.draws ≤ s.draws + 2 ∧ (onBoard (s.segValue k) = true → t.calls = s.calls ∧ t.draws = s.draws) ∧
      (∀ n, (s.markAccessed k).segs.get n =
        if s.mmuOn = true ∧ n = s.segNameOf k then s.segs.get n ||| 0x10000000 else s.segs.get n) ∧
      (Memory.wf s.ram = true → ∀ p,
        (Machine.translate (s.segValue k) a ≠ .ram p → (e = true ∨ Machine.translate (s.segValue k) (a + 1) ≠ .ram p) →
          t.ramByte p = (State.afterCycles cycles s).ramByte p) ∧
        (Machine.translate (s.segValue k) a = .ram p → s.ramConnected p = true → s.devicesKeepOff cycles (· = p) →
          t.ramByte p = BitVec.ofNat 8 (s.reg d).toNat) ∧
        (e = false → Machine.translate (s.segValue k) (a + 1) = .ram p → s.ramConnected p = true →
          t.ramByte p = BitVec.ofNat 8 ((s.reg d).toNat / 256)))) ∧
    (∀ k a e x t, operandAddress m s = some (k, a, e) →
      (if e then writeByte k .other a (BitVec.ofNat 8 (s.reg d).toNat) s else writeWord k .other a (s.reg d) s) = .trap x t →
      exec (.sto d m) s = .next (takeInterrupt (x.interrupt (opcode (.sto d m))) s.pc s)) ∧
    (∀ es e v, m = .immediate es e v →
      exec (.sto d m) s = .next (takeInterrupt (.undefFault (opcode (.sto d m))) s.pc s)) ∧
    (∀ es e r, m = .register es e r →
      exec (.sto d m) s = .next (takeInterrupt (.undefFault (opcode (.sto d m))) s.pc s))

/-- 40_alu.md R193: STO to each control register, in both modes.
The reserved bits are decision D6, the faults D13 and D14; that they save the instruction's own address is D5 (log 1).
The error code is the whole opcode word, ignored bits included (log 20). -/
def Obligations.StoreToControlRegister : Prop :=
  ∀ (d : Reg) (es : Bool) (p : BitVec 3) (s : State),
    let i := Instr.sto d (.control es p)
    let v := s.reg d
    exec i s = .next (
      if p = 0 then { s with fl := v &&& 0xF000, pc := s.pc + 2 }
      else if p = 1 then { s with pc := v }
      else if p = 2 then
        if s.ps.getLsbD 15 then { s with ps := v &&& 0xFF00, pc := s.pc + 2 }
        else takeInterrupt (.unprivFault (opcode i)) s.pc s
      else if p = 6 then { s with usp := v, pc := s.pc + 2 }
      else if p = 7 then
        if s.ps.getLsbD 15 then { s with ssp := v, pc := s.pc + 2 } else { s with usp := v, pc := s.pc + 2 }
      else takeInterrupt (.undefFault (opcode i)) s.pc s)

/-! ### Shifts, bit tests, increments, flags -/

/-- 41_shift.md R220 to R225: ASL, LSL, LSR and ASR, for every count from 0 to 16.
The count of a constant field is decision D11 (log 1). -/
def Obligations.ShiftResultsAndFlags : Prop :=
  ∀ (d : Reg) (n : CountOperand) (s : State),
    let v := (s.reg d).toNat
    let k := statedCount n s
    let left := v * 2 ^ k
    let low := decide (v % 2 ^ k ≠ 0)
    let right := wrapped 16 (signedValue 16 v / 2 ^ k)
    (∀ i ∈ [Instr.asl d n, .lsl d n],
      exec i s = .next (s.finish d (left % 2 ^ 16)
        { s.flags.sign 16 (left % 2 ^ 16) with c := decide (2 ^ 16 ≤ left) } (nextPc i s))) ∧
    exec (.lsr d n) s = .next (s.finish d (v / 2 ^ k)
      { s.flags.sign 16 (v / 2 ^ k) with c := low } (nextPc (.lsr d n) s)) ∧
    exec (.asr d n) s = .next (s.finish d right
      { s.flags.sign 16 right with c := low, v := decide (v ≠ 0xFFFF) && decide (right = 0xFFFF) } (nextPc (.asr d n) s))

/-- 41_shift.md R226 to R229: RNL and RNR move bit `j` by the count modulo 16 and keep C and V; ROL and ROR turn the ring of C (bit 16) and the
register by the count, within 17 bits, and keep V.
The count of a constant field is decision D11 (log 1). -/
def Obligations.Rotates : Prop :=
  ∀ (d : Reg) (n : CountOperand) (s : State),
    let k := statedCount n s
    let ring : Nat → Bool := fun j => if j = 16 then s.flags.c else (s.reg d).getLsbD j
    (∃ l r : Word,
      (∀ j, j < 16 → l.getLsbD ((j + k) % 16) = (s.reg d).getLsbD j) ∧
      (∀ j, j < 16 → r.getLsbD j = (s.reg d).getLsbD ((j + k) % 16)) ∧
      exec (.rnl d n) s = .next (s.finish d l.toNat (s.flags.sign 16 l.toNat) (nextPc (.rnl d n) s)) ∧
      exec (.rnr d n) s = .next (s.finish d r.toNat (s.flags.sign 16 r.toNat) (nextPc (.rnr d n) s))) ∧
    (∃ (l r : Word) (cl cr : Bool),
      (∀ j, j < 17 → (if (j + k) % 17 = 16 then cl else l.getLsbD ((j + k) % 17)) = ring j) ∧
      (∀ j, j < 17 → (if j = 16 then cr else r.getLsbD j) = ring ((j + k) % 17)) ∧
      exec (.rol d n) s = .next (s.finish d l.toNat { s.flags.sign 16 l.toNat with c := cl } (nextPc (.rol d n) s)) ∧
      exec (.ror d n) s = .next (s.finish d r.toNat { s.flags.sign 16 r.toNat with c := cr } (nextPc (.ror d n) s)))

/-- 42_bit_test.md R240 to R244: BTT, BTX, BTC and BTS. -/
def Obligations.BitTests : Prop :=
  ∀ (d : Reg) (n : CountOperand) (s : State),
    let b := statedIndex n s
    let old := (s.reg d).getLsbD b
    exec (.btt d n) s = .next ((s.setFlags { s.flags with z := !old }).setPc (s.pc + 2)) ∧
    ∀ (i : Instr) (new c : Bool),
      (i = .btx d n ∧ new = !old ∧ c = !old) ∨ (i = .btc d n ∧ new = false ∧ c = old) ∨
        (i = .bts d n ∧ new = true ∧ c = !old) →
      ∃ r : Word, (∀ j, j < 16 → r.getLsbD j = if j = b then new else (s.reg d).getLsbD j) ∧
        exec i s = .next (((s.setReg d r).setFlags { s.flags with z := !old, c := c }).setPc (s.pc + 2))

/-- 44_increment_set.md R270 to R272, R274: ADI and SBI add and subtract 1 to 32 and write all four flags; SET loads one of its 64 constants and
writes no flag.
The polarity of C is decision D9, the kept flags of SET D12 (log 1). -/
def Obligations.IncrementsAndSet : Prop :=
  ∀ (d : Reg) (v : BitVec 5) (alternate : Bool) (s : State),
    let a := (s.reg d).toNat
    let k := v.toNat + 1
    let r := wrapped 16 ((a : Int) - k)
    let constant : Nat :=
      if alternate = false then v.toNat else if v.toNat ≤ 0x0A then 2 ^ (5 + v.toNat) else 0xFFE0 + v.toNat
    exec (.adi d v) s = .next (s.finish d ((a + k) % 2 ^ 16)
      { n := decide (2 ^ 15 ≤ (a + k) % 2 ^ 16), z := decide ((a + k) % 2 ^ 16 = 0), c := decide (2 ^ 16 ≤ a + k)
        v := !fitsSigned 16 (signedValue 16 a + k) } (s.pc + 2)) ∧
    exec (.sbi d v) s = .next (s.finish d r
      { n := decide (2 ^ 15 ≤ r), z := decide (r = 0), c := decide (k ≤ a)
        v := !fitsSigned 16 (signedValue 16 a - k) } (s.pc + 2)) ∧
    exec (.set alternate d v) s = .next ((s.setReg d (BitVec.ofNat 16 constant)).setPc (s.pc + 2)) ∧ constant < 2 ^ 16

/-- 47_processor_functions.md R300, R301: SEF sets and CLF clears the flags its octet selects, whatever the low four bits of the octet,
and leaves the others. -/
def Obligations.FlagInstructions : Prop :=
  ∀ (bits : BitVec 8) (s : State), s.fl &&& 0x0FFF = 0 →
    exec (.sef bits) s = .next ((s.setFlags
      { n := s.flags.n || bits.getLsbD 7, z := s.flags.z || bits.getLsbD 6
        c := s.flags.c || bits.getLsbD 5, v := s.flags.v || bits.getLsbD 4 }).setPc (s.pc + 2)) ∧
    exec (.clf bits) s = .next ((s.setFlags
      { n := s.flags.n && !bits.getLsbD 7, z := s.flags.z && !bits.getLsbD 6
        c := s.flags.c && !bits.getLsbD 5, v := s.flags.v && !bits.getLsbD 4 }).setPc (s.pc + 2))

/-! ### Branches and jumps -/

/-- 43_branch.md R250 to R261: every branch writes PC and nothing else, to its own address plus twice its signed offset where its
condition on FL holds, else to the next instruction.
The base of the offset is decision D3 (log 1). -/
def Obligations.Branches : Prop :=
  ∀ (b : BitVec 8) (s : State) (i : Instr) (cond : Bool),
    let n := s.fl.getLsbD 15
    let z := s.fl.getLsbD 14
    let c := s.fl.getLsbD 13
    let v := s.fl.getLsbD 12
    (i = .bcc b ∧ cond = !c) ∨ (i = .bcs b ∧ cond = c) ∨ (i = .bne b ∧ cond = !z) ∨ (i = .beq b ∧ cond = z) ∨
      (i = .bpl b ∧ cond = !n) ∨ (i = .bmi b ∧ cond = n) ∨ (i = .bvc b ∧ cond = !v) ∨ (i = .bvs b ∧ cond = v) ∨
      (i = .bug b ∧ cond = (!z && c)) ∨ (i = .bsg b ∧ cond = (n && !z)) ∨ (i = .baw b ∧ cond = true) →
    exec i s = .next { s with
      pc := BitVec.ofInt 16 (s.pc.toNat + if cond then 2 * signedValue 8 b.toNat else 2) }

/-- 40_alu.md R195 with 43_branch.md R251 to R260: after `CMP R, M` the unsigned and signed branches are taken exactly as the
comparison of R with M says.
The comparison of CMP.8 is decision D7, the base of the offset D3 (log 1). -/
def Obligations.CompareThenBranch : Prop :=
  ∀ (d : Reg) (m : Operand) (s s1 t : State) (x : OpValue) (b : BitVec 8),
    readOperand m s = .done x s1 → exec (.cmp d m) s = .next t →
    ∀ (i : Instr) (taken : Prop),
      (i = .bug b ∧ taken = (x.nat < x.first (s.reg d))) ∨ (i = .bcs b ∧ taken = (x.nat ≤ x.first (s.reg d))) ∨
        (i = .bcc b ∧ taken = (x.first (s.reg d) < x.nat)) ∨ (i = .bsg b ∧ taken = (x.int < x.firstInt (s.reg d))) ∨
        (i = .bmi b ∧ taken = (x.int ≤ x.firstInt (s.reg d))) ∨ (i = .bpl b ∧ taken = (x.firstInt (s.reg d) < x.int)) ∨
        (i = .beq b ∧ taken = (x.first (s.reg d) = x.nat)) →
      (taken → exec i t = .next (t.setPc (BitVec.ofInt 16 (t.pc.toNat + 2 * signedValue 8 b.toNat)))) ∧
      (¬ taken → exec i t = .next (t.setPc (t.pc + 2)))

/-- 45_jump_call.md R280, R281: a near JMP loads PC with the immediate word, with the register, or with the word of data memory its
mode addresses, and changes nothing else but what the read of that word changes.
The undefined modes are decision D13; that a fault saves the instruction's own address is D5 (log 1, 60_exceptions.md R347).
The error code is the whole opcode word, ignored bits included (log 20). -/
def Obligations.NearJump : Prop :=
  ∀ (m : JumpOperand) (s : State),
    (∀ es t g, m = .immediate es t g → exec (.jmp m) s = .next { s with pc := t }) ∧
    (∀ es r f, m = .register es r f → exec (.jmp m) s = .next { s with pc := s.reg r }) ∧
    (∀ es x, m = .undefinedMode es x →
      exec (.jmp m) s = .next (takeInterrupt (.undefFault (opcode (.jmp m))) s.pc s)) ∧
    (∀ k a, jumpAddress m s = some (k, a) →
      (∀ v s1, readWord k .other a s = .done v s1 → exec (.jmp m) s = .next ((s.withBus s1).setPc v)) ∧
      (∀ x s1, readWord k .other a s = .trap x s1 →
        exec (.jmp m) s = .next (takeInterrupt (x.interrupt (opcode (.jmp m))) s.pc (s.withBus s1))))

/-- 45_jump_call.md R280, R282: JMP.F in supervisor mode loads PC and CSS, from the immediate words or from three words of memory; where one
of the three cannot be read it raises that fault and writes neither; in user mode it raises UnprivFault.
That nothing has changed then is decision D30, that CSS is the register written D37; that a fault saves the instruction's own
address is D5 (log 1, 60_exceptions.md R347).
The error code is the whole opcode word, ignored bits included (log 20). That privilege comes before the operand is D27 (log 21). -/
def Obligations.FarJump : Prop :=
  ∀ (m : JumpOperand) (s : State),
    (∀ es t g, m = .immediate es t g → s.supervisor = true →
      exec (.jmpF m) s = .next { s with pc := t, segs := { s.segs with css := g } }) ∧
    (∀ k a t lo hi s1, jumpAddress m s = some (k, a) → s.supervisor = true →
      readWords k .other 3 a s = some ([t, lo, hi], s1) →
      exec (.jmpF m) s = .next { s.withBus s1 with
        pc := t, segs := { s.segs with css := BitVec.ofNat 32 (hi.toNat * 2 ^ 16 + lo.toNat) } }) ∧
    (∀ k a ws s1 s2 x, jumpAddress m s = some (k, a) → s.supervisor = true → ws.length < 3 →
      readWords k .other ws.length a s = some (ws, s1) →
      readWord k .other (a + BitVec.ofNat 16 (2 * ws.length)) s1 = .trap x s2 →
      exec (.jmpF m) s = .next (takeInterrupt (x.interrupt (opcode (.jmpF m))) s.pc (s.withBus s2))) ∧
    (m.wfFar = true → (∀ es x, m ≠ .undefinedMode es x) → s.supervisor = false →
      exec (.jmpF m) s = .next (takeInterrupt (.unprivFault (opcode (.jmpF m))) s.pc s))

/-- 45_jump_call.md R283: JSR pushes the address of the next instruction on the current stack and goes where JMP goes; where its target
cannot be read it raises that fault, with nothing pushed and PC not written (R280, decision D30).
The push is stated for a stack that devices keep off meanwhile (20_memory.md R108). That a fault saves the instruction's own address
is decision D5 (log 1, 60_exceptions.md R347).
The access cycles of the push are decision D25 and what devices store before each is log 16; the A bit is D32 (20_memory.md R99).
The error code is the whole opcode word, ignored bits included (log 20). -/
def Obligations.NearCall : Prop :=
  ∀ (m : JumpOperand) (s s1 : State),
    (∀ target, Memory.wf s.ram = true → s.stackRoom 1 → s.devicesKeepOff 4 (s.belowSp 2) → nearTarget m s = .done target s1 →
      exec (.jmp m) s = .next ((s.withBus s1).setPc target) ∧
      ∃ t, exec (.jsr m) s = .next t ∧ Pushed [nextPc (.jsr m) s] target (s.withBus s1) t) ∧
    (∀ k a x, jumpAddress m s = some (k, a) → readWord k .other a s = .trap x s1 →
      exec (.jsr m) s = .next (takeInterrupt (x.interrupt (opcode (.jsr m))) s.pc (s.withBus s1)))

/-- 45_jump_call.md R284: JSR.F pushes the high and the low word of CSS and the address of the next instruction, then loads PC and CSS
as JMP.F does; where one of the words of its operand cannot be read it raises that fault, with nothing pushed and neither written
(R280, decision D30).
The pushes are stated for a stack that devices keep off meanwhile (20_memory.md R108). That CSS is the register is decision D37; that a
fault saves the instruction's own address is D5 (log 1, 60_exceptions.md R347).
The access cycles of the pushes are decision D25 and what devices store before each is log 16; the A bit is D32 (20_memory.md R99).
The error code is the whole opcode word, ignored bits included (log 20). -/
def Obligations.FarCall : Prop :=
  ∀ (m : JumpOperand) (s s1 : State),
    (∀ (target : Word) (g : SegReg), Memory.wf s.ram = true → s.stackRoom 3 → s.devicesKeepOff 12 (s.belowSp 6) →
      farTarget m s = .done (target, g) s1 →
      exec (.jmpF m) s = .next (((s.withBus s1).setSeg .css g).setPc target) ∧
      ∃ t, exec (.jsrF m) s = .next (t.setSeg .css g) ∧
        Pushed [BitVec.ofNat 16 (s.segs.css.toNat / 2 ^ 16), BitVec.ofNat 16 s.segs.css.toNat, nextPc (.jsrF m) s] target
          (s.withBus s1) t) ∧
    (∀ k a ws s2 x, jumpAddress m s = some (k, a) → s.supervisor = true → ws.length < 3 →
      readWords k .other ws.length a s = some (ws, s1) →
      readWord k .other (a + BitVec.ofNat 16 (2 * ws.length)) s1 = .trap x s2 →
      exec (.jsrF m) s = .next (takeInterrupt (x.interrupt (opcode (.jsrF m))) s.pc (s.withBus s2)))

/-! ### Stack instructions -/

/-- 46_stack.md R291: PSH of general registers pushes the selected ones, R0 first, on a stack that devices keep off meanwhile
(20_memory.md R108).
The access cycles of the pushes are decision D25 (20_memory.md R106, R110); that what devices store before each is the field `deviceStores`,
an entry a cycle, is log 16 (DESIGN CHOICE); the A bit of the stack segment is decision D32 (20_memory.md R99). -/
def Obligations.PushGeneralRegisters : Prop :=
  ∀ (mask : BitVec 8) (s : State),
    let ws := ((List.finRange 8).filter fun r => mask.getLsbD r.val).map s.reg
    Memory.wf s.ram = true → s.stackRoom ws.length →
    s.devicesKeepOff (ws.length * wordCycles s.sp) (s.belowSp (2 * ws.length)) →
    ∃ t, exec (.pshGeneral mask) s = .next t ∧ Pushed ws (s.pc + 2) s t

/-- 46_stack.md R292, R296: PSH of control registers pushes SP, USP, PS, PC and FL in that order, all as they are before the operation;
in user mode PS is skipped, and UnprivFault is raised after the others were pushed. The stack is one that devices keep off meanwhile
(20_memory.md R108).
PC as the next address is decision D4 (log 1), the saved address of the fault D5 (log 1).
The access cycles of the pushes are decision D25 and what devices store before each is log 16; the A bit is D32 (20_memory.md R99).
The error code is the whole opcode word, ignored bits included (log 20). The reserved bits of PS and FL are decision D6. -/
def Obligations.PushControlRegisters : Prop :=
  ∀ (mask : BitVec 8) (s : State),
    let ws := s.statedControlWords mask
    Memory.wf s.ram = true → s.stackRoom ws.length →
    s.devicesKeepOff (ws.length * wordCycles s.sp) (s.belowSp (2 * ws.length)) →
    ∃ t, Pushed ws s.pc s t ∧
      exec (.pshControl mask) s = .next (
        if mask.getLsbD 2 = true ∧ s.supervisor = false then takeInterrupt (.unprivFault (opcode (.pshControl mask))) s.pc t
        else t.setPc (s.pc + 2))

/-- 46_stack.md R293: POP of general registers loads the selected ones, R7 first, from the words from SP upward. -/
def Obligations.PopGeneralRegisters : Prop :=
  ∀ (mask : BitVec 8) (s s1 : State) (ws : List Word),
    let rs := ((List.finRange 8).filter fun r => mask.getLsbD r.val).reverse
    readWords .ss .pshPop rs.length s.sp s = some (ws, s1) →
    exec (.popGeneral mask) s = .next
      ((((rs.zip ws).foldl (fun t rv => t.setReg rv.1 rv.2) (s.withBus s1)).setSp
        (s.sp + BitVec.ofNat 16 (2 * rs.length))).setPc (s.pc + 2))

/-- 46_stack.md R293: a PSH and a POP with the same mask restore every selected register and the stack pointer, whatever the registers
held in between, on a stack that devices keep off meanwhile (20_memory.md R108).
The access cycles, which the premise counts, are decision D25; that what devices store before each is data of the state is log 16. -/
def Obligations.PopRestoresWhatPushSaved : Prop :=
  ∀ (mask : BitVec 8) (s t u : State),
    Memory.wf s.ram = true → s.stackRoom 8 → s.devicesKeepOff 32 (s.belowSp 16) → exec (.pshGeneral mask) s = .next t →
    u = { t with regs := u.regs, fl := u.fl, pc := u.pc } →
    ∃ z, exec (.popGeneral mask) u = .next z ∧ z.sp = s.sp ∧
      ∀ r : Reg, z.reg r = if mask.getLsbD r.val then s.reg r else u.reg r

/-- 46_stack.md R294, R296: POP of control registers loads FL, PC, PS, USP and SP in that order, each from the stack the one before left;
in user mode PS is skipped, and UnprivFault is raised after the others were loaded. The four selections of FL and PC come first.
That each pop uses the state the one before left is decision D29 (log 24).
That the fault saves the instruction's own address is decision D5 (log 1); the error code is the whole opcode word, ignored bits included
(log 20). The reserved bits are D6. -/
def Obligations.PopControlRegisters : Prop :=
  ∀ (mask : BitVec 8) (s : State),
    ∀ t, popControls mask s.supervisor controlPops (s.setPc (s.pc + 2)) = some t →
      exec (.popControl mask) s = .next (
        if mask.getLsbD 2 = true ∧ s.supervisor = false then
          takeInterrupt (.unprivFault (opcode (.popControl mask))) s.pc (t.setPc s.pc)
        else t)

/-- 20_memory.md R98, R100, R104, 60_exceptions.md R338: a stack access whose first or second byte lies beyond the size of a present stack segment is a
StackFault in every PSH and POP that accesses the stack, and a SegFault in RTS, RTS.F, RTI, LSG, JSR, JSR.F and SSG. SP keeps its
decremented value after a push and is not moved by a pop; where the second byte alone lies beyond, a push has written nothing, and a
pop has read the first byte.
That each byte is checked on its own, the lower address first, and for a write both before either is written is decision D16 (R100); that
the bounds come before the write protection is D17. The division between the two faults is D18; that they save the instruction's own
address is D5 (log 1), and for PSH and POP also D30. The read of the first byte is one access cycle, D25 (log 16).
The error code is the whole opcode word, ignored bits included (log 20). -/
def Obligations.StackBoundsFaults : Prop :=
  ∀ (s : State), (s.segValue .ss).getLsbD 29 = false →
    let size := segmentSize (s.segValue .ss)
    let accesses : BitVec 8 → Prop := fun mask => mask &&& 0xC3 ≠ 0 ∨ (mask.getLsbD 2 = true ∧ s.supervisor = true)
    let named : Bool → BitVec 3 → Prop := fun u r => r.toNat ≤ 3 ∨ (r.toNat = 4 ∧ u = false)
    (size ≤ (s.sp - 2).toNat ∨ ((s.segValue .ss).getLsbD 30 = false ∧ size ≤ (s.sp - 1).toNat) →
      (∀ i, ((∃ mask, mask ≠ 0 ∧ i = .pshGeneral mask) ∨ (∃ mask, accesses mask ∧ i = .pshControl mask)) →
        exec i s = .next (takeInterrupt (.stackFault (opcode i)) s.pc (s.setSp (s.sp - 2)))) ∧
      (∀ m target s1, nearTarget m s = .done target s1 →
        exec (.jsr m) s =
          .next (takeInterrupt (.segFault true false (opcode (.jsr m))) s.pc ((s.withBus s1).setSp (s.sp - 2)))) ∧
      (∀ m target s1, farTarget m s = .done target s1 →
        exec (.jsrF m) s =
          .next (takeInterrupt (.segFault true false (opcode (.jsrF m))) s.pc ((s.withBus s1).setSp (s.sp - 2)))) ∧
      (∀ u x r, named u r → s.supervisor = true →
        exec (.ssg u x r) s =
          .next (takeInterrupt (.segFault true false (opcode (.ssg u x r))) s.pc (s.setSp (s.sp - 2))))) ∧
    (∀ s1, (size ≤ s.sp.toNat ∧ s1 = s) ∨ (size ≤ (s.sp + 1).toNat ∧ ∃ b, readByte .ss .other s.sp s = .done b s1) →
      (∀ i, ((∃ mask, mask ≠ 0 ∧ i = .popGeneral mask) ∨ (∃ mask, accesses mask ∧ i = .popControl mask)) →
        exec i s = .next (takeInterrupt (.stackFault (opcode i)) s.pc s1)) ∧
      (∀ i, (i = .rts ∨ (s.supervisor = true ∧ (i = .rtsF ∨ i = .rti ∨ ∃ u x r, named u r ∧ i = .lsg u x r))) →
        exec i s = .next (takeInterrupt (.segFault true false (opcode i)) s.pc s1)))

/-- 46_stack.md R295 and 47_processor_functions.md R316, in supervisor mode: STX adds twice its signed operand to SP; SLP moves to the next
instruction and halts.
That STX is privileged is decision D31. -/
def Obligations.StxAndSlp : Prop :=
  ∀ (s : State), s.supervisor = true →
    (∀ n : BitVec 8, exec (.stx n) s = .next { s with
      ssp := BitVec.ofInt 16 (s.ssp.toNat + 2 * signedValue 8 n.toNat), pc := s.pc + 2 }) ∧
    exec .slp s = .next { s with pc := s.pc + 2, halted := true }

/-- 47_processor_functions.md R312 to R314: RTS pops PC from the current stack; in supervisor mode RTS.F pops PC and the low and the high word of
CSS, and RTI pops PC and then PS, and nothing else is restored.
That RTS.F writes CSS is decision D37.
The reserved bits of PS are decision D6. -/
def Obligations.Returns : Prop :=
  ∀ (s s1 : State) (t : Word),
    (readWords .ss .other 1 s.sp s = some ([t], s1) →
      exec .rts s = .next (((s.withBus s1).setSp (s.sp + 2)).setPc t)) ∧
    (∀ lo hi, s.supervisor = true → readWords .ss .other 3 s.ssp s = some ([t, lo, hi], s1) →
      exec .rtsF s = .next { s.withBus s1 with
        ssp := s.ssp + 6, pc := t
        segs := { s.segs with css := BitVec.ofNat 32 (hi.toNat * 2 ^ 16 + lo.toNat) } }) ∧
    (∀ p, s.supervisor = true → readWords .ss .other 2 s.ssp s = some ([t, p], s1) →
      exec .rti s = .next { s.withBus s1 with pc := t, ps := p &&& 0xFF00, ssp := s.ssp + 4 })

/-- 47_processor_functions.md R310, R311: in supervisor mode LSG pops the low and the high word of the selected segment register, and SSG
pushes its high and its low word, on a stack that devices keep off meanwhile (20_memory.md R108).
The access cycles of the pushes are decision D25 and what devices store before each is log 16; the A bit is D32 (20_memory.md R99). -/
def Obligations.SegmentRegisterLoadAndStore : Prop :=
  ∀ (s : State) (u : Bool) (x r : BitVec 3) (n : SegName), s.supervisor = true →
    (u, r.toNat, n) ∈
      [(false, 0, SegName.css), (false, 1, .dss), (false, 2, .ess), (false, 3, .sss), (false, 4, .isr),
       (true, 0, .csu), (true, 1, .dsu), (true, 2, .esu), (true, 3, .ssu)] →
    (∀ lo hi s1, readWords .ss .other 2 s.ssp s = some ([lo, hi], s1) →
      exec (.lsg u x r) s = .next { s.withBus s1 with
        ssp := s.ssp + 4, pc := s.pc + 2
        segs := s.segs.set n (BitVec.ofNat 32 (hi.toNat * 2 ^ 16 + lo.toNat)) }) ∧
    (Memory.wf s.ram = true → s.stackRoom 2 → s.devicesKeepOff (2 * wordCycles s.sp) (s.belowSp 4) →
      ∃ t, exec (.ssg u x r) s = .next t ∧
        Pushed [BitVec.ofNat 16 ((s.segs.get n).toNat / 2 ^ 16), BitVec.ofNat 16 (s.segs.get n).toNat] (s.pc + 2) s t)

/-! ### Hardware queries -/

/-- 47_processor_functions.md R303, R306 to R309, in supervisor mode: the device count, the amounts of memory, the RTC time and the Clock
rate, in R0 to R3.
That a query keeps the flags is decision D28, what HWQ $00 counts D40 (log 10). -/
def Obligations.HardwareQueries : Prop :=
  ∀ (s : State), s.supervisor = true →
    let amount : Nat → Nat → Nat := fun bytes half => if bytes = 0 then 0xFFFF else bytes / 2 ^ (16 * half) % 2 ^ 16
    let rate := min (s.reg 0).toNat (s.platform.cpuHz / 1024)
    exec .hwq00 s = .next ((s.setReg 0 s.platform.busDeviceCount).setPc (s.pc + 2)) ∧
    exec .hwq03 s = .next (((((s.setReg 0 (BitVec.ofNat 16 (amount s.platform.ramBytes 0))).setReg 1
      (BitVec.ofNat 16 (amount s.platform.ramBytes 1))).setReg 2 (BitVec.ofNat 16 (amount s.platform.romBytes 0))).setReg 3
      (BitVec.ofNat 16 (amount s.platform.romBytes 1))).setPc (s.pc + 2)) ∧
    exec .hwq80 s = .next (((((s.setReg 0 (BitVec.ofNat 16 (s.rtc.time.year.toNat * 256 + s.rtc.time.month.toNat))).setReg 1
      (BitVec.ofNat 16 (s.rtc.time.day.toNat * 256 + s.rtc.time.hour.toNat))).setReg 2
      (BitVec.ofNat 16 (s.rtc.time.minute.toNat * 256 + s.rtc.time.second.toNat))).setReg 3 s.rtc.time.tick).setPc (s.pc + 2)) ∧
    exec .hwq82 s = .next ((s.setReg 0 s.rtc.rate).setPc (s.pc + 2)) ∧
    exec .hwq83 s = .next (({ s with rtc := { s.rtc with rate := BitVec.ofNat 16 rate } }.setReg 0
      (BitVec.ofNat 16 rate)).setPc (s.pc + 2))

/-- 47_processor_functions.md R304, in supervisor mode: HWQ $01 returns the four words of the slot in R0, the YCPU's own for slot 0, and
$FFFF in R0 alone for an empty slot and for a number above 15.
The number above 15 is decision D28, slot 0 D40. -/
def Obligations.HardwareIdentification : Prop :=
  ∀ (s : State), s.supervisor = true →
    let slot := (s.reg 0).toNat
    let found : Identity → State := fun d =>
      ((((s.setReg 0 d.deviceType).setReg 1 d.manufacturer).setReg 2 d.deviceId).setReg 3 d.flags).setPc (s.pc + 2)
    (slot = 0 → exec .hwq01 s = .next (found s.platform.selfDescription)) ∧
    (∀ d, 1 ≤ slot → slot ≤ 15 → s.platform.devices[slot - 1]? = some (some d) → exec .hwq01 s = .next (found d.identity)) ∧
    (slot ≠ 0 → (15 < slot ∨ s.platform.devices[slot - 1]? = some none) →
      exec .hwq01 s = .next ((s.setReg 0 0xFFFF).setPc (s.pc + 2)))

/-- 47_processor_functions.md R305, in supervisor mode: HWQ $02 has no effect for slot 0, an empty slot or a number above 15; a device answers
with MSG_ACK and return parameters, or with MSG_WAIT or MSG_ERROR and R1, R2 unchanged, and may store to RAM and change its own request
line; the message is a call on the device. What it answers is a free value (log 14): the statement holds whatever it is.
Slot 0 and the number above 15 are decisions D28 and D40; that MSG_WAIT keeps R1 and R2 is log 14. -/
def Obligations.HardwareMessage : Prop :=
  ∀ (s : State), s.supervisor = true →
    let slot := (s.reg 0).toNat
    ((slot = 0 ∨ 15 < slot ∨ s.platform.devices[slot - 1]? = some none) →
      exec .hwq02 s = .next (s.setPc (s.pc + 2))) ∧
    (∀ d, 1 ≤ slot → slot ≤ 15 → s.platform.devices[slot - 1]? = some (some d) →
      ∃ t, exec .hwq02 s = .next t ∧
        t = { s with
              regs := t.regs, ram := t.ram, pc := s.pc + 2, draws := s.draws + 1
              calls := .message (BitVec.ofNat 4 slot) (s.reg 1) (s.reg 2) :: s.calls
              lines := { s.lines with irq := t.lines.irq } } ∧
        (t.reg 0 = 0x0001 ∨ (t.reg 0 = 0x0002 ∧ t.reg 1 = s.reg 1 ∧ t.reg 2 = s.reg 2) ∨
          (t.reg 0 = 0xFFFF ∧ t.reg 1 = s.reg 1 ∧ t.reg 2 = s.reg 2)) ∧
        (∀ r : Reg, 3 ≤ r.val → t.reg r = s.reg r) ∧
        (∀ j, j ≠ slot → t.lines.irq.getLsbD j = s.lines.irq.getLsbD j))

/-! ### Privilege and undefined encodings -/

/-- 60_exceptions.md R362, R340: in user mode every privileged instruction raises UnprivFault with its opcode word and its own address, and has
none of its effect.
STX is decision D31, STO to PS D14; the saved address is D5 (log 1, 60_exceptions.md R347).
The error code is the whole opcode word, ignored bits included (log 20). That privilege comes before the operand is D27. -/
def Obligations.PrivilegedInUserMode : Prop :=
  ∀ (s : State) (i : Instr), s.supervisor = false →
    (i ∈ [Instr.hwq00, .hwq01, .hwq02, .hwq03, .hwq80, .hwq82, .hwq83, .slp, .rti, .rtsF] ∨
      (∃ n, i = .stx n) ∨ (∃ u x r, i = .lsg u x r) ∨ (∃ u x r, i = .ssg u x r) ∨ (∃ d es, i = .sto d (.control es 2)) ∨
      (∃ m : JumpOperand, (i = .jmpF m ∨ i = .jsrF m) ∧ m.wfFar = true ∧ ∀ es x, m ≠ .undefinedMode es x)) →
    exec i s = .next (takeInterrupt (.unprivFault (opcode i)) s.pc s)

/-- 30_encoding.md R155, R156, 43_branch.md R262, 47_processor_functions.md R311: every instruction of an undefined low octet, every undefined
addressing mode, reserved control register and undefined segment selection raises UndefFault with its opcode word and its own address.
Some of the encodings are decision D13; the saved address is D5 (log 1, 60_exceptions.md R347).
The error code is the whole opcode word, ignored bits included (log 20). Which fault comes first in user mode is D27 (log 21). -/
def Obligations.UndefinedEncodings : Prop :=
  ∀ (s : State) (d : Reg) (m : Operand),
    (∀ (h : BitVec 8) (w : Word), ∀ i ∈ [Instr.undefined9A h, .undefined9B h, .undefined9C h, .undefined9D h, .undefined9E h,
        .undefinedBCtoBF w, .undefinedC0toFF w],
      exec i s = .next (takeInterrupt (.undefFault (opcode i)) s.pc s)) ∧
    (((∃ es x e, m = .undefinedMode es x e) ∨ (∃ es p, m = .control es p ∧ p ∈ [3#3, 4#3, 5#3])) →
      ∀ i ∈ [Instr.cmp d m, .neg d m, .add d m, .sub d m, .adc d m, .sbc d m, .mul d m, .div d m, .mli d m, .dvi d m, .mod d m,
             .mdi d m, .and d m, .orr d m, .eor d m, .not d m, .lod d m, .sto d m],
        exec i s = .next (takeInterrupt (.undefFault (opcode i)) s.pc s)) ∧
    (∀ es x, ∀ i ∈ [Instr.jmp (.undefinedMode es x), .jmpF (.undefinedMode es x), .jsr (.undefinedMode es x),
        .jsrF (.undefinedMode es x)], exec i s = .next (takeInterrupt (.undefFault (opcode i)) s.pc s)) ∧
    (∀ u x r, s.supervisor = true → (5 ≤ r.toNat ∨ (r.toNat = 4 ∧ u = true)) → ∀ i ∈ [Instr.lsg u x r, .ssg u x r],
      exec i s = .next (takeInterrupt (.undefFault (opcode i)) s.pc s))

/-! ### Interrupts -/

/-- 60_exceptions.md R345, R346, R347, R349 and 47_processor_functions.md R315: taking an interrupt, from any mode, with the MMU on or off. SWI enters
its interrupt with the address of the next instruction; an instruction of an undefined low octet enters UndefFault with its own address and its word.
The supervisor stack is one that devices keep off meanwhile (20_memory.md R108).
The saved addresses are decision D5 (log 1), the kept bits of PS D34, the stack D38.
The access cycles of the pushes are decision D25 and what devices store before each is log 16; the A bit is D32 (20_memory.md R99).
The error code is the whole opcode word, ignored bits included (log 20). -/
def Obligations.InterruptEntry : Prop :=
  ∀ (s : State), Memory.wf s.ram = true →
    (∀ (iv : Interrupt) (savedPc : Word), EntryReady iv s → Entered iv savedPc s (takeInterrupt iv savedPc s)) ∧
    (EntryReady .swi s → ∃ t, exec .swi s = .next t ∧ Entered .swi (s.pc + 2) s t) ∧
    (∀ (h : BitVec 8) (w : Word), ∀ i ∈ [Instr.undefined9A h, .undefined9B h, .undefined9C h, .undefined9D h, .undefined9E h,
        .undefinedBCtoBF w, .undefinedC0toFF w], EntryReady (.undefFault (opcode i)) s →
      ∃ t, exec i s = .next t ∧ Entered (.undefFault (opcode i)) s.pc s t)

/-- 60_exceptions.md R351: where the first push of an entry, not that of DoubleFault itself (R352), lies beyond the size of the
supervisor stack segment, the entry is abandoned with PS and SSP as it left them, and DoubleFault is entered with the same saved PC, a free error code and U clear.
The rule is decision D19, the free code log 12; that the second byte of the push alone can fail, with nothing written, is D16 (R100).
The access cycles of the pushes are decision D25 and what devices store before each is log 16; the A bit is D32 (20_memory.md R99).
The reserved bits of PS are decision D6. -/
def Obligations.DoubleFaultEntry : Prop :=
  ∀ (iv : Interrupt) (savedPc : Word) (s s1 : State), (∀ c, iv ≠ .doubleFault c) →
    Memory.wf s.ram = true → s.mmuOn = true → s.segs.sss.getLsbD 29 = false →
    (segmentSize s.segs.sss ≤ (s.ssp - 2).toNat ∨ segmentSize s.segs.sss ≤ (s.ssp - 1).toNat) →
    s1 = { s with ps := iv.entryPs (s.ps &&& 0xFF00), halted := false, ssp := s.ssp - 2, draws := s.draws + 1 } →
    EntryReady (.doubleFault 0) s1 →
    ∃ c, Entered (.doubleFault c) savedPc s1 (takeInterrupt iv savedPc s)

/-- 60_exceptions.md R352: a cause that persists (the interrupt segment or the supervisor stack segment not present, or the stack
segment write-protected) ends in the TripleFault state, which is the reset state: nothing is left of the two abandoned entries but at
most six words below SSP, the A bit of SSS, and what devices stored in RAM meanwhile.
The rule is decisions D19 and D36; that a reset keeps every other field is D23 (log 26). The access cycles are decision D25 and what
devices store before each is log 16; the A bit is D32 (20_memory.md R99). -/
def Obligations.TripleFaultResets : Prop :=
  ∀ (iv : Interrupt) (savedPc : Word) (s : State), Memory.wf s.ram = true → s.mmuOn = true →
    (s.segs.isr.getLsbD 29 = true ∨ s.segs.sss.getLsbD 29 = true ∨ s.segs.sss.getLsbD 30 = true) →
    let t := takeInterrupt iv savedPc s
    ∃ (s1 : State) (words cycles : Nat), ResetFrom s1 t ∧
      words ≤ 6 ∧ s1.ssp = s.ssp - BitVec.ofNat 16 (2 * words) ∧ s.draws < s1.draws ∧ s.calls <:+ s1.calls ∧
      s1 = { s with
             ps := s1.ps, ssp := s1.ssp, halted := false, ram := s1.ram, deviceStores := s.deviceStores.drop cycles
             calls := s1.calls, segs := s1.segs, draws := s1.draws } ∧
      (∀ n, s1.segs.get n = s.segs.get n ∨ (n = .sss ∧ s1.segs.get n = s.segs.get n ||| 0x10000000)) ∧
      (∀ a, ¬ s.asSupervisor.belowSp 12 a → s1.ramByte a = (State.afterCycles cycles s).ramByte a)

/-- 60_exceptions.md R353: an interrupt that pushes two words, entered and returned from by RTI with the stack pointer where the entry left it,
restores PC, PS and SSP; the general registers, FL, USP and the segment registers are as the handler left them. Devices keep off the
two words until they are popped (20_memory.md R108).
The stack is decision D38. The access cycles of the pushes and of the two pops are decision D25 (20_memory.md R106); that what devices
store before each is data of the state is log 16 (DESIGN CHOICE).
The reserved bits of PS are decision D6. -/
def Obligations.EntryThenReturnRestores : Prop :=
  ∀ (iv : Interrupt) (savedPc : Word) (s u : State), Memory.wf s.ram = true → EntryReady iv s →
    iv ∈ [Interrupt.clock, .busRefresh, .debugQuery, .swi] →
    u = { takeInterrupt iv savedPc s with regs := u.regs, fl := u.fl, usp := u.usp, pc := u.pc } →
    u.devicesKeepOff (2 * wordCycles s.ssp) (s.asSupervisor.belowSp 4) →
    exec .rti u = .next { State.afterCycles (2 * wordCycles s.ssp) u with
      pc := savedPc, ps := s.ps &&& 0xFF00, ssp := s.ssp }

/-- 60_exceptions.md R355 to R359, R372: what one step takes at a boundary: Reset first, then Clock at a rate that is not 0, the lowest requesting
slot while H is set and Q clear, BusRefresh, DebugQuery; with none of them a halted processor waits. Each is taken with PC as it stands
and its event ends; a device's request stays.
A slot requests while its bit of the request lines is asserted and a device is in it (R371).
These are the model's choices: the gating is decision D21 (log 1), the order and what stays pending D22 (log 19), what wakes a halted
processor D35, a next state while nothing does log 25, the environment's turn log 15. That PC as it stands is the saved PC is decision D5
(log 1, R347). That a Reset keeps every field but the Clock rate, PS, the halted state and PC is decision D23 (log 26,
70_reset_and_hazards.md R391, R392). -/
def Obligations.BoundaryOrder : Prop :=
  ∀ (s : State),
    let e := s.environmentTurn
    let clock := e.lines.clockTick = true ∧ e.rtc.rate ≠ 0
    let enabled := e.ps.getLsbD 13 = true ∧ e.ps.getLsbD 11 = false
    let requests : Nat → Prop := fun k => 
      1 ≤ k ∧ k ≤ 15 ∧ e.lines.irq.getLsbD k = true ∧ ∃ d, e.platform.devices[k - 1]? = some (some d)
    (e.lines.reset = true → ∃ t, step s = .next t ∧ ResetFrom { e with lines := { e.lines with reset := false } } t) ∧
    (e.lines.reset = false → clock →
      step s = .next (takeInterrupt .clock e.pc { e with lines := { e.lines with clockTick := false } })) ∧
    (e.lines.reset = false → ¬ clock → enabled → ∀ k : BitVec 4, requests k.toNat → (∀ j, requests j → k.toNat ≤ j) →
      step s = .next (takeInterrupt (.hwi k) e.pc e)) ∧
    (e.lines.reset = false → ¬ clock → ¬ (enabled ∧ ∃ k, requests k) → e.lines.busChanged = true →
      step s = .next (takeInterrupt .busRefresh e.pc { e with lines := { e.lines with busChanged := false } })) ∧
    (e.lines.reset = false → ¬ clock → ¬ (enabled ∧ ∃ k, requests k) → e.lines.busChanged = false → e.lines.debug = true →
      step s = .next (takeInterrupt .debugQuery e.pc { e with lines := { e.lines with debug := false } })) ∧
    (e.lines.reset = false → ¬ clock → ¬ (enabled ∧ ∃ k, requests k) → e.lines.busChanged = false → e.lines.debug = false →
      e.halted = true → step s = .next e)

/-! ### Access cycles -/

/-- 20_memory.md R106, R108, R110: a 16-bit access in RAM is one access cycle where it is aligned and two where it is not. Before each cycle devices
have their turn: a read sees what they stored, and what they store between the two cycles of an unaligned access falls between its
bytes. A byte after a turn is the last one stored there, else what it was.
The cycles are decision D25 (log 16), the two bytes of an access D16 (R100). -/
def Obligations.AccessCycles : Prop :=
  ∀ (k : SegKind) (p : Purpose) (off v : Word) (s : State),
    let r := s.segValue k
    let a := r.toNat % 2 ^ 20 * 256 + off.toNat
    let b := r.toNat % 2 ^ 20 * 256 + (off + 1).toNat
    let t := s.deviceTurn
    (r.getLsbD 31 = false → r.getLsbD 29 = false → off.toNat < segmentSize r → (off + 1).toNat < segmentSize r →
      (off.toNat % 2 = 0 → readWord k p off s = .done (wordOfBytes (t.ramByte a) (t.ramByte b)) t) ∧
      (off.toNat % 2 = 1 →
        readWord k p off s = .done (wordOfBytes (t.ramByte a) (t.deviceTurn.ramByte b)) t.deviceTurn) ∧
      (r.getLsbD 30 = false → Memory.wf s.ram = true → s.ramConnected a = true → s.ramConnected b = true →
        ∃ u, writeWord k p off v s = .done () u ∧ u.ramByte b = BitVec.ofNat 8 (v.toNat / 256) ∧
          (off.toNat % 2 = 0 → u.ramByte a = BitVec.ofNat 8 v.toNat) ∧
          (off.toNat % 2 = 1 → u.ramByte a = (t.storeRam a (BitVec.ofNat 8 v.toNat)).deviceTurn.ramByte a))) ∧
    t = { s with ram := t.ram, deviceStores := s.deviceStores.drop 1 } ∧
    (s.deviceStores = [] → t = s) ∧
    (∀ cs rest, s.deviceStores = cs :: rest → Memory.wf s.ram = true → ∀ x, s.ramConnected x = true →
      t.ramByte x = ((cs.reverse.find? fun c => c.1 == x).map Prod.snd).getD (s.ramByte x))
end

