-- ==== Sys2Proof/Laws/State.lean ====
section
/-! SUPPORT. What each update of the state does to each field, and the small laws of registers and flags. -/

namespace Sys2Proof.Machine

/-! ### setReg -/

@[simp] theorem State.setReg_regs (s : State) (r : Reg) (v : Word) : (s.setReg r v).regs = s.regs.set r v := rfl
@[simp] theorem State.setReg_fl (s : State) (r : Reg) (v : Word) : (s.setReg r v).fl = s.fl := rfl
@[simp] theorem State.setReg_pc (s : State) (r : Reg) (v : Word) : (s.setReg r v).pc = s.pc := rfl
@[simp] theorem State.setReg_ps (s : State) (r : Reg) (v : Word) : (s.setReg r v).ps = s.ps := rfl
@[simp] theorem State.setReg_ssp (s : State) (r : Reg) (v : Word) : (s.setReg r v).ssp = s.ssp := rfl
@[simp] theorem State.setReg_usp (s : State) (r : Reg) (v : Word) : (s.setReg r v).usp = s.usp := rfl
@[simp] theorem State.setReg_segs (s : State) (r : Reg) (v : Word) : (s.setReg r v).segs = s.segs := rfl
@[simp] theorem State.setReg_halted (s : State) (r : Reg) (v : Word) : (s.setReg r v).halted = s.halted := rfl
@[simp] theorem State.setReg_rtc (s : State) (r : Reg) (v : Word) : (s.setReg r v).rtc = s.rtc := rfl
@[simp] theorem State.setReg_ram (s : State) (r : Reg) (v : Word) : (s.setReg r v).ram = s.ram := rfl
@[simp] theorem State.setReg_rom (s : State) (r : Reg) (v : Word) : (s.setReg r v).rom = s.rom := rfl
@[simp] theorem State.setReg_platform (s : State) (r : Reg) (v : Word) : (s.setReg r v).platform = s.platform := rfl
@[simp] theorem State.setReg_lines (s : State) (r : Reg) (v : Word) : (s.setReg r v).lines = s.lines := rfl
@[simp] theorem State.setReg_script (s : State) (r : Reg) (v : Word) : (s.setReg r v).script = s.script := rfl
@[simp] theorem State.setReg_deviceStores (s : State) (r : Reg) (v : Word) : (s.setReg r v).deviceStores = s.deviceStores := rfl
@[simp] theorem State.setReg_calls (s : State) (r : Reg) (v : Word) : (s.setReg r v).calls = s.calls := rfl
@[simp] theorem State.setReg_draws (s : State) (r : Reg) (v : Word) : (s.setReg r v).draws = s.draws := rfl
@[simp] theorem State.setReg_supervisor (s : State) (r : Reg) (v : Word) : (s.setReg r v).supervisor = s.supervisor := rfl
@[simp] theorem State.setReg_mmuOn (s : State) (r : Reg) (v : Word) : (s.setReg r v).mmuOn = s.mmuOn := rfl
@[simp] theorem State.setReg_hwiEnabled (s : State) (r : Reg) (v : Word) : (s.setReg r v).hwiEnabled = s.hwiEnabled := rfl
@[simp] theorem State.setReg_interruptMode (s : State) (r : Reg) (v : Word) : (s.setReg r v).interruptMode = s.interruptMode := rfl
@[simp] theorem State.setReg_hwiBlocked (s : State) (r : Reg) (v : Word) : (s.setReg r v).hwiBlocked = s.hwiBlocked := rfl
@[simp] theorem State.setReg_segValue (s : State) (r : Reg) (v : Word) (k : SegKind) : (s.setReg r v).segValue k = s.segValue k := rfl
@[simp] theorem State.setReg_sp (s : State) (r : Reg) (v : Word) : (s.setReg r v).sp = s.sp := rfl
@[simp] theorem State.setReg_flags (s : State) (r : Reg) (v : Word) : (s.setReg r v).flags = s.flags := rfl

/-! ### setPc -/

@[simp] theorem State.setPc_regs (s : State) (v : Word) : (s.setPc v).regs = s.regs := rfl
@[simp] theorem State.setPc_fl (s : State) (v : Word) : (s.setPc v).fl = s.fl := rfl
@[simp] theorem State.setPc_pc (s : State) (v : Word) : (s.setPc v).pc = v := rfl
@[simp] theorem State.setPc_ps (s : State) (v : Word) : (s.setPc v).ps = s.ps := rfl
@[simp] theorem State.setPc_ssp (s : State) (v : Word) : (s.setPc v).ssp = s.ssp := rfl
@[simp] theorem State.setPc_usp (s : State) (v : Word) : (s.setPc v).usp = s.usp := rfl
@[simp] theorem State.setPc_segs (s : State) (v : Word) : (s.setPc v).segs = s.segs := rfl
@[simp] theorem State.setPc_halted (s : State) (v : Word) : (s.setPc v).halted = s.halted := rfl
@[simp] theorem State.setPc_rtc (s : State) (v : Word) : (s.setPc v).rtc = s.rtc := rfl
@[simp] theorem State.setPc_ram (s : State) (v : Word) : (s.setPc v).ram = s.ram := rfl
@[simp] theorem State.setPc_rom (s : State) (v : Word) : (s.setPc v).rom = s.rom := rfl
@[simp] theorem State.setPc_platform (s : State) (v : Word) : (s.setPc v).platform = s.platform := rfl
@[simp] theorem State.setPc_lines (s : State) (v : Word) : (s.setPc v).lines = s.lines := rfl
@[simp] theorem State.setPc_script (s : State) (v : Word) : (s.setPc v).script = s.script := rfl
@[simp] theorem State.setPc_deviceStores (s : State) (v : Word) : (s.setPc v).deviceStores = s.deviceStores := rfl
@[simp] theorem State.setPc_calls (s : State) (v : Word) : (s.setPc v).calls = s.calls := rfl
@[simp] theorem State.setPc_draws (s : State) (v : Word) : (s.setPc v).draws = s.draws := rfl
@[simp] theorem State.setPc_supervisor (s : State) (v : Word) : (s.setPc v).supervisor = s.supervisor := rfl
@[simp] theorem State.setPc_mmuOn (s : State) (v : Word) : (s.setPc v).mmuOn = s.mmuOn := rfl
@[simp] theorem State.setPc_hwiEnabled (s : State) (v : Word) : (s.setPc v).hwiEnabled = s.hwiEnabled := rfl
@[simp] theorem State.setPc_interruptMode (s : State) (v : Word) : (s.setPc v).interruptMode = s.interruptMode := rfl
@[simp] theorem State.setPc_hwiBlocked (s : State) (v : Word) : (s.setPc v).hwiBlocked = s.hwiBlocked := rfl
@[simp] theorem State.setPc_segValue (s : State) (v : Word) (k : SegKind) : (s.setPc v).segValue k = s.segValue k := rfl
@[simp] theorem State.setPc_sp (s : State) (v : Word) : (s.setPc v).sp = s.sp := rfl
@[simp] theorem State.setPc_reg (s : State) (v : Word) (q : Reg) : (s.setPc v).reg q = s.reg q := rfl
@[simp] theorem State.setPc_flags (s : State) (v : Word) : (s.setPc v).flags = s.flags := rfl

/-! ### writeFl -/

@[simp] theorem State.writeFl_regs (s : State) (v : Word) : (s.writeFl v).regs = s.regs := rfl
@[simp] theorem State.writeFl_fl (s : State) (v : Word) : (s.writeFl v).fl = v &&& 0xF000 := rfl
@[simp] theorem State.writeFl_pc (s : State) (v : Word) : (s.writeFl v).pc = s.pc := rfl
@[simp] theorem State.writeFl_ps (s : State) (v : Word) : (s.writeFl v).ps = s.ps := rfl
@[simp] theorem State.writeFl_ssp (s : State) (v : Word) : (s.writeFl v).ssp = s.ssp := rfl
@[simp] theorem State.writeFl_usp (s : State) (v : Word) : (s.writeFl v).usp = s.usp := rfl
@[simp] theorem State.writeFl_segs (s : State) (v : Word) : (s.writeFl v).segs = s.segs := rfl
@[simp] theorem State.writeFl_halted (s : State) (v : Word) : (s.writeFl v).halted = s.halted := rfl
@[simp] theorem State.writeFl_rtc (s : State) (v : Word) : (s.writeFl v).rtc = s.rtc := rfl
@[simp] theorem State.writeFl_ram (s : State) (v : Word) : (s.writeFl v).ram = s.ram := rfl
@[simp] theorem State.writeFl_rom (s : State) (v : Word) : (s.writeFl v).rom = s.rom := rfl
@[simp] theorem State.writeFl_platform (s : State) (v : Word) : (s.writeFl v).platform = s.platform := rfl
@[simp] theorem State.writeFl_lines (s : State) (v : Word) : (s.writeFl v).lines = s.lines := rfl
@[simp] theorem State.writeFl_script (s : State) (v : Word) : (s.writeFl v).script = s.script := rfl
@[simp] theorem State.writeFl_deviceStores (s : State) (v : Word) : (s.writeFl v).deviceStores = s.deviceStores := rfl
@[simp] theorem State.writeFl_calls (s : State) (v : Word) : (s.writeFl v).calls = s.calls := rfl
@[simp] theorem State.writeFl_draws (s : State) (v : Word) : (s.writeFl v).draws = s.draws := rfl
@[simp] theorem State.writeFl_supervisor (s : State) (v : Word) : (s.writeFl v).supervisor = s.supervisor := rfl
@[simp] theorem State.writeFl_mmuOn (s : State) (v : Word) : (s.writeFl v).mmuOn = s.mmuOn := rfl
@[simp] theorem State.writeFl_hwiEnabled (s : State) (v : Word) : (s.writeFl v).hwiEnabled = s.hwiEnabled := rfl
@[simp] theorem State.writeFl_interruptMode (s : State) (v : Word) : (s.writeFl v).interruptMode = s.interruptMode := rfl
@[simp] theorem State.writeFl_hwiBlocked (s : State) (v : Word) : (s.writeFl v).hwiBlocked = s.hwiBlocked := rfl
@[simp] theorem State.writeFl_segValue (s : State) (v : Word) (k : SegKind) : (s.writeFl v).segValue k = s.segValue k := rfl
@[simp] theorem State.writeFl_sp (s : State) (v : Word) : (s.writeFl v).sp = s.sp := rfl
@[simp] theorem State.writeFl_reg (s : State) (v : Word) (q : Reg) : (s.writeFl v).reg q = s.reg q := rfl

/-! ### writePs -/

@[simp] theorem State.writePs_regs (s : State) (v : Word) : (s.writePs v).regs = s.regs := rfl
@[simp] theorem State.writePs_fl (s : State) (v : Word) : (s.writePs v).fl = s.fl := rfl
@[simp] theorem State.writePs_pc (s : State) (v : Word) : (s.writePs v).pc = s.pc := rfl
@[simp] theorem State.writePs_ps (s : State) (v : Word) : (s.writePs v).ps = v &&& 0xFF00 := rfl
@[simp] theorem State.writePs_ssp (s : State) (v : Word) : (s.writePs v).ssp = s.ssp := rfl
@[simp] theorem State.writePs_usp (s : State) (v : Word) : (s.writePs v).usp = s.usp := rfl
@[simp] theorem State.writePs_segs (s : State) (v : Word) : (s.writePs v).segs = s.segs := rfl
@[simp] theorem State.writePs_halted (s : State) (v : Word) : (s.writePs v).halted = s.halted := rfl
@[simp] theorem State.writePs_rtc (s : State) (v : Word) : (s.writePs v).rtc = s.rtc := rfl
@[simp] theorem State.writePs_ram (s : State) (v : Word) : (s.writePs v).ram = s.ram := rfl
@[simp] theorem State.writePs_rom (s : State) (v : Word) : (s.writePs v).rom = s.rom := rfl
@[simp] theorem State.writePs_platform (s : State) (v : Word) : (s.writePs v).platform = s.platform := rfl
@[simp] theorem State.writePs_lines (s : State) (v : Word) : (s.writePs v).lines = s.lines := rfl
@[simp] theorem State.writePs_script (s : State) (v : Word) : (s.writePs v).script = s.script := rfl
@[simp] theorem State.writePs_deviceStores (s : State) (v : Word) : (s.writePs v).deviceStores = s.deviceStores := rfl
@[simp] theorem State.writePs_calls (s : State) (v : Word) : (s.writePs v).calls = s.calls := rfl
@[simp] theorem State.writePs_draws (s : State) (v : Word) : (s.writePs v).draws = s.draws := rfl
@[simp] theorem State.writePs_reg (s : State) (v : Word) (q : Reg) : (s.writePs v).reg q = s.reg q := rfl
@[simp] theorem State.writePs_flags (s : State) (v : Word) : (s.writePs v).flags = s.flags := rfl

/-! ### setFlags -/

@[simp] theorem State.setFlags_regs (s : State) (f : Flags) : (s.setFlags f).regs = s.regs := rfl
@[simp] theorem State.setFlags_fl (s : State) (f : Flags) : (s.setFlags f).fl = (f.nibble ++ s.fl.extractLsb' 0 12 : BitVec 16) := rfl
@[simp] theorem State.setFlags_pc (s : State) (f : Flags) : (s.setFlags f).pc = s.pc := rfl
@[simp] theorem State.setFlags_ps (s : State) (f : Flags) : (s.setFlags f).ps = s.ps := rfl
@[simp] theorem State.setFlags_ssp (s : State) (f : Flags) : (s.setFlags f).ssp = s.ssp := rfl
@[simp] theorem State.setFlags_usp (s : State) (f : Flags) : (s.setFlags f).usp = s.usp := rfl
@[simp] theorem State.setFlags_segs (s : State) (f : Flags) : (s.setFlags f).segs = s.segs := rfl
@[simp] theorem State.setFlags_halted (s : State) (f : Flags) : (s.setFlags f).halted = s.halted := rfl
@[simp] theorem State.setFlags_rtc (s : State) (f : Flags) : (s.setFlags f).rtc = s.rtc := rfl
@[simp] theorem State.setFlags_ram (s : State) (f : Flags) : (s.setFlags f).ram = s.ram := rfl
@[simp] theorem State.setFlags_rom (s : State) (f : Flags) : (s.setFlags f).rom = s.rom := rfl
@[simp] theorem State.setFlags_platform (s : State) (f : Flags) : (s.setFlags f).platform = s.platform := rfl
@[simp] theorem State.setFlags_lines (s : State) (f : Flags) : (s.setFlags f).lines = s.lines := rfl
@[simp] theorem State.setFlags_script (s : State) (f : Flags) : (s.setFlags f).script = s.script := rfl
@[simp] theorem State.setFlags_deviceStores (s : State) (f : Flags) : (s.setFlags f).deviceStores = s.deviceStores := rfl
@[simp] theorem State.setFlags_calls (s : State) (f : Flags) : (s.setFlags f).calls = s.calls := rfl
@[simp] theorem State.setFlags_draws (s : State) (f : Flags) : (s.setFlags f).draws = s.draws := rfl
@[simp] theorem State.setFlags_supervisor (s : State) (f : Flags) : (s.setFlags f).supervisor = s.supervisor := rfl
@[simp] theorem State.setFlags_mmuOn (s : State) (f : Flags) : (s.setFlags f).mmuOn = s.mmuOn := rfl
@[simp] theorem State.setFlags_hwiEnabled (s : State) (f : Flags) : (s.setFlags f).hwiEnabled = s.hwiEnabled := rfl
@[simp] theorem State.setFlags_interruptMode (s : State) (f : Flags) : (s.setFlags f).interruptMode = s.interruptMode := rfl
@[simp] theorem State.setFlags_hwiBlocked (s : State) (f : Flags) : (s.setFlags f).hwiBlocked = s.hwiBlocked := rfl
@[simp] theorem State.setFlags_segValue (s : State) (f : Flags) (k : SegKind) : (s.setFlags f).segValue k = s.segValue k := rfl
@[simp] theorem State.setFlags_sp (s : State) (f : Flags) : (s.setFlags f).sp = s.sp := rfl
@[simp] theorem State.setFlags_reg (s : State) (f : Flags) (q : Reg) : (s.setFlags f).reg q = s.reg q := rfl

/-! ### setUsp -/

@[simp] theorem State.setUsp_regs (s : State) (v : Word) : (s.setUsp v).regs = s.regs := rfl
@[simp] theorem State.setUsp_fl (s : State) (v : Word) : (s.setUsp v).fl = s.fl := rfl
@[simp] theorem State.setUsp_pc (s : State) (v : Word) : (s.setUsp v).pc = s.pc := rfl
@[simp] theorem State.setUsp_ps (s : State) (v : Word) : (s.setUsp v).ps = s.ps := rfl
@[simp] theorem State.setUsp_ssp (s : State) (v : Word) : (s.setUsp v).ssp = s.ssp := rfl
@[simp] theorem State.setUsp_usp (s : State) (v : Word) : (s.setUsp v).usp = v := rfl
@[simp] theorem State.setUsp_segs (s : State) (v : Word) : (s.setUsp v).segs = s.segs := rfl
@[simp] theorem State.setUsp_halted (s : State) (v : Word) : (s.setUsp v).halted = s.halted := rfl
@[simp] theorem State.setUsp_rtc (s : State) (v : Word) : (s.setUsp v).rtc = s.rtc := rfl
@[simp] theorem State.setUsp_ram (s : State) (v : Word) : (s.setUsp v).ram = s.ram := rfl
@[simp] theorem State.setUsp_rom (s : State) (v : Word) : (s.setUsp v).rom = s.rom := rfl
@[simp] theorem State.setUsp_platform (s : State) (v : Word) : (s.setUsp v).platform = s.platform := rfl
@[simp] theorem State.setUsp_lines (s : State) (v : Word) : (s.setUsp v).lines = s.lines := rfl
@[simp] theorem State.setUsp_script (s : State) (v : Word) : (s.setUsp v).script = s.script := rfl
@[simp] theorem State.setUsp_deviceStores (s : State) (v : Word) : (s.setUsp v).deviceStores = s.deviceStores := rfl
@[simp] theorem State.setUsp_calls (s : State) (v : Word) : (s.setUsp v).calls = s.calls := rfl
@[simp] theorem State.setUsp_draws (s : State) (v : Word) : (s.setUsp v).draws = s.draws := rfl
@[simp] theorem State.setUsp_supervisor (s : State) (v : Word) : (s.setUsp v).supervisor = s.supervisor := rfl
@[simp] theorem State.setUsp_mmuOn (s : State) (v : Word) : (s.setUsp v).mmuOn = s.mmuOn := rfl
@[simp] theorem State.setUsp_hwiEnabled (s : State) (v : Word) : (s.setUsp v).hwiEnabled = s.hwiEnabled := rfl
@[simp] theorem State.setUsp_interruptMode (s : State) (v : Word) : (s.setUsp v).interruptMode = s.interruptMode := rfl
@[simp] theorem State.setUsp_hwiBlocked (s : State) (v : Word) : (s.setUsp v).hwiBlocked = s.hwiBlocked := rfl
@[simp] theorem State.setUsp_segValue (s : State) (v : Word) (k : SegKind) : (s.setUsp v).segValue k = s.segValue k := rfl
@[simp] theorem State.setUsp_reg (s : State) (v : Word) (q : Reg) : (s.setUsp v).reg q = s.reg q := rfl
@[simp] theorem State.setUsp_flags (s : State) (v : Word) : (s.setUsp v).flags = s.flags := rfl

/-! ### setSeg -/

@[simp] theorem State.setSeg_regs (s : State) (n : SegName) (v : SegReg) : (s.setSeg n v).regs = s.regs := rfl
@[simp] theorem State.setSeg_fl (s : State) (n : SegName) (v : SegReg) : (s.setSeg n v).fl = s.fl := rfl
@[simp] theorem State.setSeg_pc (s : State) (n : SegName) (v : SegReg) : (s.setSeg n v).pc = s.pc := rfl
@[simp] theorem State.setSeg_ps (s : State) (n : SegName) (v : SegReg) : (s.setSeg n v).ps = s.ps := rfl
@[simp] theorem State.setSeg_ssp (s : State) (n : SegName) (v : SegReg) : (s.setSeg n v).ssp = s.ssp := rfl
@[simp] theorem State.setSeg_usp (s : State) (n : SegName) (v : SegReg) : (s.setSeg n v).usp = s.usp := rfl
@[simp] theorem State.setSeg_segs (s : State) (n : SegName) (v : SegReg) : (s.setSeg n v).segs = s.segs.set n v := rfl
@[simp] theorem State.setSeg_halted (s : State) (n : SegName) (v : SegReg) : (s.setSeg n v).halted = s.halted := rfl
@[simp] theorem State.setSeg_rtc (s : State) (n : SegName) (v : SegReg) : (s.setSeg n v).rtc = s.rtc := rfl
@[simp] theorem State.setSeg_ram (s : State) (n : SegName) (v : SegReg) : (s.setSeg n v).ram = s.ram := rfl
@[simp] theorem State.setSeg_rom (s : State) (n : SegName) (v : SegReg) : (s.setSeg n v).rom = s.rom := rfl
@[simp] theorem State.setSeg_platform (s : State) (n : SegName) (v : SegReg) : (s.setSeg n v).platform = s.platform := rfl
@[simp] theorem State.setSeg_lines (s : State) (n : SegName) (v : SegReg) : (s.setSeg n v).lines = s.lines := rfl
@[simp] theorem State.setSeg_script (s : State) (n : SegName) (v : SegReg) : (s.setSeg n v).script = s.script := rfl
@[simp] theorem State.setSeg_deviceStores (s : State) (n : SegName) (v : SegReg) : (s.setSeg n v).deviceStores = s.deviceStores := rfl
@[simp] theorem State.setSeg_calls (s : State) (n : SegName) (v : SegReg) : (s.setSeg n v).calls = s.calls := rfl
@[simp] theorem State.setSeg_draws (s : State) (n : SegName) (v : SegReg) : (s.setSeg n v).draws = s.draws := rfl
@[simp] theorem State.setSeg_supervisor (s : State) (n : SegName) (v : SegReg) : (s.setSeg n v).supervisor = s.supervisor := rfl
@[simp] theorem State.setSeg_mmuOn (s : State) (n : SegName) (v : SegReg) : (s.setSeg n v).mmuOn = s.mmuOn := rfl
@[simp] theorem State.setSeg_hwiEnabled (s : State) (n : SegName) (v : SegReg) : (s.setSeg n v).hwiEnabled = s.hwiEnabled := rfl
@[simp] theorem State.setSeg_interruptMode (s : State) (n : SegName) (v : SegReg) : (s.setSeg n v).interruptMode = s.interruptMode := rfl
@[simp] theorem State.setSeg_hwiBlocked (s : State) (n : SegName) (v : SegReg) : (s.setSeg n v).hwiBlocked = s.hwiBlocked := rfl
@[simp] theorem State.setSeg_sp (s : State) (n : SegName) (v : SegReg) : (s.setSeg n v).sp = s.sp := rfl
@[simp] theorem State.setSeg_reg (s : State) (n : SegName) (v : SegReg) (q : Reg) : (s.setSeg n v).reg q = s.reg q := rfl
@[simp] theorem State.setSeg_flags (s : State) (n : SegName) (v : SegReg) : (s.setSeg n v).flags = s.flags := rfl

/-! ### setRate -/

@[simp] theorem State.setRate_regs (s : State) (v : Word) : (s.setRate v).regs = s.regs := rfl
@[simp] theorem State.setRate_fl (s : State) (v : Word) : (s.setRate v).fl = s.fl := rfl
@[simp] theorem State.setRate_pc (s : State) (v : Word) : (s.setRate v).pc = s.pc := rfl
@[simp] theorem State.setRate_ps (s : State) (v : Word) : (s.setRate v).ps = s.ps := rfl
@[simp] theorem State.setRate_ssp (s : State) (v : Word) : (s.setRate v).ssp = s.ssp := rfl
@[simp] theorem State.setRate_usp (s : State) (v : Word) : (s.setRate v).usp = s.usp := rfl
@[simp] theorem State.setRate_segs (s : State) (v : Word) : (s.setRate v).segs = s.segs := rfl
@[simp] theorem State.setRate_halted (s : State) (v : Word) : (s.setRate v).halted = s.halted := rfl
@[simp] theorem State.setRate_rtc (s : State) (v : Word) : (s.setRate v).rtc = { s.rtc with rate := v } := rfl
@[simp] theorem State.setRate_ram (s : State) (v : Word) : (s.setRate v).ram = s.ram := rfl
@[simp] theorem State.setRate_rom (s : State) (v : Word) : (s.setRate v).rom = s.rom := rfl
@[simp] theorem State.setRate_platform (s : State) (v : Word) : (s.setRate v).platform = s.platform := rfl
@[simp] theorem State.setRate_lines (s : State) (v : Word) : (s.setRate v).lines = s.lines := rfl
@[simp] theorem State.setRate_script (s : State) (v : Word) : (s.setRate v).script = s.script := rfl
@[simp] theorem State.setRate_deviceStores (s : State) (v : Word) : (s.setRate v).deviceStores = s.deviceStores := rfl
@[simp] theorem State.setRate_calls (s : State) (v : Word) : (s.setRate v).calls = s.calls := rfl
@[simp] theorem State.setRate_draws (s : State) (v : Word) : (s.setRate v).draws = s.draws := rfl
@[simp] theorem State.setRate_supervisor (s : State) (v : Word) : (s.setRate v).supervisor = s.supervisor := rfl
@[simp] theorem State.setRate_mmuOn (s : State) (v : Word) : (s.setRate v).mmuOn = s.mmuOn := rfl
@[simp] theorem State.setRate_hwiEnabled (s : State) (v : Word) : (s.setRate v).hwiEnabled = s.hwiEnabled := rfl
@[simp] theorem State.setRate_interruptMode (s : State) (v : Word) : (s.setRate v).interruptMode = s.interruptMode := rfl
@[simp] theorem State.setRate_hwiBlocked (s : State) (v : Word) : (s.setRate v).hwiBlocked = s.hwiBlocked := rfl
@[simp] theorem State.setRate_segValue (s : State) (v : Word) (k : SegKind) : (s.setRate v).segValue k = s.segValue k := rfl
@[simp] theorem State.setRate_sp (s : State) (v : Word) : (s.setRate v).sp = s.sp := rfl
@[simp] theorem State.setRate_reg (s : State) (v : Word) (q : Reg) : (s.setRate v).reg q = s.reg q := rfl
@[simp] theorem State.setRate_flags (s : State) (v : Word) : (s.setRate v).flags = s.flags := rfl

/-! ### afterDraw -/

@[simp] theorem State.afterDraw_regs (s : State) : (s.afterDraw).regs = s.regs := rfl
@[simp] theorem State.afterDraw_fl (s : State) : (s.afterDraw).fl = s.fl := rfl
@[simp] theorem State.afterDraw_pc (s : State) : (s.afterDraw).pc = s.pc := rfl
@[simp] theorem State.afterDraw_ps (s : State) : (s.afterDraw).ps = s.ps := rfl
@[simp] theorem State.afterDraw_ssp (s : State) : (s.afterDraw).ssp = s.ssp := rfl
@[simp] theorem State.afterDraw_usp (s : State) : (s.afterDraw).usp = s.usp := rfl
@[simp] theorem State.afterDraw_segs (s : State) : (s.afterDraw).segs = s.segs := rfl
@[simp] theorem State.afterDraw_halted (s : State) : (s.afterDraw).halted = s.halted := rfl
@[simp] theorem State.afterDraw_rtc (s : State) : (s.afterDraw).rtc = s.rtc := rfl
@[simp] theorem State.afterDraw_ram (s : State) : (s.afterDraw).ram = s.ram := rfl
@[simp] theorem State.afterDraw_rom (s : State) : (s.afterDraw).rom = s.rom := rfl
@[simp] theorem State.afterDraw_platform (s : State) : (s.afterDraw).platform = s.platform := rfl
@[simp] theorem State.afterDraw_lines (s : State) : (s.afterDraw).lines = s.lines := rfl
@[simp] theorem State.afterDraw_script (s : State) : (s.afterDraw).script = s.script := rfl
@[simp] theorem State.afterDraw_deviceStores (s : State) : (s.afterDraw).deviceStores = s.deviceStores := rfl
@[simp] theorem State.afterDraw_calls (s : State) : (s.afterDraw).calls = s.calls := rfl
@[simp] theorem State.afterDraw_draws (s : State) : (s.afterDraw).draws = s.draws + 1 := rfl
@[simp] theorem State.afterDraw_supervisor (s : State) : (s.afterDraw).supervisor = s.supervisor := rfl
@[simp] theorem State.afterDraw_mmuOn (s : State) : (s.afterDraw).mmuOn = s.mmuOn := rfl
@[simp] theorem State.afterDraw_hwiEnabled (s : State) : (s.afterDraw).hwiEnabled = s.hwiEnabled := rfl
@[simp] theorem State.afterDraw_interruptMode (s : State) : (s.afterDraw).interruptMode = s.interruptMode := rfl
@[simp] theorem State.afterDraw_hwiBlocked (s : State) : (s.afterDraw).hwiBlocked = s.hwiBlocked := rfl
@[simp] theorem State.afterDraw_segValue (s : State) (k : SegKind) : (s.afterDraw).segValue k = s.segValue k := rfl
@[simp] theorem State.afterDraw_sp (s : State) : (s.afterDraw).sp = s.sp := rfl
@[simp] theorem State.afterDraw_reg (s : State) (q : Reg) : (s.afterDraw).reg q = s.reg q := rfl
@[simp] theorem State.afterDraw_flags (s : State) : (s.afterDraw).flags = s.flags := rfl

/-! ### afterCall -/

@[simp] theorem State.afterCall_regs (s : State) (c : DeviceCall) : (s.afterCall c).regs = s.regs := rfl
@[simp] theorem State.afterCall_fl (s : State) (c : DeviceCall) : (s.afterCall c).fl = s.fl := rfl
@[simp] theorem State.afterCall_pc (s : State) (c : DeviceCall) : (s.afterCall c).pc = s.pc := rfl
@[simp] theorem State.afterCall_ps (s : State) (c : DeviceCall) : (s.afterCall c).ps = s.ps := rfl
@[simp] theorem State.afterCall_ssp (s : State) (c : DeviceCall) : (s.afterCall c).ssp = s.ssp := rfl
@[simp] theorem State.afterCall_usp (s : State) (c : DeviceCall) : (s.afterCall c).usp = s.usp := rfl
@[simp] theorem State.afterCall_segs (s : State) (c : DeviceCall) : (s.afterCall c).segs = s.segs := rfl
@[simp] theorem State.afterCall_halted (s : State) (c : DeviceCall) : (s.afterCall c).halted = s.halted := rfl
@[simp] theorem State.afterCall_rtc (s : State) (c : DeviceCall) : (s.afterCall c).rtc = s.rtc := rfl
@[simp] theorem State.afterCall_ram (s : State) (c : DeviceCall) : (s.afterCall c).ram = s.ram := rfl
@[simp] theorem State.afterCall_rom (s : State) (c : DeviceCall) : (s.afterCall c).rom = s.rom := rfl
@[simp] theorem State.afterCall_platform (s : State) (c : DeviceCall) : (s.afterCall c).platform = s.platform := rfl
@[simp] theorem State.afterCall_lines (s : State) (c : DeviceCall) : (s.afterCall c).lines = s.lines := rfl
@[simp] theorem State.afterCall_script (s : State) (c : DeviceCall) : (s.afterCall c).script = s.script := rfl
@[simp] theorem State.afterCall_deviceStores (s : State) (c : DeviceCall) : (s.afterCall c).deviceStores = s.deviceStores := rfl
@[simp] theorem State.afterCall_calls (s : State) (c : DeviceCall) : (s.afterCall c).calls = c :: s.calls := rfl
@[simp] theorem State.afterCall_draws (s : State) (c : DeviceCall) : (s.afterCall c).draws = s.draws + 1 := rfl
@[simp] theorem State.afterCall_supervisor (s : State) (c : DeviceCall) : (s.afterCall c).supervisor = s.supervisor := rfl
@[simp] theorem State.afterCall_mmuOn (s : State) (c : DeviceCall) : (s.afterCall c).mmuOn = s.mmuOn := rfl
@[simp] theorem State.afterCall_hwiEnabled (s : State) (c : DeviceCall) : (s.afterCall c).hwiEnabled = s.hwiEnabled := rfl
@[simp] theorem State.afterCall_interruptMode (s : State) (c : DeviceCall) : (s.afterCall c).interruptMode = s.interruptMode := rfl
@[simp] theorem State.afterCall_hwiBlocked (s : State) (c : DeviceCall) : (s.afterCall c).hwiBlocked = s.hwiBlocked := rfl
@[simp] theorem State.afterCall_segValue (s : State) (c : DeviceCall) (k : SegKind) : (s.afterCall c).segValue k = s.segValue k := rfl
@[simp] theorem State.afterCall_sp (s : State) (c : DeviceCall) : (s.afterCall c).sp = s.sp := rfl
@[simp] theorem State.afterCall_reg (s : State) (c : DeviceCall) (q : Reg) : (s.afterCall c).reg q = s.reg q := rfl
@[simp] theorem State.afterCall_flags (s : State) (c : DeviceCall) : (s.afterCall c).flags = s.flags := rfl

/-! ### withDraws -/

@[simp] theorem State.withDraws_regs (s : State) (n : Nat) : (s.withDraws n).regs = s.regs := rfl
@[simp] theorem State.withDraws_fl (s : State) (n : Nat) : (s.withDraws n).fl = s.fl := rfl
@[simp] theorem State.withDraws_pc (s : State) (n : Nat) : (s.withDraws n).pc = s.pc := rfl
@[simp] theorem State.withDraws_ps (s : State) (n : Nat) : (s.withDraws n).ps = s.ps := rfl
@[simp] theorem State.withDraws_ssp (s : State) (n : Nat) : (s.withDraws n).ssp = s.ssp := rfl
@[simp] theorem State.withDraws_usp (s : State) (n : Nat) : (s.withDraws n).usp = s.usp := rfl
@[simp] theorem State.withDraws_segs (s : State) (n : Nat) : (s.withDraws n).segs = s.segs := rfl
@[simp] theorem State.withDraws_halted (s : State) (n : Nat) : (s.withDraws n).halted = s.halted := rfl
@[simp] theorem State.withDraws_rtc (s : State) (n : Nat) : (s.withDraws n).rtc = s.rtc := rfl
@[simp] theorem State.withDraws_ram (s : State) (n : Nat) : (s.withDraws n).ram = s.ram := rfl
@[simp] theorem State.withDraws_rom (s : State) (n : Nat) : (s.withDraws n).rom = s.rom := rfl
@[simp] theorem State.withDraws_platform (s : State) (n : Nat) : (s.withDraws n).platform = s.platform := rfl
@[simp] theorem State.withDraws_lines (s : State) (n : Nat) : (s.withDraws n).lines = s.lines := rfl
@[simp] theorem State.withDraws_script (s : State) (n : Nat) : (s.withDraws n).script = s.script := rfl
@[simp] theorem State.withDraws_deviceStores (s : State) (n : Nat) : (s.withDraws n).deviceStores = s.deviceStores := rfl
@[simp] theorem State.withDraws_calls (s : State) (n : Nat) : (s.withDraws n).calls = s.calls := rfl
@[simp] theorem State.withDraws_draws (s : State) (n : Nat) : (s.withDraws n).draws = n := rfl
@[simp] theorem State.withDraws_supervisor (s : State) (n : Nat) : (s.withDraws n).supervisor = s.supervisor := rfl
@[simp] theorem State.withDraws_mmuOn (s : State) (n : Nat) : (s.withDraws n).mmuOn = s.mmuOn := rfl
@[simp] theorem State.withDraws_hwiEnabled (s : State) (n : Nat) : (s.withDraws n).hwiEnabled = s.hwiEnabled := rfl
@[simp] theorem State.withDraws_interruptMode (s : State) (n : Nat) : (s.withDraws n).interruptMode = s.interruptMode := rfl
@[simp] theorem State.withDraws_hwiBlocked (s : State) (n : Nat) : (s.withDraws n).hwiBlocked = s.hwiBlocked := rfl
@[simp] theorem State.withDraws_segValue (s : State) (n : Nat) (k : SegKind) : (s.withDraws n).segValue k = s.segValue k := rfl
@[simp] theorem State.withDraws_sp (s : State) (n : Nat) : (s.withDraws n).sp = s.sp := rfl
@[simp] theorem State.withDraws_reg (s : State) (n : Nat) (q : Reg) : (s.withDraws n).reg q = s.reg q := rfl
@[simp] theorem State.withDraws_flags (s : State) (n : Nat) : (s.withDraws n).flags = s.flags := rfl

/-! ### withBus -/

@[simp] theorem State.withBus_regs (s : State) (t : State) : (s.withBus t).regs = s.regs := rfl
@[simp] theorem State.withBus_fl (s : State) (t : State) : (s.withBus t).fl = s.fl := rfl
@[simp] theorem State.withBus_pc (s : State) (t : State) : (s.withBus t).pc = s.pc := rfl
@[simp] theorem State.withBus_ps (s : State) (t : State) : (s.withBus t).ps = s.ps := rfl
@[simp] theorem State.withBus_ssp (s : State) (t : State) : (s.withBus t).ssp = s.ssp := rfl
@[simp] theorem State.withBus_usp (s : State) (t : State) : (s.withBus t).usp = s.usp := rfl
@[simp] theorem State.withBus_segs (s : State) (t : State) : (s.withBus t).segs = s.segs := rfl
@[simp] theorem State.withBus_halted (s : State) (t : State) : (s.withBus t).halted = s.halted := rfl
@[simp] theorem State.withBus_rtc (s : State) (t : State) : (s.withBus t).rtc = s.rtc := rfl
@[simp] theorem State.withBus_ram (s : State) (t : State) : (s.withBus t).ram = t.ram := rfl
@[simp] theorem State.withBus_rom (s : State) (t : State) : (s.withBus t).rom = s.rom := rfl
@[simp] theorem State.withBus_platform (s : State) (t : State) : (s.withBus t).platform = s.platform := rfl
@[simp] theorem State.withBus_lines (s : State) (t : State) : (s.withBus t).lines = s.lines := rfl
@[simp] theorem State.withBus_script (s : State) (t : State) : (s.withBus t).script = s.script := rfl
@[simp] theorem State.withBus_deviceStores (s : State) (t : State) : (s.withBus t).deviceStores = t.deviceStores := rfl
@[simp] theorem State.withBus_calls (s : State) (t : State) : (s.withBus t).calls = t.calls := rfl
@[simp] theorem State.withBus_draws (s : State) (t : State) : (s.withBus t).draws = t.draws := rfl
@[simp] theorem State.withBus_supervisor (s : State) (t : State) : (s.withBus t).supervisor = s.supervisor := rfl
@[simp] theorem State.withBus_mmuOn (s : State) (t : State) : (s.withBus t).mmuOn = s.mmuOn := rfl
@[simp] theorem State.withBus_hwiEnabled (s : State) (t : State) : (s.withBus t).hwiEnabled = s.hwiEnabled := rfl
@[simp] theorem State.withBus_interruptMode (s : State) (t : State) : (s.withBus t).interruptMode = s.interruptMode := rfl
@[simp] theorem State.withBus_hwiBlocked (s : State) (t : State) : (s.withBus t).hwiBlocked = s.hwiBlocked := rfl
@[simp] theorem State.withBus_segValue (s : State) (t : State) (k : SegKind) : (s.withBus t).segValue k = s.segValue k := rfl
@[simp] theorem State.withBus_sp (s : State) (t : State) : (s.withBus t).sp = s.sp := rfl
@[simp] theorem State.withBus_reg (s : State) (t : State) (q : Reg) : (s.withBus t).reg q = s.reg q := rfl
@[simp] theorem State.withBus_flags (s : State) (t : State) : (s.withBus t).flags = s.flags := rfl

/-! ### setSp -/

@[simp] theorem State.setSp_regs (s : State) (v : Word) : (s.setSp v).regs = s.regs := by
  unfold State.setSp; split <;> rfl
@[simp] theorem State.setSp_fl (s : State) (v : Word) : (s.setSp v).fl = s.fl := by
  unfold State.setSp; split <;> rfl
@[simp] theorem State.setSp_pc (s : State) (v : Word) : (s.setSp v).pc = s.pc := by
  unfold State.setSp; split <;> rfl
@[simp] theorem State.setSp_ps (s : State) (v : Word) : (s.setSp v).ps = s.ps := by
  unfold State.setSp; split <;> rfl
@[simp] theorem State.setSp_segs (s : State) (v : Word) : (s.setSp v).segs = s.segs := by
  unfold State.setSp; split <;> rfl
@[simp] theorem State.setSp_halted (s : State) (v : Word) : (s.setSp v).halted = s.halted := by
  unfold State.setSp; split <;> rfl
@[simp] theorem State.setSp_rtc (s : State) (v : Word) : (s.setSp v).rtc = s.rtc := by
  unfold State.setSp; split <;> rfl
@[simp] theorem State.setSp_ram (s : State) (v : Word) : (s.setSp v).ram = s.ram := by
  unfold State.setSp; split <;> rfl
@[simp] theorem State.setSp_rom (s : State) (v : Word) : (s.setSp v).rom = s.rom := by
  unfold State.setSp; split <;> rfl
@[simp] theorem State.setSp_platform (s : State) (v : Word) : (s.setSp v).platform = s.platform := by
  unfold State.setSp; split <;> rfl
@[simp] theorem State.setSp_lines (s : State) (v : Word) : (s.setSp v).lines = s.lines := by
  unfold State.setSp; split <;> rfl
@[simp] theorem State.setSp_script (s : State) (v : Word) : (s.setSp v).script = s.script := by
  unfold State.setSp; split <;> rfl
@[simp] theorem State.setSp_deviceStores (s : State) (v : Word) : (s.setSp v).deviceStores = s.deviceStores := by
  unfold State.setSp; split <;> rfl
@[simp] theorem State.setSp_calls (s : State) (v : Word) : (s.setSp v).calls = s.calls := by
  unfold State.setSp; split <;> rfl
@[simp] theorem State.setSp_draws (s : State) (v : Word) : (s.setSp v).draws = s.draws := by
  unfold State.setSp; split <;> rfl
@[simp] theorem State.setSp_supervisor (s : State) (v : Word) : (s.setSp v).supervisor = s.supervisor := by
  simp [State.supervisor]
@[simp] theorem State.setSp_mmuOn (s : State) (v : Word) : (s.setSp v).mmuOn = s.mmuOn := by
  simp [State.mmuOn]
@[simp] theorem State.setSp_hwiEnabled (s : State) (v : Word) : (s.setSp v).hwiEnabled = s.hwiEnabled := by
  simp [State.hwiEnabled]
@[simp] theorem State.setSp_interruptMode (s : State) (v : Word) : (s.setSp v).interruptMode = s.interruptMode := by
  simp [State.interruptMode]
@[simp] theorem State.setSp_hwiBlocked (s : State) (v : Word) : (s.setSp v).hwiBlocked = s.hwiBlocked := by
  simp [State.hwiBlocked]

@[simp] theorem State.setSp_segValue (s : State) (v : Word) (k : SegKind) : (s.setSp v).segValue k = s.segValue k := by
  unfold State.setSp; split <;> rfl

@[simp] theorem State.setSp_reg (s : State) (v : Word) (q : Reg) : (s.setSp v).reg q = s.reg q := by
  simp [State.reg]

@[simp] theorem State.setSp_flags (s : State) (v : Word) : (s.setSp v).flags = s.flags := by
  simp [State.flags]

/-- The stack pointer written is the stack pointer read (00_scope.md R15). -/
@[simp] theorem State.setSp_sp (s : State) (v : Word) : (s.setSp v).sp = v := by
  simp only [State.sp, State.setSp_supervisor]
  unfold State.setSp
  split <;> simp_all

@[simp] theorem State.setSp_setSp (s : State) (v w : Word) : (s.setSp v).setSp w = s.setSp w := by
  unfold State.setSp
  cases h : s.supervisor <;> simp_all [State.supervisor]

/-- In supervisor mode the stack pointer is SSP. -/
theorem State.setSp_of_supervisor {s : State} (h : s.supervisor = true) (v : Word) : s.setSp v = { s with ssp := v } := by
  simp [State.setSp, h]

theorem State.sp_of_supervisor {s : State} (h : s.supervisor = true) : s.sp = s.ssp := by
  simp [State.sp, h]

/-! ### Registers and flags -/

/-- A register reads as it was written. -/
@[simp] theorem State.setReg_reg_same (s : State) (r : Reg) (v : Word) : (s.setReg r v).reg r = v := by
  simp [State.reg, State.setReg]

/-- Writing a register leaves the others. -/
theorem State.setReg_reg_other (s : State) {r q : Reg} (v : Word) (h : q ≠ r) : (s.setReg r v).reg q = s.reg q := by
  have h' : r.val ≠ q.val := fun e => h (Fin.ext e.symm)
  simp only [State.reg, State.setReg, Fin.getElem_fin]
  exact Vector.getElem_set_ne _ _ h'

/-- The flags read as they were written. -/
@[simp] theorem State.setFlags_flags (s : State) (f : Flags) : (s.setFlags f).flags = f := by
  have split16 : ∀ (x : BitVec 4) (y : BitVec 12) (i : Nat), BitVec.getLsbD (w := 16) (x ++ y) i =
      if i < 12 then y.getLsbD i else x.getLsbD (i - 12) := fun x y i => BitVec.getLsbD_append
  obtain ⟨n, z, c, v⟩ := f
  simp only [State.flags, State.setFlags_fl, split16]
  cases n <;> cases z <;> cases c <;> cases v <;> rfl

/-- Reset sets the fields it names and keeps the others (70_reset_and_hazards.md R391, R392). -/
theorem performReset_resetFrom (s : State) : ResetFrom s (performReset s) := rfl

end Sys2Proof.Machine
end

