-- ==== Sys2Proof/Laws/Memory.lean ====
section
/-! SUPPORT. The laws of a byte memory: read after write, the canonical form and its keeping; the same for RAM behind its
connection check. -/

namespace Sys2Proof.Machine

/-- A memory above `low` is a memory above any smaller bound. -/
theorem Memory.wfFrom_mono {low low' : Nat} (h : low' ≤ low) : ∀ {m : Memory}, Memory.wfFrom low m = true → Memory.wfFrom low' m = true
  | [], _ => rfl
  | (a, b) :: m, hm => by
    simp only [Memory.wfFrom, Bool.and_eq_true, decide_eq_true_eq] at hm ⊢
    exact ⟨⟨by omega, hm.1.2⟩, hm.2⟩

/-- An address below every listed one reads as the unlisted byte. -/
theorem Memory.read_below {low x : Nat} (hx : x < low) : ∀ {m : Memory}, Memory.wfFrom low m = true → Memory.read m x = unlistedByte
  | [], _ => rfl
  | (a, b) :: m, hm => by
    simp only [Memory.wfFrom, Bool.and_eq_true, decide_eq_true_eq] at hm
    have hne : a ≠ x := by omega
    simp only [Memory.read, if_neg hne]
    exact Memory.read_below (low := a + 1) (by omega) hm.2

/-- A write leaves every other address alone, whatever the form of the list. -/
theorem Memory.read_write_other {x y : Nat} (b : Byte) (hxy : y ≠ x) : ∀ m : Memory, Memory.read (Memory.write m x b) y = Memory.read m y
  | [] => by
    unfold Memory.write
    split
    · rfl
    · simp [Memory.read, Ne.symm hxy]
  | (a, c) :: m => by
    have ih := Memory.read_write_other b hxy m
    unfold Memory.write
    split
    · split
      · rfl
      · simp [Memory.read, Ne.symm hxy]
    · split
      · rename_i hxa
        subst hxa
        split <;> simp [Memory.read, Ne.symm hxy]
      · simp only [Memory.read, ih]

/-- A byte reads as it was written, in a memory in canonical form. -/
theorem Memory.read_write_same (x : Nat) (b : Byte) :
    ∀ {low : Nat} {m : Memory}, Memory.wfFrom low m = true → Memory.read (Memory.write m x b) x = b
  | _, [], _ => by
    unfold Memory.write
    split
    · simp_all [Memory.read]
    · simp [Memory.read]
  | _, (a, c) :: m, hm => by
    simp only [Memory.wfFrom, Bool.and_eq_true, decide_eq_true_eq] at hm
    have ih := Memory.read_write_same x b hm.2
    unfold Memory.write
    split
    · split
      · rename_i hlt hb
        have hne : a ≠ x := by omega
        rw [hb]
        simp only [Memory.read, if_neg hne]
        exact Memory.read_below (low := a + 1) (by omega) hm.2
      · simp [Memory.read]
    · split
      · rename_i hxa
        subst hxa
        split
        · rename_i hb
          rw [hb]
          exact Memory.read_below (Nat.lt_succ_self _) hm.2
        · simp [Memory.read]
      · rename_i hxa
        have hne : a ≠ x := fun e => hxa e.symm
        simp only [Memory.read, if_neg hne, ih]

/-- A write keeps the canonical form above any bound that the written address respects. -/
theorem Memory.write_wfFrom (x : Nat) (b : Byte) :
    ∀ {low : Nat} {m : Memory}, low ≤ x → Memory.wfFrom low m = true → Memory.wfFrom low (Memory.write m x b) = true
  | low, [], hx, _ => by
    unfold Memory.write
    split
    · rfl
    · rename_i hb
      simp [Memory.wfFrom, hx, hb]
  | low, (a, c) :: m, hx, hm => by
    have hm0 := hm
    simp only [Memory.wfFrom, Bool.and_eq_true, decide_eq_true_eq, Bool.not_eq_true', beq_eq_false_iff_ne] at hm
    unfold Memory.write
    split
    · rename_i hlt
      split
      · exact hm0
      · rename_i hb
        simp [Memory.wfFrom, hx, hb, hm.1.2, hm.2, Nat.succ_le_of_lt hlt]
    · split
      · split
        · exact Memory.wfFrom_mono (by omega) hm.2
        · rename_i hxa hb
          subst hxa
          simp [Memory.wfFrom, hx, hb, hm.2]
      · rename_i hlt hxa
        have ih := Memory.write_wfFrom x b (low := a + 1) (by omega) hm.2
        simp [Memory.wfFrom, hm.1.1, hm.1.2, ih]

/-- A write keeps the canonical form. -/
theorem Memory.write_wf {m : Memory} (x : Nat) (b : Byte) (h : Memory.wf m = true) : Memory.wf (Memory.write m x b) = true :=
  Memory.write_wfFrom x b (Nat.zero_le x) h

/-- Every entry of a memory after a write is an entry from before it, or the one written. -/
theorem Memory.mem_write {x : Nat} {b : Byte} {e : Host.Cell} : ∀ {m : Memory}, e ∈ Memory.write m x b → e ∈ m ∨ e = (x, b)
  | [], h => by
    unfold Memory.write at h
    split at h
    · exact .inl h
    · exact .inr (by simpa using h)
  | (a, c) :: m, h => by
    unfold Memory.write at h
    split at h
    · split at h
      · exact .inl h
      · rcases List.mem_cons.mp h with h | h
        · exact .inr h
        · exact .inl h
    · split at h
      · split at h
        · exact .inl (List.mem_cons_of_mem _ h)
        · rcases List.mem_cons.mp h with h | h
          · exact .inr h
          · exact .inl (List.mem_cons_of_mem _ h)
      · rcases List.mem_cons.mp h with h | h
        · exact .inl (h ▸ List.mem_cons_self)
        · rcases Memory.mem_write h with h | h
          · exact .inl (List.mem_cons_of_mem _ h)
          · exact .inr h

/-- The memory of the reset state has the canonical form. -/
theorem reset_memory_wf : Memory.wf State.reset.ram = true ∧ Memory.wf State.reset.rom = true := ⟨rfl, rfl⟩

/-! ### RAM behind its connection check -/

/-- Storing a byte of RAM changes the RAM field only. -/
theorem State.storeRam_eq (s : State) (a : Nat) (b : Byte) : s.storeRam a b = { s with ram := (s.storeRam a b).ram } := by
  unfold State.storeRam; split <;> rfl

@[simp] theorem State.storeRam_ramConnected (s : State) (a : Nat) (b : Byte) (x : Nat) :
    (s.storeRam a b).ramConnected x = s.ramConnected x := by
  rw [State.storeRam_eq]; rfl

/-- Storing a byte leaves the bytes at the other addresses. -/
theorem State.storeRam_ramByte_other (s : State) {a x : Nat} (b : Byte) (h : x ≠ a) : (s.storeRam a b).ramByte x = s.ramByte x := by
  unfold State.ramByte
  rw [State.storeRam_ramConnected]
  unfold State.storeRam
  split
  · split
    · exact Memory.read_write_other b h s.ram
    · rfl
  · rfl

/-- A stored byte reads back at a connected address. -/
theorem State.storeRam_ramByte_same (s : State) {a : Nat} (b : Byte) (hw : Memory.wf s.ram = true) (hc : s.ramConnected a = true) :
    (s.storeRam a b).ramByte a = b := by
  unfold State.ramByte
  rw [State.storeRam_ramConnected, if_pos hc]
  unfold State.storeRam
  rw [if_pos hc]
  exact Memory.read_write_same a b hw

/-- Storing a byte keeps the canonical form of RAM. -/
theorem State.storeRam_wf (s : State) (a : Nat) (b : Byte) (h : Memory.wf s.ram = true) : Memory.wf (s.storeRam a b).ram = true := by
  unfold State.storeRam
  split
  · exact Memory.write_wf a b h
  · exact h

/-! ### The devices' turn before an access cycle -/

/-- Stores of devices change the RAM field only. -/
theorem State.storeAll_eq : ∀ (cs : List Host.Cell) (s : State), s.storeAll cs = { s with ram := (s.storeAll cs).ram }
  | [], _ => rfl
  | (a, b) :: cs, s => by
    have h := State.storeAll_eq cs (s.storeRam a b)
    show (s.storeRam a b).storeAll cs = { s with ram := ((s.storeRam a b).storeAll cs).ram }
    rw [h, State.storeRam_eq]

/-- What devices store depends on RAM and on what is connected, and on nothing else. -/
theorem State.storeAll_ram_congr : ∀ (cs : List Host.Cell) {s u : State}, u.platform = s.platform → u.ram = s.ram →
    (u.storeAll cs).ram = (s.storeAll cs).ram
  | [], _, _, _, hr => hr
  | (a, b) :: cs, s, u, hp, hr => by
    have hc : u.ramConnected a = s.ramConnected a := by unfold State.ramConnected; rw [hp]
    refine State.storeAll_ram_congr cs ?_ ?_
    · rw [State.storeRam_eq, State.storeRam_eq s]; exact hp
    · unfold State.storeRam
      rw [hc, hr]
      split
      · rfl
      · exact hr

/-- Stores of devices keep the canonical form of RAM. -/
theorem State.storeAll_wf : ∀ (cs : List Host.Cell) (s : State), Memory.wf s.ram = true → Memory.wf (s.storeAll cs).ram = true
  | [], _, h => h
  | (a, b) :: cs, s, h => State.storeAll_wf cs (s.storeRam a b) (State.storeRam_wf s a b h)

/-- Stores of devices leave the bytes at the other addresses. -/
theorem State.storeAll_ramByte_other {a : Nat} : ∀ (cs : List Host.Cell) (s : State), (∀ c ∈ cs, c.1 ≠ a) →
    (s.storeAll cs).ramByte a = s.ramByte a
  | [], _, _ => rfl
  | (x, b) :: cs, s, h => by
    have hx : a ≠ x := fun e => h (x, b) List.mem_cons_self e.symm
    exact (State.storeAll_ramByte_other cs (s.storeRam x b) fun c hc => h c (List.mem_cons_of_mem _ hc)).trans
      (State.storeRam_ramByte_other s b hx)

/-- A byte after stores of devices depends on that byte before them. -/
theorem State.storeAll_ramByte_congr {a : Nat} : ∀ (cs : List Host.Cell) {s u : State}, Memory.wf s.ram = true →
    Memory.wf u.ram = true → u.platform = s.platform → u.ramByte a = s.ramByte a → (u.storeAll cs).ramByte a = (s.storeAll cs).ramByte a
  | [], _, _, _, _, _, h => h
  | (x, b) :: cs, s, u, hs, hu, hp, h => by
    have hc : u.ramConnected x = s.ramConnected x := by unfold State.ramConnected; rw [hp]
    refine State.storeAll_ramByte_congr cs (State.storeRam_wf s x b hs) (State.storeRam_wf u x b hu) ?_ ?_
    · rw [State.storeRam_eq, State.storeRam_eq s]; exact hp
    · by_cases hx : a = x
      · subst hx
        cases hb : s.ramConnected a
        · have e : ∀ w : State, w.ramConnected a = false → w.storeRam a b = w := by
            intro w hw; unfold State.storeRam; rw [hw]; rfl
          rw [e s hb, e u (hc.trans hb)]; exact h
        · rw [State.storeRam_ramByte_same s b hs hb, State.storeRam_ramByte_same u b hu (hc.trans hb)]
      · rw [State.storeRam_ramByte_other s b hx, State.storeRam_ramByte_other u b hx]; exact h

/-- The devices' turn changes RAM and their coming stores only (20_memory.md R108). -/
theorem State.deviceTurn_eq (s : State) :
    s.deviceTurn = { s with ram := s.deviceTurn.ram, deviceStores := s.deviceStores.drop 1 } := by
  unfold State.deviceTurn
  cases h : s.deviceStores with
  | nil => show s = { s with deviceStores := [] }; rw [← h]
  | cons cs rest => exact State.storeAll_eq cs { s with deviceStores := rest }

@[simp] theorem State.deviceTurn_regs (s : State) : (s.deviceTurn).regs = s.regs := by rw [State.deviceTurn_eq]
@[simp] theorem State.deviceTurn_fl (s : State) : (s.deviceTurn).fl = s.fl := by rw [State.deviceTurn_eq]
@[simp] theorem State.deviceTurn_pc (s : State) : (s.deviceTurn).pc = s.pc := by rw [State.deviceTurn_eq]
@[simp] theorem State.deviceTurn_ps (s : State) : (s.deviceTurn).ps = s.ps := by rw [State.deviceTurn_eq]
@[simp] theorem State.deviceTurn_ssp (s : State) : (s.deviceTurn).ssp = s.ssp := by rw [State.deviceTurn_eq]
@[simp] theorem State.deviceTurn_usp (s : State) : (s.deviceTurn).usp = s.usp := by rw [State.deviceTurn_eq]
@[simp] theorem State.deviceTurn_segs (s : State) : (s.deviceTurn).segs = s.segs := by rw [State.deviceTurn_eq]
@[simp] theorem State.deviceTurn_halted (s : State) : (s.deviceTurn).halted = s.halted := by rw [State.deviceTurn_eq]
@[simp] theorem State.deviceTurn_rtc (s : State) : (s.deviceTurn).rtc = s.rtc := by rw [State.deviceTurn_eq]
@[simp] theorem State.deviceTurn_rom (s : State) : (s.deviceTurn).rom = s.rom := by rw [State.deviceTurn_eq]
@[simp] theorem State.deviceTurn_platform (s : State) : (s.deviceTurn).platform = s.platform := by rw [State.deviceTurn_eq]
@[simp] theorem State.deviceTurn_lines (s : State) : (s.deviceTurn).lines = s.lines := by rw [State.deviceTurn_eq]
@[simp] theorem State.deviceTurn_script (s : State) : (s.deviceTurn).script = s.script := by rw [State.deviceTurn_eq]
@[simp] theorem State.deviceTurn_calls (s : State) : (s.deviceTurn).calls = s.calls := by rw [State.deviceTurn_eq]
@[simp] theorem State.deviceTurn_draws (s : State) : (s.deviceTurn).draws = s.draws := by rw [State.deviceTurn_eq]
@[simp] theorem State.deviceTurn_deviceStores (s : State) : (s.deviceTurn).deviceStores = s.deviceStores.drop 1 := by rw [State.deviceTurn_eq]
@[simp] theorem State.deviceTurn_segValue (s : State) (k : SegKind) : (s.deviceTurn).segValue k = s.segValue k := by rw [State.deviceTurn_eq]; rfl

/-- What the devices' turn leaves in RAM depends on RAM, on what is connected and on their coming stores only. -/
theorem State.deviceTurn_ram_congr {s u : State} (hp : u.platform = s.platform) (hr : u.ram = s.ram)
    (hd : u.deviceStores = s.deviceStores) : u.deviceTurn.ram = s.deviceTurn.ram := by
  unfold State.deviceTurn
  rw [hd]
  cases s.deviceStores with
  | nil => exact hr
  | cons cs rest => exact State.storeAll_ram_congr cs hp hr

/-- The devices' turn keeps the canonical form of RAM. -/
theorem State.deviceTurn_wf (s : State) (h : Memory.wf s.ram = true) : Memory.wf s.deviceTurn.ram = true := by
  unfold State.deviceTurn
  split
  · exact h
  · exact State.storeAll_wf _ _ h

@[simp] theorem State.deviceTurn_ramConnected (s : State) (a : Nat) : s.deviceTurn.ramConnected a = s.ramConnected a := by
  rw [State.deviceTurn_eq]; rfl

/-- A byte after the devices' turn depends on that byte before it. -/
theorem State.deviceTurn_ramByte_congr {s u : State} {a : Nat} (hs : Memory.wf s.ram = true) (hu : Memory.wf u.ram = true)
    (hp : u.platform = s.platform) (hd : u.deviceStores = s.deviceStores) (h : u.ramByte a = s.ramByte a) :
    u.deviceTurn.ramByte a = s.deviceTurn.ramByte a := by
  unfold State.deviceTurn
  rw [hd]
  cases s.deviceStores with
  | nil => exact h
  | cons cs rest => exact State.storeAll_ramByte_congr cs hs hu hp h

/-- The turns before `n` access cycles change RAM and the coming stores only. -/
theorem State.afterCycles_eq : ∀ (n : Nat) (s : State),
    State.afterCycles n s = { s with ram := (State.afterCycles n s).ram, deviceStores := s.deviceStores.drop n }
  | 0, _ => rfl
  | n + 1, s => by
    have h := State.afterCycles_eq n s.deviceTurn
    show State.afterCycles n s.deviceTurn = _
    have e : (State.afterCycles (n + 1) s).ram = (State.afterCycles n s.deviceTurn).ram := rfl
    rw [e]
    refine h.trans ?_
    have hd : s.deviceTurn.deviceStores.drop n = s.deviceStores.drop (n + 1) := by
      rw [State.deviceTurn_eq]
      show (s.deviceStores.drop 1).drop n = _
      rw [List.drop_drop, Nat.add_comm]
    rw [hd]
    exact congrArg (fun u : State => { u with ram := (State.afterCycles n s.deviceTurn).ram, deviceStores := s.deviceStores.drop (n + 1) })
      (State.deviceTurn_eq s)

@[simp] theorem State.afterCycles_regs (n : Nat) (s : State) : (State.afterCycles n s).regs = s.regs := by rw [State.afterCycles_eq]
@[simp] theorem State.afterCycles_fl (n : Nat) (s : State) : (State.afterCycles n s).fl = s.fl := by rw [State.afterCycles_eq]
@[simp] theorem State.afterCycles_pc (n : Nat) (s : State) : (State.afterCycles n s).pc = s.pc := by rw [State.afterCycles_eq]
@[simp] theorem State.afterCycles_ps (n : Nat) (s : State) : (State.afterCycles n s).ps = s.ps := by rw [State.afterCycles_eq]
@[simp] theorem State.afterCycles_ssp (n : Nat) (s : State) : (State.afterCycles n s).ssp = s.ssp := by rw [State.afterCycles_eq]
@[simp] theorem State.afterCycles_usp (n : Nat) (s : State) : (State.afterCycles n s).usp = s.usp := by rw [State.afterCycles_eq]
@[simp] theorem State.afterCycles_segs (n : Nat) (s : State) : (State.afterCycles n s).segs = s.segs := by rw [State.afterCycles_eq]
@[simp] theorem State.afterCycles_halted (n : Nat) (s : State) : (State.afterCycles n s).halted = s.halted := by rw [State.afterCycles_eq]
@[simp] theorem State.afterCycles_rtc (n : Nat) (s : State) : (State.afterCycles n s).rtc = s.rtc := by rw [State.afterCycles_eq]
@[simp] theorem State.afterCycles_rom (n : Nat) (s : State) : (State.afterCycles n s).rom = s.rom := by rw [State.afterCycles_eq]
@[simp] theorem State.afterCycles_platform (n : Nat) (s : State) : (State.afterCycles n s).platform = s.platform := by rw [State.afterCycles_eq]
@[simp] theorem State.afterCycles_lines (n : Nat) (s : State) : (State.afterCycles n s).lines = s.lines := by rw [State.afterCycles_eq]
@[simp] theorem State.afterCycles_script (n : Nat) (s : State) : (State.afterCycles n s).script = s.script := by rw [State.afterCycles_eq]
@[simp] theorem State.afterCycles_calls (n : Nat) (s : State) : (State.afterCycles n s).calls = s.calls := by rw [State.afterCycles_eq]
@[simp] theorem State.afterCycles_draws (n : Nat) (s : State) : (State.afterCycles n s).draws = s.draws := by rw [State.afterCycles_eq]
@[simp] theorem State.afterCycles_deviceStores (n : Nat) (s : State) : (State.afterCycles n s).deviceStores = s.deviceStores.drop n := by rw [State.afterCycles_eq]

theorem State.afterCycles_add : ∀ (m n : Nat) (s : State), State.afterCycles (m + n) s = State.afterCycles n (State.afterCycles m s)
  | 0, n, s => by rw [Nat.zero_add]; rfl
  | m + 1, n, s => by
    rw [Nat.succ_add]
    exact State.afterCycles_add m n s.deviceTurn

theorem State.afterCycles_ram_congr : ∀ (n : Nat) {s u : State}, u.platform = s.platform → u.ram = s.ram →
    u.deviceStores = s.deviceStores → (State.afterCycles n u).ram = (State.afterCycles n s).ram
  | 0, _, _, _, hr, _ => hr
  | n + 1, s, u, hp, hr, hd => by
    refine State.afterCycles_ram_congr n ?_ (State.deviceTurn_ram_congr hp hr hd) ?_
    · rw [State.deviceTurn_eq u, State.deviceTurn_eq s]; exact hp
    · rw [State.deviceTurn_eq u, State.deviceTurn_eq s]; exact congrArg (List.drop 1) hd

theorem State.afterCycles_wf : ∀ (n : Nat) (s : State), Memory.wf s.ram = true → Memory.wf (State.afterCycles n s).ram = true
  | 0, _, h => h
  | n + 1, s, h => State.afterCycles_wf n s.deviceTurn (State.deviceTurn_wf s h)

/-- A byte after turns of devices depends on that byte before them. -/
theorem State.afterCycles_ramByte_congr {a : Nat} : ∀ (n : Nat) {s u : State}, Memory.wf s.ram = true → Memory.wf u.ram = true →
    u.platform = s.platform → u.deviceStores = s.deviceStores → u.ramByte a = s.ramByte a →
    (State.afterCycles n u).ramByte a = (State.afterCycles n s).ramByte a
  | 0, _, _, _, _, _, _, h => h
  | n + 1, s, u, hs, hu, hp, hd, h => by
    refine State.afterCycles_ramByte_congr n (State.deviceTurn_wf s hs) (State.deviceTurn_wf u hu) ?_ ?_
      (State.deviceTurn_ramByte_congr hs hu hp hd h)
    · rw [State.deviceTurn_eq u, State.deviceTurn_eq s]; exact hp
    · rw [State.deviceTurn_eq u, State.deviceTurn_eq s]; exact congrArg (List.drop 1) hd

/-- Devices that keep off an address leave its byte. -/
theorem State.afterCycles_keepOff {P : Nat → Prop} {a : Nat} (ha : P a) : ∀ (n : Nat) {s : State}, s.devicesKeepOff n P →
    (State.afterCycles n s).ramByte a = s.ramByte a
  | 0, _, _ => rfl
  | n + 1, s, h => by
    have ht : s.deviceTurn.devicesKeepOff n P := by
      intro cs hcs c hc
      rw [State.deviceTurn_eq] at hcs
      refine h cs ?_ c hc
      cases hs : s.deviceStores with
      | nil => rw [hs] at hcs; simp at hcs
      | cons x xs =>
        rw [hs] at hcs
        rw [List.take_succ_cons]
        exact List.mem_cons_of_mem _ hcs
    refine (State.afterCycles_keepOff ha n ht).trans ?_
    unfold State.deviceTurn
    cases hs : s.deviceStores with
    | nil => rfl
    | cons cs rest =>
      refine State.storeAll_ramByte_other cs { s with deviceStores := rest } fun c hc e => ?_
      refine h cs ?_ c hc (e ▸ ha)
      rw [hs, List.take_succ_cons]
      exact List.mem_cons_self

/-- A turn that may be none is the turns before one access cycle, or before none. -/
theorem State.turnIf_eq (s : State) (begins : Bool) : s.turnIf begins = State.afterCycles begins.toNat s := by
  cases begins <;> rfl

/-- The access cycles of a 16-bit access: the first, and one more where it is unaligned (20_memory.md R106). -/
theorem wordCycles_eq (off : Word) : wordCycles off = 1 + (unaligned off).toNat := by
  have h : unaligned off = decide (off.toNat % 2 = 1) := by
    simp [unaligned, BitVec.getLsbD, Nat.testBit_zero]
  rw [h]
  unfold wordCycles
  rcases Nat.mod_two_eq_zero_or_one off.toNat with e | e <;> rw [e] <;> rfl

end Sys2Proof.Machine
end

