-- ==== Sys2Proof/Laws/Access.lean ====
section
/-! SUPPORT. What the accesses of one and two bytes can do: one lemma an operation, with its frame. -/

namespace Sys2Proof.Machine

/-! ### Sequencing -/

/-- A sequence is done exactly when both its parts are. -/
theorem Res.andThen_done {α β : Type} {r : Res α} {k : α → State → Res β} {b : β} {t : State}
    (h : r.andThen k = .done b t) : ∃ a s, r = .done a s ∧ k a s = .done b t := by
  cases r with
  | done a s => exact ⟨a, s, rfl, h⟩
  | trap x s => cases h

/-- A sequence raises in its first part, or in its second. -/
theorem Res.andThen_trap {α β : Type} {r : Res α} {k : α → State → Res β} {x : Trap} {t : State}
    (h : r.andThen k = .trap x t) : r = .trap x t ∨ ∃ a s, r = .done a s ∧ k a s = .trap x t := by
  cases r with
  | done a s => exact .inr ⟨a, s, rfl, h⟩
  | trap y s => exact .inl (by cases h; rfl)

@[simp] theorem Res.done_andThen {α β : Type} (a : α) (s : State) (k : α → State → Res β) :
    (Res.done a s).andThen k = k a s := rfl

@[simp] theorem Res.trap_andThen {α β : Type} (x : Trap) (s : State) (k : α → State → Res β) :
    (Res.trap x s : Res α).andThen k = .trap x s := rfl

/-! ### What a read changes -/

@[simp] theorem State.withDraws_self (s : State) : s.withDraws s.draws = s := rfl

@[simp] theorem State.withDraws_withDraws (s : State) (m n : Nat) : (s.withDraws m).withDraws n = s.withDraws n := rfl

@[simp] theorem State.withBus_self (s : State) : s.withBus s = s := rfl

@[simp] theorem State.withBus_withBus (s t u : State) : (s.withBus t).withBus u = s.withBus u := rfl

/-- The state `t` is `s` after reads of `n` access cycles: the devices had `n` turns, and window reads were calls on devices and
took draws (20_memory.md R106, R107). -/
def ReadEffect (n : Nat) (s t : State) : Prop :=
  t = { State.afterCycles n s with calls := t.calls, draws := t.draws } ∧ s.draws ≤ t.draws

theorem ReadEffect.refl (s : State) : ReadEffect 0 s s := ⟨rfl, Nat.le_refl _⟩

theorem ReadEffect.turnIf (s : State) (begins : Bool) : ReadEffect begins.toNat s (s.turnIf begins) := by
  rw [State.turnIf_eq]
  exact ⟨rfl, by rw [State.afterCycles_draws]⟩

/-- Turns of devices look at no call and no draw. -/
theorem State.afterCycles_withCalls (n : Nat) (s : State) (cs : List DeviceCall) (d : Nat) :
    State.afterCycles n { s with calls := cs, draws := d } = { State.afterCycles n s with calls := cs, draws := d } := by
  have hr : (State.afterCycles n { s with calls := cs, draws := d }).ram = (State.afterCycles n s).ram :=
    State.afterCycles_ram_congr n (s := s) (u := { s with calls := cs, draws := d }) rfl rfl rfl
  rw [State.afterCycles_eq, hr, State.afterCycles_eq n s]

theorem ReadEffect.trans {m n : Nat} {s t u : State} (h : ReadEffect m s t) (g : ReadEffect n t u) : ReadEffect (m + n) s u := by
  refine ⟨?_, Nat.le_trans h.2 g.2⟩
  have e := h.1
  rw [g.1, State.afterCycles_add]
  generalize t.calls = cs at e
  generalize t.draws = d at e
  rw [e, State.afterCycles_withCalls]

/-- A read changes RAM through devices, their calls and coming stores, and the draws only. -/
theorem ReadEffect.withBus {n : Nat} {s t : State} (h : ReadEffect n s t) : s.withBus t = t := by
  have e := h.1
  rw [State.afterCycles_eq] at e
  generalize t.calls = cs at e
  generalize t.draws = d at e
  rw [e]
  rfl

theorem ReadEffect.ram {n : Nat} {s t : State} (h : ReadEffect n s t) : t.ram = (State.afterCycles n s).ram := by rw [h.1]

theorem ReadEffect.deviceStores {n : Nat} {s t : State} (h : ReadEffect n s t) : t.deviceStores = s.deviceStores.drop n := by
  rw [h.1]; exact State.afterCycles_deviceStores n s

theorem ReadEffect.wf {n : Nat} {s t : State} (h : ReadEffect n s t) (hw : Memory.wf s.ram = true) : Memory.wf t.ram = true := by
  rw [h.ram]; exact State.afterCycles_wf n s hw

/-! ### Reads -/

theorem readPlace_device (slot : BitVec 4) (a : Nat) (s : State) :
    readPlace (.device slot a) s =
      if s.windowConnected slot a then .done (Config.deviceByte s.calls s.ram slot a s.draws) (s.afterCall (.read slot a))
      else .done 0 s := rfl

theorem writePlace_device (slot : BitVec 4) (a : Nat) (b : Byte) (s : State) :
    writePlace (.device slot a) b s = if s.windowConnected slot a then s.afterCall (.write slot a b) else s := rfl

/-- Reading a place is always done, and makes at most one call (20_memory.md R101, R107). -/
theorem readPlace_done (p : Place) (s : State) : ∃ b t, readPlace p s = .done b t ∧ ReadEffect 0 s t := by
  cases p with
  | ram a => exact ⟨_, s, rfl, ReadEffect.refl s⟩
  | rom a => exact ⟨_, s, rfl, ReadEffect.refl s⟩
  | device slot a =>
    rw [readPlace_device]
    split
    · exact ⟨_, _, rfl, rfl, Nat.le_succ _⟩
    · exact ⟨_, s, rfl, ReadEffect.refl s⟩

/-- A read of a byte raises what its failed check says and leaves the state, or is done in at most one access cycle. -/
theorem readByteIn_cases (begins : Bool) (k : SegKind) (p : Purpose) (off : Word) (s : State) :
    (∃ v, checkAccess (s.segValue k) off false = some v ∧ readByteIn begins k p off s = .trap (v.trap p) s) ∨
    (∃ b t, checkAccess (s.segValue k) off false = none ∧ readByteIn begins k p off s = .done b t ∧ ReadEffect begins.toNat s t) := by
  unfold readByteIn
  cases h : checkAccess (s.segValue k) off false with
  | some v => exact .inl ⟨v, rfl, rfl⟩
  | none =>
    obtain ⟨b, t, hb, ht⟩ := readPlace_done (translate (s.segValue k) off) (s.turnIf begins)
    exact .inr ⟨b, t, rfl, hb, (ReadEffect.turnIf s begins).trans ht⟩

theorem readByteIn_done {begins : Bool} {k : SegKind} {p : Purpose} {off : Word} {s t : State} {b : Byte}
    (h : readByteIn begins k p off s = .done b t) : ReadEffect begins.toNat s t := by
  rcases readByteIn_cases begins k p off s with ⟨v, -, hv⟩ | ⟨c, u, -, hu, hd⟩
  · rw [h] at hv; cases hv
  · rw [h] at hu; cases hu; exact hd

theorem readByteIn_trap {begins : Bool} {k : SegKind} {p : Purpose} {off : Word} {s t : State} {x : Trap}
    (h : readByteIn begins k p off s = .trap x t) : t = s := by
  rcases readByteIn_cases begins k p off s with ⟨v, -, hv⟩ | ⟨c, u, -, hu, hd⟩
  · rw [h] at hv; cases hv; rfl
  · rw [h] at hu; cases hu

theorem readByte_done {k : SegKind} {p : Purpose} {off : Word} {s t : State} {b : Byte} (h : readByte k p off s = .done b t) :
    ReadEffect 1 s t := readByteIn_done h

theorem readByte_trap {k : SegKind} {p : Purpose} {off : Word} {s t : State} {x : Trap} (h : readByte k p off s = .trap x t) :
    t = s := readByteIn_trap h

/-- A read of a word that is done is one access cycle where it is aligned, else two (20_memory.md R106). -/
theorem readWord_done {k : SegKind} {p : Purpose} {off : Word} {s t : State} {v : Word} (h : readWord k p off s = .done v t) :
    ReadEffect (wordCycles off) s t := by
  obtain ⟨lo, s1, h1, h⟩ := Res.andThen_done h
  obtain ⟨hi, s2, h2, h⟩ := Res.andThen_done h
  cases h
  rw [wordCycles_eq]
  exact (readByte_done h1).trans (readByteIn_done h2)

/-- A read of a word that raises does so before its first access cycle, or after it. -/
theorem readWord_trap {k : SegKind} {p : Purpose} {off : Word} {s t : State} {x : Trap} (h : readWord k p off s = .trap x t) :
    ∃ n, n ≤ 1 ∧ ReadEffect n s t := by
  rcases Res.andThen_trap h with h | ⟨lo, s1, h1, h⟩
  · exact ⟨0, Nat.zero_le _, (readByte_trap h) ▸ ReadEffect.refl s⟩
  · rcases Res.andThen_trap h with h | ⟨hi, s2, h2, h⟩
    · exact ⟨1, Nat.le_refl _, (readByteIn_trap h) ▸ readByte_done h1⟩
    · cases h

/-- The two states show the same memory: everything a read or a write depends on. -/
structure SameMemory (s u : State) : Prop where
  ps : u.ps = s.ps
  segs : u.segs = s.segs
  platform : u.platform = s.platform
  ram : u.ram = s.ram
  rom : u.rom = s.rom
  deviceStores : u.deviceStores = s.deviceStores
  calls : u.calls = s.calls
  draws : u.draws = s.draws

theorem SameMemory.withBus {s u : State} (h : SameMemory s u) (t : State) : SameMemory (s.withBus t) (u.withBus t) :=
  ⟨h.ps, h.segs, h.platform, rfl, h.rom, rfl, rfl, rfl⟩

theorem SameMemory.segValue {s u : State} (h : SameMemory s u) (k : SegKind) : u.segValue k = s.segValue k := by
  unfold State.segValue State.mmuOn State.segNameOf State.supervisor State.interruptMode
  rw [h.ps, h.segs]

theorem SameMemory.ramByte {s u : State} (h : SameMemory s u) (a : Nat) : u.ramByte a = s.ramByte a := by
  unfold State.ramByte State.ramConnected
  rw [h.platform, h.ram]

theorem SameMemory.romByte {s u : State} (h : SameMemory s u) (a : Nat) : u.romByte a = s.romByte a := by
  unfold State.romByte State.romConnected
  rw [h.platform, h.rom]

theorem SameMemory.withBus_eq {s u : State} (h : SameMemory s u) : u.withBus s = u := by
  unfold State.withBus
  rw [← h.ram, ← h.deviceStores, ← h.calls, ← h.draws]

theorem SameMemory.turnIf {s u : State} (h : SameMemory s u) (begins : Bool) : SameMemory (s.turnIf begins) (u.turnIf begins) := by
  cases begins with
  | false => exact h
  | true =>
    show SameMemory s.deviceTurn u.deviceTurn
    exact ⟨by simpa using h.ps, by simpa using h.segs, by simpa using h.platform,
      State.deviceTurn_ram_congr h.platform h.ram h.deviceStores, by simpa using h.rom,
      by rw [State.deviceTurn_deviceStores, State.deviceTurn_deviceStores, h.deviceStores], by simpa using h.calls,
      by simpa using h.draws⟩

theorem State.turnIf_withBus (s u : State) (begins : Bool) (h : SameMemory s u) : u.withBus (s.turnIf begins) = u.turnIf begins := by
  have e := (h.turnIf begins).withBus_eq
  rw [← (ReadEffect.turnIf u begins).withBus, State.withBus_withBus] at e
  exact e.trans (ReadEffect.turnIf u begins).withBus

/-- A place reads the same in a state that shows the same memory. -/
theorem readPlace_same {s u : State} (h : SameMemory s u) (pl : Place) :
    readPlace pl u =
      match readPlace pl s with
      | .done b t => .done b (u.withBus t)
      | .trap x _ => .trap x u := by
  cases pl with
  | ram a => simp only [readPlace, h.ramByte, h.withBus_eq]
  | rom a => simp only [readPlace, h.romByte, h.withBus_eq]
  | device slot a =>
    have hw : u.windowConnected slot a = s.windowConnected slot a := by
      simp only [State.windowConnected, State.deviceAt, h.platform]
    simp only [readPlace, hw]
    cases s.windowConnected slot a
    · simp only [Bool.false_eq_true, if_false, h.withBus_eq]
    · simp only [if_true, h.calls, h.ram, h.draws]
      refine congrArg _ ?_
      have e : u.afterCall (.read slot a) = (u.withBus s).afterCall (.read slot a) := by rw [h.withBus_eq]
      rw [e]
      rfl

/-- A read gives the same value in a state that shows the same memory. -/
theorem readByteIn_same {begins : Bool} {k : SegKind} {p : Purpose} {off : Word} {s u : State} (h : SameMemory s u) :
    readByteIn begins k p off u =
      match readByteIn begins k p off s with
      | .done b t => .done b (u.withBus t)
      | .trap x _ => .trap x u := by
  unfold readByteIn
  rw [h.segValue]
  cases checkAccess (s.segValue k) off false with
  | some v => rfl
  | none =>
    simp only
    rw [readPlace_same (h.turnIf begins)]
    obtain ⟨b, t, hb, ht⟩ := readPlace_done (translate (s.segValue k) off) (s.turnIf begins)
    rw [hb]
    simp only
    rw [← State.turnIf_withBus s u begins h]
    rfl

theorem readByte_same {k : SegKind} {p : Purpose} {off : Word} {s u : State} (h : SameMemory s u) :
    readByte k p off u =
      match readByte k p off s with
      | .done b t => .done b (u.withBus t)
      | .trap x _ => .trap x u := readByteIn_same h

/-- A state with the same memory after a read shows the same memory after it. -/
theorem SameMemory.afterRead {n : Nat} {s t u : State} (h : SameMemory s u) (ht : ReadEffect n s t) : SameMemory t (u.withBus t) := by
  have e := ht.withBus
  rw [← e]
  exact h.withBus t

theorem readWord_same {k : SegKind} {p : Purpose} {off : Word} {s u : State} (h : SameMemory s u) :
    readWord k p off u =
      match readWord k p off s with
      | .done v t => .done v (u.withBus t)
      | .trap x t => .trap x (u.withBus t) := by
  unfold readWord
  rw [readByte_same h]
  rcases readByteIn_cases true k p off s with ⟨v, -, hv⟩ | ⟨b, t, -, hb, hd⟩
  · have hv' : readByte k p off s = .trap (v.trap p) s := hv
    simp only [hv', Res.trap_andThen]
    rw [h.withBus_eq]
  · have hb' : readByte k p off s = .done b t := hb
    simp only [hb', Res.done_andThen]
    rw [readByteIn_same (h.afterRead hd)]
    rcases readByteIn_cases (unaligned off) k p (off + 1) t with ⟨v, -, hv⟩ | ⟨c, t2, -, hc, -⟩
    · simp only [hv, Res.trap_andThen]
    · simp only [hc, Res.done_andThen]; rfl

/-- Moving the stack pointer, PC, a register or the flags does not change what memory shows. -/
theorem sameMemory_setSp (s : State) (v : Word) : SameMemory s (s.setSp v) := by constructor <;> simp

theorem sameMemory_setPc (s : State) (v : Word) : SameMemory s (s.setPc v) := by constructor <;> simp

theorem sameMemory_setReg (s : State) (r : Reg) (v : Word) : SameMemory s (s.setReg r v) := by constructor <;> simp

/-! ### Segment values and their A bit -/

/-- The bits of a segment value with its A bit set are its own, but for bit 28. -/
theorem accessed_getLsbD (r : SegReg) {i : Nat} (h : i ≠ 28) : (withBit r 28 true).getLsbD i = r.getLsbD i := by
  have h' : 28 ≠ i := Ne.symm h
  simp [withBit, BitVec.getLsbD_twoPow, h']

/-- The A bit takes no part in the checks (20_memory.md R98). -/
theorem checkAccess_accessed (r : SegReg) (off : Word) (w : Bool) : checkAccess (withBit r 28 true) off w = checkAccess r off w := by
  have hs : (withBit r 28 true).extractLsb' 20 8 = r.extractLsb' 20 8 := by
    apply BitVec.eq_of_getLsbD_eq
    intro i hi
    simp only [BitVec.getLsbD_extractLsb', hi, decide_true, Bool.true_and]
    exact accessed_getLsbD r (by omega)
  unfold checkAccess segmentSize
  rw [hs, accessed_getLsbD r (show (29 : Nat) ≠ 28 by decide), accessed_getLsbD r (show (30 : Nat) ≠ 28 by decide)]

/-- The A bit takes no part in translation (20_memory.md R94). -/
theorem translate_accessed (r : SegReg) (off : Word) : translate (withBit r 28 true) off = translate r off := by
  have hb : ∀ lo n, lo + n ≤ 28 → (withBit r 28 true).extractLsb' lo n = r.extractLsb' lo n := by
    intro lo n hln
    apply BitVec.eq_of_getLsbD_eq
    intro i hi
    simp only [BitVec.getLsbD_extractLsb', hi, decide_true, Bool.true_and]
    exact accessed_getLsbD r (by omega)
  simp only [translate, accessed_getLsbD r (show (31 : Nat) ≠ 28 by decide), hb 0 16 (by decide), hb 16 4 (by decide),
    hb 0 20 (by decide)]

/-- Reading a segment register after writing one. -/
theorem SegRegs.get_set (g : SegRegs) (n m : SegName) (v : SegReg) : (g.set n v).get m = if m = n then v else g.get m := by
  cases n <;> cases m <;> rfl

/-- Setting an A bit changes the segment registers only. -/
theorem State.markAccessed_eq (s : State) (k : SegKind) : s.markAccessed k = { s with segs := (s.markAccessed k).segs } := by
  unfold State.markAccessed; split <;> rfl

/-- A segment register after a write: its A bit is set where it governs the write and the MMU is on (20_memory.md R99). -/
theorem State.markAccessed_get (s : State) (k : SegKind) (n : SegName) :
    (s.markAccessed k).segs.get n =
      if s.mmuOn = true ∧ n = s.segNameOf k then withBit (s.segs.get n) 28 true else s.segs.get n := by
  unfold State.markAccessed
  cases s.mmuOn
  · simp
  · simp only [if_true, State.setSeg_segs, SegRegs.get_set, true_and]
    split
    · rename_i h; rw [h]
    · rfl

/-- Setting an A bit changes no check and no translation, for any kind. -/
theorem State.markAccessed_segValue (s : State) (k j : SegKind) :
    (s.markAccessed k).segValue j = s.segValue j ∨ (s.markAccessed k).segValue j = withBit (s.segValue j) 28 true := by
  have hp : (s.markAccessed k).ps = s.ps := by rw [State.markAccessed_eq]
  have hm : (s.markAccessed k).mmuOn = s.mmuOn := by simp only [State.mmuOn, hp]
  have hn : (s.markAccessed k).segNameOf j = s.segNameOf j := by
    unfold State.segNameOf State.supervisor State.interruptMode
    rw [hp]
  have hv : ∀ u : State, u.segValue j = if u.mmuOn then u.segs.get (u.segNameOf j) else defaultSegment j := fun _ => rfl
  rw [hv, hv s, hm, hn, State.markAccessed_get]
  cases s.mmuOn
  · exact .inl rfl
  · simp only [if_true, true_and]
    split
    · exact .inr rfl
    · exact .inl rfl

theorem State.markAccessed_check (s : State) (k j : SegKind) (off : Word) (w : Bool) :
    checkAccess ((s.markAccessed k).segValue j) off w = checkAccess (s.segValue j) off w := by
  rcases s.markAccessed_segValue k j with h | h
  · rw [h]
  · rw [h, checkAccess_accessed]

theorem State.markAccessed_translate (s : State) (k j : SegKind) (off : Word) :
    translate ((s.markAccessed k).segValue j) off = translate (s.segValue j) off := by
  rcases s.markAccessed_segValue k j with h | h
  · rw [h]
  · rw [h, translate_accessed]

/-! ### Writes -/

/-- Writing a place changes RAM, or is a call on a device and takes a draw, and nothing else. -/
theorem writePlace_eq (p : Place) (b : Byte) (s : State) :
    writePlace p b s =
      { s with ram := (writePlace p b s).ram, calls := (writePlace p b s).calls, draws := (writePlace p b s).draws } := by
  cases p with
  | ram a =>
    show s.storeRam a b =
      { s with ram := (s.storeRam a b).ram, calls := (s.storeRam a b).calls, draws := (s.storeRam a b).draws }
    rw [State.storeRam_eq]
  | rom a => rfl
  | device slot a => rw [writePlace_device]; split <;> rfl

/-- Writing a place leaves every byte of RAM that is not that place. -/
theorem writePlace_ramByte (p : Place) (b : Byte) (s : State) {a : Nat} (h : p ≠ .ram a) :
    (writePlace p b s).ramByte a = s.ramByte a := by
  cases p with
  | ram c => exact State.storeRam_ramByte_other s b (fun e => h (e ▸ rfl))
  | rom c => rfl
  | device slot c => rw [writePlace_device]; split <;> rfl

/-- Writing a place keeps the canonical form of RAM. -/
theorem writePlace_wf (p : Place) (b : Byte) (s : State) (h : Memory.wf s.ram = true) : Memory.wf (writePlace p b s).ram = true := by
  cases p with
  | ram a => exact State.storeRam_wf s a b h
  | rom a => exact h
  | device slot a => rw [writePlace_device]; split <;> exact h

/-- A write of a byte raises what its failed check says and leaves the state, or is done: the A bit, the devices' turn, the place. -/
theorem writeByte_cases (k : SegKind) (p : Purpose) (off : Word) (b : Byte) (s : State) :
    (∃ v, checkAccess (s.segValue k) off true = some v ∧ writeByte k p off b s = .trap (v.trap p) s) ∨
    (checkAccess (s.segValue k) off true = none ∧
      writeByte k p off b s = .done () (writePlace (translate (s.segValue k) off) b (s.markAccessed k).deviceTurn)) := by
  unfold writeByte
  cases h : checkAccess (s.segValue k) off true with
  | some v => exact .inl ⟨v, rfl, rfl⟩
  | none => exact .inr ⟨rfl, rfl⟩

/-- A write of a word raises and leaves the state, or is done for both bytes (20_memory.md R100, R106). -/
theorem writeWord_cases (k : SegKind) (p : Purpose) (off v : Word) (s : State) :
    (∃ x, (checkAccess (s.segValue k) off true = some x ∨
        (checkAccess (s.segValue k) off true = none ∧ checkAccess (s.segValue k) (off + 1) true = some x)) ∧
      writeWord k p off v s = .trap (x.trap p) s) ∨
    (checkAccess (s.segValue k) off true = none ∧ checkAccess (s.segValue k) (off + 1) true = none ∧
      writeWord k p off v s = .done () (writePlace (translate (s.segValue k) (off + 1)) (highByte v)
        ((writePlace (translate (s.segValue k) off) (lowByte v) (s.markAccessed k).deviceTurn).turnIf (unaligned off)))) := by
  unfold writeWord
  cases h : checkAccess (s.segValue k) off true with
  | some x => exact .inl ⟨x, .inl rfl, rfl⟩
  | none =>
    cases h2 : checkAccess (s.segValue k) (off + 1) true with
    | some x => exact .inl ⟨x, .inr ⟨rfl, rfl⟩, rfl⟩
    | none => exact .inr ⟨rfl, rfl, rfl⟩

/-- All that a write of `n` access cycles can change, done: RAM, the devices' calls and coming stores, the draws, and A bits. -/
def WriteFrame (n : Nat) (k : SegKind) (s t : State) : Prop :=
  t = { s with
        ram := t.ram, deviceStores := s.deviceStores.drop n, calls := t.calls, draws := t.draws, segs := (s.markAccessed k).segs }

theorem writeByte_frame {k : SegKind} {p : Purpose} {off : Word} {b : Byte} {s t : State} (h : writeByte k p off b s = .done () t) :
    WriteFrame 1 k s t := by
  rcases writeByte_cases k p off b s with ⟨v, -, hv⟩ | ⟨-, hd⟩
  · rw [h] at hv; cases hv
  · rw [h] at hd
    injection hd with _ hd
    unfold WriteFrame
    rw [hd, writePlace_eq, State.deviceTurn_eq, State.markAccessed_eq]

/-- The two places a word is written to, with the devices' turns between. -/
theorem writePlaces_eq (n : Nat) (p q : Place) (b c : Byte) (m : State) :
    writePlace p b (State.afterCycles n (writePlace q c m.deviceTurn)) =
      { m with
        ram := (writePlace p b (State.afterCycles n (writePlace q c m.deviceTurn))).ram
        deviceStores := m.deviceStores.drop (1 + n)
        calls := (writePlace p b (State.afterCycles n (writePlace q c m.deviceTurn))).calls
        draws := (writePlace p b (State.afterCycles n (writePlace q c m.deviceTurn))).draws } := by
  have h1 := State.deviceTurn_eq m
  have h2 := writePlace_eq q c m.deviceTurn
  have h3 := State.afterCycles_eq n (writePlace q c m.deviceTurn)
  have h4 := writePlace_eq p b (State.afterCycles n (writePlace q c m.deviceTurn))
  generalize m.deviceTurn = m1 at h1 h2 h3 h4 ⊢
  generalize writePlace q c m1 = m2 at h2 h3 h4 ⊢
  generalize State.afterCycles n m2 = m3 at h3 h4 ⊢
  generalize writePlace p b m3 = m4 at h4 ⊢
  refine h4.trans ?_
  rw [h3, h2, h1]
  simp only [List.drop_drop]

theorem writeWord_frame {k : SegKind} {p : Purpose} {off v : Word} {s t : State} (h : writeWord k p off v s = .done () t) :
    WriteFrame (wordCycles off) k s t := by
  rcases writeWord_cases k p off v s with ⟨x, -, hv⟩ | ⟨-, -, hd⟩
  · rw [h] at hv; cases hv
  · rw [h] at hd
    injection hd with _ hd
    unfold WriteFrame
    rw [State.turnIf_eq] at hd
    rw [wordCycles_eq, hd, writePlaces_eq, State.markAccessed_eq]

/-- A write leaves every byte of RAM outside the byte it stores to as the devices' turn left it. -/
theorem writeByte_ramByte {k : SegKind} {p : Purpose} {off : Word} {b : Byte} {s t : State} {a : Nat}
    (h : writeByte k p off b s = .done () t) (ha : translate (s.segValue k) off ≠ .ram a) :
    t.ramByte a = s.deviceTurn.ramByte a := by
  rcases writeByte_cases k p off b s with ⟨v, -, hv⟩ | ⟨-, hd⟩
  · rw [h] at hv; cases hv
  · rw [h] at hd
    injection hd with _ hd
    rw [hd, writePlace_ramByte _ _ _ ha]
    have hr : (s.markAccessed k).deviceTurn.ram = s.deviceTurn.ram := by
      apply State.deviceTurn_ram_congr <;> rw [State.markAccessed_eq]
    unfold State.ramByte State.ramConnected
    rw [hr, State.deviceTurn_platform, State.deviceTurn_platform, State.markAccessed_eq]

theorem writeWord_ramByte {k : SegKind} {p : Purpose} {off v : Word} {s t : State} {a : Nat} (hw : Memory.wf s.ram = true)
    (h : writeWord k p off v s = .done () t) (ha : translate (s.segValue k) off ≠ .ram a)
    (hb : translate (s.segValue k) (off + 1) ≠ .ram a) : t.ramByte a = (State.afterCycles (wordCycles off) s).ramByte a := by
  rcases writeWord_cases k p off v s with ⟨x, -, hv⟩ | ⟨-, -, hd⟩
  · rw [h] at hv; cases hv
  · rw [h] at hd
    injection hd with _ hd
    have hm : ∀ m : State, m = (s.markAccessed k).deviceTurn → Memory.wf m.ram = true ∧ m.platform = s.platform ∧
        m.ram = s.deviceTurn.ram ∧ m.deviceStores = s.deviceTurn.deviceStores := by
      intro m e
      have hr : m.ram = s.deviceTurn.ram := by
        rw [e]; apply State.deviceTurn_ram_congr <;> rw [State.markAccessed_eq]
      refine ⟨by rw [hr]; exact State.deviceTurn_wf s hw, ?_, hr, ?_⟩
      · rw [e, State.deviceTurn_platform, State.markAccessed_eq]
      · rw [e, State.deviceTurn_deviceStores, State.deviceTurn_deviceStores, State.markAccessed_eq]
    obtain ⟨h1, h2, h3, h4⟩ := hm _ rfl
    generalize (s.markAccessed k).deviceTurn = m at hd h1 h2 h3 h4
    rw [hd, writePlace_ramByte _ _ _ hb, State.turnIf_eq, wordCycles_eq, State.afterCycles_add]
    have e := writePlace_eq (translate (s.segValue k) off) (lowByte v) m
    refine State.afterCycles_ramByte_congr _ (State.deviceTurn_wf s hw) (writePlace_wf _ _ _ h1) ?_ ?_ ?_
    · rw [e]; exact h2.trans (State.deviceTurn_platform s).symm
    · rw [e]; exact h4
    · rw [writePlace_ramByte _ _ _ ha]
      show m.ramByte a = s.deviceTurn.ramByte a
      unfold State.ramByte State.ramConnected
      rw [h3, h2, State.deviceTurn_platform]

/-- A write keeps the canonical form of RAM. -/
theorem writeByte_wf {k : SegKind} {p : Purpose} {off : Word} {b : Byte} {s t : State} (h : writeByte k p off b s = .done () t)
    (hw : Memory.wf s.ram = true) : Memory.wf t.ram = true := by
  rcases writeByte_cases k p off b s with ⟨v, -, hv⟩ | ⟨-, hd⟩
  · rw [h] at hv; cases hv
  · rw [h] at hd
    injection hd with _ hd
    rw [hd]
    exact writePlace_wf _ _ _ (State.deviceTurn_wf _ (by rw [State.markAccessed_eq]; exact hw))

theorem writeWord_wf {k : SegKind} {p : Purpose} {off v : Word} {s t : State} (h : writeWord k p off v s = .done () t)
    (hw : Memory.wf s.ram = true) : Memory.wf t.ram = true := by
  rcases writeWord_cases k p off v s with ⟨x, -, hv⟩ | ⟨-, -, hd⟩
  · rw [h] at hv; cases hv
  · rw [h] at hd
    injection hd with _ hd
    rw [hd, State.turnIf_eq]
    exact writePlace_wf _ _ _ (State.afterCycles_wf _ _ (writePlace_wf _ _ _
      (State.deviceTurn_wf _ (by rw [State.markAccessed_eq]; exact hw))))

/-! ### Bytes stored -/

/-- Devices that keep off a set keep off it in the cycles that are left. -/
theorem State.devicesKeepOff_drop {s t : State} {m n : Nat} {P : Nat → Prop} (h : s.devicesKeepOff (m + n) P)
    (hd : t.deviceStores = s.deviceStores.drop m) : t.devicesKeepOff n P := by
  intro cs hcs c hc
  rw [hd] at hcs
  refine h cs ?_ c hc
  rw [List.take_drop] at hcs
  exact List.mem_of_mem_drop hcs

theorem State.devicesKeepOff_mono {s : State} {m n : Nat} {P Q : Nat → Prop} (h : s.devicesKeepOff m P) (hn : n ≤ m)
    (hQ : ∀ a, Q a → P a) : s.devicesKeepOff n Q :=
  fun cs hcs c hc hq => h cs ((List.take_subset_take_left s.deviceStores hn) hcs) c hc (hQ _ hq)

/-- Writing a place that is no device window makes no call and no draw. -/
theorem writePlace_noCall {p : Place} (b : Byte) (s : State) (h : ∀ slot x, p ≠ .device slot x) :
    (writePlace p b s).calls = s.calls ∧ (writePlace p b s).draws = s.draws := by
  cases p with
  | ram a => show (s.storeRam a b).calls = _ ∧ (s.storeRam a b).draws = _; rw [State.storeRam_eq]; exact ⟨rfl, rfl⟩
  | rom a => exact ⟨rfl, rfl⟩
  | device slot a => exact absurd rfl (h slot a)

/-- A word written to connected RAM lies there, its low byte at the first address, where devices keep off that address meanwhile;
no call and no draw is made (20_memory.md R84). -/
theorem writeWord_stored {k : SegKind} {p : Purpose} {off v : Word} {s t : State} {a b : Nat} (hw : Memory.wf s.ram = true)
    (h : writeWord k p off v s = .done () t) (ha : translate (s.segValue k) off = .ram a)
    (hb : translate (s.segValue k) (off + 1) = .ram b) (hca : s.ramConnected a = true) (hcb : s.ramConnected b = true)
    (hne : a ≠ b) (hk : s.devicesKeepOff (wordCycles off) (· = a)) :
    t.ramByte a = lowByte v ∧ t.ramByte b = highByte v ∧ t.calls = s.calls ∧ t.draws = s.draws := by
  rcases writeWord_cases k p off v s with ⟨x, -, hv⟩ | ⟨-, -, hd⟩
  · rw [h] at hv; cases hv
  · rw [h] at hd
    injection hd with _ hd
    have hm : ∀ m : State, m = (s.markAccessed k).deviceTurn → Memory.wf m.ram = true ∧ m.platform = s.platform ∧
        m.deviceStores = s.deviceStores.drop 1 ∧ m.calls = s.calls ∧ m.draws = s.draws := by
      intro m e
      refine ⟨?_, ?_, ?_, ?_, ?_⟩
      · rw [e]; exact State.deviceTurn_wf _ (by rw [State.markAccessed_eq]; exact hw)
      · rw [e, State.deviceTurn_platform, State.markAccessed_eq]
      · rw [e, State.deviceTurn_deviceStores, State.markAccessed_eq]
      · rw [e, State.deviceTurn_calls, State.markAccessed_eq]
      · rw [e, State.deviceTurn_draws, State.markAccessed_eq]
    obtain ⟨h1, h2, h3, h4, h5⟩ := hm _ rfl
    generalize (s.markAccessed k).deviceTurn = m at hd h1 h2 h3 h4 h5
    rw [ha, hb, State.turnIf_eq] at hd
    have hcm : ∀ x, m.ramConnected x = s.ramConnected x := fun x => by unfold State.ramConnected; rw [h2]
    have ew : writePlace (.ram a) (lowByte v) m = m.storeRam a (lowByte v) := rfl
    rw [ew] at hd
    have e2 := State.storeRam_eq m a (lowByte v)
    have hw2 := State.storeRam_wf m a (lowByte v) h1
    have hs2 := State.storeRam_ramByte_same m (lowByte v) h1 (by rw [hcm]; exact hca)
    have hc2 : ∀ x, (m.storeRam a (lowByte v)).ramConnected x = s.ramConnected x := fun x => by
      rw [State.storeRam_ramConnected, hcm]
    have hd2 : (m.storeRam a (lowByte v)).deviceStores = s.deviceStores.drop 1 := by rw [e2]; exact h3
    have hl2 : (m.storeRam a (lowByte v)).calls = s.calls := by rw [e2]; exact h4
    have hr2 : (m.storeRam a (lowByte v)).draws = s.draws := by rw [e2]; exact h5
    generalize m.storeRam a (lowByte v) = m2 at hd hw2 hs2 hc2 hd2 hl2 hr2
    have ew2 : writePlace (.ram b) (highByte v) (State.afterCycles (unaligned off).toNat m2) =
        (State.afterCycles (unaligned off).toNat m2).storeRam b (highByte v) := rfl
    rw [ew2] at hd
    have hk2 : m2.devicesKeepOff (unaligned off).toNat (· = a) := by
      rw [wordCycles_eq] at hk
      exact State.devicesKeepOff_drop hk hd2
    refine ⟨?_, ?_, ?_, ?_⟩
    · rw [hd, State.storeRam_ramByte_other _ _ hne, State.afterCycles_keepOff (P := (· = a)) rfl _ hk2, hs2]
    · rw [hd]
      refine State.storeRam_ramByte_same _ _ (State.afterCycles_wf _ _ hw2) ?_
      have := hc2 b
      unfold State.ramConnected at this ⊢
      rw [State.afterCycles_platform]
      rw [this]
      exact hcb
    · rw [hd, State.storeRam_eq]; exact (State.afterCycles_calls _ m2).trans hl2
    · rw [hd, State.storeRam_eq]; exact (State.afterCycles_draws _ m2).trans hr2

/-! ### Operands -/

/-- Reading M, done or not, takes at most two access cycles and changes nothing else (40_alu.md R171). -/
theorem readSized_effect (k : SegKind) (a : Word) (e : Bool) (s : State) :
    match readSized k a e s with
    | .done _ t => ReadEffect (if e then 1 else wordCycles a) s t
    | .trap _ t => ∃ n, n ≤ 1 ∧ ReadEffect n s t := by
  cases e
  · have h : readSized k a false s = (readWord k .other a s).andThen fun v s1 => .done (.word v) s1 := rfl
    rw [h]
    cases hr : readWord k .other a s with
    | done v t => exact readWord_done hr
    | trap x t => exact readWord_trap hr
  · have h : readSized k a true s = (readByte k .other a s).andThen fun b s1 => .done (.byte b) s1 := rfl
    rw [h]
    cases hr : readByte k .other a s with
    | done v t => exact readByte_done hr
    | trap x t => exact ⟨0, Nat.zero_le _, (readByte_trap hr) ▸ ReadEffect.refl s⟩

/-- The access cycles of a read are two at most. -/
theorem wordCycles_le (off : Word) : wordCycles off ≤ 2 := by
  unfold wordCycles; split <;> decide

theorem readSized_effect_le (k : SegKind) (a : Word) (e : Bool) (s : State) :
    match readSized k a e s with
    | .done _ t => ∃ n, n ≤ 2 ∧ ReadEffect n s t
    | .trap _ t => ∃ n, n ≤ 2 ∧ ReadEffect n s t := by
  have h := readSized_effect k a e s
  cases hr : readSized k a e s with
  | done v t =>
    rw [hr] at h
    refine ⟨_, ?_, h⟩
    split
    · decide
    · exact wordCycles_le a
  | trap x t =>
    rw [hr] at h
    obtain ⟨n, hn, h⟩ := h
    exact ⟨n, Nat.le_succ_of_le hn, h⟩

theorem readOperand_effect (m : Operand) (s : State) :
    match readOperand m s with
    | .done _ t => ∃ n, n ≤ 2 ∧ ReadEffect n s t
    | .trap _ t => ∃ n, n ≤ 2 ∧ ReadEffect n s t := by
  have h0 : ∃ n, n ≤ 2 ∧ ReadEffect n s s := ⟨0, Nat.zero_le _, ReadEffect.refl s⟩
  cases m with
  | immediate es e v => exact h0
  | register es e r => exact h0
  | undefinedMode es x e => exact h0
  | control es p =>
    have h : readOperand (.control es p) s =
        match readControl p (s.pc + 2) s with
        | some v => .done (.word v) s
        | none => .trap .undefined s := rfl
    rw [h]
    cases readControl p (s.pc + 2) s <;> exact h0
  | absolute es e a => exact readSized_effect_le _ _ _ s
  | indirect es e r => exact readSized_effect_le _ _ _ s
  | indirectOffset es e r off => exact readSized_effect_le _ _ _ s
  | indirectIndexed es e ii r => exact readSized_effect_le _ _ _ s

theorem readOperand_done {m : Operand} {s t : State} {x : OpValue} (h : readOperand m s = .done x t) :
    ∃ n, n ≤ 2 ∧ ReadEffect n s t := by
  have := readOperand_effect m s; rwa [h] at this

theorem readOperand_trap {m : Operand} {s t : State} {x : Trap} (h : readOperand m s = .trap x t) :
    ∃ n, n ≤ 2 ∧ ReadEffect n s t := by
  have := readOperand_effect m s; rwa [h] at this

end Sys2Proof.Machine
end

