-- ==== Sys2Proof/Laws/Stack.lean ====
section
/-! SUPPORT. What the pushes and pops can do: a push with room on the stack, a list of pushes, a pop, a list of reads. -/

namespace Sys2Proof.Machine

/-! ### Offsets -/

theorem sub_ofNat_sub (x : Word) (a b : Nat) : x - BitVec.ofNat 16 a - BitVec.ofNat 16 b = x - BitVec.ofNat 16 (a + b) := by
  apply BitVec.eq_of_toNat_eq
  simp only [BitVec.toNat_sub, BitVec.toNat_ofNat]
  omega

theorem sub_ofNat_add (x : Word) {a b : Nat} (h : b ≤ a) : x - BitVec.ofNat 16 a + BitVec.ofNat 16 b = x - BitVec.ofNat 16 (a - b) := by
  apply BitVec.eq_of_toNat_eq
  simp only [BitVec.toNat_sub, BitVec.toNat_add, BitVec.toNat_ofNat]
  omega

theorem sub_ofNat_inj {x : Word} {a b : Nat} (ha : a < 65536) (hb : b < 65536)
    (h : x - BitVec.ofNat 16 a = x - BitVec.ofNat 16 b) : a = b := by
  have := congrArg BitVec.toNat h
  simp only [BitVec.toNat_sub, BitVec.toNat_ofNat] at this
  omega

theorem ofNat_add_ofNat (x : Word) (a b : Nat) : x + BitVec.ofNat 16 a + BitVec.ofNat 16 b = x + BitVec.ofNat 16 (a + b) := by
  apply BitVec.eq_of_toNat_eq
  simp only [BitVec.toNat_add, BitVec.toNat_ofNat]
  omega

theorem word_one : (1 : Word) = BitVec.ofNat 16 1 := rfl

theorem word_two : (2 : Word) = BitVec.ofNat 16 2 := rfl

/-! ### Updates that commute -/

theorem State.setSeg_setSp (s : State) (n : SegName) (w : SegReg) (v : Word) : (s.setSp v).setSeg n w = (s.setSeg n w).setSp v := by
  unfold State.setSp
  have h : (s.setSeg n w).supervisor = s.supervisor := rfl
  rw [h]
  cases s.supervisor <;> rfl

/-- Setting an A bit and moving the stack pointer commute. -/
theorem State.markAccessed_setSp (s : State) (k : SegKind) (v : Word) : (s.setSp v).markAccessed k = (s.markAccessed k).setSp v := by
  have hm : (s.setSp v).mmuOn = s.mmuOn := State.setSp_mmuOn s v
  have hn : (s.setSp v).segNameOf k = s.segNameOf k := by
    unfold State.segNameOf; rw [State.setSp_interruptMode, State.setSp_supervisor]
  unfold State.markAccessed
  rw [hm, hn, State.setSp_segs]
  cases s.mmuOn
  · rfl
  · exact State.setSeg_setSp s _ _ v

/-- Setting an A bit does not look at RAM or at the devices' coming stores. -/
theorem State.markAccessed_withRam (s : State) (k : SegKind) (m : Memory) (d : List (List Host.Cell)) :
    ({ s with ram := m, deviceStores := d } : State).markAccessed k = { s.markAccessed k with ram := m, deviceStores := d } := by
  unfold State.markAccessed
  have h : ({ s with ram := m, deviceStores := d } : State).mmuOn = s.mmuOn := rfl
  rw [h]
  cases s.mmuOn <;> rfl

/-- Moving the stack pointer does not look at RAM or at the devices' coming stores. -/
theorem State.setSp_withRam (s : State) (v : Word) (m : Memory) (d : List (List Host.Cell)) :
    ({ s with ram := m, deviceStores := d } : State).setSp v = { s.setSp v with ram := m, deviceStores := d } := by
  unfold State.setSp
  have h : ({ s with ram := m, deviceStores := d } : State).supervisor = s.supervisor := rfl
  rw [h]
  cases s.supervisor <;> rfl

/-- Two bytes up or down, an access is aligned as before. -/
theorem wordCycles_sub_two (x : Word) : wordCycles (x - 2) = wordCycles x := by
  unfold wordCycles
  have h : (x - 2).toNat % 2 = x.toNat % 2 := by
    have h2 : (2 : Word).toNat = 2 := rfl
    rw [BitVec.toNat_sub, h2]
    omega
  rw [h]

theorem wordCycles_add_two (x : Word) : wordCycles (x + 2) = wordCycles x := by
  unfold wordCycles
  have h : (x + 2).toNat % 2 = x.toNat % 2 := by
    have h2 : (2 : Word).toNat = 2 := rfl
    rw [BitVec.toNat_add, h2]
    omega
  rw [h]

/-! ### One push -/

/-- A push moves SP, then raises what the write raises, or is done: RAM, the devices' calls and coming stores, the draws, SP and the
A bit of the stack segment change (00_scope.md R18). -/
theorem pushWord_cases (p : Purpose) (v : Word) (s : State) :
    (∃ x, pushWord p v s = .trap x (s.setSp (s.sp - 2))) ∨
    (∃ t, pushWord p v s = .done () t ∧ writeWord .ss p (s.sp - 2) v (s.setSp (s.sp - 2)) = .done () t ∧
      t = { (s.markAccessed .ss).setSp (s.sp - 2) with
            ram := t.ram, deviceStores := s.deviceStores.drop (wordCycles s.sp), calls := t.calls, draws := t.draws }) := by
  have hp : pushWord p v s = writeWord .ss p (s.sp - 2) v (s.setSp (s.sp - 2)) := by
    simp only [pushWord, State.setSp_sp]
  rw [hp]
  cases hd : writeWord .ss p (s.sp - 2) v (s.setSp (s.sp - 2)) with
  | trap x t =>
    rcases writeWord_cases .ss p (s.sp - 2) v (s.setSp (s.sp - 2)) with ⟨x', -, hx⟩ | ⟨-, -, hx⟩
    · rw [hd] at hx; cases hx; exact .inl ⟨_, rfl⟩
    · rw [hd] at hx; cases hx
  | done u t =>
    refine .inr ⟨t, rfl, rfl, ?_⟩
    have hf := writeWord_frame hd
    unfold WriteFrame at hf
    rw [wordCycles_sub_two, State.markAccessed_setSp, State.setSp_segs, State.setSp_deviceStores] at hf
    refine hf.trans ?_
    have hm := State.markAccessed_eq s .ss
    generalize (s.markAccessed .ss).segs = g at hm ⊢
    rw [hm]
    unfold State.setSp
    have hs : ({ s with segs := g } : State).supervisor = s.supervisor := rfl
    rw [hs]
    cases s.supervisor <;> rfl

/-- Physical addresses of different stack offsets are different. -/
theorem State.stackAddress_inj (s : State) {x y : Word} (h : s.stackAddress x = s.stackAddress y) : x = y := by
  unfold State.stackAddress at h
  exact BitVec.eq_of_toNat_eq (by omega)

/-- Translation through a stack segment in RAM. -/
theorem State.translate_stack (s : State) (h : (s.segValue .ss).getLsbD 31 = false) (off : Word) :
    translate (s.segValue .ss) off = .ram (s.stackAddress off) := by
  unfold translate State.stackAddress
  rw [h]
  simp [BitVec.extractLsb'_toNat]

/-- Two states in which the stack segment register differs in its A bit at most see the same stack addresses. -/
theorem State.stackAddress_congr {s t : State} (h : t.segValue .ss = s.segValue .ss ∨ t.segValue .ss = withBit (s.segValue .ss) 28 true)
    (off : Word) : t.stackAddress off = s.stackAddress off := by
  unfold State.stackAddress
  rcases h with h | h
  · rw [h]
  · have : (t.segValue .ss).toNat % 2 ^ 20 = (s.segValue .ss).toNat % 2 ^ 20 := by
      have hb : (t.segValue .ss).extractLsb' 0 20 = (s.segValue .ss).extractLsb' 0 20 := by
        rw [h]
        apply BitVec.eq_of_getLsbD_eq
        intro i hi
        simp only [BitVec.getLsbD_extractLsb', hi, decide_true, Bool.true_and]
        exact accessed_getLsbD _ (by omega)
      have := congrArg BitVec.toNat hb
      simpa [BitVec.extractLsb'_toNat] using this
    rw [this]

theorem segmentSize_congr {r q : SegReg} (h : q = r ∨ q = withBit r 28 true) : segmentSize q = segmentSize r := by
  rcases h with h | h
  · rw [h]
  · have hb : q.extractLsb' 20 8 = r.extractLsb' 20 8 := by
      rw [h]
      apply BitVec.eq_of_getLsbD_eq
      intro i hi
      simp only [BitVec.getLsbD_extractLsb', hi, decide_true, Bool.true_and]
      exact accessed_getLsbD _ (by omega)
    unfold segmentSize
    rw [hb]

theorem getLsbD_congr_accessed {r q : SegReg} (h : q = r ∨ q = withBit r 28 true) {i : Nat} (hi : i ≠ 28) :
    q.getLsbD i = r.getLsbD i := by
  rcases h with h | h
  · rw [h]
  · rw [h, accessed_getLsbD _ hi]

/-- A check of a write passes inside a present, writable segment. -/
theorem checkAccess_none {r : SegReg} {off : Word} (w : Bool) (hp : r.getLsbD 29 = false) (hw : r.getLsbD 30 = false)
    (h : off.toNat < segmentSize r) : checkAccess r off w = none := by
  unfold checkAccess
  rw [hp, hw]
  simp [Nat.not_le.mpr h]

/-- Setting an A bit twice is setting it once. -/
theorem State.markAccessed_markAccessed (s : State) (k : SegKind) : (s.markAccessed k).markAccessed k = s.markAccessed k := by
  have hb : ∀ r : SegReg, withBit (withBit r 28 true) 28 true = withBit r 28 true := by
    intro r
    apply BitVec.eq_of_getLsbD_eq
    intro i hi
    simp [withBit]
  have hs : ∀ (g : SegRegs) (n : SegName) (v w : SegReg), (g.set n v).set n w = g.set n w := by
    intro g n v w; cases n <;> rfl
  have hg : ∀ (g : SegRegs) (n : SegName) (v : SegReg), (g.set n v).get n = v := by
    intro g n v; cases n <;> rfl
  unfold State.markAccessed
  cases h : s.mmuOn
  · simp [h]
  · have hn : ∀ v, (s.setSeg (s.segNameOf k) v).segNameOf k = s.segNameOf k := fun v => rfl
    simp only [if_true, State.setSeg_mmuOn, h, hn, State.setSeg_segs, hg, hb]
    show ({ s with segs := (s.segs.set _ _).set _ _ } : State) = _
    rw [hs]
    rfl

/-- A push onto a stack with room, whose two bytes devices keep off meanwhile, is done: the two bytes below SP hold the word, every other
byte of RAM is as the devices' turns left it, and the room that is left is one word less. -/
theorem pushWord_room (p : Purpose) (v : Word) {s : State} {n : Nat} (hn : 2 * (n + 1) < 65536) (hw : Memory.wf s.ram = true)
    (h : s.stackRoom (n + 1)) (hk : s.devicesKeepOff (wordCycles s.sp) (· = s.stackAddress (s.sp - 2))) :
    ∃ t, pushWord p v s = .done () t ∧
      t = { (s.markAccessed .ss).setSp (s.sp - 2) with
            ram := t.ram, deviceStores := s.deviceStores.drop (wordCycles s.sp) } ∧
      t.ramByte (s.stackAddress (s.sp - 2)) = lowByte v ∧ t.ramByte (s.stackAddress (s.sp - 1)) = highByte v ∧
      (∀ a, a ≠ s.stackAddress (s.sp - 1) → a ≠ s.stackAddress (s.sp - 2) →
        t.ramByte a = (State.afterCycles (wordCycles s.sp) s).ramByte a) ∧
      Memory.wf t.ram = true ∧ t.stackRoom n ∧ (∀ off, t.stackAddress off = s.stackAddress off) := by
  obtain ⟨hram, hwp, hpr, hroom⟩ := h
  have h0 := hroom 0 (by omega)
  have h1 := hroom 1 (by omega)
  have e1 : s.sp - BitVec.ofNat 16 (0 + 1) = s.sp - 1 := rfl
  have e2 : s.sp - BitVec.ofNat 16 (1 + 1) = s.sp - 2 := rfl
  have e3 : s.sp - 2 + 1 = s.sp - 1 := sub_ofNat_add s.sp (a := 2) (b := 1) (by decide)
  rw [e1] at h0
  rw [e2] at h1
  have hv : (s.setSp (s.sp - 2)).segValue .ss = s.segValue .ss := State.setSp_segValue s _ _
  have c2 : checkAccess ((s.setSp (s.sp - 2)).segValue .ss) (s.sp - 2) true = none := by
    rw [hv]; exact checkAccess_none true hpr hwp h1.1
  have c1 : checkAccess ((s.setSp (s.sp - 2)).segValue .ss) (s.sp - 2 + 1) true = none := by
    rw [hv, e3]; exact checkAccess_none true hpr hwp h0.1
  rcases pushWord_cases p v s with ⟨x, hx⟩ | ⟨t, ht, hwr, hf⟩
  · have hp : pushWord p v s = writeWord .ss p (s.sp - 2) v (s.setSp (s.sp - 2)) := by
      simp only [pushWord, State.setSp_sp]
    rw [hp] at hx
    rcases writeWord_cases .ss p (s.sp - 2) v (s.setSp (s.sp - 2)) with ⟨y, hy | ⟨-, hy⟩, -⟩ | ⟨-, -, hd⟩
    · rw [c2] at hy; cases hy
    · rw [c1] at hy; cases hy
    · rw [hx] at hd; cases hd
  have hw1 : Memory.wf (s.setSp (s.sp - 2)).ram = true := by rw [State.setSp_ram]; exact hw
  have hcn : ∀ a, (s.setSp (s.sp - 2)).ramConnected a = s.ramConnected a := by
    intro a; unfold State.ramConnected; rw [State.setSp_platform]
  have ta : translate ((s.setSp (s.sp - 2)).segValue .ss) (s.sp - 2) = .ram (s.stackAddress (s.sp - 2)) := by
    rw [hv, State.translate_stack s hram]
  have tb : translate ((s.setSp (s.sp - 2)).segValue .ss) (s.sp - 2 + 1) = .ram (s.stackAddress (s.sp - 1)) := by
    rw [hv, e3, State.translate_stack s hram]
  have hne : s.stackAddress (s.sp - 2) ≠ s.stackAddress (s.sp - 1) := by
    intro e
    have := sub_ofNat_inj (x := s.sp) (a := 2) (b := 1) (by decide) (by decide) (State.stackAddress_inj s e)
    omega
  have hk1 : (s.setSp (s.sp - 2)).devicesKeepOff (wordCycles (s.sp - 2)) (· = s.stackAddress (s.sp - 2)) := by
    rw [wordCycles_sub_two]
    unfold State.devicesKeepOff
    rw [State.setSp_deviceStores]
    exact hk
  obtain ⟨hlo, hhi, hcalls, hdraws⟩ := writeWord_stored hw1 hwr ta tb (by rw [hcn]; exact h1.2) (by rw [hcn]; exact h0.2) hne hk1
  rw [State.setSp_calls] at hcalls
  rw [State.setSp_draws] at hdraws
  have hframe : t = { (s.markAccessed .ss).setSp (s.sp - 2) with
      ram := t.ram, deviceStores := s.deviceStores.drop (wordCycles s.sp) } := by
    have hmc : ((s.markAccessed .ss).setSp (s.sp - 2)).calls = s.calls := by rw [State.setSp_calls, State.markAccessed_eq]
    have hmd : ((s.markAccessed .ss).setSp (s.sp - 2)).draws = s.draws := by rw [State.setSp_draws, State.markAccessed_eq]
    rw [hcalls, hdraws, ← hmc, ← hmd] at hf
    exact hf
  have hts : t.segValue .ss = (s.markAccessed .ss).segValue .ss := by
    have : t.segValue .ss = ((s.markAccessed .ss).setSp (s.sp - 2)).segValue .ss := by
      rw [hframe]; rfl
    rw [this, State.setSp_segValue]
  have hacc : t.segValue .ss = s.segValue .ss ∨ t.segValue .ss = withBit (s.segValue .ss) 28 true := by
    rw [hts]; exact State.markAccessed_segValue s .ss .ss
  have haddr := State.stackAddress_congr hacc
  have hsp : t.sp = s.sp - 2 := by
    have : t.sp = ((s.markAccessed .ss).setSp (s.sp - 2)).sp := by rw [hframe]; rfl
    rw [this, State.setSp_sp]
  refine ⟨t, ht, hframe, hlo, hhi, ?_, writeWord_wf hwr hw1, ⟨?_, ?_, ?_, ?_⟩, haddr⟩
  · intro a ha1 ha2
    have := writeWord_ramByte (a := a) hw1 hwr (by rw [ta]; intro e; cases e; exact ha2 rfl)
      (by rw [tb]; intro e; cases e; exact ha1 rfl)
    rw [this, wordCycles_sub_two]
    have hr := State.afterCycles_ram_congr (wordCycles s.sp) (s := s) (u := s.setSp (s.sp - 2)) (State.setSp_platform s _)
      (State.setSp_ram s _) (State.setSp_deviceStores s _)
    unfold State.ramByte State.ramConnected
    rw [hr, State.afterCycles_platform, State.afterCycles_platform, State.setSp_platform]
  · rw [getLsbD_congr_accessed hacc (by decide)]; exact hram
  · rw [getLsbD_congr_accessed hacc (by decide)]; exact hwp
  · rw [getLsbD_congr_accessed hacc (by decide)]; exact hpr
  · intro j hj
    have hj' := hroom (j + 2) (by omega)
    have e : t.sp - BitVec.ofNat 16 (j + 1) = s.sp - BitVec.ofNat 16 (j + 2 + 1) := by
      rw [hsp, word_two, sub_ofNat_sub]
      exact congrArg (fun x => s.sp - BitVec.ofNat 16 x) (by omega)
    have hcon : ∀ a, t.ramConnected a = s.ramConnected a := by
      intro a
      have hp : t.platform = s.platform := by
        rw [hframe]
        show ((s.markAccessed .ss).setSp (s.sp - 2)).platform = _
        rw [State.setSp_platform, State.markAccessed_eq]
      unfold State.ramConnected
      rw [hp]
    rw [e, segmentSize_congr hacc, haddr, hcon]
    exact hj'

/-! ### A list of pushes -/

/-- The word at a stack offset, of two bytes of RAM. -/
theorem State.peekWord_stack (s : State) (h : (s.segValue .ss).getLsbD 31 = false) (off : Word) :
    s.peekWord (s.segValue .ss) off = wordOfBytes (s.ramByte (s.stackAddress off)) (s.ramByte (s.stackAddress (off + 1))) := by
  simp only [State.peekWord, State.peek, State.translate_stack s h]

/-- A word is its two bytes. -/
theorem wordOfBytes_bytes (v : Word) : wordOfBytes (lowByte v) (highByte v) = v := by
  apply BitVec.eq_of_toNat_eq
  have h : ∀ a b : Byte, (wordOfBytes a b).toNat = b.toNat * 256 + a.toNat := by
    intro a b
    unfold wordOfBytes
    have := a.isLt
    rw [BitVec.toNat_append, Nat.shiftLeft_eq, Nat.mul_comm]
    rw [← Nat.two_pow_add_eq_or_of_lt a.isLt]
  rw [h]
  simp only [lowByte, highByte, BitVec.extractLsb'_toNat, Nat.shiftRight_eq_div_pow]
  have := v.isLt
  omega

/-- Pushing a list of words onto a stack with room for them, which devices keep off meanwhile, is done, and leaves them on the
stack. -/
theorem pushWords_room (p : Purpose) {P : Nat → Prop} : ∀ (ws : List Word) {s : State} {n : Nat}, ws.length ≤ n → 2 * n < 65536 →
    Memory.wf s.ram = true → s.stackRoom n → (∀ a, s.belowSp (2 * ws.length) a → P a) →
    s.devicesKeepOff (ws.length * wordCycles s.sp) P →
    ∃ t, pushWords p ws s = .done () t ∧ Pushed ws s.pc s t ∧ Memory.wf t.ram = true ∧ t.stackRoom (n - ws.length) ∧
      (∀ off, t.stackAddress off = s.stackAddress off)
  | [], s, n, _, _, hw, hr, _, _ => by
    refine ⟨s, rfl, ⟨?_, ?_, ?_, ?_⟩, hw, hr, fun _ => rfl⟩
    · simp
    · intro k hk; exact absurd hk (Nat.not_lt_zero k)
    · intro a _
      rw [List.length_nil, Nat.zero_mul]
      rfl
    · rw [List.length_nil, Nat.zero_mul]
      simp only [if_true]
      unfold State.setSp State.setPc State.sp
      cases s.supervisor <;> rfl
  | v :: vs, s, n, hlen, hn, hw, hr, hP, hk => by
    simp only [List.length_cons] at hlen
    obtain ⟨n', rfl⟩ : ∃ n', n = n' + 1 := ⟨n - 1, by omega⟩
    have hc : (v :: vs).length * wordCycles s.sp = wordCycles s.sp + vs.length * wordCycles s.sp := by
      rw [List.length_cons, Nat.succ_mul, Nat.add_comm]
    rw [hc] at hk
    have hP1 : P (s.stackAddress (s.sp - 1)) := hP _ ⟨0, by simp, rfl⟩
    have hP2 : P (s.stackAddress (s.sp - 2)) := hP _ ⟨1, by simp only [List.length_cons]; omega, rfl⟩
    have hk1 : s.devicesKeepOff (wordCycles s.sp) (· = s.stackAddress (s.sp - 2)) :=
      State.devicesKeepOff_mono hk (Nat.le_add_right _ _) (fun a ha => ha ▸ hP2)
    obtain ⟨s1, h1, hf1, hlo, hhi, hoth, hw1, hr1, ha1⟩ := pushWord_room p v (n := n') (by omega) hw hr hk1
    have hsp1 : s1.sp = s.sp - 2 := by
      have : s1.sp = ((s.markAccessed .ss).setSp (s.sp - 2)).sp := by rw [hf1]; rfl
      rw [this, State.setSp_sp]
    have hd1 : s1.deviceStores = s.deviceStores.drop (wordCycles s.sp) := by rw [hf1]
    have hpl1 : s1.platform = s.platform := by
      rw [hf1]
      show ((s.markAccessed .ss).setSp (s.sp - 2)).platform = _
      rw [State.setSp_platform, State.markAccessed_eq]
    have hc1 : wordCycles s1.sp = wordCycles s.sp := by rw [hsp1, wordCycles_sub_two]
    have hkP : s1.devicesKeepOff (vs.length * wordCycles s1.sp) P := by
      rw [hc1]; exact State.devicesKeepOff_drop hk hd1
    have hlift : ∀ a, s1.belowSp (2 * vs.length) a → s.belowSp (2 * (v :: vs).length) a := by
      rintro a ⟨j, hj, rfl⟩
      refine ⟨j + 2, by simp only [List.length_cons]; omega, ?_⟩
      rw [ha1, hsp1, word_two, sub_ofNat_sub]
      exact congrArg (fun x => s.stackAddress (s.sp - BitVec.ofNat 16 x)) (by omega)
    obtain ⟨t, ht, hp, hwt, hrt, hat⟩ :=
      pushWords_room p vs (s := s1) (n := n') (by omega) (by omega) hw1 hr1 (fun a ha => hP a (hlift a ha)) hkP
    obtain ⟨hsp, hwords, hram, hfr⟩ := hp
    have hspt : t.sp = s.sp - BitVec.ofNat 16 (2 * (v :: vs).length) := by
      rw [hsp, hsp1, word_two, sub_ofNat_sub, List.length_cons]
      exact congrArg (fun x => s.sp - BitVec.ofNat 16 x) (by omega)
    have hrt31 : (t.segValue .ss).getLsbD 31 = false := hrt.1
    refine ⟨t, ?_, ⟨hspt, ?_, ?_, ?_⟩, hwt, by simpa using hrt, fun off => by rw [hat, ha1]⟩
    · simp only [pushWords, h1, Res.done_andThen, ht]
    · intro k hk
      simp only [List.length_cons] at hk
      by_cases hkv : k < vs.length
      · rw [List.reverse_cons, List.getElem?_append_left (by simpa using hkv)]
        exact hwords k hkv
      · have hkeq : k = vs.length := by omega
        subst hkeq
        rw [List.reverse_cons, List.getElem?_append_right (by simp)]
        simp only [List.length_reverse, Nat.sub_self, List.getElem?_cons_zero]
        have e1 : t.sp + BitVec.ofNat 16 (2 * vs.length) = s.sp - 2 := by
          rw [hspt, List.length_cons, sub_ofNat_add _ (by omega), word_two]
          exact congrArg (fun x => s.sp - BitVec.ofNat 16 x) (by omega)
        have e2 : s.sp - 2 + 1 = s.sp - 1 := sub_ofNat_add s.sp (a := 2) (b := 1) (by decide)
        unfold State.stackWord
        rw [State.peekWord_stack t hrt31, e1, e2, hat, hat, ha1, ha1]
        have hkeep : ∀ i, i = 1 ∨ i = 2 → P (s.stackAddress (s.sp - BitVec.ofNat 16 i)) →
            t.ramByte (s.stackAddress (s.sp - BitVec.ofNat 16 i)) =
            s1.ramByte (s.stackAddress (s.sp - BitVec.ofNat 16 i)) := by
          intro i hi hPi
          refine (hram _ ?_).trans (State.afterCycles_keepOff hPi _ hkP)
          rintro ⟨j, hj, e⟩
          rw [ha1] at e
          have := State.stackAddress_inj s e
          rw [hsp1, word_two, sub_ofNat_sub] at this
          have := sub_ofNat_inj (by omega) (by omega) this
          omega
        have k1 := hkeep 1 (.inl rfl) hP1
        have k2 := hkeep 2 (.inr rfl) hP2
        have b1 : (BitVec.ofNat 16 1 : Word) = 1 := rfl
        have b2 : (BitVec.ofNat 16 2 : Word) = 2 := rfl
        rw [b1] at k1
        rw [b2] at k2
        rw [k1, k2, hlo, hhi, wordOfBytes_bytes]
    · intro a ha
      have g : ¬ s1.belowSp (2 * vs.length) a := fun hb => ha (hlift a hb)
      have o1 : a ≠ s.stackAddress (s.sp - 1) := fun e => ha ⟨0, by simp, e⟩
      have o2 : a ≠ s.stackAddress (s.sp - 2) := fun e => ha ⟨1, by simp only [List.length_cons]; omega, e⟩
      rw [hram a g, hc, State.afterCycles_add, hc1]
      refine State.afterCycles_ramByte_congr _ (State.afterCycles_wf _ _ hw) hw1 ?_ ?_ (hoth a o1 o2)
      · rw [State.afterCycles_platform]; exact hpl1
      · rw [State.afterCycles_deviceStores]; exact hd1
    · have hseg : (if vs = [] then s1 else s1.markAccessed .ss) =
          { (s.markAccessed .ss).setSp (s.sp - 2) with
            ram := s1.ram, deviceStores := s.deviceStores.drop (wordCycles s.sp) } := by
        have hm : s1.markAccessed .ss = s1 := by
          rw [hf1, State.markAccessed_withRam, State.markAccessed_setSp, State.markAccessed_markAccessed]
        split
        · exact hf1
        · rw [hm]; exact hf1
      rw [hseg] at hfr
      have hpc : s1.pc = s.pc := by
        have : s1.pc = ((s.markAccessed .ss).setSp (s.sp - 2)).pc := by rw [hf1]
        rw [this, State.setSp_pc, State.markAccessed_eq]
      rw [hpc, hd1, hc1, List.drop_drop, ← hc] at hfr
      rw [if_neg (List.cons_ne_nil v vs)]
      rw [State.setSp_withRam, State.setSp_setSp] at hfr
      exact hfr

/-- Setting PC after pushes. -/
theorem Pushed.setPc {ws : List Word} {pc : Word} {s t : State} (h : Pushed ws pc s t) (pc' : Word) : Pushed ws pc' s (t.setPc pc') := by
  obtain ⟨h1, h2, h3, h4⟩ := h
  refine ⟨h1, h2, h3, ?_⟩
  have hs : (t.setPc pc').sp = t.sp := rfl
  rw [hs]
  have hr : (t.setPc pc').ram = t.ram := rfl
  rw [hr]
  have : t.setPc pc' = ({ (((if ws = [] then s else s.markAccessed .ss).setSp t.sp).setPc pc) with
      ram := t.ram, deviceStores := s.deviceStores.drop (ws.length * wordCycles s.sp) } : State).setPc pc' := by
    rw [← h4]
  rw [this]
  rfl

/-! ### Pops and reads of words -/

/-- A pop is done exactly when its read is, and then SP moves up by 2 (00_scope.md R18). -/
theorem popWord_eq (p : Purpose) (s : State) :
    popWord p s =
      match readWord .ss p s.sp s with
      | .done v t => .done v ((s.withBus t).setSp (s.sp + 2))
      | .trap x t => .trap x (s.withBus t) := by
  unfold popWord
  cases h : readWord .ss p s.sp s with
  | done v t =>
    have hb := (readWord_done h).withBus
    simp only [Res.done_andThen]
    rw [hb]
    have hs : t.sp = s.sp := by rw [← hb]; rfl
    rw [hs]
  | trap x t =>
    obtain ⟨n, -, hd⟩ := readWord_trap h
    simp only [Res.trap_andThen]
    rw [hd.withBus]

/-- Reads of words are as many access cycles as their alignment says. -/
theorem readWords_effect {k : SegKind} {p : Purpose} : ∀ {n : Nat} {off : Word} {s t : State} {ws : List Word},
    readWords k p n off s = some (ws, t) → ReadEffect (n * wordCycles off) s t ∧ ws.length = n
  | 0, off, s, t, ws, h => by
    simp only [readWords, Option.some.injEq, Prod.mk.injEq] at h
    obtain ⟨rfl, rfl⟩ := h
    rw [Nat.zero_mul]
    exact ⟨ReadEffect.refl _, rfl⟩
  | n + 1, off, s, t, ws, h => by
    unfold readWords at h
    split at h
    · cases h
    · rename_i v s1 h1
      split at h
      · cases h
      · rename_i vs s2 h2
        simp only [Option.some.injEq, Prod.mk.injEq] at h
        obtain ⟨rfl, rfl⟩ := h
        obtain ⟨hd, hl⟩ := readWords_effect h2
        rw [wordCycles_add_two] at hd
        rw [Nat.succ_mul, Nat.add_comm]
        exact ⟨(readWord_done h1).trans hd, by simp [hl]⟩

end Sys2Proof.Machine
end

