-- ==== Sys2Proof/Laws/Ops.lean ====
section
/-! SUPPORT. What the shared operations of an instruction can do, each said once: accesses, pushes and pops, taking an interrupt, the
reset sequence, ending an instruction. -/

namespace Sys2Proof.Machine

/-! ### Accesses of the data and stack segments -/

/-- All that reads, writes, pushes and pops can change: RAM (keeping its form), the devices' calls and coming stores, A bits, draws,
and the stack pointer of the mode. -/
structure AccessEffect (s t : State) : Prop where
  regs : t.regs = s.regs
  fl : t.fl = s.fl
  pc : t.pc = s.pc
  ps : t.ps = s.ps
  halted : t.halted = s.halted
  rtc : t.rtc = s.rtc
  rom : t.rom = s.rom
  platform : t.platform = s.platform
  lines : t.lines = s.lines
  script : t.script = s.script
  ssp : s.supervisor = false → t.ssp = s.ssp
  usp : s.supervisor = true → t.usp = s.usp
  segs : ∀ n, t.segs.get n = s.segs.get n ∨ t.segs.get n = withBit (s.segs.get n) 28 true
  draws : s.draws ≤ t.draws
  wf : Memory.wf s.ram = true → Memory.wf t.ram = true

theorem AccessEffect.refl (s : State) : AccessEffect s s :=
  ⟨rfl, rfl, rfl, rfl, rfl, rfl, rfl, rfl, rfl, rfl, fun _ => rfl, fun _ => rfl, fun _ => .inl rfl, Nat.le_refl _, id⟩

theorem withBit_withBit (r : SegReg) : withBit (withBit r 28 true) 28 true = withBit r 28 true := by
  apply BitVec.eq_of_getLsbD_eq
  intro i hi
  simp [withBit]

theorem AccessEffect.trans {s t u : State} (h : AccessEffect s t) (g : AccessEffect t u) : AccessEffect s u where
  regs := g.regs.trans h.regs
  fl := g.fl.trans h.fl
  pc := g.pc.trans h.pc
  ps := g.ps.trans h.ps
  halted := g.halted.trans h.halted
  rtc := g.rtc.trans h.rtc
  rom := g.rom.trans h.rom
  platform := g.platform.trans h.platform
  lines := g.lines.trans h.lines
  script := g.script.trans h.script
  ssp hs := (g.ssp (by unfold State.supervisor at hs ⊢; rw [h.ps]; exact hs)).trans (h.ssp hs)
  usp hs := (g.usp (by unfold State.supervisor at hs ⊢; rw [h.ps]; exact hs)).trans (h.usp hs)
  segs n := by
    rcases h.segs n with h1 | h1 <;> rcases g.segs n with g1 | g1
    · exact .inl (g1.trans h1)
    · exact .inr (by rw [g1, h1])
    · exact .inr (g1.trans h1)
    · exact .inr (by rw [g1, h1, withBit_withBit])
  draws := Nat.le_trans h.draws g.draws
  wf hw := g.wf (h.wf hw)

theorem AccessEffect.supervisor {s t : State} (h : AccessEffect s t) : t.supervisor = s.supervisor := by
  unfold State.supervisor; rw [h.ps]

theorem ReadEffect.effect {n : Nat} {s t : State} (h : ReadEffect n s t) : AccessEffect s t := by
  have hd := h.2
  have hw := h.wf
  rw [← h.withBus] at hd hw ⊢
  exact ⟨rfl, rfl, rfl, rfl, rfl, rfl, rfl, rfl, rfl, rfl, fun _ => rfl, fun _ => rfl, fun _ => .inl rfl, hd, hw⟩

/-- The devices' turns, as part of an access. -/
theorem turnIf_effect (s : State) (begins : Bool) : AccessEffect s (s.turnIf begins) := (ReadEffect.turnIf s begins).effect

theorem setSp_effect (s : State) (v : Word) : AccessEffect s (s.setSp v) where
  regs := State.setSp_regs s v
  fl := State.setSp_fl s v
  pc := State.setSp_pc s v
  ps := State.setSp_ps s v
  halted := State.setSp_halted s v
  rtc := State.setSp_rtc s v
  rom := State.setSp_rom s v
  platform := State.setSp_platform s v
  lines := State.setSp_lines s v
  script := State.setSp_script s v
  ssp hs := by simp [State.setSp, hs]
  usp hs := by simp [State.setSp, hs]
  segs n := .inl (by rw [State.setSp_segs])
  draws := by rw [State.setSp_draws]
  wf hw := by rw [State.setSp_ram]; exact hw

theorem markAccessed_effect (s : State) (k : SegKind) : AccessEffect s (s.markAccessed k) := by
  have hg := State.markAccessed_get s k
  rw [State.markAccessed_eq] at hg ⊢
  refine ⟨rfl, rfl, rfl, rfl, rfl, rfl, rfl, rfl, rfl, rfl, fun _ => rfl, fun _ => rfl, fun n => ?_, Nat.le_refl _, id⟩
  have h := hg n
  split at h
  · exact .inr h
  · exact .inl h

theorem writePlace_effect (p : Place) (b : Byte) (s : State) : AccessEffect s (writePlace p b s) := by
  have hd : s.draws ≤ (writePlace p b s).draws := by
    cases p with
    | ram a =>
      show s.draws ≤ (s.storeRam a b).draws
      rw [State.storeRam_eq]
    | rom a => exact Nat.le_refl _
    | device slot a =>
      rw [writePlace_device]
      split
      · exact Nat.le_succ _
      · exact Nat.le_refl _
  have hw := writePlace_wf p b s
  rw [writePlace_eq] at hd hw ⊢
  exact ⟨rfl, rfl, rfl, rfl, rfl, rfl, rfl, rfl, rfl, rfl, fun _ => rfl, fun _ => rfl, fun _ => .inl rfl, hd, hw⟩

theorem writeByte_effect {k : SegKind} {p : Purpose} {off : Word} {b : Byte} {s t : State} (h : writeByte k p off b s = .done () t) :
    AccessEffect s t := by
  rcases writeByte_cases k p off b s with ⟨v, -, hv⟩ | ⟨-, hd⟩
  · rw [h] at hv; cases hv
  · rw [h] at hd
    injection hd with _ hd
    rw [hd]
    exact ((markAccessed_effect s k).trans (turnIf_effect _ true)).trans (writePlace_effect _ _ _)

theorem writeWord_effect {k : SegKind} {p : Purpose} {off v : Word} {s t : State} (h : writeWord k p off v s = .done () t) :
    AccessEffect s t := by
  rcases writeWord_cases k p off v s with ⟨x, -, hv⟩ | ⟨-, -, hd⟩
  · rw [h] at hv; cases hv
  · rw [h] at hd
    injection hd with _ hd
    rw [hd]
    exact ((((markAccessed_effect s k).trans (turnIf_effect _ true)).trans (writePlace_effect _ _ _)).trans
      (turnIf_effect _ _)).trans (writePlace_effect _ _ _)

/-- A push, done or not. -/
theorem pushWord_effect (p : Purpose) (v : Word) (s : State) :
    match pushWord p v s with
    | .done _ t => AccessEffect s t
    | .trap _ t => AccessEffect s t := by
  rcases pushWord_cases p v s with ⟨x, hx⟩ | ⟨t, ht, hw, -⟩
  · rw [hx]; exact setSp_effect s _
  · rw [ht]; exact (setSp_effect s _).trans (writeWord_effect hw)

/-- A list of pushes, done or stopped part-way. -/
theorem pushWords_effect (p : Purpose) : ∀ (ws : List Word) (s : State),
    match pushWords p ws s with
    | .done _ t => AccessEffect s t
    | .trap _ t => AccessEffect s t
  | [], s => AccessEffect.refl s
  | v :: vs, s => by
    have h := pushWord_effect p v s
    have e : pushWords p (v :: vs) s = (pushWord p v s).andThen fun _ s1 => pushWords p vs s1 := rfl
    rw [e]
    cases hp : pushWord p v s with
    | trap x t => rw [hp] at h; exact h
    | done u t =>
      rw [hp] at h
      have g := pushWords_effect p vs t
      simp only [Res.done_andThen]
      cases hq : pushWords p vs t with
      | done u' t' => rw [hq] at g; exact h.trans g
      | trap x t' => rw [hq] at g; exact h.trans g

/-- A pop, done or not. -/
theorem popWord_effect (p : Purpose) (s : State) :
    match popWord p s with
    | .done _ t => AccessEffect s t
    | .trap _ t => AccessEffect s t := by
  have e : popWord p s = (readWord .ss p s.sp s).andThen fun v s1 => .done v (s1.setSp (s1.sp + 2)) := rfl
  rw [e]
  cases h : readWord .ss p s.sp s with
  | done v t => exact (readWord_done h).effect.trans (setSp_effect t _)
  | trap x t =>
    obtain ⟨n, -, hr⟩ := readWord_trap h
    exact hr.effect

/-! ### Taking an interrupt -/

/-- All that taking an interrupt can change: PS, PC, the halted state, SSP, RAM, the devices' calls and coming stores, A bits, draws, and
in the TripleFault state the Clock rate. The machine is in supervisor mode afterwards (60_exceptions.md R345, R346, R352). -/
structure EntryEffect (s t : State) : Prop where
  regs : t.regs = s.regs
  fl : t.fl = s.fl
  usp : t.usp = s.usp
  rom : t.rom = s.rom
  platform : t.platform = s.platform
  lines : t.lines = s.lines
  script : t.script = s.script
  time : t.rtc.time = s.rtc.time
  rate : t.rtc.rate = s.rtc.rate ∨ t.rtc.rate = 0
  segs : ∀ n, t.segs.get n = s.segs.get n ∨ t.segs.get n = withBit (s.segs.get n) 28 true
  supervisor : t.supervisor = true
  wf : Memory.wf s.ram = true → Memory.wf t.ram = true

/-- An entry that goes on in supervisor mode, seen from a state of that mode. -/
theorem AccessEffect.entry {s t : State} (h : AccessEffect s t) (hs : s.supervisor = true) : EntryEffect s t :=
  ⟨h.regs, h.fl, h.usp hs, h.rom, h.platform, h.lines, h.script, by rw [h.rtc], .inl (by rw [h.rtc]), h.segs,
    by rw [h.supervisor]; exact hs, h.wf⟩

theorem EntryEffect.trans {s t u : State} (h : EntryEffect s t) (g : EntryEffect t u) : EntryEffect s u where
  regs := g.regs.trans h.regs
  fl := g.fl.trans h.fl
  usp := g.usp.trans h.usp
  rom := g.rom.trans h.rom
  platform := g.platform.trans h.platform
  lines := g.lines.trans h.lines
  script := g.script.trans h.script
  time := g.time.trans h.time
  rate := by
    rcases g.rate with g1 | g1
    · rw [g1]; exact h.rate
    · exact .inr g1
  segs n := by
    rcases h.segs n with h1 | h1 <;> rcases g.segs n with g1 | g1
    · exact .inl (g1.trans h1)
    · exact .inr (by rw [g1, h1])
    · exact .inr (g1.trans h1)
    · exact .inr (by rw [g1, h1, withBit_withBit])
  supervisor := g.supervisor
  wf hw := g.wf (h.wf hw)

/-- Bit 15 of a word after other bits were written. -/
theorem withBit_getLsbD_ne {n : Nat} (w : BitVec n) {i j : Nat} (b : Bool) (h : i ≠ j) : (withBit w i b).getLsbD j = w.getLsbD j := by
  cases b
  · by_cases hj : j < n
    · simp [withBit, hj, Ne.symm h]
    · simp [BitVec.getLsbD_of_ge _ _ (Nat.le_of_not_lt hj)]
  · simp [withBit, BitVec.getLsbD_twoPow, h]

theorem withBit_getLsbD_eq {n : Nat} (w : BitVec n) {i : Nat} (b : Bool) (h : i < n) : (withBit w i b).getLsbD i = b := by
  cases b <;> simp [withBit, h]

/-- PS.S is set by every entry (60_exceptions.md R345 step 3). -/
theorem entryPs_supervisor (iv : Interrupt) (tmp : Word) : (iv.entryPs tmp).getLsbD 15 = true := by
  unfold Interrupt.entryPs
  rw [withBit_getLsbD_ne _ _ (by decide), withBit_getLsbD_eq _ _ (by decide)]

/-- One run of the interrupt sequence, completed or abandoned. -/
theorem enterOnce_effect (iv : Interrupt) (savedPc : Word) (s : State) :
    match enterOnce iv savedPc s with
    | .done _ t => EntryEffect s t
    | .trap _ t => EntryEffect s t := by
  have h0 : EntryEffect s { s with ps := iv.entryPs s.readPs, halted := false } :=
    ⟨rfl, rfl, rfl, rfl, rfl, rfl, rfl, rfl, .inl rfl, fun _ => .inl rfl, entryPs_supervisor iv _, id⟩
  have hslot : ∀ u : State, u.supervisor = true →
      match iv.pushSlot u with
      | .done _ t => EntryEffect u t
      | .trap _ t => EntryEffect u t := by
    intro u hu
    cases iv with
    | hwi slot =>
      have h1 : EntryEffect u { u with ps := withBit u.ps 11 true } :=
        ⟨rfl, rfl, rfl, rfl, rfl, rfl, rfl, rfl, .inl rfl, fun _ => .inl rfl,
          (withBit_getLsbD_ne u.ps true (by decide)).trans hu, id⟩
      have h2 := pushWord_effect .other (slot.setWidth 16) { u with ps := withBit u.ps 11 true }
      show match pushWord .other (slot.setWidth 16) { u with ps := withBit u.ps 11 true } with
        | .done _ t => EntryEffect u t
        | .trap _ t => EntryEffect u t
      cases hp : pushWord .other (slot.setWidth 16) { u with ps := withBit u.ps 11 true } with
      | done x t => rw [hp] at h2; exact h1.trans (h2.entry h1.supervisor)
      | trap x t => rw [hp] at h2; exact h1.trans (h2.entry h1.supervisor)
    | _ => exact (AccessEffect.refl u).entry hu
  have htype : ∀ u : State, u.supervisor = true → EntryEffect u (iv.recordType u) := by
    intro u hu
    cases iv with
    | segFault v w c =>
      exact ⟨rfl, rfl, rfl, rfl, rfl, rfl, rfl, rfl, .inl rfl, fun _ => .inl rfl,
        ((withBit_getLsbD_ne _ w (by decide)).trans (withBit_getLsbD_ne u.ps v (by decide))).trans hu, id⟩
    | _ => exact (AccessEffect.refl u).entry hu
  have hcode : ∀ u : State, u.supervisor = true →
      match iv.pushCode u with
      | .done _ t => EntryEffect u t
      | .trap _ t => EntryEffect u t := by
    intro u hu
    have e : iv.pushCode u = match iv.errorCode with
      | some c => pushWord .other c u
      | none => .done () u := rfl
    rw [e]
    cases iv.errorCode with
    | none => exact (AccessEffect.refl u).entry hu
    | some c =>
      have h2 := pushWord_effect .other c u
      show match pushWord .other c u with
        | .done _ t => EntryEffect u t
        | .trap _ t => EntryEffect u t
      cases hp : pushWord .other c u with
      | done x t => rw [hp] at h2; exact h2.entry hu
      | trap x t => rw [hp] at h2; exact h2.entry hu
  have e : enterOnce iv savedPc s =
      (pushWord .other s.readPs { s with ps := iv.entryPs s.readPs, halted := false }).andThen fun _ s4 =>
      (pushWord .other savedPc s4).andThen fun _ s5 =>
      (iv.pushSlot s5).andThen fun _ s6 =>
      (iv.pushCode (iv.recordType s6)).andThen fun _ s8 =>
      (readWord .is .other (2 * iv.index) s8).andThen fun v s9 =>
      .done () (s9.setPc v) := rfl
  rw [e]
  have h1 := pushWord_effect .other s.readPs { s with ps := iv.entryPs s.readPs, halted := false }
  generalize pushWord .other s.readPs { s with ps := iv.entryPs s.readPs, halted := false } = r1 at h1 ⊢
  cases r1 with
  | trap x t => exact h0.trans (h1.entry h0.supervisor)
  | done x s4 =>
    have g1 := h0.trans (h1.entry h0.supervisor)
    have h2 := pushWord_effect .other savedPc s4
    simp only [Res.done_andThen]
    generalize pushWord .other savedPc s4 = r2 at h2 ⊢
    cases r2 with
    | trap x t => exact g1.trans (h2.entry g1.supervisor)
    | done x s5 =>
      have g2 := g1.trans (h2.entry g1.supervisor)
      have h3 := hslot s5 g2.supervisor
      simp only [Res.done_andThen]
      generalize iv.pushSlot s5 = r3 at h3 ⊢
      cases r3 with
      | trap x t => exact g2.trans h3
      | done x s6 =>
        have g3 := (g2.trans h3).trans (htype s6 (g2.trans h3).supervisor)
        have h4 := hcode (iv.recordType s6) g3.supervisor
        simp only [Res.done_andThen]
        generalize iv.pushCode (iv.recordType s6) = r4 at h4 ⊢
        cases r4 with
        | trap x t => exact g3.trans h4
        | done x s8 =>
          have g4 := g3.trans h4
          simp only [Res.done_andThen]
          cases h5 : readWord .is .other (2 * iv.index) s8 with
          | trap x t =>
            obtain ⟨n, -, hr⟩ := readWord_trap h5
            exact g4.trans (hr.effect.entry g4.supervisor)
          | done v s9 =>
            have g5 := g4.trans ((readWord_done h5).effect.entry g4.supervisor)
            exact ⟨g5.regs, g5.fl, g5.usp, g5.rom, g5.platform, g5.lines, g5.script, g5.time, g5.rate, g5.segs, g5.supervisor, g5.wf⟩

theorem performReset_effect (s : State) : EntryEffect s (performReset s) :=
  ⟨rfl, rfl, rfl, rfl, rfl, rfl, rfl, rfl, .inr rfl, fun _ => .inl rfl,
    (by decide : (0x8000 : Word).getLsbD 15 = true), id⟩

/-- Taking an interrupt, whatever faults inside the sequence. -/
theorem takeInterrupt_effect (iv : Interrupt) (savedPc : Word) (s : State) : EntryEffect s (takeInterrupt iv savedPc s) := by
  have h1 := enterOnce_effect iv savedPc s
  unfold takeInterrupt
  cases e1 : enterOnce iv savedPc s with
  | done x t => rw [e1] at h1; exact h1
  | trap x s1 =>
    rw [e1] at h1
    have h2 := enterOnce_effect (.doubleFault (Config.errcode s1.draws)) savedPc s1.afterDraw
    have h1' : EntryEffect s s1.afterDraw :=
      ⟨h1.regs, h1.fl, h1.usp, h1.rom, h1.platform, h1.lines, h1.script, h1.time, h1.rate, h1.segs, h1.supervisor, h1.wf⟩
    simp only
    cases e2 : enterOnce (.doubleFault (Config.errcode s1.draws)) savedPc s1.afterDraw with
    | done x t => rw [e2] at h2; exact h1'.trans h2
    | trap x s2 => rw [e2] at h2; exact (h1'.trans h2).trans (performReset_effect s2)

/-! ### Ending an instruction -/

/-- An instruction always has a next state: the one its part leaves, or the entry of what it raised. -/
theorem perform_next (w pc : Word) (r : Res Unit) : ∃ t, perform w pc r = .next t := by
  cases r <;> exact ⟨_, rfl⟩

theorem perform_done (w pc : Word) (t : State) : perform w pc (.done () t) = .next t := rfl

theorem perform_trap (w pc : Word) (x : Trap) (t : State) :
    perform w pc (.trap x t) = .next (takeInterrupt (x.interrupt w) pc t) := rfl

/-- The template of the ALU instructions, where M can be read and the operation is done (40_alu.md R170). -/
theorem aluRun_done {w : Word} {m : Operand} {s s1 t : State} {k : OpValue → State → Res Unit} {x : OpValue}
    (h : readOperand m s = .done x s1) (hk : k x s1 = .done () t) :
    aluRun w m s k = .next (t.setPc (s.pc + operandLength m)) := by
  simp only [aluRun, h, Res.done_andThen, hk, perform]

/-- The template of the ALU instructions, where M cannot be read (40_alu.md R171). -/
theorem aluRun_trap {w : Word} {m : Operand} {s s1 : State} {k : OpValue → State → Res Unit} {x : Trap}
    (h : readOperand m s = .trap x s1) : aluRun w m s k = .next (takeInterrupt (x.interrupt w) s.pc s1) := by
  simp only [aluRun, h, Res.trap_andThen, perform]

end Sys2Proof.Machine
end

