-- ==== Sys2Proof/Laws/PerInstr.lean ====
section
/-! SUPPORT. The family WordCount: the length of an instruction's encoding is the one its opcode word gives (30_encoding.md R131),
one lemma an instruction. -/

namespace Sys2Proof.Laws.WordCount

/-- A well-formed instruction is as long as 30_encoding.md R131 computes from its opcode word. -/
def Statement (i : Instr) : Prop := i.wf = true → instrLength (opcode i) = lengthOf i

/-! ### Fields of a word of two octets -/

theorem octetWord_getLsbD (h l : BitVec 8) (i : Nat) :
    (octetWord l h).getLsbD i = if i < 8 then l.getLsbD i else h.getLsbD (i - 8) := BitVec.getLsbD_append

theorem lowOctet_octetWord (h l : BitVec 8) : lowOctet (octetWord l h) = l := by
  apply BitVec.eq_of_getLsbD_eq
  intro i hi
  simp only [lowOctet, BitVec.getLsbD_extractLsb', octetWord_getLsbD, Nat.zero_add, hi, decide_true, Bool.true_and, if_true]

theorem octetWord_mode (h l : BitVec 8) : (octetWord l h).extractLsb' 9 6 = h.extractLsb' 1 6 := by
  apply BitVec.eq_of_getLsbD_eq
  intro i hi
  simp only [BitVec.getLsbD_extractLsb', octetWord_getLsbD, if_neg (show ¬ 9 + i < 8 by omega)]
  rw [show 9 + i - 8 = 1 + i by omega]

theorem octetWord_aaa (h l : BitVec 8) : (octetWord l h).extractLsb' 12 3 = h.extractLsb' 4 3 := by
  apply BitVec.eq_of_getLsbD_eq
  intro i hi
  simp only [BitVec.getLsbD_extractLsb', octetWord_getLsbD, if_neg (show ¬ 12 + i < 8 by omega)]
  rw [show 12 + i - 8 = 4 + i by omega]

theorem octetWord_far (h l : BitVec 8) : (octetWord l h).getLsbD 8 = h.getLsbD 0 := by
  rw [octetWord_getLsbD]; rfl

theorem aluWord_eq (op : BitVec 5) (d : Reg) (m : Operand) : aluWord op d m = octetWord (op ++ regBits d) m.high := by
  unfold aluWord octetWord
  exact @BitVec.append_assoc 8 5 3 m.high op (regBits d)

theorem countWord_eq (l : BitVec 8) (d : Reg) (n : CountOperand) : countWord l d n = octetWord l (regBits d ++ n.bits) := rfl

theorem valueWord_eq (l : BitVec 8) (d : Reg) (v : BitVec 5) : valueWord l d v = octetWord l (regBits d ++ v) := rfl

theorem segmentWord_eq (store u : Bool) (x r : BitVec 3) :
    segmentWord store u x r = octetWord 0xB5 (BitVec.ofBool u ++ x ++ r ++ BitVec.ofBool store) := rfl

/-! ### Lengths from the two octets -/

/-- The immediate words that the mode bits of a high octet ask for, with `far` for the far Immediate form. -/
def modeWords (far : Bool) (h : BitVec 8) : Nat :=
  if h.extractLsb' 1 6 = 0#6 then (if far && h.getLsbD 0 then 3 else 1)
  else if h.extractLsb' 1 6 = 1#6 then 1
  else if h.extractLsb' 4 3 = 3#3 then 1
  else 0

/-- A low octet of no ALU and no jump row has no immediate word. -/
theorem length_plain (l h : BitVec 8) (hl : 0x90 ≤ l.toNat ∧ l.toNat ≠ 0xB8 ∧ l.toNat ≠ 0xB9) : instrLength (octetWord l h) = 2 := by
  have h1 : ¬ l.toNat ≤ 0x8F := by omega
  simp [instrLength, immediateCount, lowOctet_octetWord, h1, hl.2.1, hl.2.2]

theorem length_alu (l h : BitVec 8) (hl : l.toNat ≤ 0x8F) : instrLength (octetWord l h) = 2 * (modeWords false h + 1) := by
  have h1 : l.toNat ≠ 0xB8 := by omega
  have h2 : l.toNat ≠ 0xB9 := by omega
  simp [instrLength, immediateCount, lowOctet_octetWord, octetWord_mode, octetWord_aaa, modeWords, hl, h1, h2]

theorem length_jump (l h : BitVec 8) (hl : l = 0xB8 ∨ l = 0xB9) : instrLength (octetWord l h) = 2 * (modeWords true h + 1) := by
  have hf := octetWord_far h l
  rcases hl with rfl | rfl <;>
  · unfold instrLength immediateCount modeWords
    rw [lowOctet_octetWord, octetWord_mode, octetWord_aaa, hf]
    simp

/-- An ALU row's low octet lies below $90. -/
theorem alu_low {op : BitVec 5} (h : op.toNat < 18) (d : Reg) : (op ++ regBits d : BitVec 8).toNat ≤ 0x8F := by
  have hd : (regBits d).toNat < 8 := (regBits d).isLt
  rw [BitVec.toNat_append, ← Nat.shiftLeft_add_eq_or_of_lt hd, Nat.shiftLeft_eq]
  omega

theorem operand_modeWords (m : Operand) : modeWords false m.high = m.immediates.length := by
  cases m with
  | immediate es e v =>
    show modeWords false (BitVec.ofBool es ++ 0#6 ++ BitVec.ofBool e) = 1
    revert es e; decide
  | absolute es e v =>
    show modeWords false (BitVec.ofBool es ++ 1#6 ++ BitVec.ofBool e) = 1
    revert es e; decide
  | undefinedMode es x e => revert es x e; decide
  | control es p => revert es p; decide
  | register es e r => revert es e r; decide
  | indirect es e r => revert es e r; decide
  | indirectOffset es e r v =>
    show modeWords false (BitVec.ofBool es ++ 3#3 ++ regBits r ++ BitVec.ofBool e) = 1
    revert es e r; decide
  | indirectIndexed es e ii r => revert es e ii r; decide

theorem alu_length {op : BitVec 5} (h : op.toNat < 18) (d : Reg) (m : Operand) :
    instrLength (aluWord op d m) = 2 * (m.immediates.length + 1) := by
  rw [aluWord_eq, length_alu _ _ (alu_low h d), operand_modeWords]

theorem near_modeWords (m : JumpOperand) (h : m.wfNear = true) : modeWords true (m.high false) = (m.immediates false).length := by
  cases m with
  | immediate es v g =>
    show modeWords true (BitVec.ofBool es ++ 0#6 ++ BitVec.ofBool false) = 1
    clear h; revert es; decide
  | absolute es v =>
    show modeWords true (BitVec.ofBool es ++ 1#6 ++ BitVec.ofBool false) = 1
    clear h; revert es; decide
  | undefinedMode es x => revert es x; decide
  | register es r f => clear h; revert es r f; decide
  | indirect es r => clear h; revert es r; decide
  | indirectOffset es r v =>
    show modeWords true (BitVec.ofBool es ++ 3#3 ++ regBits r ++ BitVec.ofBool false) = 1
    clear h; revert es r; decide
  | indirectIndexed es ii r => clear h; revert es ii r; decide

theorem far_modeWords (m : JumpOperand) (h : m.wfFar = true) : modeWords true (m.high true) = (m.immediates true).length := by
  cases m with
  | immediate es v g =>
    show modeWords true (BitVec.ofBool es ++ 0#6 ++ BitVec.ofBool true) = 3
    clear h; revert es; decide
  | absolute es v =>
    show modeWords true (BitVec.ofBool es ++ 1#6 ++ BitVec.ofBool true) = 1
    clear h; revert es; decide
  | undefinedMode es x => revert es x; decide
  | register es r f => exact absurd h (by simp [JumpOperand.wfFar])
  | indirect es r => clear h; revert es r; decide
  | indirectOffset es r v =>
    show modeWords true (BitVec.ofBool es ++ 3#3 ++ regBits r ++ BitVec.ofBool true) = 1
    clear h; revert es r; decide
  | indirectIndexed es ii r => clear h; revert es ii r; decide

theorem near_length (m : JumpOperand) (l : BitVec 8) (hl : l = 0xB8 ∨ l = 0xB9) (h : m.wfNear = true) :
    instrLength (octetWord l (m.high false)) = 2 * ((m.immediates false).length + 1) := by
  rw [length_jump _ _ hl, near_modeWords m h]

theorem far_length (m : JumpOperand) (l : BitVec 8) (hl : l = 0xB8 ∨ l = 0xB9) (h : m.wfFar = true) :
    instrLength (octetWord l (m.high true)) = 2 * ((m.immediates true).length + 1) := by
  rw [length_jump _ _ hl, far_modeWords m h]

/-- A word is its two octets. -/
theorem word_octets (w : Word) : w = octetWord (lowOctet w) (highOctet w) := by
  apply BitVec.eq_of_getLsbD_eq
  intro i hi
  rw [octetWord_getLsbD]
  by_cases h : i < 8
  · simp [lowOctet, h]
  · have h8 : i - 8 < 8 := by omega
    simp [highOctet, h, h8, show 8 + (i - 8) = i by omega]

/-! ### One lemma an instruction -/

theorem cmp (d : Reg) (m : Operand) : Statement (.cmp d m) := fun _ => alu_length (by decide) d m

theorem neg (d : Reg) (m : Operand) : Statement (.neg d m) := fun _ => alu_length (by decide) d m

theorem add (d : Reg) (m : Operand) : Statement (.add d m) := fun _ => alu_length (by decide) d m

theorem sub (d : Reg) (m : Operand) : Statement (.sub d m) := fun _ => alu_length (by decide) d m

theorem adc (d : Reg) (m : Operand) : Statement (.adc d m) := fun _ => alu_length (by decide) d m

theorem sbc (d : Reg) (m : Operand) : Statement (.sbc d m) := fun _ => alu_length (by decide) d m

theorem mul (d : Reg) (m : Operand) : Statement (.mul d m) := fun _ => alu_length (by decide) d m

theorem div (d : Reg) (m : Operand) : Statement (.div d m) := fun _ => alu_length (by decide) d m

theorem mli (d : Reg) (m : Operand) : Statement (.mli d m) := fun _ => alu_length (by decide) d m

theorem dvi (d : Reg) (m : Operand) : Statement (.dvi d m) := fun _ => alu_length (by decide) d m

theorem mod (d : Reg) (m : Operand) : Statement (.mod d m) := fun _ => alu_length (by decide) d m

theorem mdi (d : Reg) (m : Operand) : Statement (.mdi d m) := fun _ => alu_length (by decide) d m

theorem and (d : Reg) (m : Operand) : Statement (.and d m) := fun _ => alu_length (by decide) d m

theorem orr (d : Reg) (m : Operand) : Statement (.orr d m) := fun _ => alu_length (by decide) d m

theorem eor (d : Reg) (m : Operand) : Statement (.eor d m) := fun _ => alu_length (by decide) d m

theorem not (d : Reg) (m : Operand) : Statement (.not d m) := fun _ => alu_length (by decide) d m

theorem lod (d : Reg) (m : Operand) : Statement (.lod d m) := fun _ => alu_length (by decide) d m

theorem sto (d : Reg) (m : Operand) : Statement (.sto d m) := fun _ => alu_length (by decide) d m

theorem bcc (b : BitVec 8) : Statement (.bcc b) := fun _ => length_plain _ _ (by decide)

theorem bcs (b : BitVec 8) : Statement (.bcs b) := fun _ => length_plain _ _ (by decide)

theorem bne (b : BitVec 8) : Statement (.bne b) := fun _ => length_plain _ _ (by decide)

theorem beq (b : BitVec 8) : Statement (.beq b) := fun _ => length_plain _ _ (by decide)

theorem bpl (b : BitVec 8) : Statement (.bpl b) := fun _ => length_plain _ _ (by decide)

theorem bmi (b : BitVec 8) : Statement (.bmi b) := fun _ => length_plain _ _ (by decide)

theorem bvc (b : BitVec 8) : Statement (.bvc b) := fun _ => length_plain _ _ (by decide)

theorem bvs (b : BitVec 8) : Statement (.bvs b) := fun _ => length_plain _ _ (by decide)

theorem bug (b : BitVec 8) : Statement (.bug b) := fun _ => length_plain _ _ (by decide)

theorem bsg (b : BitVec 8) : Statement (.bsg b) := fun _ => length_plain _ _ (by decide)

theorem baw (b : BitVec 8) : Statement (.baw b) := fun _ => length_plain _ _ (by decide)

theorem undefined9A (high : BitVec 8) : Statement (.undefined9A high) := fun _ => length_plain _ _ (by decide)

theorem undefined9B (high : BitVec 8) : Statement (.undefined9B high) := fun _ => length_plain _ _ (by decide)

theorem undefined9C (high : BitVec 8) : Statement (.undefined9C high) := fun _ => length_plain _ _ (by decide)

theorem undefined9D (high : BitVec 8) : Statement (.undefined9D high) := fun _ => length_plain _ _ (by decide)

theorem undefined9E (high : BitVec 8) : Statement (.undefined9E high) := fun _ => length_plain _ _ (by decide)

theorem asl (d : Reg) (n : CountOperand) : Statement (.asl d n) := fun _ => length_plain _ (regBits d ++ n.bits) (by decide)

theorem lsl (d : Reg) (n : CountOperand) : Statement (.lsl d n) := fun _ => length_plain _ (regBits d ++ n.bits) (by decide)

theorem rol (d : Reg) (n : CountOperand) : Statement (.rol d n) := fun _ => length_plain _ (regBits d ++ n.bits) (by decide)

theorem rnl (d : Reg) (n : CountOperand) : Statement (.rnl d n) := fun _ => length_plain _ (regBits d ++ n.bits) (by decide)

theorem asr (d : Reg) (n : CountOperand) : Statement (.asr d n) := fun _ => length_plain _ (regBits d ++ n.bits) (by decide)

theorem lsr (d : Reg) (n : CountOperand) : Statement (.lsr d n) := fun _ => length_plain _ (regBits d ++ n.bits) (by decide)

theorem ror (d : Reg) (n : CountOperand) : Statement (.ror d n) := fun _ => length_plain _ (regBits d ++ n.bits) (by decide)

theorem rnr (d : Reg) (n : CountOperand) : Statement (.rnr d n) := fun _ => length_plain _ (regBits d ++ n.bits) (by decide)

theorem btt (d : Reg) (n : CountOperand) : Statement (.btt d n) := fun _ => length_plain _ (regBits d ++ n.bits) (by decide)

theorem btx (d : Reg) (n : CountOperand) : Statement (.btx d n) := fun _ => length_plain _ (regBits d ++ n.bits) (by decide)

theorem btc (d : Reg) (n : CountOperand) : Statement (.btc d n) := fun _ => length_plain _ (regBits d ++ n.bits) (by decide)

theorem bts (d : Reg) (n : CountOperand) : Statement (.bts d n) := fun _ => length_plain _ (regBits d ++ n.bits) (by decide)

theorem set (a : Bool) (d : Reg) (v : BitVec 5) : Statement (.set a d v) := by
  cases a
  · exact fun _ => length_plain _ (regBits d ++ v) (by decide)
  · exact fun _ => length_plain _ (regBits d ++ v) (by decide)

theorem sef (bits : BitVec 8) : Statement (.sef bits) := fun _ => length_plain _ _ (by decide)

theorem clf (bits : BitVec 8) : Statement (.clf bits) := fun _ => length_plain _ _ (by decide)

theorem pshGeneral (mask : BitVec 8) : Statement (.pshGeneral mask) := fun _ => length_plain _ _ (by decide)

theorem pshControl (mask : BitVec 8) : Statement (.pshControl mask) := fun _ => length_plain _ _ (by decide)

theorem popGeneral (mask : BitVec 8) : Statement (.popGeneral mask) := fun _ => length_plain _ _ (by decide)

theorem popControl (mask : BitVec 8) : Statement (.popControl mask) := fun _ => length_plain _ _ (by decide)

theorem rts : Statement .rts := fun _ => by decide

theorem rtsF : Statement .rtsF := fun _ => by decide

theorem rti : Statement .rti := fun _ => by decide

theorem swi : Statement .swi := fun _ => by decide

theorem slp : Statement .slp := fun _ => by decide

theorem lsg (u : Bool) (x : BitVec 3) (r : BitVec 3) : Statement (.lsg u x r) := fun _ => length_plain _ (BitVec.ofBool u ++ x ++ r ++ BitVec.ofBool false) (by decide)

theorem ssg (u : Bool) (x : BitVec 3) (r : BitVec 3) : Statement (.ssg u x r) := fun _ => length_plain _ (BitVec.ofBool u ++ x ++ r ++ BitVec.ofBool true) (by decide)

theorem adi (d : Reg) (v : BitVec 5) : Statement (.adi d v) := fun _ => length_plain _ (regBits d ++ v) (by decide)

theorem sbi (d : Reg) (v : BitVec 5) : Statement (.sbi d v) := fun _ => length_plain _ (regBits d ++ v) (by decide)

theorem jmp (m : JumpOperand) : Statement (.jmp m) := fun h => near_length m _ (by decide) h

theorem jmpF (m : JumpOperand) : Statement (.jmpF m) := fun h => far_length m _ (by decide) h

theorem jsr (m : JumpOperand) : Statement (.jsr m) := fun h => near_length m _ (by decide) h

theorem jsrF (m : JumpOperand) : Statement (.jsrF m) := fun h => far_length m _ (by decide) h

theorem hwq00 : Statement .hwq00 := fun _ => by decide

theorem hwq01 : Statement .hwq01 := fun _ => by decide

theorem hwq02 : Statement .hwq02 := fun _ => by decide

theorem hwq03 : Statement .hwq03 := fun _ => by decide

theorem hwq80 : Statement .hwq80 := fun _ => by decide

theorem hwq82 : Statement .hwq82 := fun _ => by decide

theorem hwq83 : Statement .hwq83 := fun _ => by decide

theorem stx (i : BitVec 8) : Statement (.stx i) := fun _ => length_plain _ _ (by decide)

theorem undefinedBCtoBF (w : Word) : Statement (.undefinedBCtoBF w) := by
  intro h
  have h : (w.extractLsb' 2 6).toNat = 0x2F := by simpa [Instr.wf] using h
  have hw : (lowOctet w).toNat = w.toNat % 256 := by simp [lowOctet, BitVec.extractLsb'_toNat]
  rw [BitVec.extractLsb'_toNat, Nat.shiftRight_eq_div_pow] at h
  show instrLength w = 2
  rw [word_octets w]
  exact length_plain _ _ (by omega)

theorem undefinedC0toFF (w : Word) : Statement (.undefinedC0toFF w) := by
  intro h
  have h : (w.extractLsb' 6 2).toNat = 3 := by simpa [Instr.wf] using h
  have hw : (lowOctet w).toNat = w.toNat % 256 := by simp [lowOctet, BitVec.extractLsb'_toNat]
  rw [BitVec.extractLsb'_toNat, Nat.shiftRight_eq_div_pow] at h
  show instrLength w = 2
  rw [word_octets w]
  exact length_plain _ _ (by omega)

end Sys2Proof.Laws.WordCount
end

