-- ==== Sys2Proof/Tests/Slice0.lean ====
section
/-! SUPPORT. The author's tests: ill-formed terms that `Instr.wf` refuses, the decoding of every constructor from a word written out
from its bit pattern, one-step vectors of spec/95_test_vectors.md, and witnesses that the hypotheses of the statements can be met. -/

namespace Sys2Proof.Tests

set_option Elab.async false

open Sys2Proof Sys2Proof.Machine

/-! ### Well-formedness -/

theorem test_wf_near_jump_has_no_segment : (Instr.jmp (.immediate false 0x1234 1)).wf = false := by decide
theorem test_wf_near_call_has_no_segment : (Instr.jsr (.immediate false 0x1234 1)).wf = false := by decide
theorem test_wf_near_undefined_pattern : (Instr.jmp (.undefinedMode false 1)).wf = false := by decide
theorem test_wf_far_undefined_pattern : (Instr.jsrF (.undefinedMode false 0)).wf = false := by decide
theorem test_wf_far_jump_has_no_register_mode : (Instr.jmpF (.register false 3 true)).wf = false := by decide
theorem test_wf_far_call_has_no_register_mode : (Instr.jsrF (.register false 3 false)).wf = false := by decide
theorem test_wf_low_octet_BC_to_BF : (Instr.undefinedBCtoBF 0x12C0).wf = false := by decide
theorem test_wf_low_octet_C0_to_FF : (Instr.undefinedC0toFF 0x12BF).wf = false := by decide
theorem test_wf_accepts : [Instr.jmp (.immediate false 0x1234 0), .jmpF (.immediate false 0xFF06 0x83600008), .jsr (.register true 7 true),
    .jmp (.undefinedMode true 2), .undefinedBCtoBF 0x12BF, .undefinedC0toFF 0x12C0].all Instr.wf = true := by decide

/-! ### Decoding: words written out from the patterns of 30_encoding.md R134 to R155 -/

/-- R134, `sAAA rrrE OOOO ORRR` with Register mode, r = R2, E = 0, R = R1. -/
theorem test_decode_alu_operations :
    decodeTableWord 16 0b0001010000000001 = some (.cmp 1 (.register false false 2)) ∧
    decodeTableWord 16 0b0001010000001001 = some (.neg 1 (.register false false 2)) ∧
    decodeTableWord 16 0b0001010000010001 = some (.add 1 (.register false false 2)) ∧
    decodeTableWord 16 0b0001010000011001 = some (.sub 1 (.register false false 2)) ∧
    decodeTableWord 16 0b0001010000100001 = some (.adc 1 (.register false false 2)) ∧
    decodeTableWord 16 0b0001010000101001 = some (.sbc 1 (.register false false 2)) ∧
    decodeTableWord 16 0b0001010000110001 = some (.mul 1 (.register false false 2)) ∧
    decodeTableWord 16 0b0001010000111001 = some (.div 1 (.register false false 2)) ∧
    decodeTableWord 16 0b0001010001000001 = some (.mli 1 (.register false false 2)) ∧
    decodeTableWord 16 0b0001010001001001 = some (.dvi 1 (.register false false 2)) ∧
    decodeTableWord 16 0b0001010001010001 = some (.mod 1 (.register false false 2)) ∧
    decodeTableWord 16 0b0001010001011001 = some (.mdi 1 (.register false false 2)) ∧
    decodeTableWord 16 0b0001010001100001 = some (.and 1 (.register false false 2)) ∧
    decodeTableWord 16 0b0001010001101001 = some (.orr 1 (.register false false 2)) ∧
    decodeTableWord 16 0b0001010001110001 = some (.eor 1 (.register false false 2)) ∧
    decodeTableWord 16 0b0001010001111001 = some (.not 1 (.register false false 2)) ∧
    decodeTableWord 16 0b0001010010000001 = some (.lod 1 (.register false false 2)) ∧
    decodeTableWord 16 0b0001010010001001 = some (.sto 1 (.register false false 2)) := by decide

/-- R135: every addressing mode, for LOD with R = R3; immediate words in the upper bits. -/
theorem test_decode_addressing_modes :
    decodeTableWord 32 (0x12340000 + 0b0000000010000011) = some (.lod 3 (.immediate false false 0x1234)) ∧
    decodeTableWord 32 (0x12340000 + 0b1000000110000011) = some (.lod 3 (.immediate true true 0x1234)) ∧
    decodeTableWord 32 (0x12340000 + 0b1000001110000011) = some (.lod 3 (.absolute true true 0x1234)) ∧
    decodeTableWord 16 0b0000010110000011 = some (.lod 3 (.undefinedMode false false true)) ∧
    decodeTableWord 16 0b0000011010000011 = some (.lod 3 (.undefinedMode false true false)) ∧
    decodeTableWord 16 0b0000111010000011 = some (.lod 3 (.control false 6)) ∧
    decodeTableWord 16 0b1001110110000011 = some (.lod 3 (.register true true 6)) ∧
    decodeTableWord 16 0b1010101010000011 = some (.lod 3 (.indirect true false 5)) ∧
    decodeTableWord 32 (0xFFFE0000 + 0b0011001110000011) = some (.lod 3 (.indirectOffset false true 1 0xFFFE)) ∧
    decodeTableWord 16 0b1110111010000011 = some (.lod 3 (.indirectIndexed true false 2 7)) := by decide

/-- R141, `bbbb bbbb 1001 cccc`, and the five undefined conditions. -/
theorem test_decode_branches :
    decodeTableWord 16 0b1111111010010000 = some (.bcc 0xFE) ∧
    decodeTableWord 16 0b1111111010010001 = some (.bcs 0xFE) ∧
    decodeTableWord 16 0b1111111010010010 = some (.bne 0xFE) ∧
    decodeTableWord 16 0b1111111010010011 = some (.beq 0xFE) ∧
    decodeTableWord 16 0b1111111010010100 = some (.bpl 0xFE) ∧
    decodeTableWord 16 0b1111111010010101 = some (.bmi 0xFE) ∧
    decodeTableWord 16 0b1111111010010110 = some (.bvc 0xFE) ∧
    decodeTableWord 16 0b1111111010010111 = some (.bvs 0xFE) ∧
    decodeTableWord 16 0b1111111010011000 = some (.bug 0xFE) ∧
    decodeTableWord 16 0b1111111010011001 = some (.bsg 0xFE) ∧
    decodeTableWord 16 0b1111111010011010 = some (.undefined9A 0xFE) ∧
    decodeTableWord 16 0b1111111010011011 = some (.undefined9B 0xFE) ∧
    decodeTableWord 16 0b1111111010011100 = some (.undefined9C 0xFE) ∧
    decodeTableWord 16 0b1111111010011101 = some (.undefined9D 0xFE) ∧
    decodeTableWord 16 0b1111111010011110 = some (.undefined9E 0xFE) ∧
    decodeTableWord 16 0b1111111010011111 = some (.baw 0xFE) := by decide

/-- R151, `rrrR ssss 1010 0Doo`: r = R5; a constant field of 11, then register R3. -/
theorem test_decode_shifts :
    decodeTableWord 16 0b1010101110100000 = some (.asl 5 (.constant 11)) ∧
    decodeTableWord 16 0b1010101110100001 = some (.lsl 5 (.constant 11)) ∧
    decodeTableWord 16 0b1010101110100010 = some (.rol 5 (.constant 11)) ∧
    decodeTableWord 16 0b1010101110100011 = some (.rnl 5 (.constant 11)) ∧
    decodeTableWord 16 0b1010101110100100 = some (.asr 5 (.constant 11)) ∧
    decodeTableWord 16 0b1010101110100101 = some (.lsr 5 (.constant 11)) ∧
    decodeTableWord 16 0b1010101110100110 = some (.ror 5 (.constant 11)) ∧
    decodeTableWord 16 0b1010101110100111 = some (.rnr 5 (.constant 11)) ∧
    decodeTableWord 16 0b1011001110100000 = some (.asl 5 (.register false 3)) ∧
    decodeTableWord 16 0b1011001110100001 = some (.lsl 5 (.register false 3)) ∧
    decodeTableWord 16 0b1011001110100010 = some (.rol 5 (.register false 3)) ∧
    decodeTableWord 16 0b1011001110100011 = some (.rnl 5 (.register false 3)) ∧
    decodeTableWord 16 0b1011001110100100 = some (.asr 5 (.register false 3)) ∧
    decodeTableWord 16 0b1011001110100101 = some (.lsr 5 (.register false 3)) ∧
    decodeTableWord 16 0b1011001110100110 = some (.ror 5 (.register false 3)) ∧
    decodeTableWord 16 0b1011001110100111 = some (.rnr 5 (.register false 3)) := by decide

/-- R142, `rrrR ssss 1010 10oo`: a constant field of 9, then register R6 with the ignored bit 11 set. -/
theorem test_decode_bit_tests :
    decodeTableWord 16 0b0110100110101000 = some (.btt 3 (.constant 9)) ∧
    decodeTableWord 16 0b0110100110101001 = some (.btx 3 (.constant 9)) ∧
    decodeTableWord 16 0b0110100110101010 = some (.btc 3 (.constant 9)) ∧
    decodeTableWord 16 0b0110100110101011 = some (.bts 3 (.constant 9)) ∧
    decodeTableWord 16 0b0111111010101000 = some (.btt 3 (.register true 6)) ∧
    decodeTableWord 16 0b0111111010101001 = some (.btx 3 (.register true 6)) ∧
    decodeTableWord 16 0b0111111010101010 = some (.btc 3 (.register true 6)) ∧
    decodeTableWord 16 0b0111111010101011 = some (.bts 3 (.register true 6)) := by decide

/-- R145, R150 and R143: `RRRv vvvv 1010 110A`, `RRRv vvvv 1011 011o`, `NZCV .... 1010 111o`. -/
theorem test_decode_constants_and_flags :
    decodeTableWord 16 0b1101011010101100 = some (.set false 6 22) ∧
    decodeTableWord 16 0b1101011010101101 = some (.set true 6 22) ∧
    decodeTableWord 16 0b0111111110110110 = some (.adi 3 31) ∧
    decodeTableWord 16 0b0110000010110111 = some (.sbi 3 0) ∧
    decodeTableWord 16 0b1010010110101110 = some (.sef 0xA5) ∧
    decodeTableWord 16 0b0101101010101111 = some (.clf 0x5A) := by decide

/-- R153, R154, R152: `rrrr rrrr 1011 00d0`, `su.. .pcf 1011 00d1`, `iiii iiii 1011 1011`. -/
theorem test_decode_stack :
    decodeTableWord 16 0b1000001110110000 = some (.pshGeneral 0x83) ∧
    decodeTableWord 16 0b1100011110110001 = some (.pshControl 0xC7) ∧
    decodeTableWord 16 0b0000001110110010 = some (.popGeneral 0x03) ∧
    decodeTableWord 16 0b0111100110110011 = some (.popControl 0x79) ∧
    decodeTableWord 16 0b1111111010111011 = some (.stx 0xFE) := by decide

/-- R149 and R148: `iiii iiii 1011 0100`, `u... rrro 1011 0101`. -/
theorem test_decode_processor_functions :
    decodeTableWord 16 0b0000000010110100 = some (.rts) ∧
    decodeTableWord 16 0b0000000110110100 = some (.rtsF) ∧
    decodeTableWord 16 0b0000001010110100 = some (.rti) ∧
    decodeTableWord 16 0b0000001110110100 = some (.swi) ∧
    decodeTableWord 16 0b0000010010110100 = some (.slp) ∧
    decodeTableWord 16 0b1000010010110101 = some (.lsg true 0 2) ∧
    decodeTableWord 16 0b0101011110110101 = some (.ssg false 5 3) := by decide

/-- R146, R147, `sAAA rrrF 1011 100o`: every mode, near and far. -/
theorem test_decode_jumps :
    decodeTableWord 32 (0x12340000 + 0b0000000010111000) = some (.jmp (.immediate false 0x1234 0)) ∧
    decodeTableWord 64 (0x83600008FF060000 + 0b0000000110111000) = some (.jmpF (.immediate false 0xFF06 0x83600008)) ∧
    decodeTableWord 32 (0x12340000 + 0b1000001010111000) = some (.jmp (.absolute true 0x1234)) ∧
    decodeTableWord 32 (0x12340000 + 0b0000001110111001) = some (.jsrF (.absolute false 0x1234)) ∧
    decodeTableWord 16 0b0000010010111001 = some (.jsr (.undefinedMode false 2)) ∧
    decodeTableWord 16 0b0000111110111000 = some (.jmpF (.undefinedMode false 7)) ∧
    decodeTableWord 16 0b0001011110111000 = some (.jmp (.register false 3 true)) ∧
    decodeTableWord 16 0b1001000010111001 = some (.jsr (.register true 0 false)) ∧
    decodeTableWord 16 0b1010011110111000 = some (.jmpF (.indirect true 3)) ∧
    decodeTableWord 32 (0x00020000 + 0b0011011010111001) = some (.jsr (.indirectOffset false 3 2)) ∧
    decodeTableWord 16 0b0111001010111000 = some (.jmp (.indirectIndexed false 3 1)) := by decide

/-- R144, `iiii iiii 1011 1010`. -/
theorem test_decode_hardware_queries :
    decodeTableWord 16 0b0000000010111010 = some (.hwq00) ∧
    decodeTableWord 16 0b0000000110111010 = some (.hwq01) ∧
    decodeTableWord 16 0b0000001010111010 = some (.hwq02) ∧
    decodeTableWord 16 0b0000001110111010 = some (.hwq03) ∧
    decodeTableWord 16 0b1000000010111010 = some (.hwq80) ∧
    decodeTableWord 16 0b1000001010111010 = some (.hwq82) ∧
    decodeTableWord 16 0b1000001110111010 = some (.hwq83) := by decide

/-- R155: the undefined low octets at the ends of their ranges. -/
theorem test_decode_undefined_octets :
    decodeTableWord 16 0b0001001010111100 = some (.undefinedBCtoBF 0x12BC) ∧
    decodeTableWord 16 0b0001001010111111 = some (.undefinedBCtoBF 0x12BF) ∧
    decodeTableWord 16 0b0001001011000000 = some (.undefinedC0toFF 0x12C0) ∧
    decodeTableWord 16 0b0001001011111111 = some (.undefinedC0toFF 0x12FF) := by decide

/-- R144, R149, R156: the first processor function and the first hardware queries that stand for nothing. -/
theorem test_decode_rejects :
    decodeTableWord 16 0x05B4 = none ∧ decodeTableWord 16 0xFFB4 = none ∧ decodeTableWord 16 0x04BA = none ∧
    decodeTableWord 16 0x81BA = none ∧ decodeTableWord 16 0x84BA = none := by decide

/-! ### One step, from spec/95_test_vectors.md

The conventions of its section 0: PC $0100 in ROM, PS $8000, SSP $8000, USP $4000, and a vector table that holds $F000 + $10 * index. -/

/-- The vector table of section 0, but for entry 0. -/
def vectors : Memory :=
  [(1, 0xF0), (2, 0x10), (3, 0xF0), (4, 0x20), (5, 0xF0), (6, 0x30), (7, 0xF0), (8, 0x40), (9, 0xF0), (10, 0x50), (11, 0xF0), (12, 0x60),
   (13, 0xF0), (14, 0x70), (15, 0xF0), (24, 0xC0), (25, 0xF0), (26, 0xD0), (27, 0xF0), (28, 0xE0), (29, 0xF0), (30, 0xF0), (31, 0xF0)]

/-- The start state of the vectors. -/
def bench : State := { State.reset with pc := 0x0100, ssp := 0x8000, usp := 0x4000, rom := vectors }

/-- The start state in user mode. -/
def userBench : State := { bench with ps := 0x0000 }

/-- The start state of section 2.12: the MMU on, code and vectors in ROM, the stack in RAM. -/
def mmuBench : State :=
  { bench with
    ps := 0xC000, ssp := 0x0100
    segs := ⟨0x8FF00000, 0x00100010, 0x00000020, 0x0FF00000, 0, 0, 0, 0, 0x8FF00000⟩ }

/-- The start state with a device in slot 3, whose window is 256 bytes, and one in slot 15. -/
def occupied : State :=
  { bench with platform := { bench.platform with
      devices := ((Vector.replicate 15 none).set 2 (some ⟨⟨1, 2, 3, 4⟩, 0x100⟩)).set 14 (some ⟨⟨5, 6, 7, 8⟩, 0⟩) } }

/-- The bytes of section 2.1's memory column. -/
def dataRam : Memory := [(0x2000, 0x34), (0x2001, 0x12), (0x2002, 0x78), (0x2003, 0x56)]

/-- The outcome is a next state with a property. -/
def nextIs (o : Host.Outcome State Fault Refusal) (p : State → Bool) : Bool :=
  match o with
  | .next t => p t
  | .fault _ => false
  | .refused _ => false

/-- What `nextIs` says. -/
theorem exists_of_nextIs {o : Host.Outcome State Fault Refusal} {p : State → Bool} (h : nextIs o p = true) :
    ∃ t, o = .next t ∧ p t = true := by
  cases o with
  | next t => exact ⟨t, rfl, h⟩
  | fault f => cases f
  | refused r => simp [nextIs] at h

/-- The outcome is this refusal. -/
def refusedAs (o : Host.Outcome State Fault Refusal) (r : Refusal) : Bool :=
  match o with
  | .next _ => false
  | .fault _ => false
  | .refused x => x == r

/-- Run one instruction, its words numbered as the opcode table numbers them, and ask for a property of the next state. -/
def runs (s : State) (nbits w : Nat) (p : State → Bool) : Bool := nextIs (step (s.withFetchWord nbits w)) p

/-- An instruction over R1 and R2: the registers and FL before, then R1, R0 and FL after. -/
def alu (w : Nat) (r1 r2 fl : Word) (r1' r0' fl' : Word) : Bool :=
  runs { bench with regs := #v[0, r1, r2, 0, 0, 0, 0, 0], fl := fl } 16 w fun t =>
    t.reg 1 == r1' && t.reg 0 == r0' && t.fl == fl' && t.pc == 0x0102

/-- The word a logical stack address holds, MMU off. -/
def word (t : State) (a : Nat) : Word := wordOfBytes (t.ramByte a) (t.ramByte (a + 1))

/-- The interrupt frame of section 2.10: the handler's address, PS, saved PS, saved PC and error code. -/
def frame (t : State) (pc ps oldPs oldPc code : Word) : Bool :=
  t.pc == pc && t.ps == ps && t.ssp == 0x7FFA && word t 0x7FFE == oldPs && word t 0x7FFC == oldPc && word t 0x7FFA == code

/-! Sections 2.1, 2.2, 2.3 and 2.5: ALU instructions, shifts, bit tests, increments. -/

theorem test_cmp_signed_less_unsigned_higher : alu 0x1401 0x8000 0x0001 0x0000 0x8000 0x0000 0x2000 = true := by decide +kernel
theorem test_cmp_equal_keeps_v : alu 0x1401 0x0005 0x0005 0x1000 0x0005 0x0000 0xF000 = true := by decide +kernel
theorem test_neg_of_8000 : alu 0x1409 0x0000 0x8000 0x0000 0x8000 0x0000 0x9000 = true := by decide +kernel
theorem test_neg_8bit_of_80 : alu 0x1509 0x0000 0x1280 0x0000 0x0080 0x0000 0x9000 = true := by decide +kernel
theorem test_add_overflows : alu 0x1411 0x7FFF 0x0001 0x0000 0x8000 0x0000 0x9000 = true := by decide +kernel
theorem test_add_8bit_clears_the_high_byte : alu 0x1511 0x12FF 0x0001 0x0000 0x0000 0x0000 0x6000 = true := by decide +kernel
theorem test_sub_borrows : alu 0x1419 0x0003 0x0005 0x2000 0xFFFE 0x0000 0x8000 = true := by decide +kernel
theorem test_sub_8bit_overflows : alu 0x1519 0x0080 0x0001 0x0000 0x007F 0x0000 0x3000 = true := by decide +kernel
theorem test_adc_adds_the_carry : alu 0x1421 0xFFFF 0xFFFF 0x2000 0xFFFF 0x0000 0xA000 = true := by decide +kernel
theorem test_adc_8bit : alu 0x1521 0x00FF 0x0000 0x2000 0x0000 0x0000 0x6000 = true := by decide +kernel
theorem test_sbc_overflows : alu 0x1429 0x8000 0x0000 0x0000 0x7FFF 0x0000 0x3000 = true := by decide +kernel
theorem test_sbc_without_borrow : alu 0x1429 0x0000 0x0000 0x2000 0x0000 0x0000 0x6000 = true := by decide +kernel
theorem test_mul_low_half_zero : alu 0x1431 0x0100 0x0100 0x0000 0x0000 0x0001 0x2000 = true := by decide +kernel
theorem test_mul_keeps_v : alu 0x1431 0x0003 0x0004 0x9000 0x000C 0x0000 0x1000 = true := by decide +kernel
theorem test_mli_negative : alu 0x1441 0x8000 0x7FFF 0x0000 0x8000 0xC000 0xA000 = true := by decide +kernel
theorem test_mli_of_minus_ones : alu 0x1441 0xFFFF 0xFFFF 0x0000 0x0001 0x0000 0x0000 = true := by decide +kernel
theorem test_div_keeps_c_and_v : alu 0x1439 0x0007 0x0002 0xB000 0x0003 0x0000 0x3000 = true := by decide +kernel
theorem test_dvi_truncates_toward_zero : alu 0x1449 0xFFF9 0x0002 0x0000 0xFFFD 0x0000 0x8000 = true := by decide +kernel
theorem test_dvi_overflows : alu 0x1449 0x8000 0xFFFF 0x0000 0x8000 0x0000 0x9000 = true := by decide +kernel
theorem test_mod_unsigned : alu 0x1451 0xFFFF 0x8001 0x0000 0x7FFE 0x0000 0x0000 = true := by decide +kernel
theorem test_mdi_takes_the_sign_of_the_dividend : alu 0x1459 0xFFF9 0xFFFE 0x0000 0xFFFF 0x0000 0x8000 = true := by decide +kernel
theorem test_mdi_8bit : alu 0x1559 0x00F9 0x0002 0x0000 0x00FF 0x0000 0x8000 = true := by decide +kernel
theorem test_and_keeps_c_and_v : alu 0x1461 0xF0F0 0xFF00 0x3000 0xF000 0x0000 0xB000 = true := by decide +kernel
theorem test_orr : alu 0x1469 0x00F0 0x8000 0x0000 0x80F0 0x0000 0x8000 = true := by decide +kernel
theorem test_eor_to_zero : alu 0x1471 0xFFFF 0xFFFF 0x0000 0x0000 0x0000 0x4000 = true := by decide +kernel
theorem test_not_8bit : alu 0x1579 0x0000 0xAB00 0x0000 0x00FF 0x0000 0x8000 = true := by decide +kernel
theorem test_lod_register : alu 0x1481 0x1111 0x8000 0x3000 0x8000 0x0000 0xB000 = true := by decide +kernel
theorem test_asl_keeps_v : alu 0x27A0 0x00FF 0x0000 0x1000 0xFF00 0x0000 0x9000 = true := by decide +kernel
theorem test_asl_by_register_count_zero : alu 0x32A0 0x8000 0x0000 0x2000 0x8000 0x0000 0x8000 = true := by decide +kernel
theorem test_lsl : alu 0x20A1 0x8001 0x0000 0x0000 0x0002 0x0000 0x2000 = true := by decide +kernel
theorem test_rol_puts_c_in_bit_3 : alu 0x23A2 0x1234 0x0000 0x2000 0x2348 0x0000 0x2000 = true := by decide +kernel
theorem test_rol_by_16 : alu 0x2FA2 0x8001 0x0000 0x2000 0xC000 0x0000 0xA000 = true := by decide +kernel
theorem test_rnl : alu 0x20A3 0x8001 0x0000 0x2000 0x0003 0x0000 0x2000 = true := by decide +kernel
theorem test_asr_sets_v : alu 0x20A4 0xFFFE 0x0000 0x0000 0xFFFF 0x0000 0x9000 = true := by decide +kernel
theorem test_asr_by_16 : alu 0x2FA4 0x8000 0x0000 0x0000 0xFFFF 0x0000 0xB000 = true := by decide +kernel
theorem test_lsr_by_16 : alu 0x2FA5 0xFFFF 0x0000 0x0000 0x0000 0x0000 0x6000 = true := by decide +kernel
theorem test_lsr_by_register_modulo_16 : alu 0x32A5 0x8000 0x0010 0x2000 0x8000 0x0000 0x8000 = true := by decide +kernel
theorem test_ror_puts_c_in_bit_12 : alu 0x23A6 0x1234 0x0000 0x2000 0x9123 0x0000 0x8000 = true := by decide +kernel
theorem test_ror_by_16 : alu 0x2FA6 0x8001 0x0000 0x0000 0x0002 0x0000 0x2000 = true := by decide +kernel
theorem test_rnr : alu 0x23A7 0x1234 0x0000 0x0000 0x4123 0x0000 0x0000 = true := by decide +kernel
theorem test_btt_set_bit_keeps_n_c_v : alu 0x23A8 0x0008 0x0000 0xF000 0x0008 0x0000 0xB000 = true := by decide +kernel
theorem test_btt_by_register : alu 0x32A8 0x0008 0x0013 0x4000 0x0008 0x0000 0x0000 = true := by decide +kernel
theorem test_btx_sets : alu 0x2FA9 0x0000 0x0000 0x0000 0x8000 0x0000 0x6000 = true := by decide +kernel
theorem test_btx_clears : alu 0x2FA9 0x8000 0x0000 0x6000 0x0000 0x0000 0x0000 = true := by decide +kernel
theorem test_btc_of_a_clear_bit : alu 0x20AA 0x00FE 0x0000 0x2000 0x00FE 0x0000 0x4000 = true := by decide +kernel
theorem test_btc_of_a_set_bit : alu 0x32AA 0x8000 0xFFFF 0x0000 0x0000 0x0000 0x2000 = true := by decide +kernel
theorem test_bts_of_a_clear_bit : alu 0x24AB 0x0000 0x0000 0x0000 0x0010 0x0000 0x6000 = true := by decide +kernel
theorem test_bts_of_a_set_bit : alu 0x24AB 0x0010 0x0000 0x6000 0x0010 0x0000 0x0000 = true := by decide +kernel
theorem test_adi_by_32 : alu 0x3FB6 0xFFF0 0x0000 0x0000 0x0010 0x0000 0x2000 = true := by decide +kernel
theorem test_adi_overflows : alu 0x20B6 0x7FFF 0x0000 0x0000 0x8000 0x0000 0x9000 = true := by decide +kernel
theorem test_sbi_borrows : alu 0x20B7 0x0000 0x0000 0x2000 0xFFFF 0x0000 0x8000 = true := by decide +kernel
theorem test_sbi_by_32 : alu 0x3FB7 0x0020 0x0000 0x0000 0x0000 0x0000 0x6000 = true := by decide +kernel

/-! Sections 2.1 and 2.11: division by zero, memory operands, stores, control registers. -/

theorem test_div_by_zero : (runs { bench with pc := 0x0120, regs := #v[0, 0x1234, 0, 0, 0, 0, 0, 0], fl := 0xA000 } 16 0x1439
    fun t => frame t 0xF020 0x9000 0x8000 0x0120 0x1439 && t.reg 1 == 0x1234 && t.fl == 0xA000) = true := by decide +kernel
theorem test_lod_unaligned : (runs { bench with ram := dataRam } 32 0x20010280 fun t => t.reg 0 == 0x7812 && t.pc == 0x0104) = true := by decide +kernel
theorem test_lod_indexed : (runs { bench with ram := dataRam, regs := #v[0, 0x2000, 0, 0, 0, 0, 2, 0] } 16 0x6280 fun t => t.reg 0 == 0x5678) = true := by decide +kernel
theorem test_sto_wraps_in_the_segment : (runs { bench with regs := #v[0xBEEF, 0xFFFF, 0, 0, 0, 0, 0, 0] } 16 0x2288
    fun t => t.ram == [(0, 0xBE), (0xFFFF, 0xEF)]) = true := by decide +kernel
theorem test_sto_8bit : (runs { bench with regs := #v[0xBEEF, 0, 0, 0, 0, 0, 0, 0], ram := [(0x3001, 0x55)] } 32 0x30000388
    fun t => t.ram == [(0x3000, 0xEF), (0x3001, 0x55)]) = true := by decide +kernel
theorem test_sto_ps_in_user_mode : (runs { userBench with regs := #v[0x8000, 0, 0, 0, 0, 0, 0, 0] } 16 0x0A88
    fun t => frame t 0xF060 0x9400 0x0000 0x0100 0x0A88) = true := by decide +kernel
theorem test_reserved_control_register : (runs bench 16 0x0B80 fun t => frame t 0xF070 0x9000 0x8000 0x0100 0x0B80) = true := by decide +kernel

/-! Section 2.4: branches at $0200, each taken and not taken. -/

/-- A branch at $0200 with an FL, and where it leads. -/
def branch (w : Nat) (fl pc : Word) : Bool := runs { bench with pc := 0x0200, fl := fl } 16 w fun t => t.pc == pc && t.fl == fl

theorem test_bcc : (branch 0x0590 0x0000 0x020A && branch 0x0590 0x2000 0x0202) = true := by decide +kernel
theorem test_bcs : (branch 0x0591 0x2000 0x020A && branch 0x0591 0xD000 0x0202) = true := by decide +kernel
theorem test_bne : (branch 0x0592 0x0000 0x020A && branch 0x0592 0x4000 0x0202) = true := by decide +kernel
theorem test_beq : (branch 0x0593 0x4000 0x020A && branch 0x0593 0xB000 0x0202) = true := by decide +kernel
theorem test_bpl : (branch 0x0594 0x0000 0x020A && branch 0x0594 0x8000 0x0202) = true := by decide +kernel
theorem test_bmi : (branch 0x0595 0x8000 0x020A && branch 0x0595 0x7000 0x0202) = true := by decide +kernel
theorem test_bvc : (branch 0x0596 0x0000 0x020A && branch 0x0596 0x1000 0x0202) = true := by decide +kernel
theorem test_bvs : (branch 0x0597 0x1000 0x020A && branch 0x0597 0xE000 0x0202) = true := by decide +kernel
theorem test_bug : (branch 0x0598 0xB000 0x020A && branch 0x0598 0x6000 0x0202) = true := by decide +kernel
theorem test_bsg : (branch 0x0599 0xB000 0x020A && branch 0x0599 0xC000 0x0202) = true := by decide +kernel
theorem test_baw : (branch 0x809F 0x0000 0x0100 && branch 0x009F 0x0000 0x0200) = true := by decide +kernel
theorem test_undefined_9A : (runs bench 16 0x059A fun t => frame t 0xF070 0x9000 0x8000 0x0100 0x059A) = true := by decide +kernel
theorem test_undefined_9B : (runs bench 16 0x059B fun t => frame t 0xF070 0x9000 0x8000 0x0100 0x059B) = true := by decide +kernel
theorem test_undefined_9C : (runs bench 16 0x059C fun t => frame t 0xF070 0x9000 0x8000 0x0100 0x059C) = true := by decide +kernel
theorem test_undefined_9D : (runs bench 16 0x059D fun t => frame t 0xF070 0x9000 0x8000 0x0100 0x059D) = true := by decide +kernel
theorem test_undefined_9E : (runs bench 16 0x059E fun t => frame t 0xF070 0x9000 0x8000 0x0100 0x059E) = true := by decide +kernel
theorem test_undefined_BF : (runs bench 16 0x12BF fun t => frame t 0xF070 0x9000 0x8000 0x0100 0x12BF) = true := by decide +kernel
theorem test_undefined_C0_from_user_mode : (runs userBench 16 0x00C0 fun t => frame t 0xF070 0x9400 0x0000 0x0100 0x00C0 && t.usp == 0x4000) = true := by decide +kernel

/-! Sections 2.6 and 2.7: SET, SEF, CLF. -/

theorem test_set_small : (runs { bench with fl := 0xF000 } 16 0x7FAC fun t => t.reg 3 == 0x001F && t.fl == 0xF000) = true := by decide +kernel
theorem test_set_alternate_at_the_change : ((runs bench 16 0x6AAD fun t => t.reg 3 == 0x8000) && (runs bench 16 0x6BAD fun t => t.reg 3 == 0xFFEB)) = true := by decide +kernel
theorem test_sef : (runs { bench with fl := 0x4000 } 16 0x90AE fun t => t.fl == 0xD000 && t.pc == 0x0102) = true := by decide +kernel
theorem test_clf_ignores_low_bits : (runs { bench with fl := 0x2000 } 16 0x2FAF fun t => t.fl == 0x0000) = true := by decide +kernel
theorem test_clf : (runs { bench with fl := 0xF000 } 16 0x70AF fun t => t.fl == 0x8000) = true := by decide +kernel

/-! Section 2.8: jumps and calls. -/

/-- The start state of section 2.8. -/
def jumpBench : State :=
  { bench with
    regs := #v[0, 0x1FFE, 0, 0x2000, 2, 0, 0, 0]
    ram := [(0x2001, 0x04), (0x2002, 0x08), (0x2004, 0x60), (0x2005, 0x83)] }

theorem test_jmp_register_ignores_f : (runs jumpBench 16 0x17B8 fun t => t.pc == 0x2000) = true := by decide +kernel
theorem test_jmp_indexed : (runs jumpBench 16 0x42B8 fun t => t.pc == 0x0400) = true := by decide +kernel
theorem test_jmpF_immediate : (runs jumpBench 64 0x83600008FF0601B8 fun t => t.pc == 0xFF06 && t.segs.css == 0x83600008) = true := by decide +kernel
theorem test_jmpF_indirect : (runs jumpBench 16 0x27B8 fun t => t.pc == 0x0400 && t.segs.css == 0x83600008) = true := by decide +kernel
theorem test_jsr : (runs bench 32 0x123400B9 fun t => t.pc == 0x1234 && t.ssp == 0x7FFE && word t 0x7FFE == 0x0104) = true := by decide +kernel
theorem test_jsr_in_user_mode : (runs userBench 32 0x123400B9 fun t => t.pc == 0x1234 && t.usp == 0x3FFE && word t 0x3FFE == 0x0104) = true := by decide +kernel
theorem test_jsrF : (runs { bench with segs := { bench.segs with css := 0x12345678 } } 64 0x83600008040001B9
    fun t => t.pc == 0x0400 && t.segs.css == 0x83600008 && t.ssp == 0x7FFA && word t 0x7FFE == 0x1234 && word t 0x7FFC == 0x5678 &&
      word t 0x7FFA == 0x0108) = true := by decide +kernel
theorem test_jsrF_in_user_mode : (runs userBench 64 0x83600008040001B9 fun t => frame t 0xF060 0x9400 0x0000 0x0100 0x01B9) = true := by decide +kernel

/-! Section 2.9: stack instructions. -/

theorem test_psh_general : (runs { bench with ssp := 0x1000, regs := #v[0x1110, 0x2220, 0, 0, 0, 0, 0, 0] } 16 0x03B0
    fun t => t.ssp == 0x0FFC && word t 0x0FFE == 0x1110 && word t 0x0FFC == 0x2220) = true := by decide +kernel
theorem test_psh_wraps_at_zero : (runs { bench with ssp := 0, regs := #v[0xCAFE, 0, 0, 0, 0, 0, 0, 0] } 16 0x01B0 fun t => t.ssp == 0xFFFE && word t 0xFFFE == 0xCAFE) = true := by decide +kernel
theorem test_psh_control : (runs { bench with ssp := 0x1000, fl := 0xA000 } 16 0xC7B1
    fun t => t.ssp == 0x0FF6 && word t 0x0FFE == 0x1000 && word t 0x0FFC == 0x4000 && word t 0x0FFA == 0x8000 && word t 0x0FF8 == 0x0102 &&
      word t 0x0FF6 == 0xA000) = true := by decide +kernel
theorem test_psh_ps_in_user_mode : (runs { userBench with fl := 0xA000 } 16 0x05B1
    fun t => frame t 0xF060 0x9400 0x0000 0x0100 0x05B1 && t.usp == 0x3FFE && word t 0x3FFE == 0xA000) = true := by decide +kernel
theorem test_pop_general : (runs { bench with ssp := 0x0FFC, ram := [(0x0FFC, 0xAA), (0x0FFD, 0xAA), (0x0FFE, 0xBB), (0x0FFF, 0xBB)] } 16 0x03B2
    fun t => t.reg 0 == 0xBBBB && t.reg 1 == 0xAAAA && t.ssp == 0x1000) = true := by decide +kernel
theorem test_pop_control : (runs { bench with ssp := 0x0FF8, ram := [(0x0FF8, 0xFF), (0x0FF9, 0xFF), (0x0FFB, 0x03), (0x0FFC, 0x22), (0x0FFD, 0x22)] } 16 0x43B3
    fun t => t.fl == 0xF000 && t.pc == 0x0300 && t.usp == 0x2222 && t.ssp == 0x0FFE) = true := by decide +kernel
theorem test_pop_ps : (runs { bench with ssp := 0x0FFE, ram := [(0x0FFE, 0xFF), (0x0FFF, 0xA8)] } 16 0x04B3 fun t => t.ps == 0xA800 && t.ssp == 0x1000) = true := by decide +kernel
theorem test_stx_negative : (runs bench 16 0x80BB fun t => t.ssp == 0x7F00 && t.pc == 0x0102) = true := by decide +kernel
theorem test_stx_in_user_mode : (runs userBench 16 0x01BB fun t => frame t 0xF060 0x9400 0x0000 0x0100 0x01BB) = true := by decide +kernel

/-! Section 2.10: processor functions and hardware queries. -/

theorem test_rts : (runs { bench with ssp := 0x7FFE, ram := [(0x7FFF, 0x03)] } 16 0x00B4 fun t => t.pc == 0x0300 && t.ssp == 0x8000) = true := by decide +kernel
theorem test_rtsF : (runs { bench with ssp := 0x7FFA, ram := [(0x7FFA, 0x08), (0x7FFB, 0x01), (0x7FFC, 0x78), (0x7FFD, 0x56), (0x7FFE, 0x34), (0x7FFF, 0x12)] }
    16 0x01B4 fun t => t.pc == 0x0108 && t.segs.css == 0x12345678 && t.ssp == 0x8000) = true := by decide +kernel
theorem test_rti : (runs { bench with ps := 0x9000, ssp := 0x7FFC, ram := [(0x7FFD, 0x03), (0x7FFF, 0x08)] } 16 0x02B4 fun t => t.pc == 0x0300 && t.ps == 0x0800 && t.ssp == 0x8000) = true := by decide +kernel
theorem test_rti_in_user_mode : (runs userBench 16 0x02B4 fun t => frame t 0xF060 0x9400 0x0000 0x0100 0x02B4) = true := by decide +kernel
theorem test_swi : (runs { bench with ps := 0xA800, fl := 0xF000 } 16 0x03B4
    fun t => t.pc == 0xF0F0 && t.ps == 0xB800 && t.fl == 0xF000 && t.ssp == 0x7FFC && word t 0x7FFE == 0xA800 && word t 0x7FFC == 0x0102) = true := by decide +kernel
theorem test_slp : (runs bench 16 0x04B4 fun t => t.pc == 0x0102 && t.halted) = true := by decide +kernel
theorem test_slp_in_user_mode : (runs userBench 16 0x04B4 fun t => frame t 0xF060 0x9400 0x0000 0x0100 0x04B4 && !t.halted) = true := by decide +kernel
theorem test_ssg : (runs { bench with segs := { bench.segs with css := 0x83600008 } } 16 0x01B5
    fun t => t.ssp == 0x7FFC && word t 0x7FFE == 0x8360 && word t 0x7FFC == 0x0008) = true := by decide +kernel
theorem test_lsg_user_set : (runs { bench with ssp := 0x7FFC, ram := [(0x7FFC, 0x08), (0x7FFE, 0x60), (0x7FFF, 0x83)] } 16 0x82B5
    fun t => t.segs.dsu == 0x83600008 && t.ssp == 0x8000) = true := by decide +kernel
theorem test_lsg_undefined_selection : (runs bench 16 0x88B5 fun t => frame t 0xF070 0x9000 0x8000 0x0100 0x88B5) = true := by decide +kernel
theorem test_hwq_undefined_index : (runs bench 16 0x04BA fun t => frame t 0xF070 0x9000 0x8000 0x0100 0x04BA) = true := by decide +kernel
theorem test_hwq_undefined_index_in_user_mode : (runs userBench 16 0x04BA fun t => frame t 0xF060 0x9400 0x0000 0x0100 0x04BA) = true := by decide +kernel
theorem test_hwq00 : (runs { bench with platform := { bench.platform with busDeviceCount := 3 } } 16 0x00BA fun t => t.reg 0 == 3 && t.fl == 0) = true := by decide +kernel
theorem test_hwq01_empty_slot : (runs { bench with regs := #v[5, 1, 2, 3, 0, 0, 0, 0] } 16 0x01BA fun t => t.reg 0 == 0xFFFF && t.reg 1 == 1 && t.reg 3 == 3) = true := by decide +kernel
theorem test_hwq02_empty_slot : (runs { bench with regs := #v[5, 1, 2, 3, 0, 0, 0, 0] } 16 0x02BA fun t => t.reg 0 == 5 && t.pc == 0x0102) = true := by decide +kernel
theorem test_hwq03 : (runs { bench with platform := { bench.platform with ramBytes := 0x20000, romBytes := 0x4000 } } 16 0x03BA
    fun t => t.reg 0 == 0 && t.reg 1 == 2 && t.reg 2 == 0x4000 && t.reg 3 == 0) = true := by decide +kernel
theorem test_hwq80 : (runs { bench with rtc := ⟨0, ⟨126, 10, 9, 13, 45, 30, 0x0123⟩⟩ } 16 0x80BA
    fun t => t.reg 0 == 0x7E0A && t.reg 1 == 0x090D && t.reg 2 == 0x2D1E && t.reg 3 == 0x0123) = true := by decide +kernel
theorem test_hwq82 : (runs { bench with rtc := { bench.rtc with rate := 100 } } 16 0x82BA fun t => t.reg 0 == 0x0064) = true := by decide +kernel
theorem test_hwq83_capped : (runs { bench with regs := Vector.replicate 8 0xFFFF } 16 0x83BA fun t => t.reg 0 == 0x0064 && t.rtc.rate == 100) = true := by decide +kernel

/-! Sections 2.11, 2.12 and 2.13: interrupts and the MMU. -/

theorem test_hwi_from_user_mode : (nextIs (step { occupied with ps := 0x2000, pc := 0x0104, lines := { bench.lines with irq := 0x8000 } })
    fun t => frame t 0xF0C0 0xB800 0x2000 0x0104 0x000F && t.usp == 0x4000) = true := by decide +kernel
theorem test_clock_ends_sleep : (nextIs (step { bench with pc := 0x0102, halted := true, rtc := { bench.rtc with rate := 1 }, script := [[.clockTick]] })
    fun t => t.pc == 0xF010 && t.ps == 0x9000 && !t.halted && word t 0x7FFE == 0x8000 && word t 0x7FFC == 0x0102) = true := by decide +kernel
theorem test_store_sets_the_accessed_bit : (runs { mmuBench with regs := #v[0x55AA, 0x00FE, 0, 0, 0, 0, 0, 0] } 16 0xA288
    fun t => t.ram == [(0x20FE, 0xAA), (0x20FF, 0x55)] && t.segs.ess == 0x10000020) = true := by decide +kernel
theorem test_store_across_the_segment_end_writes_nothing : (runs { mmuBench with regs := #v[0x55AA, 0x00FF, 0, 0, 0, 0, 0, 0] } 16 0xA288
    fun t => t.pc == 0xF050 && t.ps == 0xD200 && t.ssp == 0x00FA && t.ramByte 0x20FF == 0 && t.segs.ess == 0x00000020) = true := by decide +kernel
theorem test_write_protected : (runs { mmuBench with segs := { mmuBench.segs with dss := 0x40100010 } } 32 0x00100288
    fun t => t.ps == 0xD100 && word t 0x00FE == 0xC000 && word t 0x00FC == 0x0100 && word t 0x00FA == 0x0288) = true := by decide +kernel
theorem test_not_present_comes_first : (runs { mmuBench with ps := 0xC300, segs := { mmuBench.segs with dss := 0x60100010 } } 32 0x03000280
    fun t => t.ps == 0xD000) = true := by decide +kernel
theorem test_pop_beyond_the_stack : (runs { mmuBench with segs := { mmuBench.segs with sss := 0x00000040 } } 16 0x01B2
    fun t => t.pc == 0xF040 && t.ps == 0xD000 && t.ssp == 0x00FA && word t 0x40FA == 0x01B2) = true := by decide +kernel
theorem test_double_fault : (runs { mmuBench with ssp := 0x0102, segs := { mmuBench.segs with sss := 0x00000040 } } 16 0x03B4
    fun t => t.pc == 0xF030 && t.ps == 0xD000 && t.ssp == 0x00FA) = true := by decide +kernel
theorem test_triple_fault : (runs { mmuBench with fl := 0x2000, segs := { mmuBench.segs with sss := 0x20000040 } } 16 0x03B4
    fun t => t.ps == 0x8000 && t.pc == 0xF000 && t.ssp == 0x00FC && t.fl == 0x2000) = true := by decide +kernel

/-! Devices: 20_memory.md R106, R107, R110 and 60_exceptions.md R371. -/

theorem test_request_of_an_empty_slot : (nextIs (step { occupied.withFetchWord 16 0x1411 with ps := 0xA000, lines := { bench.lines with irq := 0x0020 } })
    fun t => t.pc == 0x0102 && t.ps == 0xA000) = true := by decide +kernel
theorem test_device_store_between_the_bytes_of_an_unaligned_read : (runs { bench with ram := [(0x2001, 0x11), (0x2002, 0x22)], deviceStores := [[], [], [], [(0x2001, 0xAA), (0x2002, 0xBB)]] } 32 0x20010280
    fun t => t.reg 0 == 0xBB11 && t.ramByte 0x2001 == 0xAA) = true := by decide +kernel
theorem test_device_store_before_an_aligned_read : (runs { bench with ram := dataRam, deviceStores := [[], [], [(0x2000, 0xAA)], [(0x2001, 0xBB)]] } 32 0x20000280
    fun t => t.reg 0 == 0x12AA && t.deviceStores == [[(0x2001, 0xBB)]]) = true := by decide +kernel
theorem test_device_store_between_the_words_of_psh : (runs { bench with regs := #v[0x1111, 0x2222, 0, 0, 0, 0, 0, 0], deviceStores := [[], [], [(0x7FFE, 0xEE)]] } 16 0x03B0
    fun t => word t 0x7FFE == 0x11EE && word t 0x7FFC == 0x2222) = true := by decide +kernel
theorem test_store_to_a_window_is_a_call : (runs { occupied with ps := 0xC000, regs := #v[0x1255, 5, 0, 0, 0, 0, 0, 0], segs := { mmuBench.segs with dss := 0x80130000 } } 16 0x2388
    fun t => t.calls == [.write 3 5 0x55] && t.draws == 1 && t.pc == 0x0102) = true := by decide +kernel
/-! ### Witnesses: a concrete state and operands that meet the hypotheses of each statement, clause by clause

A statement without hypotheses, or whose clauses are exhaustive alternatives of one equation, needs none. `witness_<Statement>...` is
about `Obligations.<Statement>`. -/

/-- A state with a well-formed RAM, a stack of its own in connected RAM and the MMU on, in user mode: user data and stack segments. -/
def userMmu : State :=
  { bench with
    ps := 0x4000, usp := 0x0080
    segs := ⟨0, 0, 0, 0x0FF00000, 0x8FF00000, 0x00000030, 0x00000020, 0x00000040, 0x8FF00000⟩ }

/-- A device in slot 3 with a window of 256 bytes. -/
def deviceBench : State :=
  { mmuBench with
    platform := { mmuBench.platform with
      devices := (Vector.replicate 15 none).set 2 (some ⟨⟨1, 2, 3, 4⟩, 0x100⟩) }
    segs := { mmuBench.segs with dss := 0x80130000 } }

/-- Devices are active: stores to $3000, $3001 and $3000 before the coming three access cycles. -/
def busy (s : State) : State := { s with deviceStores := [[(0x3000, 1)], [(0x3001, 2)], [(0x3000, 3)]] }

theorem witness_DecodeOfEncode : (Instr.jsrF (.immediate true 0xFF06 0x83600008)).wf = true ∧ (Instr.mdi 7 (.indirectOffset true true 7 0xFFFF)).wf = true := by
  decide
theorem witness_EncodeOfDecode : decodeWords 0x81B9 0xFF06 0x0008 0x8360 = .ok (.jsrF (.immediate true 0xFF06 0x83600008)) := by decide
theorem witness_RejectedWords_boundaries :
    decodeWords 0x05B4 0 0 0 = .error .undefinedProcessorFunction ∧ decodeWords 0x04B4 0 0 0 = .ok .slp ∧
    decodeWords 0x04BA 0 0 0 = .error .undefinedHwqIndex ∧ decodeWords 0x83BA 0 0 0 = .ok .hwq83 ∧
    decodeWords 0x81BA 0 0 0 = .error .undefinedHwqIndex := by decide
theorem witness_InstructionLength : (Instr.jmpF (.immediate false 1 2)).wf = true ∧ lengthOf (.jmpF (.immediate false 1 2)) = 8 := by decide

/-- ADD R1, R2 at $0100, with devices active; in user mode JMP.F $FF06, $83600008, which raises first. -/
theorem witness_StepRunsTheDecodedInstruction :
    (let s := (busy bench).withFetchWord 16 0x1411
     s.runsInstruction = true ∧ s.environmentTurn.pc.getLsbD 0 = false ∧
     decodeBytes ([0x1411].flatMap fun v : Word => [BitVec.ofNat 8 v.toNat, BitVec.ofNat 8 (v.toNat / 256)]) =
       .ok (.add 1 (.register false false 2), []) ∧
     readWords .code .other 1 s.environmentTurn.pc s.environmentTurn = some ([0x1411], s.deviceTurn)) ∧
    (let s := (busy userBench).withFetchWord 16 0x01B8
     s.runsInstruction = true ∧ s.environmentTurn.pc.getLsbD 0 = false ∧
     decodeBytes ([0x01B8, 0xFF06, 0x0008, 0x8360].flatMap fun v : Word => [BitVec.ofNat 8 v.toNat, BitVec.ofNat 8 (v.toNat / 256)]) =
       .ok (.jmpF (.immediate false 0xFF06 0x83600008), []) ∧
     s.environmentTurn.supervisor = false ∧
     readWord .code .other s.environmentTurn.pc s.environmentTurn = .done 0x01B8 s.deviceTurn) := by decide +kernel
theorem witness_FetchRaisesInterrupts_rejected :
    let s := userBench.withFetchWord 16 0x04BA
    s.runsInstruction = true ∧ s.environmentTurn.pc.getLsbD 0 = false ∧
    readWord .code .other s.environmentTurn.pc s.environmentTurn = .done 0x04BA s.environmentTurn ∧
    decodeWords 0x04BA 0 0 0 = .error .undefinedHwqIndex := by decide +kernel
theorem witness_FetchRaisesInterrupts_fetch :
    let s := { mmuBench with segs := { mmuBench.segs with css := 0x80000000 } }
    s.runsInstruction = true ∧ s.environmentTurn.pc.getLsbD 0 = false ∧
    readWord .code .other s.environmentTurn.pc s.environmentTurn = .trap (.segment true false) s.environmentTurn := by decide +kernel

/-- LOD R0, immediate in the last word of a code segment of $100 bytes: its immediate word lies beyond the size. -/
theorem witness_FetchRaisesInterrupts_immediate :
    let s := { mmuBench with pc := 0x00FE, segs := { mmuBench.segs with css := 0x80000000 }, rom := [(0xFE, 0x80)] }
    s.runsInstruction = true ∧ s.environmentTurn.pc.getLsbD 0 = false ∧
    readWord .code .other s.environmentTurn.pc s.environmentTurn = .done 0x0080 s ∧
    ([] : List Word).length < immediateCount 0x0080 ∧
    readWords .code .other ([] : List Word).length (s.environmentTurn.pc + 2) s = some ([], s) ∧
    readWord .code .other (s.environmentTurn.pc + 2 + BitVec.ofNat 16 (2 * ([] : List Word).length)) s =
      .trap (.segment true false) s ∧
    (0x0080 : Word).toNat % 256 / 8 = 16 := by decide +kernel
theorem witness_OnlyAnOddPcIsRefused :
    refusedAs (step { bench with pc := 0x0101 }) .oddProgramCounter = true ∧
    nextIs (step { bench with pc := 0x0101, halted := true }) (fun t => t.pc == 0x0101) = true := by decide +kernel
theorem witness_StepKeepsWellFormed :
    (bench.withFetchWord 16 0x01B0).wf = true ∧ nextIs (step (bench.withFetchWord 16 0x01B0)) (fun t => t.ssp == 0x7FFE) = true := by
  decide +kernel
theorem witness_UserModeIsConfined :
    userMmu.supervisor = false ∧ nextIs (exec (.pshGeneral 0x01) userMmu) (fun t => !t.supervisor) = true := by decide +kernel

/-- A user-mode push; the byte at $1000 lies in no segment of user mode. -/
theorem witness_UserModeStoresStayInUserSegments :
    Memory.wf userMmu.ram = true ∧ userMmu.supervisor = false ∧ userMmu.mmuOn = true ∧
    (∀ n ∈ [SegName.dsu, SegName.esu, SegName.ssu], ∀ off : Word,
      checkAccess (userMmu.segs.get n) off true = none → Machine.translate (userMmu.segs.get n) off ≠ .ram 0x1000) ∧
    nextIs (exec (.pshGeneral 0x01) userMmu) (fun t => !t.supervisor) = true := by
  refine ⟨by decide +kernel, by decide +kernel, by decide +kernel, ?_, by decide +kernel⟩
  intro n hn off
  simp only [List.mem_cons, List.not_mem_nil, or_false] at hn
  rcases hn with rfl | rfl | rfl <;>
    · intro _ h
      have h1 := Place.ram.inj h
      simp [userMmu, SegRegs.get] at h1
      try omega

/-- RAM, ROM, a device window, a segment that is not present, and the last byte of a segment and the first beyond it. -/
theorem witness_ReadingAByte :
    (mmuBench.segValue .ds).getLsbD 29 = false ∧ segmentSize (mmuBench.segValue .ds) = 0x200 ∧
    readByte .ds .other 0x01FF mmuBench = .done 0 mmuBench ∧
    readByte .ds .other 0x0200 mmuBench = .trap (.segment true false) mmuBench ∧
    readByte .ss .pshPop 0xFFFF { mmuBench with segs := { mmuBench.segs with sss := 0 } } =
      .trap .stack { mmuBench with segs := { mmuBench.segs with sss := 0 } } ∧
    readByte .code .other 5 mmuBench = .done 0xF0 mmuBench ∧
    readByte .es .other 0 { mmuBench with segs := { mmuBench.segs with ess := 0x20000000 } } =
      .trap (.segment false false) { mmuBench with segs := { mmuBench.segs with ess := 0x20000000 } } ∧
    (deviceBench.segValue .ds).getLsbD 31 = true ∧ (deviceBench.segValue .ds).toNat / 2 ^ 16 % 2 ^ 4 = 3 := by decide +kernel
/-- A window's last byte, the first beyond it, and a slot that is empty. -/
theorem witness_ReadingAByte_device :
    readByte .ds .other 0xFF (busy deviceBench) =
      .done (Config.deviceByte [] (busy deviceBench).deviceTurn.ram 3 0xFF 0)
        { (busy deviceBench).deviceTurn with calls := .read 3 0xFF :: deviceBench.calls, draws := deviceBench.draws + 1 } := rfl
theorem witness_ReadingAByte_unconnected :
    segmentSize 0x80230000 = 0x300 ∧
    readByte .ds .other 0x100 { deviceBench with segs := { deviceBench.segs with dss := 0x80230000 } } =
      .done 0 { deviceBench with segs := { deviceBench.segs with dss := 0x80230000 } } ∧
    readByte .ds .other 0 { deviceBench with segs := { deviceBench.segs with dss := 0x80140000 } } =
      .done 0 { deviceBench with segs := { deviceBench.segs with dss := 0x80140000 } } ∧
    readByte .ds .other 0x01FF (busy mmuBench) = .done 0 (busy mmuBench).deviceTurn := by decide +kernel
theorem witness_MmuOffNeverFaults : bench.mmuOn = false := by decide

/-- Each check that refuses a write, at the boundary of the size, and a write that is done. -/
theorem witness_WritingAByte :
    writeByte .ds .other 0x01FF 1 mmuBench =
      .done () { mmuBench with ram := [(0x11FF, 1)], segs := { mmuBench.segs with dss := 0x10100010 } } ∧
    writeByte .ds .other 0x0200 1 mmuBench = .trap (.segment true false) mmuBench ∧
    (let s := { mmuBench with segs := { mmuBench.segs with dss := 0x40100010, ess := 0x60100010 } }
     writeByte .ds .other 0x01FF 1 s = .trap (.segment false true) s ∧ writeByte .ds .other 0x0200 1 s = .trap (.segment true false) s ∧
     writeByte .es .other 0x01FF 1 s = .trap (.segment false false) s) := by decide +kernel

/-- A write to the last byte of a window is a call on the device; to the first byte beyond it, none. -/
theorem witness_WritingAByte_device :
    writeByte .ds .other 0xFF 7 deviceBench =
      .done () { deviceBench with calls := [.write 3 0xFF 7], draws := 1, segs := { deviceBench.segs with dss := 0x90130000 } } ∧
    Machine.translate (deviceBench.segValue .ds) 0xFF = .device 3 0xFF ∧ deviceBench.windowConnected 3 0xFF = true ∧
    Machine.translate (deviceBench.segValue .ds) 0x100 = .device 3 0x100 ∧ deviceBench.windowConnected 3 0x100 = false ∧
    writeByte .ds .other 0x100 7 deviceBench =
      .done () { deviceBench with segs := { deviceBench.segs with dss := 0x90130000 } } := by decide +kernel

/-- An unaligned access, with devices active before each of its cycles, and the aligned one at the end of a segment. -/
theorem witness_AccessCycles :
    (let s : State := { bench with ram := [(0x2FFF, 9)], deviceStores := [[(0x3000, 1)], [(0x2FFF, 4), (0x2FFF, 5)]] }
     (s.segValue .ds).getLsbD 31 = false ∧ (s.segValue .ds).getLsbD 29 = false ∧ (s.segValue .ds).getLsbD 30 = false ∧
     (0x2FFF : Word).toNat < segmentSize (s.segValue .ds) ∧ (0x2FFF + 1 : Word).toNat < segmentSize (s.segValue .ds) ∧
     (0x2FFF : Word).toNat % 2 = 1 ∧ Memory.wf s.ram = true ∧ s.ramConnected 0x2FFF = true ∧ s.ramConnected 0x3000 = true ∧
     readWord .ds .other 0x2FFF s = .done 0x0109 s.deviceTurn.deviceTurn ∧ s.deviceTurn.deviceTurn.ramByte 0x2FFF = 5) ∧
    (mmuBench.segValue .ds).getLsbD 31 = false ∧ (0x01FE : Word).toNat % 2 = 0 ∧
    (0x01FE + 1 : Word).toNat < segmentSize (mmuBench.segValue .ds) ∧
    readWord .ds .other 0x01FE (busy mmuBench) = .done 0 (busy mmuBench).deviceTurn := by decide +kernel
theorem witness_WordReadsBackAsWritten :
    Memory.wf mmuBench.ram = true ∧
    writeWord .ds .other 0x01FE 0xABCD mmuBench =
      .done () { mmuBench with ram := [(0x11FE, 0xCD), (0x11FF, 0xAB)], segs := { mmuBench.segs with dss := 0x10100010 } } ∧
    Machine.translate (mmuBench.segValue .ds) 0x01FE = .ram 0x11FE ∧ Machine.translate (mmuBench.segValue .ds) 0x01FF = .ram 0x11FF ∧
    mmuBench.ramConnected 0x11FE = true ∧ mmuBench.ramConnected 0x11FF = true ∧
    (busy mmuBench).devicesKeepOff (2 * wordCycles 0x01FE) (fun x => x = 0x11FE ∨ x = 0x11FF) ∧
    mmuBench.devicesKeepOff (2 * wordCycles 0x01FE) (fun x => x = 0x11FE ∨ x = 0x11FF) := by
  unfold State.devicesKeepOff; decide +kernel
theorem witness_OperandValue :
    (∃ s1, readOperand (.absolute false true 0x0200) bench = .done (.byte 0) s1) ∧
    (4 : Reg).val = 4 + (0 : BitVec 2).toNat ∧ (7 : Reg).val = 4 + (3 : BitVec 2).toNat := by
  exact ⟨⟨bench, by decide +kernel⟩, by decide, by decide⟩
theorem witness_OperandFaultIsPrecise :
    readOperand (.absolute false false 0x01FF) mmuBench = .trap (.segment true false) mmuBench ∧
    readOperand (.control false 3) bench = .trap .undefined bench := by decide +kernel

/-- R1 = $8000, R2 = $FFFF: operands in Register mode, both widths. -/
def operands : State := { bench with regs := #v[0, 0x8000, 0xFFFF, 0x1200, 0, 0, 0, 0] }

/-- The hypothesis of the statements about ALU instructions, in both widths, and with M = 0 (R3 has the low byte 0). They are:
AdditionSetsSumAndFlags, SubtractionSetsDifferenceAndFlags, NegationLogicAndLoad, CompareSetsFlags, MultiplySetsBothHalves,
MultiplyBytes, DivideUnsigned, DivideSigned. -/
theorem witness_alu_operands :
    readOperand (.register false false 2) operands = .done (.word 0xFFFF) operands ∧
    readOperand (.register false true 2) operands = .done (.byte 0xFF) operands ∧
    readOperand (.register false false 0) operands = .done (.word 0) operands ∧
    readOperand (.register false true 3) operands = .done (.byte 0) operands ∧
    (OpValue.word 0xFFFF).nat ≠ 0 ∧ (OpValue.byte 0).nat = 0 := by decide +kernel
theorem witness_AdditionSetsSumAndFlags :
    readOperand (.register false false 2) operands = .done (.word 0xFFFF) operands ∧
    ((Instr.adc 1 (.register false false 2) = .add 1 (.register false false 2) ∧ false = false) ∨
      (Instr.adc 1 (.register false false 2) = .adc 1 (.register false false 2) ∧ false = operands.flags.c)) := by decide +kernel
theorem witness_SubtractionSetsDifferenceAndFlags :
    readOperand (.register false true 3) operands = .done (.byte 0) operands ∧
    ((Instr.sbc 1 (.register false true 3) = .sub 1 (.register false true 3) ∧ 1 = 0) ∨
      (Instr.sbc 1 (.register false true 3) = .sbc 1 (.register false true 3) ∧ 1 = 1 - operands.flags.c.toNat)) := by decide +kernel
theorem witness_NegationLogicAndLoad :
    readOperand (.register false false 1) operands = .done (.word 0x8000) operands ∧
    0x8000 = wrapped (OpValue.word 0x8000).width (0 - ((OpValue.word 0x8000).nat : Int)) ∧
    true = decide ((OpValue.word 0x8000).nat = 2 ^ ((OpValue.word 0x8000).width - 1)) := by decide +kernel
theorem witness_CompareSetsFlags : readOperand (.register false true 2) operands = .done (.byte 0xFF) operands := by decide +kernel
theorem witness_MultiplySetsBothHalves :
    readOperand (.register false false 2) operands = .done (.word 0xFFFF) operands ∧
    0x8000 = wrapped 32 (signedValue 16 (operands.reg 1).toNat * signedValue 16 (0xFFFF : Word).toNat) ∧
    false = decide (2 ^ 31 ≤ 0x8000) := by decide +kernel
theorem witness_MultiplyBytes :
    readOperand (.register false true 2) operands = .done (.byte 0xFF) operands ∧
    (0 : Int) = signedValue 8 ((operands.reg 1).toNat % 2 ^ 8) * signedValue 8 (0xFF : Byte).toNat := by decide +kernel
theorem witness_DivideUnsigned :
    readOperand (.register false false 2) operands = .done (.word 0xFFFF) operands ∧ (OpValue.word 0xFFFF).nat ≠ 0 ∧
    readOperand (.register false true 3) operands = .done (.byte 0) operands ∧ (OpValue.byte 0).nat = 0 := by decide +kernel

/-- The quotient that does not fit, and a zero byte. -/
theorem witness_DivideSigned :
    readOperand (.register false false 2) operands = .done (.word 0xFFFF) operands ∧ (OpValue.word 0xFFFF).nat ≠ 0 ∧
    fitsSigned 16 (((OpValue.word 0xFFFF).firstInt (operands.reg 1)).tdiv (OpValue.word 0xFFFF).int) = false ∧
    readOperand (.register false true 3) operands = .done (.byte 0) operands ∧ (OpValue.byte 0).nat = 0 := by decide +kernel

/-- A word over the last byte of the address space, a byte, and a store that is refused. -/
theorem witness_StoreToMemory :
    operandAddress (.indirect false false 2) operands = some (.ds, 0xFFFF, false) ∧
    writeWord .ds .other 0xFFFF (operands.reg 1) operands = .done () { operands with ram := [(0, 0x80)] } ∧
    Memory.wf operands.ram = true ∧
    Machine.translate (operands.segValue .ds) 0xFFFF = .ram 0xFFFF ∧ operands.ramConnected 0xFFFF = true ∧
    Machine.translate (operands.segValue .ds) (0xFFFF + 1) = .ram 0 ∧ operands.ramConnected 0 = true ∧
    Machine.translate (operands.segValue .ds) 0xFFFF ≠ .ram 5 ∧ Machine.translate (operands.segValue .ds) (0xFFFF + 1) ≠ .ram 5 ∧
    operandAddress (.absolute true true 0x00FF) mmuBench = some (.es, 0x00FF, true) ∧
    writeByte .es .other 0x00FF 0 mmuBench = .done () { mmuBench with segs := { mmuBench.segs with ess := 0x10000020 } } ∧
    operandAddress (.absolute true true 0x0100) mmuBench = some (.es, 0x0100, true) ∧
    writeByte .es .other 0x0100 0 mmuBench = .trap (.segment true false) mmuBench ∧
    operands.devicesKeepOff 2 (· = 0xFFFF) ∧ onBoard (operands.segValue .ds) = true := by
  unfold State.devicesKeepOff; decide +kernel
theorem witness_FlagInstructions : ({ bench with fl := 0xA000 } : State).fl &&& 0x0FFF = 0 := by decide
theorem witness_CompareThenBranch :
    readOperand (.register false false 2) operands = .done (.word 0xFFFF) operands ∧
    nextIs (exec (.cmp 1 (.register false false 2)) operands) (fun t => t.fl == 0) = true := by decide +kernel

/-- A pointer in data memory, and one beyond the segment. -/
theorem witness_NearJump :
    jumpAddress (.indirect false 3) jumpBench = some (.ds, 0x2000) ∧ readWord .ds .other 0x2000 jumpBench = .done 0x0400 jumpBench ∧
    jumpAddress (.absolute true 0x00FF) mmuBench = some (.es, 0x00FF) ∧
    readWord .es .other 0x00FF mmuBench = .trap (.segment true false) mmuBench := by decide +kernel
theorem witness_FarJump :
    jumpBench.supervisor = true ∧ jumpAddress (.indirect false 3) jumpBench = some (.ds, 0x2000) ∧
    readWords .ds .other 3 0x2000 jumpBench = some ([0x0400, 0x0008, 0x8360], jumpBench) ∧
    (JumpOperand.immediate false 1 2).wfFar = true ∧ userBench.supervisor = false := by decide +kernel

/-- The first of three words beyond the segment, and the second alone. -/
theorem witness_FarJump_fault :
    mmuBench.supervisor = true ∧ jumpAddress (.absolute true 0x00FF) mmuBench = some (.es, 0x00FF) ∧
    readWords .es .other ([] : List Word).length 0x00FF mmuBench = some ([], mmuBench) ∧
    readWord .es .other (0x00FF + BitVec.ofNat 16 (2 * ([] : List Word).length)) mmuBench = .trap (.segment true false) mmuBench ∧
    jumpAddress (.absolute true 0x00FE) mmuBench = some (.es, 0x00FE) ∧
    readWords .es .other [(0 : Word)].length 0x00FE mmuBench = some ([0], mmuBench) ∧
    readWord .es .other (0x00FE + BitVec.ofNat 16 (2 * [(0 : Word)].length)) mmuBench = .trap (.segment true false) mmuBench := by
  decide +kernel
theorem witness_NearCall :
    Memory.wf bench.ram = true ∧ bench.stackRoom 1 ∧ nearTarget (.immediate false 0x1234 0) bench = .done 0x1234 bench ∧
    (busy bench).devicesKeepOff 4 (bench.belowSp 2) ∧ bench.devicesKeepOff 4 (bench.belowSp 2) ∧
    jumpAddress (.absolute true 0x00FF) mmuBench = some (.es, 0x00FF) ∧
    readWord .es .other 0x00FF mmuBench = .trap (.segment true false) mmuBench := by
  unfold State.stackRoom State.devicesKeepOff State.belowSp; decide +kernel
theorem witness_FarCall :
    Memory.wf mmuBench.ram = true ∧ mmuBench.stackRoom 3 ∧
    farTarget (.immediate false 0x0400 0x83600008) mmuBench = .done (0x0400, 0x83600008) mmuBench ∧
    mmuBench.devicesKeepOff 12 (mmuBench.belowSp 6) ∧
    mmuBench.supervisor = true ∧ jumpAddress (.absolute true 0x00FC) mmuBench = some (.es, 0x00FC) ∧
    readWords .es .other [(0 : Word), 0].length 0x00FC mmuBench = some ([0, 0], mmuBench) ∧
    readWord .es .other (0x00FC + BitVec.ofNat 16 (2 * [(0 : Word), 0].length)) mmuBench = .trap (.segment true false) mmuBench := by
  unfold State.stackRoom State.devicesKeepOff State.belowSp; decide +kernel
theorem witness_PushGeneralRegisters :
    Memory.wf bench.ram = true ∧
    bench.stackRoom (((List.finRange 8).filter fun r => (0xFF : BitVec 8).getLsbD r.val).map bench.reg).length ∧
    (busy bench).devicesKeepOff (8 * wordCycles bench.sp) (bench.belowSp 16) ∧
    bench.devicesKeepOff (8 * wordCycles bench.sp) (bench.belowSp 16) := by
  unfold State.stackRoom State.devicesKeepOff State.belowSp; decide +kernel

/-- Both outcomes of naming PS. -/
theorem witness_PushControlRegisters :
    Memory.wf bench.ram = true ∧ bench.stackRoom (bench.statedControlWords 0xC7).length ∧ (bench.statedControlWords 0xC7).length = 5 ∧
    Memory.wf userBench.ram = true ∧ userBench.stackRoom (userBench.statedControlWords 0xC7).length ∧
    (0xC7 : BitVec 8).getLsbD 2 = true ∧ userBench.supervisor = false ∧
    bench.devicesKeepOff (5 * wordCycles bench.sp) (bench.belowSp 10) ∧ (userBench.statedControlWords 0xC7).length = 4 ∧
    userBench.devicesKeepOff (4 * wordCycles userBench.sp) (userBench.belowSp 8) := by
  unfold State.stackRoom State.devicesKeepOff State.belowSp; decide +kernel
theorem witness_PopGeneralRegisters :
    readWords .ss .pshPop (((List.finRange 8).filter fun r => (0x03 : BitVec 8).getLsbD r.val).reverse).length jumpBench.sp
      { jumpBench with ram := [(0x8000, 1), (0x8002, 2)] } = some ([1, 2], { jumpBench with ram := [(0x8000, 1), (0x8002, 2)] }) := by
  decide +kernel
theorem witness_PopRestoresWhatPushSaved :
    Memory.wf operands.ram = true ∧ operands.stackRoom 8 ∧
    operands.devicesKeepOff 32 (operands.belowSp 16) ∧
    nextIs (exec (.pshGeneral 0xFF) operands) (fun t => t.sp == 0x7FF0) = true := by
  unfold State.stackRoom State.devicesKeepOff State.belowSp; decide +kernel

/-- POP SP, USP, PS, PC, FL in supervisor mode, and POP PS, FL in user mode: the pops the rule lists succeed. -/
theorem witness_PopControlRegisters :
    (popControls 0xC7 bench.supervisor controlPops (bench.setPc (bench.pc + 2))).isSome = true ∧
    (popControls 0x05 userBench.supervisor controlPops (userBench.setPc (userBench.pc + 2))).isSome = true ∧
    (0x05 : BitVec 8).getLsbD 2 = true ∧ userBench.supervisor = false := by decide +kernel

/-- A stack segment of $100 bytes, with SP at its end, two above it, and one to either side, where the second byte alone lies beyond. -/
theorem witness_StackBoundsFaults :
    let s := { mmuBench with segs := { mmuBench.segs with sss := 0x00000040 } }
    let u := { s with ssp := 0x0102 }
    (s.segValue .ss).getLsbD 29 = false ∧ segmentSize (s.segValue .ss) ≤ s.sp.toNat ∧
    (u.segValue .ss).getLsbD 29 = false ∧ segmentSize (u.segValue .ss) ≤ (u.sp - 2).toNat ∧ (0x01 : BitVec 8) ≠ 0 ∧
    nearTarget (.immediate false 0x0400 0) u = .done 0x0400 u ∧ (0x41 : BitVec 8) &&& 0xC3 ≠ 0 ∧
    farTarget (.immediate false 0x0400 0) u = .done (0x0400, 0) u ∧ u.supervisor = true ∧ (4 : BitVec 3).toNat = 4 ∧
    (let v := { s with ssp := 0x0101 }
     (v.segValue .ss).getLsbD 30 = false ∧ segmentSize (v.segValue .ss) ≤ (v.sp - 1).toNat ∧ (v.sp - 2).toNat = 0xFF) ∧
    (let v := { s with ssp := 0x00FF }
     segmentSize (v.segValue .ss) ≤ (v.sp + 1).toNat ∧ readByte .ss .other v.sp (busy v) = .done 0 (busy v).deviceTurn) := by
  decide +kernel
theorem witness_supervisor : bench.supervisor = true ∧ userBench.supervisor = false := by decide
theorem witness_StxAndSlp : bench.supervisor = true := by decide
theorem witness_Returns :
    let s := { bench with ssp := 0x7FFA, ram := [(0x7FFA, 8), (0x7FFC, 0x78), (0x7FFE, 0x34)] }
    s.supervisor = true ∧ readWords .ss .other 1 s.sp s = some ([0x0008], s) ∧
    readWords .ss .other 3 s.ssp s = some ([0x0008, 0x0078, 0x0034], s) ∧
    readWords .ss .other 2 s.ssp s = some ([0x0008, 0x0078], s) := by decide +kernel
theorem witness_SegmentRegisterLoadAndStore :
    let s := { bench with ssp := 0x7FFC, ram := [(0x7FFC, 8), (0x7FFE, 0x60)] }
    s.supervisor = true ∧ Memory.wf s.ram = true ∧ s.stackRoom 2 ∧ readWords .ss .other 2 s.ssp s = some ([0x0008, 0x0060], s) ∧
    s.devicesKeepOff (2 * wordCycles s.sp) (s.belowSp 4) ∧
    (true, (3 : BitVec 3).toNat, SegName.ssu) ∈
      [(false, 0, SegName.css), (false, 1, .dss), (false, 2, .ess), (false, 3, .sss), (false, 4, .isr),
       (true, 0, .csu), (true, 1, .dsu), (true, 2, .esu), (true, 3, .ssu)] := by
  unfold State.stackRoom State.devicesKeepOff State.belowSp; decide +kernel
theorem witness_HardwareQueries : bench.supervisor = true := by decide

/-- Slots 0, 3 (occupied), 15 (empty) and 16. -/
theorem witness_HardwareIdentification :
    deviceBench.supervisor = true ∧ (deviceBench.reg 0).toNat = 0 ∧
    (let s := deviceBench.setReg 0 3
     s.supervisor = true ∧ (s.reg 0).toNat = 3 ∧ s.platform.devices[3 - 1]? = some (some ⟨⟨1, 2, 3, 4⟩, 0x100⟩)) ∧
    (let s := deviceBench.setReg 0 15
     (s.reg 0).toNat = 15 ∧ s.platform.devices[15 - 1]? = some none) ∧ 15 < ((deviceBench.setReg 0 16).reg 0).toNat := by decide +kernel
theorem witness_HardwareMessage :
    (let s := deviceBench.setReg 0 3
     s.supervisor = true ∧ (s.reg 0).toNat = 3 ∧ s.platform.devices[3 - 1]? = some (some ⟨⟨1, 2, 3, 4⟩, 0x100⟩)) ∧
    (let s := deviceBench.setReg 0 15
     (s.reg 0).toNat = 15 ∧ s.platform.devices[15 - 1]? = some none) ∧ (deviceBench.reg 0).toNat = 0 ∧
    15 < ((deviceBench.setReg 0 16).reg 0).toNat := by decide +kernel
theorem witness_PrivilegedInUserMode :
    userBench.supervisor = false ∧ (JumpOperand.indirect false 3).wfFar = true ∧
    ∀ es x, JumpOperand.indirect false 3 ≠ .undefinedMode es x := ⟨by decide, by decide, by intro es x h; cases h⟩
theorem witness_UndefinedEncodings :
    bench.supervisor = true ∧ 5 ≤ (5 : BitVec 3).toNat ∧ ((4 : BitVec 3).toNat = 4 ∧ true = true) ∧ (5#3 : BitVec 3) ∈ [3#3, 4#3, 5#3] := by
  decide

/-- An entry that pushes three words with the MMU on, from supervisor and from user mode, and one that pushes two. -/
theorem witness_InterruptEntry :
    Memory.wf mmuBench.ram = true ∧ EntryReady (.segFault true false 0x0280) mmuBench ∧ Memory.wf userMmu.ram = true ∧
    EntryReady .swi { userMmu with ssp := 0x0100 } ∧ EntryReady .swi (busy mmuBench) ∧ EntryReady (.undefFault (opcode (.undefinedC0toFF 0x12C0))) mmuBench := by
  unfold EntryReady State.stackRoom State.devicesKeepOff State.belowSp; decide +kernel

/-- The first push lies just beyond a stack segment of $100 bytes; a second case has only its upper byte there. -/
theorem witness_DoubleFaultEntry :
    let s := { mmuBench with ssp := 0x0102, segs := { mmuBench.segs with sss := 0x00000040 } }
    let u := { s with ssp := 0x0101 }
    let s1 : State := { s with ps := Interrupt.entryPs .swi (s.ps &&& 0xFF00), halted := false, ssp := s.ssp - 2, draws := s.draws + 1 }
    let u1 : State := { u with ps := Interrupt.entryPs .swi (u.ps &&& 0xFF00), halted := false, ssp := u.ssp - 2, draws := u.draws + 1 }
    (∀ c, Interrupt.swi ≠ .doubleFault c) ∧
    Memory.wf s.ram = true ∧ s.mmuOn = true ∧ s.segs.sss.getLsbD 29 = false ∧ segmentSize s.segs.sss ≤ (s.ssp - 2).toNat ∧
    EntryReady (.doubleFault 0) s1 ∧ segmentSize u.segs.sss ≤ (u.ssp - 1).toNat ∧ EntryReady (.doubleFault 0) u1 := by
  refine ⟨nofun, ?_⟩
  unfold EntryReady State.stackRoom State.devicesKeepOff State.belowSp; decide +kernel

/-- The three causes that persist. -/
theorem witness_TripleFaultResets :
    Memory.wf mmuBench.ram = true ∧ mmuBench.mmuOn = true ∧ ({ mmuBench.segs with isr := 0xAFF00000 } : SegRegs).isr.getLsbD 29 = true ∧
    ({ mmuBench.segs with sss := 0x20000040 } : SegRegs).sss.getLsbD 29 = true ∧
    ({ mmuBench.segs with sss := 0x4FF00000 } : SegRegs).sss.getLsbD 30 = true := by decide
theorem witness_EntryThenReturnRestores :
    Memory.wf mmuBench.ram = true ∧ EntryReady .clock mmuBench ∧
    Interrupt.clock ∈ [Interrupt.clock, .busRefresh, .debugQuery, .swi] ∧
    (takeInterrupt .clock 0x0100 mmuBench).devicesKeepOff (2 * wordCycles mmuBench.ssp) (mmuBench.asSupervisor.belowSp 4) := by
  unfold EntryReady State.stackRoom State.devicesKeepOff State.belowSp; decide +kernel

/-- Each clause: Reset with everything else pending, Clock, a request (slots 2 and 5 are empty; and the same with Q set, where BusRefresh comes), DebugQuery, and
a halted processor. -/
theorem witness_BoundaryOrder :
    let all : State := { occupied with ps := 0xA000, rtc := { bench.rtc with rate := 1 }, lines := ⟨true, true, 0x802C, true, true⟩ }
    let clock := { all with lines := { all.lines with reset := false } }
    let hwi := { clock with rtc := { bench.rtc with rate := 0 } }
    let bus := { hwi with ps := 0xA800 }
    let query := { bus with lines := { bus.lines with busChanged := false } }
    let halt := { query with halted := true, lines := { query.lines with debug := false } }
    nextIs (step all) (fun t => t.pc == 0xF000 && t.ps == 0x8000) = true ∧ nextIs (step clock) (fun t => t.pc == 0xF010) = true ∧
    nextIs (step hwi) (fun t => t.pc == 0xF0C0 && word t 0x7FFA == 3) = true ∧ nextIs (step bus) (fun t => t.pc == 0xF0D0) = true ∧
    nextIs (step query) (fun t => t.pc == 0xF0E0) = true ∧ nextIs (step halt) (fun t => t.pc == 0x0100 && t.halted) = true := by
  decide +kernel

end Sys2Proof.Tests
end

section
/-! PROOFS. The family of 10_state.md: the state right after reset. -/

namespace Sys2Proof.Machine

/-- 20_memory.md R101: where nothing is programmed in ROM, every address of it reads 0, connected or not. -/
theorem State.romByte_of_rom_nil {s : State} (h : s.rom = []) (a : Nat) : s.romByte a = 0 := by
  unfold State.romByte
  split
  · rw [h, Memory.read, unlistedByte]
  · rfl

/-- Settles O11: the first three values are fields of the state; the ROM is empty, so the vector at its offset 0 is the zero word that
PC holds. -/
theorem resetState : Obligations.ResetState := by
  have vectorByte : ∀ a, State.reset.romByte a = 0 := State.romByte_of_rom_nil rfl
  refine ⟨rfl, rfl, rfl, ?pc⟩
  case pc =>
    rw [vectorByte 0, vectorByte 1]
    rfl

end Sys2Proof.Machine
end

section
/-! PROOFS. The family of 30_encoding.md: the length of an instruction, as R131 computes it from the opcode word. -/

namespace Sys2Proof.Laws.WordCount

/-! ### The fields R131 names, as numbers -/

theorem lowOctet_toNat (w : Word) : (lowOctet w).toNat = w.toNat % 256 := by
  rw [lowOctet, BitVec.extractLsb'_toNat, Nat.shiftRight_zero]

/-- A field of a word has a given value just when the number it stands for has. -/
theorem field_eq_iff (w : Word) (lo len : Nat) (v : BitVec len) :
    w.extractLsb' lo len = v ↔ w.toNat / 2 ^ lo % 2 ^ len = v.toNat := by
  rw [← BitVec.toNat_inj, BitVec.extractLsb'_toNat, Nat.shiftRight_eq_div_pow]

theorem bit_eq_true_iff (w : Word) (k : Nat) : w.getLsbD k = true ↔ w.toNat / 2 ^ k % 2 = 1 := by
  rw [BitVec.getLsbD, Nat.testBit_eq_decide_div_mod_eq, decide_eq_true_iff]

/-- The mode with an offset word, `AAA` = 3, is read from bits 14..12: the upper half of the six mode bits. -/
theorem offsetMode_iff (w : Word) : w.extractLsb' 12 3 = 3#3 ↔ w.toNat / 512 % 64 / 8 = 3 := by
  rw [field_eq_iff, show (3#3).toNat = 3 from rfl]
  omega

/-- `instrLength` is the arithmetic of 30_encoding.md R131 on the number of the opcode word. -/
theorem instrLength_eq (w : Word) :
    instrLength w =
      if w.toNat % 256 ≤ 0x8F ∨ w.toNat % 256 = 0xB8 ∨ w.toNat % 256 = 0xB9 then
        if w.toNat / 512 % 64 = 0 then
          (if (w.toNat % 256 = 0xB8 ∨ w.toNat % 256 = 0xB9) ∧ w.toNat / 256 % 2 = 1 then 8 else 4)
        else if w.toNat / 512 % 64 = 1 then 4
        else if w.toNat / 512 % 64 / 8 = 3 then 4
        else 2
      else 2 := by
  have mode0 : w.extractLsb' 9 6 = 0#6 ↔ w.toNat / 512 % 64 = 0 := field_eq_iff w 9 6 0
  have mode1 : w.extractLsb' 9 6 = 1#6 ↔ w.toNat / 512 % 64 = 1 := field_eq_iff w 9 6 1
  have far : w.getLsbD 8 = true ↔ w.toNat / 256 % 2 = 1 := bit_eq_true_iff w 8
  simp only [instrLength, immediateCount, lowOctet_toNat, Bool.or_eq_true, Bool.and_eq_true, decide_eq_true_eq, beq_iff_eq,
    mode0, mode1, far, offsetMode_iff, or_assoc]
  split_ifs <;> rfl

/-! ### All instructions -/

/-- The lemmas of the single instructions, together. -/
theorem instrLength_opcode (i : Instr) : Statement i :=
  match i with
  | .cmp d m => cmp d m | .neg d m => neg d m | .add d m => add d m | .sub d m => sub d m
  | .adc d m => adc d m | .sbc d m => sbc d m | .mul d m => mul d m | .div d m => div d m
  | .mli d m => mli d m | .dvi d m => dvi d m | .mod d m => mod d m | .mdi d m => mdi d m
  | .and d m => and d m | .orr d m => orr d m | .eor d m => eor d m | .not d m => not d m
  | .lod d m => lod d m | .sto d m => sto d m
  | .bcc b => bcc b | .bcs b => bcs b | .bne b => bne b | .beq b => beq b | .bpl b => bpl b | .bmi b => bmi b
  | .bvc b => bvc b | .bvs b => bvs b | .bug b => bug b | .bsg b => bsg b | .baw b => baw b
  | .undefined9A h => undefined9A h | .undefined9B h => undefined9B h | .undefined9C h => undefined9C h
  | .undefined9D h => undefined9D h | .undefined9E h => undefined9E h
  | .asl d n => asl d n | .lsl d n => lsl d n | .rol d n => rol d n | .rnl d n => rnl d n
  | .asr d n => asr d n | .lsr d n => lsr d n | .ror d n => ror d n | .rnr d n => rnr d n
  | .btt d n => btt d n | .btx d n => btx d n | .btc d n => btc d n | .bts d n => bts d n
  | .set a d v => set a d v | .sef h => sef h | .clf h => clf h
  | .pshGeneral h => pshGeneral h | .pshControl h => pshControl h
  | .popGeneral h => popGeneral h | .popControl h => popControl h
  | .rts => rts | .rtsF => rtsF | .rti => rti | .swi => swi | .slp => slp
  | .lsg u x r => lsg u x r | .ssg u x r => ssg u x r | .adi d v => adi d v | .sbi d v => sbi d v
  | .jmp m => jmp m | .jmpF m => jmpF m | .jsr m => jsr m | .jsrF m => jsrF m
  | .hwq00 => hwq00 | .hwq01 => hwq01 | .hwq02 => hwq02 | .hwq03 => hwq03
  | .hwq80 => hwq80 | .hwq82 => hwq82 | .hwq83 => hwq83 | .stx h => stx h
  | .undefinedBCtoBF w => undefinedBCtoBF w | .undefinedC0toFF w => undefinedC0toFF w

/-- Settles O4: an instruction is as long as `instrLength` says of its opcode word, and that is the arithmetic of R131. -/
theorem instructionLength : Obligations.InstructionLength := fun i hwf =>
  (instrLength_opcode i hwf).symm.trans (instrLength_eq (opcode i))

end Sys2Proof.Laws.WordCount
end

section
/-! PROOFS. The family of 40_alu.md: one lemma for what the instructions that write a result do, one for the multiplications, and what the
results and flags are as numbers. -/

namespace Sys2Proof.Machine

/-! ### Numbers -/

/-- The signed value of a bit vector is that of the number it stands for (00_scope.md R12). -/
theorem signedValue_toNat {n : Nat} (a : BitVec n) : signedValue n a.toNat = a.toInt := by
  rcases n with _ | n
  · rw [BitVec.of_length_zero (x := a)]
    rfl
  · have half : a.toNat < 2 ^ (n + 1 - 1) ↔ 2 * a.toNat < 2 ^ (n + 1) := by
      rw [Nat.add_sub_cancel, Nat.pow_succ]
      omega
    simp only [signedValue, BitVec.toInt_eq_toNat_cond, half, Nat.cast_pow, Nat.cast_ofNat]

/-- An integer modulo `2^w` is the number a bit vector made of it stands for. -/
theorem toNat_ofInt_eq_wrapped (w : Nat) (i : Int) : (BitVec.ofInt w i).toNat = wrapped w i := by
  rw [BitVec.toNat_ofInt, wrapped, Nat.cast_pow, Nat.cast_ofNat]

theorem beq_zero_eq_decide {n : Nat} (r : BitVec n) : (r == 0#n) = decide (r.toNat = 0) := by
  rw [beq_eq_decide, decide_eq_decide, ← BitVec.toNat_inj, BitVec.toNat_ofNat, Nat.zero_mod]

/-- `NZ` (40_alu.md R173) on the number of the result. -/
theorem Flags.withNZ_eq_sign {n : Nat} (f : Flags) (r : BitVec n) : f.withNZ r = f.sign n r.toNat := by
  rw [Flags.withNZ, Flags.sign, BitVec.msb_eq_decide, BitVec.ofNat_eq_ofNat, beq_zero_eq_decide]

/-! ### Ending an ALU instruction -/

/-- What the ALU template adds to PC is the length of the instruction (30_encoding.md R135). -/
theorem operandLength_eq (m : Operand) : operandLength m = BitVec.ofNat 16 (2 * (m.immediates.length + 1)) := by
  cases m <;> rfl

theorem nextPc_of_immediates {i : Instr} {m : Operand} (h : immediates i = m.immediates) (s : State) :
    nextPc i s = s.pc + operandLength m := by
  rw [nextPc, lengthOf, encode, List.length_cons, h, operandLength_eq]

/-- Reading M changes what `State.withBus` names, and nothing else (40_alu.md R171). -/
theorem withBus_of_readOperand {m : Operand} {s s1 : State} {x : OpValue} (h : readOperand m s = .done x s1) : s.withBus s1 = s1 := by
  obtain ⟨_, _, effect⟩ := readOperand_done h
  exact effect.withBus

/-- An instruction of the ALU pattern, whose operation on the state after the read of M is done. -/
theorem exec_alu_done {i : Instr} {m : Operand} {s s1 t : State} {k : OpValue → State → Res Unit} {x : OpValue}
    (template : exec i s = aluRun (opcode i) m s k) (words : immediates i = m.immediates)
    (read : readOperand m s = .done x s1) (done : k x (s.withBus s1) = .done () t) :
    exec i s = .next (t.setPc (nextPc i s)) := by
  rw [withBus_of_readOperand read] at done
  rw [template, aluRun_done read done, nextPc_of_immediates words]

/-! ### The instructions that write a result, N and Z -/

/-- What an operation of the ALU does, in numbers, at every width: `result` of the width, the first operand and M is the value; N and Z
follow from it, C is kept, and V is `overflow` of the width, M and the old V. -/
structure AluOp.Computes (op : AluOp) (result : Nat → Nat → Nat → Nat) (overflow : Nat → Nat → Bool → Bool) : Prop where
  value : ∀ n a m f, (op n a m f).value.toNat = result n a.toNat m.toNat
  flags : ∀ n a m f, (op n a m f).flags = { f.withNZ (op n a m f).value with v := overflow n m.toNat f.v }

theorem negOp_computes :
    AluOp.Computes negOp (fun w _ m => wrapped w (0 - (m : Int))) (fun w m _ => decide (m = 2 ^ (w - 1))) where
  value n _ m _ := calc
    (BitVec.ofNat n (2 ^ n - m.toNat)).toNat = (-m).toNat := (BitVec.toNat_neg m).symm
    _ = (BitVec.ofInt n (0 - (m.toNat : Int))).toNat := by
      rw [Int.zero_sub, BitVec.ofInt_neg, BitVec.ofInt_natCast, BitVec.ofNat_toNat, BitVec.setWidth_eq]
    _ = wrapped n (0 - (m.toNat : Int)) := toNat_ofInt_eq_wrapped n _
  flags _ _ _ _ := rfl

theorem andOp_computes : AluOp.Computes andOp (fun _ a m => a &&& m) (fun _ _ v => v) where
  value _ a m _ := BitVec.toNat_and a m
  flags _ _ _ _ := rfl

theorem orrOp_computes : AluOp.Computes orrOp (fun _ a m => a ||| m) (fun _ _ v => v) where
  value _ a m _ := BitVec.toNat_or a m
  flags _ _ _ _ := rfl

theorem eorOp_computes : AluOp.Computes eorOp (fun _ a m => a ^^^ m) (fun _ _ v => v) where
  value _ a m _ := BitVec.toNat_xor a m
  flags _ _ _ _ := rfl

theorem notOp_computes : AluOp.Computes notOp (fun w _ m => 2 ^ w - 1 - m) (fun _ _ v => v) where
  value _ _ _ _ := BitVec.toNat_not
  flags _ _ _ _ := rfl

theorem lodOp_computes : AluOp.Computes lodOp (fun _ _ m => m) (fun _ _ v => v) where
  value _ _ _ _ := rfl
  flags _ _ _ _ := rfl

section
variable {op : AluOp} {result : Nat → Nat → Nat → Nat} {overflow : Nat → Nat → Bool → Bool}

theorem AluOp.Computes.flags_eq (h : AluOp.Computes op result overflow) (n : Nat) (a m : BitVec n) (f : Flags) :
    (op n a m f).flags = { f.sign n (result n a.toNat m.toNat) with v := overflow n m.toNat f.v } := by
  rw [h.flags, Flags.withNZ_eq_sign, h.value]

/-- In both widths, the result is written zero-extended and the flags follow (40_alu.md R170, R172). -/
theorem writeResult_of_computes (h : AluOp.Computes op result overflow) (d : Reg) (x : OpValue) (s : State) :
    let r := result x.width (x.first (s.reg d)) x.nat
    writeResult op d x s = .done () ((s.setReg d (BitVec.ofNat 16 r)).setFlags
      { s.flags.sign x.width r with v := overflow x.width x.nat s.flags.v }) := by
  cases x with
  | byte b =>
    have low : (lowByte (s.reg d)).toNat = (OpValue.byte b).first (s.reg d) := BitVec.extractLsb'_toNat ..
    rw [writeResult, h.flags_eq, ← BitVec.ofNat_toNat, h.value, low]
    rfl
  | word v =>
    have whole : (s.reg d).toNat = (OpValue.word v).first (s.reg d) := (Nat.mod_eq_of_lt (s.reg d).isLt).symm
    rw [writeResult, h.flags_eq, ← BitVec.setWidth_eq (op 16 _ _ _).value, ← BitVec.ofNat_toNat, h.value, whole]
    rfl

/-- The whole next state of an instruction that writes the result of such an operation. -/
theorem exec_of_computes {i : Instr} {d : Reg} {m : Operand} {s s1 : State} {x : OpValue}
    (computes : AluOp.Computes op result overflow)
    (template : exec i s = aluRun (opcode i) m s (writeResult op d)) (words : immediates i = m.immediates)
    (read : readOperand m s = .done x s1) :
    let r := result x.width (x.first (s.reg d)) x.nat
    exec i s = .next ((s.withBus s1).finish d r
      { s.flags.sign x.width r with v := overflow x.width x.nat s.flags.v } (nextPc i s)) :=
  exec_alu_done template words read (writeResult_of_computes computes d x (s.withBus s1))

end

/-- Settles O22: each of the six instructions runs the template with an operation whose value, N, Z and V are the stated ones. -/
theorem negationLogicAndLoad : Obligations.NegationLogicAndLoad := by
  intro d m s s1 x read w a i r v instruction
  obtain ⟨rfl, rfl, rfl⟩ | ⟨rfl, rfl, rfl⟩ | ⟨rfl, rfl, rfl⟩ | ⟨rfl, rfl, rfl⟩ | ⟨rfl, rfl, rfl⟩ | ⟨rfl, rfl, rfl⟩ := instruction
  · exact exec_of_computes negOp_computes rfl rfl read
  · exact exec_of_computes andOp_computes rfl rfl read
  · exact exec_of_computes orrOp_computes rfl rfl read
  · exact exec_of_computes eorOp_computes rfl rfl read
  · exact exec_of_computes notOp_computes rfl rfl read
  · exact exec_of_computes lodOp_computes rfl rfl read

/-! ### The 16-bit multiplications -/

/-- The product of MUL needs no more than its 32 bits (40_alu.md R181). -/
theorem product32_unsigned_toNat (a m : Word) : (product32 false a m).toNat = a.toNat * m.toNat :=
  Nat.mod_eq_of_lt (Nat.mul_lt_mul'' (c := 2 ^ 16) (d := 2 ^ 16) a.isLt m.isLt)

theorem product32_signed_toNat (a m : Word) :
    (product32 true a m).toNat = wrapped 32 (signedValue 16 a.toNat * signedValue 16 m.toNat) := by
  rw [signedValue_toNat, signedValue_toNat, ← toNat_ofInt_eq_wrapped]
  rfl

theorem highHalf_eq_ofNat (p : BitVec 32) : p.extractLsb' 16 16 = BitVec.ofNat 16 (p.toNat / 2 ^ 16) := by
  apply BitVec.eq_of_toNat_eq
  rw [BitVec.extractLsb'_toNat, BitVec.toNat_ofNat, Nat.shiftRight_eq_div_pow]

theorem lowHalf_eq_ofNat (p : BitVec 32) : p.extractLsb' 0 16 = BitVec.ofNat 16 (p.toNat % 2 ^ 16) := by
  apply BitVec.eq_of_toNat_eq
  rw [BitVec.extractLsb'_toNat, BitVec.toNat_ofNat, Nat.shiftRight_zero, Nat.mod_mod]

/-- N, Z and C on the number of the product; only MLI can set N (40_alu.md R181, R183). -/
theorem productFlags_eq (signed : Bool) (p : BitVec 32) (f : Flags) :
    productFlags signed p f =
      { f with n := signed && decide (2 ^ 31 ≤ p.toNat), z := decide (p.toNat = 0), c := decide (p.toNat / 2 ^ 16 ≠ 0) } := by
  have small : p.toNat / 2 ^ 16 < 2 ^ 16 := by
    have := p.isLt
    omega
  have high : (p.extractLsb' 16 16 == 0#16) = decide (p.toNat / 2 ^ 16 = 0) := by
    rw [beq_zero_eq_decide, BitVec.extractLsb'_toNat, Nat.shiftRight_eq_div_pow, Nat.mod_eq_of_lt small]
  rw [productFlags, high, BitVec.msb_eq_decide, BitVec.ofNat_eq_ofNat, beq_zero_eq_decide, decide_not]

/-- R0 is written first, so it holds the low half where it is Rx (40_alu.md R181, R183). -/
theorem multiplyResult_word {signed : Bool} {d : Reg} {v : Word} {s : State} {p : Nat}
    (product : (product32 signed (s.reg d) v).toNat = p) :
    multiplyResult signed d (.word v) s =
      .done () (((s.setReg 0 (BitVec.ofNat 16 (p / 2 ^ 16))).setReg d (BitVec.ofNat 16 (p % 2 ^ 16))).setFlags
        { s.flags with n := signed && decide (2 ^ 31 ≤ p), z := decide (p = 0), c := decide (p / 2 ^ 16 ≠ 0) }) := by
  rw [multiplyResult, productFlags_eq, lowHalf_eq_ofNat, highHalf_eq_ofNat, product]

/-- Settles O24: the 32-bit product of each instruction is the stated number, and the halves and the flags are taken from it. -/
theorem multiplySetsBothHalves : Obligations.MultiplySetsBothHalves := by
  rintro d m s s1 v read i p n (⟨rfl, rfl, rfl⟩ | ⟨rfl, rfl, rfl⟩)
  · exact exec_alu_done rfl rfl read (multiplyResult_word (product32_unsigned_toNat (s.reg d) v))
  · exact exec_alu_done rfl rfl read (multiplyResult_word (product32_signed_toNat (s.reg d) v))

end Sys2Proof.Machine
end

section
/-! PROOFS. The family of 42_bit_test.md: the index of the bit, the word with one bit written, and the instructions that write one. -/

namespace Sys2Proof.Machine

/-- The low four bits of a word stand for its number modulo 16 (42_bit_test.md R240). -/
theorem lowNibble_toNat (w : Word) : (w &&& 0x000F).toNat = w.toNat % 16 :=
  (BitVec.toNat_and w 0x000F).trans (Nat.and_two_pow_sub_one_eq_mod w.toNat 4)

theorem bitIndex_eq_statedIndex (n : CountOperand) (s : State) : bitIndex n s = statedIndex n s := by
  cases n with
  | constant => rfl
  | register _ r => exact lowNibble_toNat (s.reg r)

/-- The index never reaches beyond the register (42_bit_test.md R240). -/
theorem statedIndex_lt (n : CountOperand) (s : State) : statedIndex n s < 16 := by
  cases n with
  | constant c => exact c.isLt
  | register _ r => exact Nat.mod_lt _ (by decide)

theorem withBit_getLsbD {n : Nat} (w : BitVec n) {i : Nat} (b : Bool) (h : i < n) (j : Nat) :
    (withBit w i b).getLsbD j = if j = i then b else w.getLsbD j := by
  split
  case isTrue same => rw [same, withBit_getLsbD_eq w b h]
  case isFalse other => exact withBit_getLsbD_ne w b (Ne.symm other)

/-- BTX, BTC and BTS share this: an instruction whose operation gives the selected bit the value `new` and makes the flags `f` writes
that bit alone of the register, and the flags. -/
theorem exec_bitRun_of_withBit {i : Instr} {op : BitOp} {d : Reg} {n : CountOperand} {s : State} {new : Bool} {f : Flags}
    (template : exec i s = bitRun op d n s)
    (operation : op (s.reg d) (statedIndex n s) s.flags = ⟨withBit (s.reg d) (statedIndex n s) new, f⟩) :
    ∃ r : Word, (∀ j, j < 16 → r.getLsbD j = if j = statedIndex n s then new else (s.reg d).getLsbD j) ∧
      exec i s = .next (((s.setReg d r).setFlags f).setPc (s.pc + 2)) := by
  refine ⟨withBit (s.reg d) (statedIndex n s) new, fun j _ => withBit_getLsbD _ new (statedIndex_lt n s) j, ?next⟩
  case next => rw [template, bitRun, bitIndex_eq_statedIndex, operation]

/-- BTT leaves the register alone (42_bit_test.md R241). -/
theorem exec_btt (d : Reg) (n : CountOperand) (s : State) :
    exec (.btt d n) s =
      .next ((s.setFlags { s.flags with z := !(s.reg d).getLsbD (statedIndex n s) }).setPc (s.pc + 2)) := by
  rw [← bitIndex_eq_statedIndex]
  rfl

/-- Settles O32: BTT writes Z alone; each of the others runs the bit template with an operation that gives the selected bit the stated
value. -/
theorem bitTests : Obligations.BitTests := by
  intro d n s b old
  refine ⟨exec_btt d n s, ?writing⟩
  case writing =>
    rintro i new c (⟨rfl, rfl, rfl⟩ | ⟨rfl, rfl, rfl⟩ | ⟨rfl, rfl, rfl⟩)
    · exact exec_bitRun_of_withBit (op := testChangeBit) rfl rfl
    · exact exec_bitRun_of_withBit (op := testClearBit) rfl rfl
    · exact exec_bitRun_of_withBit (op := testSetBit) rfl rfl

end Sys2Proof.Machine
end

section
/-! PROOFS. The family of 47_processor_functions.md: FL as four flags above its reserved bits, and SEF and CLF, which write FL whole. -/

namespace Sys2Proof.Machine

/-! ### FL as flags and reserved bits -/

/-- The bits of FL that a whole write lets through are the four flags, bits 15..12 (10_state.md R43). -/
theorem and_flagMask_getLsbD (w : Word) {i : Nat} (low : 12 ≤ i) (high : i < 16) : (w &&& 0xF000).getLsbD i = w.getLsbD i := by
  have kept : (0xF000 : Word).getLsbD i = true := by
    interval_cases i <;> rfl
  rw [BitVec.getLsbD_and, kept, Bool.and_true]

theorem State.writeFl_flags (s : State) (v : Word) :
    (s.writeFl v).flags = ⟨v.getLsbD 15, v.getLsbD 14, v.getLsbD 13, v.getLsbD 12⟩ := by
  simp only [State.flags, State.writeFl_fl, Nat.reduceLeDiff, Nat.reduceLT, and_flagMask_getLsbD]

/-- A whole write of FL discards bits 11..0 (10_state.md R43). -/
theorem State.writeFl_reserved (s : State) (v : Word) : (s.writeFl v).fl.extractLsb' 0 12 = 0 := by
  rw [State.writeFl_fl, BitVec.extractLsb'_and]
  exact BitVec.and_zero

theorem State.setFlags_reserved (s : State) (f : Flags) : (s.setFlags f).fl.extractLsb' 0 12 = s.fl.extractLsb' 0 12 :=
  BitVec.extractLsb'_append_eq_right

theorem reserved_eq_zero {w : Word} (h : w &&& 0x0FFF = 0) : w.extractLsb' 0 12 = 0 := calc
  w.extractLsb' 0 12 = (w &&& 0x0FFF).extractLsb' 0 12 := by
    rw [BitVec.extractLsb'_and]
    exact BitVec.and_allOnes.symm
  _ = 0 := by
    rw [h]
    rfl

/-- FL holds nothing beyond its flags and its reserved bits (10_state.md R41, R43). -/
theorem State.fl_eq_of_flags_eq {s t : State} (flags : s.flags = t.flags)
    (reserved : s.fl.extractLsb' 0 12 = t.fl.extractLsb' 0 12) : s.fl = t.fl := by
  apply BitVec.eq_of_getLsbD_eq
  intro i hi
  rcases Nat.lt_or_ge i 12 with low | high
  · have bit := congrArg (·.getLsbD i) reserved
    simpa [low] using bit
  · obtain ⟨n, z, c, v⟩ := Flags.mk.inj flags
    interval_cases i
    · exact v
    · exact c
    · exact z
    · exact n

/-- Where the reserved bits are 0, a whole write of FL writes the flags alone. -/
theorem State.writeFl_eq_setFlags {s : State} (reserved : s.fl &&& 0x0FFF = 0) {v : Word} {f : Flags}
    (flags : (s.writeFl v).flags = f) : s.writeFl v = s.setFlags f := by
  have sameFl : (s.writeFl v).fl = (s.setFlags f).fl := by
    apply State.fl_eq_of_flags_eq
    · rw [flags, State.setFlags_flags]
    · rw [State.writeFl_reserved, State.setFlags_reserved, reserved_eq_zero reserved]
  exact congrArg (fun w => { s with fl := w }) sameFl

/-! ### SEF and CLF -/

/-- The flag at bit `i` of FL is selected by the bit of the octet that stands there in the opcode word (47_processor_functions.md R300). -/
theorem selectedFlags_getLsbD (octet h : BitVec 8) {i : Nat} (low : 12 ≤ i) (high : i < 16) :
    (octetWord octet h &&& 0xF000).getLsbD i = h.getLsbD (i - 8) := by
  rw [and_flagMask_getLsbD _ low high, Laws.WordCount.octetWord_getLsbD, if_neg (show ¬ i < 8 by omega)]

theorem not_selectedFlags_getLsbD (octet h : BitVec 8) {i : Nat} (low : 12 ≤ i) (high : i < 16) :
    (~~~(octetWord octet h &&& 0xF000)).getLsbD i = !h.getLsbD (i - 8) := by
  rw [BitVec.getLsbD_not, selectedFlags_getLsbD octet h low high, decide_eq_true high, Bool.true_and]

/-- SEF writes FL with the selected flags joined to the old ones (47_processor_functions.md R300). -/
theorem sef_flags (s : State) (bits : BitVec 8) :
    (s.writeFl (s.fl ||| (opcode (.sef bits) &&& 0xF000))).flags =
      { n := s.flags.n || bits.getLsbD 7, z := s.flags.z || bits.getLsbD 6
        c := s.flags.c || bits.getLsbD 5, v := s.flags.v || bits.getLsbD 4 } := by
  rw [State.writeFl_flags]
  simp only [opcode, BitVec.getLsbD_or, Nat.reduceLeDiff, Nat.reduceLT, Nat.reduceSub, selectedFlags_getLsbD, State.flags]

/-- CLF writes FL with the selected flags taken from the old ones (47_processor_functions.md R301). -/
theorem clf_flags (s : State) (bits : BitVec 8) :
    (s.writeFl (s.fl &&& ~~~(opcode (.clf bits) &&& 0xF000))).flags =
      { n := s.flags.n && !bits.getLsbD 7, z := s.flags.z && !bits.getLsbD 6
        c := s.flags.c && !bits.getLsbD 5, v := s.flags.v && !bits.getLsbD 4 } := by
  rw [State.writeFl_flags]
  simp only [opcode, BitVec.getLsbD_and, Nat.reduceLeDiff, Nat.reduceLT, Nat.reduceSub, not_selectedFlags_getLsbD, State.flags]

/-- Settles O34: both instructions write FL whole, which with reserved bits 0 is to write the flags, and those are the stated ones. -/
theorem flagInstructions : Obligations.FlagInstructions := by
  intro bits s reserved
  have sef := State.writeFl_eq_setFlags reserved (sef_flags s bits)
  have clf := State.writeFl_eq_setFlags reserved (clf_flags s bits)
  rw [← sef, ← clf]
  exact ⟨rfl, rfl⟩

end Sys2Proof.Machine
end

section
/-! PROOFS. The family of 30_encoding.md: decoding and encoding are inverse to each other, octet by octet. -/

namespace Sys2Proof.Laws.Encoding

open Sys2Proof.Laws.WordCount

/-! ### Fields of a word of two octets -/

theorem highOctet_octetWord (h l : BitVec 8) : highOctet (octetWord l h) = h := by
  apply BitVec.eq_of_getLsbD_eq
  intro i hi
  simp only [highOctet, BitVec.getLsbD_extractLsb', octetWord_getLsbD, hi, decide_true, Bool.true_and,
    if_neg (show ¬ 8 + i < 8 by omega), Nat.add_sub_cancel_left]

/-- A field that lies in the high octet is a field of that octet. -/
theorem octetWord_field (h l : BitVec 8) (k n : Nat) : (octetWord l h).extractLsb' (8 + k) n = h.extractLsb' k n := by
  apply BitVec.eq_of_getLsbD_eq
  intro i hi
  simp only [BitVec.getLsbD_extractLsb', octetWord_getLsbD, if_neg (show ¬ 8 + k + i < 8 by omega)]
  rw [show 8 + k + i - 8 = k + i by omega]

theorem octetWord_bit (h l : BitVec 8) (k : Nat) : (octetWord l h).getLsbD (8 + k) = h.getLsbD k := by
  rw [octetWord_getLsbD, if_neg (show ¬ 8 + k < 8 by omega), Nat.add_sub_cancel_left]

theorem octetWord_low_field (h l : BitVec 8) {k n : Nat} (fits : k + n ≤ 8) :
    (octetWord l h).extractLsb' k n = l.extractLsb' k n := by
  apply BitVec.eq_of_getLsbD_eq
  intro i hi
  simp only [BitVec.getLsbD_extractLsb', octetWord_getLsbD, if_pos (show k + i < 8 by omega)]

/-! ### The second operand of the ALU pattern -/

/-- The operand with its immediate word replaced, where its mode has one. -/
def withImmediate (v : Word) : Operand → Operand
  | .immediate es e _ => .immediate es e v
  | .absolute es e _ => .absolute es e v
  | .indirectOffset es e r _ => .indirectOffset es e r v
  | m => m

theorem withImmediate_high (v : Word) (m : Operand) : (withImmediate v m).high = m.high := by
  cases m <;> rfl

theorem withImmediate_withImmediate (v w : Word) (m : Operand) : withImmediate w (withImmediate v m) = withImmediate w m := by
  cases m <;> rfl

/-- An operand is its mode with its own immediate word, whatever words follow. -/
theorem withImmediate_own (m : Operand) (ws : List Word) : withImmediate ((m.immediates ++ ws).getD 0 0) m = m := by
  cases m <;> rfl

theorem immediates_withImmediate (v : Word) (m : Operand) :
    (withImmediate v m).immediates = [v].take m.immediates.length := by
  cases m <;> rfl

/-- The decoder reads the mode from the high octet, and the immediate word as it is. -/
theorem decodeOperand_octetWord (l h : BitVec 8) (v : Word) :
    decodeOperand (octetWord l h) v = withImmediate v (decodeOperand (octetWord 0 h) 0) := by
  unfold decodeOperand regField
  simp only [octetWord_bit h _ 0, octetWord_bit h _ 1, octetWord_bit h _ 2, octetWord_bit h _ 3, octetWord_bit h _ 4,
    octetWord_bit h _ 5, octetWord_bit h _ 6, octetWord_bit h _ 7, octetWord_field h _ 0, octetWord_field h _ 1, octetWord_field h _ 4]
  split_ifs <;> rfl

/-- Every operand is read back from its high octet. -/
theorem decodeOperand_high (m : Operand) : decodeOperand (octetWord 0 m.high) 0 = withImmediate 0 m := by
  cases m with
  | immediate es e v =>
    show decodeOperand (octetWord 0 (BitVec.ofBool es ++ 0#6 ++ BitVec.ofBool e)) 0 = .immediate es e 0
    revert es e; decide
  | absolute es e v =>
    show decodeOperand (octetWord 0 (BitVec.ofBool es ++ 1#6 ++ BitVec.ofBool e)) 0 = .absolute es e 0
    revert es e; decide
  | undefinedMode es x e => revert es x e; decide
  | control es p => revert es p; decide
  | register es e r => revert es e r; decide
  | indirect es e r => revert es e r; decide
  | indirectOffset es e r v =>
    show decodeOperand (octetWord 0 (BitVec.ofBool es ++ 3#3 ++ regBits r ++ BitVec.ofBool e)) 0 = .indirectOffset es e r 0
    revert es e r; decide
  | indirectIndexed es e ii r => revert es e ii r; decide

/-- Every high octet is that of the operand read from it. -/
theorem high_decodeOperand (h : BitVec 8) : (decodeOperand (octetWord 0 h) 0).high = h := by
  revert h; decide

/-! ### The operand of the JMI pattern -/

/-- The operand with its immediate words replaced, where its mode has them. -/
def withTarget (t : Word) (g : SegReg) : JumpOperand → JumpOperand
  | .immediate es _ _ => .immediate es t g
  | .absolute es _ => .absolute es t
  | .indirectOffset es r _ => .indirectOffset es r t
  | m => m

theorem decodeJumpOperand_octetWord (l h : BitVec 8) (i1 i2 i3 : Word) :
    decodeJumpOperand (octetWord l h) i1 i2 i3 =
      withTarget i1 (if h.getLsbD 0 then i3 ++ i2 else 0) (decodeJumpOperand (octetWord 0 h) 0 0 0) := by
  unfold decodeJumpOperand regField
  simp only [octetWord_bit h _ 0, octetWord_bit h _ 1, octetWord_bit h _ 2, octetWord_bit h _ 3, octetWord_bit h _ 4,
    octetWord_bit h _ 5, octetWord_bit h _ 6, octetWord_bit h _ 7, octetWord_field h _ 1, octetWord_field h _ 4]
  split_ifs <;> rfl

theorem isFarJump_octetWord (l h : BitVec 8) : isFarJump (octetWord l h) = isFarJump (octetWord 0 h) := by
  unfold isFarJump
  simp only [octetWord_bit h _ 0, octetWord_field h _ 4]

theorem high_withTarget (far : Bool) (t : Word) (g : SegReg) (m : JumpOperand) : (withTarget t g m).high far = m.high far := by
  cases m <;> rfl

/-- Every high octet of a jump is that of the operand read from it, with the F bit read from it. -/
theorem high_decodeJumpOperand (h : BitVec 8) :
    (decodeJumpOperand (octetWord 0 h) 0 0 0).high (isFarJump (octetWord 0 h)) = h := by
  revert h; decide

/-- The operand fits the row of a near or of a far jump. -/
def fitsRow (far : Bool) (m : JumpOperand) : Bool := if far then m.wfFar else m.wfNear

/-- Every operand that fits its row is read back from its high octet, and so is the F bit (30_encoding.md R146). -/
theorem decodeJumpOperand_high (far : Bool) (m : JumpOperand) (fits : fitsRow far m = true) :
    decodeJumpOperand (octetWord 0 (m.high far)) 0 0 0 = withTarget 0 0 m ∧ isFarJump (octetWord 0 (m.high far)) = far := by
  cases m with
  | immediate es t g =>
    show decodeJumpOperand (octetWord 0 (BitVec.ofBool es ++ 0#6 ++ BitVec.ofBool far)) 0 0 0 = .immediate es 0 0 ∧
      isFarJump (octetWord 0 (BitVec.ofBool es ++ 0#6 ++ BitVec.ofBool far)) = far
    clear fits; revert es far; decide
  | absolute es a =>
    show decodeJumpOperand (octetWord 0 (BitVec.ofBool es ++ 1#6 ++ BitVec.ofBool far)) 0 0 0 = .absolute es 0 ∧
      isFarJump (octetWord 0 (BitVec.ofBool es ++ 1#6 ++ BitVec.ofBool far)) = far
    clear fits; revert es far; decide
  | undefinedMode es x => revert es x far; decide
  | register es r f => revert es r f far; decide
  | indirect es r => clear fits; revert es r far; decide
  | indirectOffset es r v =>
    show decodeJumpOperand (octetWord 0 (BitVec.ofBool es ++ 3#3 ++ regBits r ++ BitVec.ofBool far)) 0 0 0 =
        .indirectOffset es r 0 ∧ isFarJump (octetWord 0 (BitVec.ofBool es ++ 3#3 ++ regBits r ++ BitVec.ofBool far)) = far
    clear fits; revert es r far; decide
  | indirectIndexed es ii r => clear fits; revert es ii r far; decide

/-- The two halves of a segment value, put together again (30_encoding.md R147). -/
theorem halves_append (g : SegReg) : (g.extractLsb' 16 16 ++ g.extractLsb' 0 16 : BitVec 32) = g := by
  apply BitVec.eq_of_getLsbD_eq
  intro i hi
  rw [BitVec.getLsbD_append]
  split
  case isTrue low => simp [low]
  case isFalse high => simp [show i - 16 < 16 by omega, show 16 + (i - 16) = i by omega]

theorem append_halves (hi lo : Word) :
    (hi ++ lo : BitVec 32).extractLsb' 0 16 = lo ∧ (hi ++ lo : BitVec 32).extractLsb' 16 16 = hi :=
  ⟨BitVec.extractLsb'_append_eq_right, BitVec.extractLsb'_append_eq_left⟩

/-- An operand that fits its row is its mode with its own immediate words, whatever words follow. -/
theorem withTarget_own (far : Bool) (m : JumpOperand) (fits : fitsRow far m = true) (ws : List Word) :
    withTarget ((m.immediates far ++ ws).getD 0 0)
      (if (m.high far).getLsbD 0 then (m.immediates far ++ ws).getD 2 0 ++ (m.immediates far ++ ws).getD 1 0 else 0) m = m := by
  cases m with
  | immediate es t g =>
    cases far with
    | false =>
      have near : g = 0 := by simpa [fitsRow, JumpOperand.wfNear] using fits
      have bit : ((JumpOperand.immediate es t g).high false).getLsbD 0 = false := by
        show (BitVec.ofBool es ++ 0#6 ++ BitVec.ofBool false : BitVec 8).getLsbD 0 = false
        clear fits near; revert es; decide
      rw [bit, near]
      rfl
    | true =>
      have bit : ((JumpOperand.immediate es t g).high true).getLsbD 0 = true := by
        show (BitVec.ofBool es ++ 0#6 ++ BitVec.ofBool true : BitVec 8).getLsbD 0 = true
        clear fits; revert es; decide
      rw [bit]
      exact congrArg (JumpOperand.immediate es t) (halves_append g)
  | _ => rfl

/-- The operand read from a jump word fits the row its F bit names. -/
theorem fitsRow_decodeJumpOperand (l h : BitVec 8) (i1 i2 i3 : Word) :
    fitsRow (isFarJump (octetWord l h)) (decodeJumpOperand (octetWord l h) i1 i2 i3) = true := by
  have mode : ∀ h : BitVec 8, (fitsRow (isFarJump (octetWord 0 h)) (decodeJumpOperand (octetWord 0 h) 0 0 0) = true) ∧
      (h.getLsbD 0 = isFarJump (octetWord 0 h) ∨
        ∃ es r f, decodeJumpOperand (octetWord 0 h) 0 0 0 = .register es r f) := by decide
  rw [isFarJump_octetWord, decodeJumpOperand_octetWord]
  obtain ⟨fits, bit | ⟨es, r, f, register⟩⟩ := mode h
  · rw [bit]
    generalize decodeJumpOperand (octetWord 0 h) 0 0 0 = m at fits
    generalize isFarJump (octetWord 0 h) = far at fits
    cases m <;> cases far <;> first | exact fits | rfl
  · rw [register] at fits ⊢
    exact fits

/-- The immediate words of the operand read from a jump word are the words it was read from. -/
theorem immediates_decodeJumpOperand (l h : BitVec 8) (i1 i2 i3 : Word) (far : Bool) (isFar : isFarJump (octetWord l h) = far) :
    let m := decodeJumpOperand (octetWord l h) i1 i2 i3
    m.immediates far = [i1, i2, i3].take (m.immediates far).length := by
  have bit : far = true → h.getLsbD 0 = true := by
    intro e
    rw [e, isFarJump, octetWord_bit h l 0, Bool.and_eq_true] at isFar
    exact isFar.1
  intro m
  have hm : m = withTarget i1 (if h.getLsbD 0 then i3 ++ i2 else 0) (decodeJumpOperand (octetWord 0 h) 0 0 0) :=
    decodeJumpOperand_octetWord l h i1 i2 i3
  clear_value m
  subst hm
  generalize decodeJumpOperand (octetWord 0 h) 0 0 0 = m0
  cases m0 with
  | immediate es t g =>
    cases far with
    | false => rfl
    | true =>
      rw [bit rfl]
      obtain ⟨lo, hi⟩ := append_halves i3 i2
      simp only [withTarget, JumpOperand.immediates, if_true, lo, hi, List.length_cons, List.length_nil]
      rfl
  | _ => rfl

/-! ### Counts, values and registers -/

theorem decodeCount_octetWord (l h : BitVec 8) : decodeCount (octetWord l h) = decodeCount (octetWord 0 h) := by
  unfold decodeCount regField
  simp only [octetWord_bit h _ 3, octetWord_bit h _ 4, octetWord_field h _ 0]

theorem regField_octetWord (l h : BitVec 8) : regField (octetWord l h) 13 = regField (octetWord 0 h) 13 := by
  unfold regField
  rw [octetWord_field h l 5, octetWord_field h 0 5]

theorem countWord_fields (d : Reg) (n : CountOperand) (l : BitVec 8) :
    regField (countWord l d n) 13 = d ∧ decodeCount (countWord l d n) = n := by
  rw [countWord_eq, regField_octetWord, decodeCount_octetWord]
  cases n with
  | constant s => revert d s; decide
  | register x r => revert d x r; decide

theorem fields_countWord (l h : BitVec 8) : countWord l (regField (octetWord l h) 13) (decodeCount (octetWord l h)) = octetWord l h := by
  rw [countWord_eq, regField_octetWord, decodeCount_octetWord]
  exact congrArg (octetWord l) (by revert h; decide)

theorem valueWord_fields (d : Reg) (v : BitVec 5) (l : BitVec 8) :
    regField (valueWord l d v) 13 = d ∧ (valueWord l d v).extractLsb' 8 5 = v := by
  rw [valueWord_eq, regField_octetWord, octetWord_field _ l 0]
  revert d v; decide

theorem fields_valueWord (l h : BitVec 8) :
    valueWord l (regField (octetWord l h) 13) ((octetWord l h).extractLsb' 8 5) = octetWord l h := by
  rw [valueWord_eq, regField_octetWord, octetWord_field h l 0]
  exact congrArg (octetWord l) (by revert h; decide)

theorem segmentWord_fields (store u : Bool) (x r : BitVec 3) :
    (segmentWord store u x r).getLsbD 8 = store ∧ (segmentWord store u x r).getLsbD 15 = u ∧
      (segmentWord store u x r).extractLsb' 12 3 = x ∧ (segmentWord store u x r).extractLsb' 9 3 = r := by
  rw [segmentWord_eq, octetWord_bit _ _ 0, octetWord_bit _ _ 7, octetWord_field _ _ 4, octetWord_field _ _ 1]
  revert store u x r; decide

theorem fields_segmentWord (h : BitVec 8) :
    segmentWord ((octetWord 0xB5#8 h).getLsbD 8) ((octetWord 0xB5#8 h).getLsbD 15) ((octetWord 0xB5#8 h).extractLsb' 12 3)
      ((octetWord 0xB5#8 h).extractLsb' 9 3) = octetWord 0xB5#8 h := by
  rw [segmentWord_eq, octetWord_bit h _ 0, octetWord_bit h _ 7, octetWord_field h _ 4, octetWord_field h _ 1]
  exact congrArg (octetWord 0xB5#8) (by revert h; decide)

/-! ### The ALU rows -/

theorem aluWord_fields (op : BitVec 5) (d : Reg) (m : Operand) :
    (aluWord op d m).extractLsb' 3 5 = op ∧ regField (aluWord op d m) 0 = d := by
  rw [aluWord_eq, regField, octetWord_low_field _ _ (by decide), octetWord_low_field _ _ (by decide)]
  refine ⟨BitVec.extractLsb'_append_eq_left, ?register⟩
  case register => rw [BitVec.extractLsb'_append_eq_right]; rfl

theorem fields_aluWord (w v : Word) : aluWord (w.extractLsb' 3 5) (regField w 0) (decodeOperand w v) = w := by
  have low : ∀ l : BitVec 8, (l.extractLsb' 3 5 ++ regBits (l.extractLsb' 0 3).toFin : BitVec 8) = l := by decide
  obtain ⟨l, h, rfl⟩ : ∃ l h, w = octetWord l h := ⟨_, _, word_octets w⟩
  rw [aluWord_eq, regField, octetWord_low_field h l (by decide), octetWord_low_field h l (by decide), low,
    decodeOperand_octetWord, withImmediate_high, high_decodeOperand]

/-- The instruction of an ALU row has the row's opcode word and its operand's immediate word. -/
theorem decodeAlu_some {op : BitVec 5} {d : Reg} {m : Operand} {i : Instr} (row : decodeAlu op d m = some i) :
    i.wf = true ∧ opcode i = aluWord op d m ∧ immediates i = m.immediates := by
  have number : op = BitVec.ofNat 5 op.toNat := (BitVec.setWidth_eq op).symm.trans (BitVec.ofNat_toNat 5 op).symm
  unfold decodeAlu at row
  split at row
  all_goals
    rename_i value
    cases row
  all_goals
    rw [value] at number
    rw [number]
    exact ⟨rfl, rfl, rfl⟩

end Sys2Proof.Laws.Encoding
end

section
/-! PROOFS. The family of 30_encoding.md: the rows of the table, read in both directions. -/

namespace Sys2Proof.Laws.Encoding

open Sys2Proof.Laws.WordCount

/-! ### From words to instructions -/

/-- What decoding the words gives: a well-formed instruction whose own words are the words read. -/
structure ReadFrom (w i1 i2 i3 : Word) (i : Instr) : Prop where
  wf : i.wf = true
  opcode : opcode i = w
  immediates : immediates i = [i1, i2, i3].take (immediates i).length

/-- The octet of a given number. -/
theorem octet_of_number {l : BitVec 8} {k : Nat} (h : l.toNat = k) : l = BitVec.ofNat 8 k := by
  rw [← h, BitVec.ofNat_toNat, BitVec.setWidth_eq]

section
variable {w i1 i2 i3 : Word} {i : Instr}

/-- A row without immediate words. -/
theorem readFrom_row (wf : i.wf = true) (word : opcode i = w) (none : immediates i = []) : ReadFrom w i1 i2 i3 i where
  wf := wf
  opcode := word
  immediates := by rw [none]; rfl

theorem decodeAlu_readFrom (row : decodeAlu (w.extractLsb' 3 5) (regField w 0) (decodeOperand w i1) = some i) :
    ReadFrom w i1 i2 i3 i := by
  obtain ⟨wf, word, words⟩ := decodeAlu_some row
  refine ⟨wf, word.trans (fields_aluWord w i1), ?_⟩
  obtain ⟨l, h, rfl⟩ : ∃ l h, w = octetWord l h := ⟨_, _, word_octets w⟩
  rw [words, decodeOperand_octetWord, immediates_withImmediate]
  generalize decodeOperand (octetWord 0 h) 0 = m
  cases m <;> rfl

theorem decodeProcessorFunction_readFrom {h : BitVec 8} (row : decodeProcessorFunction h = .ok i) :
    ReadFrom (octetWord 0xB4 h) i1 i2 i3 i := by
  unfold decodeProcessorFunction at row
  split at row
  all_goals
    rename_i number
    cases row
  all_goals
    rw [octet_of_number number]
    exact readFrom_row rfl rfl rfl

theorem decodeHwq_readFrom {h : BitVec 8} (row : decodeHwq h = .ok i) : ReadFrom (octetWord 0xBA h) i1 i2 i3 i := by
  unfold decodeHwq at row
  split at row
  all_goals
    rename_i number
    cases row
  all_goals
    rw [octet_of_number number]
    exact readFrom_row rfl rfl rfl

/-- The two rows of a jump word, near and far. -/
theorem jump_readFrom {l h : BitVec 8} {row : Bool → JumpOperand → Instr}
    (wf : ∀ far m, (row far m).wf = fitsRow far m) (word : ∀ far m, Sys2Proof.opcode (row far m) = octetWord l (m.high far))
    (words : ∀ far m, Sys2Proof.immediates (row far m) = m.immediates far) :
    ReadFrom (octetWord l h) i1 i2 i3 (row (isFarJump (octetWord l h)) (decodeJumpOperand (octetWord l h) i1 i2 i3)) where
  wf := by rw [wf]; exact fitsRow_decodeJumpOperand l h i1 i2 i3
  opcode := by
    rw [word, decodeJumpOperand_octetWord, high_withTarget, isFarJump_octetWord, high_decodeJumpOperand]
  immediates := by rw [words]; exact immediates_decodeJumpOperand l h i1 i2 i3 _ rfl

/-- The rows of the low octets from $90 on. -/
theorem decodeOther_readFrom {l h : BitVec 8} (low : 0x90 ≤ l.toNat) (row : decodeOther (octetWord l h) i1 i2 i3 = .ok i) :
    ReadFrom (octetWord l h) i1 i2 i3 i := by
  unfold decodeOther at row
  simp only [lowOctet_octetWord, highOctet_octetWord] at row
  split at row
  -- $A0 to $AB: a register and a count
  case h_17 number | h_18 number | h_19 number | h_20 number | h_21 number | h_22 number | h_23 number | h_24 number
      | h_25 number | h_26 number | h_27 number | h_28 number =>
    obtain rfl := octet_of_number number
    cases row
    exact readFrom_row rfl (fields_countWord _ h) rfl
  -- $AC, $AD, $B6, $B7: a register and a value
  case h_29 number | h_30 number | h_39 number | h_40 number =>
    obtain rfl := octet_of_number number
    cases row
    exact readFrom_row rfl (fields_valueWord _ h) rfl
  -- $B4: the processor functions
  case h_37 number =>
    obtain rfl := octet_of_number number
    exact decodeProcessorFunction_readFrom row
  -- $B5: LSG and SSG
  case h_38 number =>
    obtain rfl := octet_of_number number
    have word := fields_segmentWord h
    split at row
    case isTrue store =>
      rw [store] at word
      cases row
      exact readFrom_row rfl word rfl
    case isFalse load =>
      rw [Bool.eq_false_of_not_eq_true load] at word
      cases row
      exact readFrom_row rfl word rfl
  -- $B8 and $B9: the jumps
  case h_41 number =>
    obtain rfl := octet_of_number number
    cases row
    exact jump_readFrom (row := fun far m => if far then .jmpF m else .jmp m)
      (by rintro ⟨⟩ m <;> rfl) (by rintro ⟨⟩ m <;> rfl) (by rintro ⟨⟩ m <;> rfl)
  case h_42 number =>
    obtain rfl := octet_of_number number
    cases row
    exact jump_readFrom (row := fun far m => if far then .jsrF m else .jsr m)
      (by rintro ⟨⟩ m <;> rfl) (by rintro ⟨⟩ m <;> rfl) (by rintro ⟨⟩ m <;> rfl)
  -- $BA: the hardware queries
  case h_43 number =>
    obtain rfl := octet_of_number number
    exact decodeHwq_readFrom row
  -- $BC to $FF: undefined
  case h_45 =>
    simp only [imp_false] at *
    have number : (octetWord l h).toNat % 256 = l.toNat := by rw [← lowOctet_toNat, lowOctet_octetWord]
    have bit := bit_eq_true_iff (octetWord l h) 6
    split at row
    case isTrue set =>
      cases row
      refine readFrom_row ?_ rfl rfl
      rw [Instr.wf, decide_eq_true_eq, BitVec.extractLsb'_toNat, Nat.shiftRight_eq_div_pow]
      have := bit.mp set
      omega
    case isFalse clear =>
      cases row
      refine readFrom_row ?_ rfl rfl
      rw [Instr.wf, decide_eq_true_eq, BitVec.extractLsb'_toNat, Nat.shiftRight_eq_div_pow]
      have := mt bit.mpr clear
      omega
  -- every other low octet is one row, whose high octet is one field
  all_goals
    rename_i number
    obtain rfl := octet_of_number number
    cases row
    exact readFrom_row rfl rfl rfl


/-- A low octet of no ALU row (30_encoding.md R133). -/
theorem decodeWords_other {l : BitVec 8} (h : BitVec 8) (i1 i2 i3 : Word) (low : 0x90 ≤ l.toNat) :
    decodeWords (octetWord l h) i1 i2 i3 = decodeOther (octetWord l h) i1 i2 i3 := by
  have number : 18 ≤ (l.extractLsb' 3 5).toNat := by
    rw [BitVec.extractLsb'_toNat, Nat.shiftRight_eq_div_pow]
    have := l.isLt
    omega
  have none : ∀ d m, decodeAlu (l.extractLsb' 3 5) d m = none := by
    intro d m
    generalize l.extractLsb' 3 5 = op at number
    unfold decodeAlu
    split
    case h_19 => rfl
    all_goals omega
  rw [decodeWords, octetWord_low_field h l (by decide), none]

/-- A low octet below $90 is an ALU row. -/
theorem decodeAlu_isSome {op : BitVec 5} (row : op.toNat < 18) (d : Reg) (m : Operand) : ∃ i, decodeAlu op d m = some i := by
  unfold decodeAlu
  split
  case h_19 => exfalso; simp only [imp_false] at *; omega
  all_goals exact ⟨_, rfl⟩

theorem decodeWords_alu {l : BitVec 8} (h : BitVec 8) (i1 i2 i3 : Word) (low : l.toNat < 0x90) :
    ∃ i, decodeWords (octetWord l h) i1 i2 i3 = .ok i ∧
      decodeAlu ((octetWord l h).extractLsb' 3 5) (regField (octetWord l h) 0) (decodeOperand (octetWord l h) i1) = some i := by
  have number : ((octetWord l h).extractLsb' 3 5).toNat < 18 := by
    rw [octetWord_low_field h l (by decide), BitVec.extractLsb'_toNat, Nat.shiftRight_eq_div_pow]
    omega
  obtain ⟨i, row⟩ := decodeAlu_isSome number (regField (octetWord l h) 0) (decodeOperand (octetWord l h) i1)
  exact ⟨i, by rw [decodeWords, row], row⟩

theorem decodeWords_readFrom (read : decodeWords w i1 i2 i3 = .ok i) : ReadFrom w i1 i2 i3 i := by
  obtain ⟨l, h, rfl⟩ : ∃ l h, w = octetWord l h := ⟨_, _, word_octets w⟩
  rcases Nat.lt_or_ge l.toNat 0x90 with low | low
  · obtain ⟨j, decoded, row⟩ := decodeWords_alu h i1 i2 i3 low
    rw [decoded] at read
    cases read
    exact decodeAlu_readFrom row
  · exact decodeOther_readFrom low ((decodeWords_other h i1 i2 i3 low).symm.trans read)

end

/-- As many immediate words follow the opcode word of a well-formed instruction as it has (30_encoding.md R131). -/
theorem immediateCount_opcode {i : Instr} (wf : i.wf = true) : immediateCount (opcode i) = (immediates i).length := by
  have length := instrLength_opcode i wf
  rw [instrLength, lengthOf, encode, List.length_cons] at length
  omega

/-- Settles O2: every row is read from its own words, and takes as many of them as its opcode word says. -/
theorem encodeOfDecode : Obligations.EncodeOfDecode := by
  intro w i1 i2 i3 i read
  obtain ⟨wf, rfl, words⟩ := decodeWords_readFrom read
  refine ⟨wf, ?_⟩
  rw [encode, immediateCount_opcode wf, ← words]

/-! ### From instructions to words -/

/-- The opcode word of the instruction, with its own immediate words and any words after them, decodes to it. -/
def ReadBack (i : Instr) : Prop :=
  ∀ ws : List Word, decodeWords (opcode i) ((immediates i ++ ws).getD 0 0) ((immediates i ++ ws).getD 1 0)
    ((immediates i ++ ws).getD 2 0) = .ok i

theorem readBack_alu {i : Instr} {op : BitVec 5} {d : Reg} {m : Operand} (row : decodeAlu op d m = some i) : ReadBack i := by
  intro ws
  obtain ⟨-, word, words⟩ := decodeAlu_some row
  obtain ⟨opField, dField⟩ := aluWord_fields op d m
  have operand : decodeOperand (aluWord op d m) ((m.immediates ++ ws).getD 0 0) = m := by
    rw [aluWord_eq, decodeOperand_octetWord, decodeOperand_high, withImmediate_withImmediate, withImmediate_own]
  rw [word, words, decodeWords, opField, dField, operand, row]

/-- A jump word, with the operand's own words, is read as the jump of that operand, near or far. -/
theorem jump_fields (far : Bool) (m : JumpOperand) (fits : fitsRow far m = true) (l : BitVec 8) (ws : List Word) :
    isFarJump (octetWord l (m.high far)) = far ∧
      decodeJumpOperand (octetWord l (m.high far)) ((m.immediates far ++ ws).getD 0 0) ((m.immediates far ++ ws).getD 1 0)
        ((m.immediates far ++ ws).getD 2 0) = m := by
  have twice : ∀ t g, withTarget t g (withTarget 0 0 m) = withTarget t g m := fun t g => by cases m <;> rfl
  obtain ⟨mode, isFar⟩ := decodeJumpOperand_high far m fits
  refine ⟨by rw [isFarJump_octetWord, isFar], ?_⟩
  rw [decodeJumpOperand_octetWord, mode, twice, withTarget_own far m fits]

/-- A row from $90 on whose words are read back by the table of the low octets. -/
theorem readBack_other {i : Instr} {l h : BitVec 8} (low : 0x90 ≤ l.toNat) (word : opcode i = octetWord l h)
    (row : ∀ ws : List Word, decodeOther (octetWord l h) ((immediates i ++ ws).getD 0 0) ((immediates i ++ ws).getD 1 0)
      ((immediates i ++ ws).getD 2 0) = .ok i) : ReadBack i := by
  intro ws
  rw [word, decodeWords_other h _ _ _ low, row]

/-- A row whose high octet is one field. -/
theorem readBack_octet {i : Instr} {l h : BitVec 8} (low : 0x90 ≤ l.toNat) (word : opcode i = octetWord l h)
    (row : ∀ w i1 i2 i3, lowOctet w = l → highOctet w = h → decodeOther w i1 i2 i3 = .ok i) : ReadBack i :=
  readBack_other low word fun _ => row _ _ _ _ (lowOctet_octetWord h l) (highOctet_octetWord h l)

/-- A row with a register and a count. -/
theorem readBack_count {i : Instr} {l : BitVec 8} {d : Reg} {n : CountOperand} (low : 0x90 ≤ l.toNat)
    (word : opcode i = countWord l d n)
    (row : ∀ w i1 i2 i3, lowOctet w = l → regField w 13 = d → decodeCount w = n → decodeOther w i1 i2 i3 = .ok i) :
    ReadBack i := by
  obtain ⟨dField, nField⟩ := countWord_fields d n l
  refine readBack_other low (word.trans (countWord_eq l d n)) fun _ => row _ _ _ _ (lowOctet_octetWord _ l) ?_ ?_
  · rw [← countWord_eq, dField]
  · rw [← countWord_eq, nField]

/-- A row with a register and a value. -/
theorem readBack_value {i : Instr} {l : BitVec 8} {d : Reg} {v : BitVec 5} (low : 0x90 ≤ l.toNat)
    (word : opcode i = valueWord l d v)
    (row : ∀ w i1 i2 i3, lowOctet w = l → regField w 13 = d → w.extractLsb' 8 5 = v → decodeOther w i1 i2 i3 = .ok i) :
    ReadBack i := by
  obtain ⟨dField, vField⟩ := valueWord_fields d v l
  refine readBack_other low (word.trans (valueWord_eq l d v)) fun _ => row _ _ _ _ (lowOctet_octetWord _ l) ?_ ?_
  · rw [← valueWord_eq, dField]
  · rw [← valueWord_eq, vField]

theorem readBack_segment (store u : Bool) (x r : BitVec 3) : ReadBack (if store then .ssg u x r else .lsg u x r) := by
  obtain ⟨storeField, uField, xField, rField⟩ := segmentWord_fields store u x r
  have low : lowOctet (segmentWord store u x r) = 0xB5 := lowOctet_octetWord _ _
  have word : opcode (if store then .ssg u x r else .lsg u x r) = segmentWord store u x r := by cases store <;> rfl
  refine readBack_other (by decide) (word.trans (segmentWord_eq store u x r)) fun ws => ?_
  rw [← segmentWord_eq]
  simp only [decodeOther, low, storeField, uField, xField, rField, BitVec.reduceToNat]
  cases store <;> rfl

/-- A word of the undefined low octets $BC to $FF is read as itself (30_encoding.md R155). -/
theorem readBack_undefined {i : Instr} {w : Word} (low : 0xBC ≤ w.toNat % 256)
    (row : (if w.getLsbD 6 then .undefinedC0toFF w else .undefinedBCtoBF w) = i) (word : opcode i = w) : ReadBack i := by
  rw [← lowOctet_toNat] at low
  refine readBack_other (by omega) (word.trans (word_octets w)) fun ws => ?_
  rw [← word_octets, decodeOther]
  split
  case h_45 => rw [← row]; split <;> rfl
  all_goals omega

/-- Every well-formed instruction is read back from its own words. -/
theorem readBack (i : Instr) (wf : i.wf = true) : ReadBack i := by
  cases i with
  | cmp d m => exact readBack_alu (op := 0) rfl
  | neg d m => exact readBack_alu (op := 1) rfl
  | add d m => exact readBack_alu (op := 2) rfl
  | sub d m => exact readBack_alu (op := 3) rfl
  | adc d m => exact readBack_alu (op := 4) rfl
  | sbc d m => exact readBack_alu (op := 5) rfl
  | mul d m => exact readBack_alu (op := 6) rfl
  | div d m => exact readBack_alu (op := 7) rfl
  | mli d m => exact readBack_alu (op := 8) rfl
  | dvi d m => exact readBack_alu (op := 9) rfl
  | mod d m => exact readBack_alu (op := 10) rfl
  | mdi d m => exact readBack_alu (op := 11) rfl
  | and d m => exact readBack_alu (op := 12) rfl
  | orr d m => exact readBack_alu (op := 13) rfl
  | eor d m => exact readBack_alu (op := 14) rfl
  | not d m => exact readBack_alu (op := 15) rfl
  | lod d m => exact readBack_alu (op := 16) rfl
  | sto d m => exact readBack_alu (op := 17) rfl
  | bcc h | bcs h | bne h | beq h | bpl h | bmi h | bvc h | bvs h | bug h | bsg h | baw h
  | undefined9A h | undefined9B h | undefined9C h | undefined9D h | undefined9E h
  | sef h | clf h | pshGeneral h | pshControl h | popGeneral h | popControl h | stx h =>
    refine readBack_octet (by decide) rfl fun w i1 i2 i3 low high => ?_
    simp only [decodeOther, low, high, BitVec.reduceToNat]
  | asl d n | lsl d n | rol d n | rnl d n | asr d n | lsr d n | ror d n | rnr d n | btt d n | btx d n | btc d n | bts d n =>
    refine readBack_count (by decide) rfl fun w i1 i2 i3 low register count => ?_
    simp only [decodeOther, low, register, count, BitVec.reduceToNat]
  | adi d v | sbi d v =>
    refine readBack_value (by decide) rfl fun w i1 i2 i3 low register value => ?_
    simp only [decodeOther, low, register, value, BitVec.reduceToNat]
  | set a d v =>
    cases a with
    | false =>
      refine readBack_value (l := 0xAC) (by decide) rfl fun w i1 i2 i3 low register value => ?_
      simp only [decodeOther, low, register, value, BitVec.reduceToNat]
    | true =>
      refine readBack_value (l := 0xAD) (by decide) rfl fun w i1 i2 i3 low register value => ?_
      simp only [decodeOther, low, register, value, BitVec.reduceToNat]
  | rts | rtsF | rti | swi | slp =>
    refine readBack_octet (l := 0xB4) (by decide) (word_octets _) fun w i1 i2 i3 low high => ?_
    simp only [decodeOther, low, high, BitVec.reduceToNat]
    rfl
  | hwq00 | hwq01 | hwq02 | hwq03 | hwq80 | hwq82 | hwq83 =>
    refine readBack_octet (l := 0xBA) (by decide) (word_octets _) fun w i1 i2 i3 low high => ?_
    simp only [decodeOther, low, high, BitVec.reduceToNat]
    rfl
  | lsg u x r => exact readBack_segment false u x r
  | ssg u x r => exact readBack_segment true u x r
  | jmp m =>
    refine readBack_other (l := 0xB8) (by decide) rfl fun ws => ?_
    obtain ⟨isFar, operand⟩ := jump_fields false m wf 0xB8 ws
    simp only [decodeOther, lowOctet_octetWord, BitVec.reduceToNat, immediates, isFar, operand, Bool.false_eq_true, if_false]
  | jmpF m =>
    refine readBack_other (l := 0xB8) (by decide) rfl fun ws => ?_
    obtain ⟨isFar, operand⟩ := jump_fields true m wf 0xB8 ws
    simp only [decodeOther, lowOctet_octetWord, BitVec.reduceToNat, immediates, isFar, operand, if_true]
  | jsr m =>
    refine readBack_other (l := 0xB9) (by decide) rfl fun ws => ?_
    obtain ⟨isFar, operand⟩ := jump_fields false m wf 0xB9 ws
    simp only [decodeOther, lowOctet_octetWord, BitVec.reduceToNat, immediates, isFar, operand, Bool.false_eq_true, if_false]
  | jsrF m =>
    refine readBack_other (l := 0xB9) (by decide) rfl fun ws => ?_
    obtain ⟨isFar, operand⟩ := jump_fields true m wf 0xB9 ws
    simp only [decodeOther, lowOctet_octetWord, BitVec.reduceToNat, immediates, isFar, operand, if_true]
  | undefinedBCtoBF w =>
    have row : (w.extractLsb' 2 6).toNat = 0x2F := by simpa [Instr.wf] using wf
    rw [BitVec.extractLsb'_toNat, Nat.shiftRight_eq_div_pow] at row
    have bit := bit_eq_true_iff w 6
    refine readBack_undefined (show 0xBC ≤ w.toNat % 256 by omega) (if_neg fun set => ?_) rfl
    have := bit.mp set
    omega
  | undefinedC0toFF w =>
    have row : (w.extractLsb' 6 2).toNat = 3 := by simpa [Instr.wf] using wf
    rw [BitVec.extractLsb'_toNat, Nat.shiftRight_eq_div_pow] at row
    exact readBack_undefined (show 0xBC ≤ w.toNat % 256 by omega) (if_pos ((bit_eq_true_iff w 6).mpr (by omega))) rfl

/-! ### Bytes and words -/

theorem wordsOfBytes_bytesOfWords : ∀ (ws : List Word) (rest : List Byte),
    wordsOfBytes (bytesOfWords ws ++ rest) = ws ++ wordsOfBytes rest
  | [], _ => rfl
  | w :: ws, rest => by
    show wordOfBytes (lowByte w) (highByte w) :: wordsOfBytes (bytesOfWords ws ++ rest) = _
    rw [Machine.wordOfBytes_bytes, wordsOfBytes_bytesOfWords ws rest]
    rfl

theorem length_bytesOfWords : ∀ ws : List Word, (bytesOfWords ws).length = 2 * ws.length
  | [] => rfl
  | w :: ws => by
    show (bytesOfWords ws).length + 1 + 1 = 2 * (ws.length + 1)
    rw [length_bytesOfWords ws]
    omega

/-- Settles O1: the words at the front of the bytes are the instruction's own, and every row is read back from its own words. -/
theorem decodeOfEncode : Obligations.DecodeOfEncode := by
  intro i rest wf
  have words : wordsOfBytes (encodeBytes i ++ rest) = opcode i :: (immediates i ++ wordsOfBytes rest) :=
    wordsOfBytes_bytesOfWords (encode i) rest
  have enough : ¬ (immediates i ++ wordsOfBytes rest).length < immediateCount (opcode i) := by
    rw [immediateCount_opcode wf, List.length_append]
    omega
  have left : (encodeBytes i ++ rest).drop (instrLength (opcode i)) = rest := by
    rw [instrLength_opcode i wf, lengthOf, ← length_bytesOfWords]
    exact List.drop_left
  simp only [decodeBytes, words, enough, if_false, readBack i wf (wordsOfBytes rest), left]

/-! ### Words no instruction stands for -/

theorem decodeProcessorFunction_error (h : BitVec 8) (r : Reject) :
    decodeProcessorFunction h = .error r ↔ r = .undefinedProcessorFunction ∧ 5 ≤ h.toNat := by
  unfold decodeProcessorFunction
  split
  case h_6 =>
    simp only [imp_false] at *
    have : 5 ≤ h.toNat := by omega
    simp [this, eq_comm]
  all_goals
    rename_i number
    simp [number]

theorem decodeHwq_error (h : BitVec 8) (r : Reject) :
    decodeHwq h = .error r ↔ r = .undefinedHwqIndex ∧ h.toNat ∉ [0x00, 0x01, 0x02, 0x03, 0x80, 0x82, 0x83] := by
  unfold decodeHwq
  split
  case h_8 => simp_all [eq_comm]
  all_goals
    rename_i number
    simp [number]

/-- The low octets from $90 on reject words in the two rows of indexed functions alone. -/
theorem decodeOther_error (l h : BitVec 8) (i1 i2 i3 : Word) (r : Reject) :
    decodeOther (octetWord l h) i1 i2 i3 = .error r ↔
      (l.toNat = 0xB4 ∧ decodeProcessorFunction h = .error r) ∨ (l.toNat = 0xBA ∧ decodeHwq h = .error r) := by
  unfold decodeOther
  simp only [lowOctet_octetWord, highOctet_octetWord]
  split
  case h_38 number => split <;> simp [number]
  case h_45 => split <;> simp_all
  all_goals
    rename_i number
    simp [number]

theorem decodeWords_error (w i1 i2 i3 : Word) (r : Reject) :
    decodeWords w i1 i2 i3 = .error r ↔
      (w.toNat % 256 = 0xB4 ∧ r = .undefinedProcessorFunction ∧ 5 ≤ w.toNat / 256) ∨
      (w.toNat % 256 = 0xBA ∧ r = .undefinedHwqIndex ∧ w.toNat / 256 ∉ [0x00, 0x01, 0x02, 0x03, 0x80, 0x82, 0x83]) := by
  have high : (highOctet w).toNat = w.toNat / 256 := by
    rw [highOctet, BitVec.extractLsb'_toNat, Nat.shiftRight_eq_div_pow]
    have := w.isLt
    omega
  rw [← lowOctet_toNat, ← high, ← decodeProcessorFunction_error, ← decodeHwq_error, ← decodeOther_error _ _ i1 i2 i3]
  rcases Nat.lt_or_ge (lowOctet w).toNat 0x90 with low | low
  · obtain ⟨i, decoded, -⟩ := decodeWords_alu (highOctet w) i1 i2 i3 low
    have notOther : decodeOther (octetWord (lowOctet w) (highOctet w)) i1 i2 i3 ≠ .error r := by
      rw [Ne, decodeOther_error]
      omega
    rw [← word_octets] at decoded notOther ⊢
    simp [decoded, notOther]
  · rw [← decodeWords_other _ _ _ _ low, ← word_octets]

/-- Settles O3: the two kinds of rejected words are those of the two rows of indexed functions, and no other row rejects a word. -/
theorem rejectedWords : Obligations.RejectedWords := by
  intro w i1 i2 i3
  simp [decodeWords_error]

/-! ### Words the spec writes out -/

/-- Settles O5: each word is decoded. -/
theorem specWordsDecode : Obligations.SpecWordsDecode := by
  refine ⟨?_, ?_, ?_, ?_, ?_, ?_, ?_, ?_, ?_, ?_, ?_⟩ <;> decide

end Sys2Proof.Laws.Encoding
end

section
/-! PROOFS. The confinement of user mode (60_exceptions.md R361 to R364, 20_memory.md R92, R98): what the parts of an instruction can change
when user mode runs them to their end, said once for each shared operation, and then for every instruction. -/

namespace Sys2Proof.Machine

/-! ### What user mode can change -/

/-- No offset of the user data, extra data and stack segments that may be written leads to the byte of RAM. -/
def UserUnmapped (s : State) (a : Nat) : Prop :=
  ∀ n ∈ [SegName.dsu, SegName.esu, SegName.ssu], ∀ off : Word,
    checkAccess (s.segs.get n) off true = none → translate (s.segs.get n) off ≠ .ram a

/-- The supervisor's state is as it was, but for A bits; and with the MMU on every byte of RAM that user segments do not map for writing is as
the devices' turns left it. -/
structure Confined (s t : State) : Prop where
  ps : t.ps = s.ps
  ssp : t.ssp = s.ssp
  rtc : t.rtc = s.rtc
  rom : t.rom = s.rom
  platform : t.platform = s.platform
  lines : t.lines = s.lines
  halted : t.halted = s.halted
  script : t.script = s.script
  segs : ∀ n, t.segs.get n = s.segs.get n ∨ t.segs.get n = withBit (s.segs.get n) 28 true
  wf : Memory.wf s.ram = true → Memory.wf t.ram = true
  ram : Memory.wf s.ram = true → s.mmuOn = true → ∀ a, UserUnmapped s a →
    ∃ n, t.deviceStores = s.deviceStores.drop n ∧ t.ramByte a = (State.afterCycles n s).ramByte a

/-- What runs in user mode from the one state to the other is confined. -/
def UserEffect (s t : State) : Prop := s.supervisor = false → Confined s t

theorem Confined.mmuOn {s t : State} (h : Confined s t) : t.mmuOn = s.mmuOn := by
  unfold State.mmuOn; rw [h.ps]

/-- A bits change neither the checks nor the translation, so what user segments map stays the same. -/
theorem Confined.unmapped {s t : State} (h : Confined s t) {a : Nat} (ha : UserUnmapped s a) : UserUnmapped t a := by
  intro n hn off
  rcases h.segs n with e | e
  · rw [e]; exact ha n hn off
  · rw [e, checkAccess_accessed, translate_accessed]; exact ha n hn off

theorem Confined.trans {s t u : State} (h : Confined s t) (g : Confined t u) : Confined s u where
  ps := g.ps.trans h.ps
  ssp := g.ssp.trans h.ssp
  rtc := g.rtc.trans h.rtc
  rom := g.rom.trans h.rom
  platform := g.platform.trans h.platform
  lines := g.lines.trans h.lines
  halted := g.halted.trans h.halted
  script := g.script.trans h.script
  segs n := by
    rcases h.segs n with h1 | h1 <;> rcases g.segs n with g1 | g1
    · exact .inl (g1.trans h1)
    · exact .inr (by rw [g1, h1])
    · exact .inr (g1.trans h1)
    · exact .inr (by rw [g1, h1, withBit_withBit])
  wf hw := g.wf (h.wf hw)
  ram hw hm a ha := by
    obtain ⟨m, storesT, byteT⟩ := h.ram hw hm a ha
    obtain ⟨n, storesU, byteU⟩ := g.ram (h.wf hw) (h.mmuOn.trans hm) a (h.unmapped ha)
    refine ⟨m + n, by rw [storesU, storesT, List.drop_drop], byteU.trans ?_⟩
    rw [State.afterCycles_add]
    refine State.afterCycles_ramByte_congr n (State.afterCycles_wf m s hw) (h.wf hw) ?_ ?_ byteT
    · rw [State.afterCycles_platform, h.platform]
    · rw [State.afterCycles_deviceStores, storesT]

theorem UserEffect.trans {s t u : State} (h : UserEffect s t) (g : UserEffect t u) : UserEffect s u := fun user =>
  (h user).trans (g (by unfold State.supervisor; rw [(h user).ps]; exact user))

/-- Writing registers, flags, PC and USP, and making draws, touches nothing that is confined. -/
theorem userEffect_of_registers {s t : State}
    (h : t = { s with regs := t.regs, fl := t.fl, pc := t.pc, usp := t.usp, draws := t.draws }) : UserEffect s t := by
  intro _
  generalize t.regs = regs at h
  generalize t.fl = fl at h
  generalize t.pc = pc at h
  generalize t.usp = usp at h
  generalize t.draws = draws at h
  subst h
  exact ⟨rfl, rfl, rfl, rfl, rfl, rfl, rfl, rfl, fun _ => .inl rfl, id, fun _ _ _ _ => ⟨0, rfl, rfl⟩⟩

theorem UserEffect.refl (s : State) : UserEffect s s := userEffect_of_registers rfl

/-- In user mode the stack pointer written is USP. -/
theorem setSp_userEffect (s : State) (v : Word) : UserEffect s (s.setSp v) := by
  intro user
  have h : s.setSp v = s.setUsp v := by rw [State.setSp, user]; rfl
  rw [h]
  exact userEffect_of_registers rfl user

/-- What an access changes is confined, where its bytes of RAM are. -/
theorem AccessEffect.userEffect {s t : State} (h : AccessEffect s t)
    (ram : s.supervisor = false → Memory.wf s.ram = true → s.mmuOn = true → ∀ a, UserUnmapped s a →
      ∃ n, t.deviceStores = s.deviceStores.drop n ∧ t.ramByte a = (State.afterCycles n s).ramByte a) : UserEffect s t :=
  fun user => ⟨h.ps, h.ssp user, h.rtc, h.rom, h.platform, h.lines, h.halted, h.script, h.segs, h.wf, ram user⟩

/-- Reads change RAM through devices only. -/
theorem ReadEffect.userEffect {n : Nat} {s t : State} (h : ReadEffect n s t) : UserEffect s t := by
  refine h.effect.userEffect fun _ _ _ a _ => ⟨n, h.deviceStores, ?_⟩
  unfold State.ramByte State.ramConnected
  rw [h.ram, h.effect.platform, State.afterCycles_platform]

/-- The segments user mode writes through, with the MMU on (20_memory.md R90 to R92). -/
theorem userSegment_mem {s : State} {k : SegKind} (data : k = .ds ∨ k = .es ∨ k = .ss) (user : s.supervisor = false)
    (mmu : s.mmuOn = true) : ∃ n ∈ [SegName.dsu, SegName.esu, SegName.ssu], s.segValue k = s.segs.get n := by
  rcases data with rfl | rfl | rfl
  · exact ⟨.dsu, by simp, by simp [State.segValue, State.segNameOf, user, mmu]⟩
  · exact ⟨.esu, by simp, by simp [State.segValue, State.segNameOf, user, mmu]⟩
  · exact ⟨.ssu, by simp, by simp [State.segValue, State.segNameOf, user, mmu]⟩

theorem writeByte_userEffect {k : SegKind} {p : Purpose} {off : Word} {b : Byte} {s t : State} (data : k = .ds ∨ k = .es ∨ k = .ss)
    (h : writeByte k p off b s = .done () t) : UserEffect s t := by
  refine (writeByte_effect h).userEffect fun user _ mmu a ha => ⟨1, ?_, ?_⟩
  · rw [writeByte_frame h]
  · obtain ⟨n, hn, value⟩ := userSegment_mem data user mmu
    rcases writeByte_cases k p off b s with ⟨v, -, refused⟩ | ⟨passed, -⟩
    · rw [h] at refused; cases refused
    · refine writeByte_ramByte h ?_
      rw [value] at passed ⊢
      exact ha n hn off passed

theorem writeWord_userEffect {k : SegKind} {p : Purpose} {off v : Word} {s t : State} (data : k = .ds ∨ k = .es ∨ k = .ss)
    (h : writeWord k p off v s = .done () t) : UserEffect s t := by
  refine (writeWord_effect h).userEffect fun user hw mmu a ha => ⟨wordCycles off, ?_, ?_⟩
  · rw [writeWord_frame h]
  · obtain ⟨n, hn, value⟩ := userSegment_mem data user mmu
    rcases writeWord_cases k p off v s with ⟨x, -, refused⟩ | ⟨passedLow, passedHigh, -⟩
    · rw [h] at refused; cases refused
    · rw [value] at passedLow passedHigh
      exact writeWord_ramByte hw h (value ▸ ha n hn off passedLow) (value ▸ ha n hn (off + 1) passedHigh)

/-! ### Parts of instructions -/

/-- Where the part is done, it was confined to what user mode can change. -/
def UserDone {α : Type} (s : State) (r : Res α) : Prop := ∀ a t, r = .done a t → UserEffect s t

theorem userDone_done {α : Type} {s t : State} {a : α} (h : UserEffect s t) : UserDone s (.done a t) := by
  rintro _ _ ⟨⟩; exact h

theorem userDone_trap {α : Type} {s t : State} {x : Trap} : UserDone s (.trap x t : Res α) := by
  rintro _ _ ⟨⟩

theorem UserDone.andThen {α β : Type} {s : State} {r : Res α} {k : α → State → Res β} (hr : UserDone s r)
    (hk : ∀ a t, UserDone t (k a t)) : UserDone s (r.andThen k) := by
  intro b u h
  obtain ⟨a, t, first, second⟩ := Res.andThen_done h
  exact (hr a t first).trans (hk a t b u second)

theorem readByte_userDone (k : SegKind) (p : Purpose) (off : Word) (s : State) : UserDone s (readByte k p off s) :=
  fun _ _ h => (readByte_done h).userEffect

theorem readWord_userDone (k : SegKind) (p : Purpose) (off : Word) (s : State) : UserDone s (readWord k p off s) :=
  fun _ _ h => (readWord_done h).userEffect

theorem readOperand_userDone (m : Operand) (s : State) : UserDone s (readOperand m s) := by
  intro x t h
  obtain ⟨n, -, effect⟩ := readOperand_done h
  exact effect.userEffect

theorem pushWord_userDone (p : Purpose) (v : Word) (s : State) : UserDone s (pushWord p v s) := by
  rintro ⟨⟩ t h
  rcases pushWord_cases p v s with ⟨x, raised⟩ | ⟨t', done, written, -⟩
  · rw [h] at raised; cases raised
  · rw [h] at done
    cases done
    exact (setSp_userEffect s _).trans (writeWord_userEffect (.inr (.inr rfl)) written)

theorem pushWords_userDone (p : Purpose) : ∀ (ws : List Word) (s : State), UserDone s (pushWords p ws s)
  | [], s => userDone_done (UserEffect.refl s)
  | v :: vs, s => (pushWord_userDone p v s).andThen fun _ t => pushWords_userDone p vs t

theorem popWord_userDone (p : Purpose) (s : State) : UserDone s (popWord p s) :=
  (readWord_userDone .ss p s.sp s).andThen fun _ t => userDone_done (setSp_userEffect t _)

theorem popRegisters_userDone : ∀ (rs : List Reg) (s : State), UserDone s (popRegisters rs s)
  | [], s => userDone_done (UserEffect.refl s)
  | r :: rs, s => (popWord_userDone .pshPop s).andThen fun v t b u h =>
      (userEffect_of_registers (t := t.setReg r v) rfl).trans (popRegisters_userDone rs (t.setReg r v) b u h)

theorem popInto_userDone {selected : Bool} {write : State → Word → State} (hw : ∀ t v, UserEffect t (write t v)) (s : State) :
    UserDone s (popInto selected write s) := by
  unfold popInto
  split
  · exact (popWord_userDone .pshPop s).andThen fun v t => userDone_done (hw t v)
  · exact userDone_done (UserEffect.refl s)

theorem writeResult_userDone (f : AluOp) (d : Reg) (x : OpValue) (s : State) : UserDone s (writeResult f d x s) := by
  cases x <;> exact userDone_done (userEffect_of_registers rfl)

theorem divideResult_userDone (f : AluOp) (d : Reg) (x : OpValue) (s : State) : UserDone s (divideResult f d x s) := by
  unfold divideResult
  split
  · exact userDone_trap
  · exact writeResult_userDone f d x s

theorem compareResult_userDone (d : Reg) (x : OpValue) (s : State) : UserDone s (compareResult d x s) := by
  cases x <;> exact userDone_done (userEffect_of_registers rfl)

theorem multiplyResult_userDone (signed : Bool) (d : Reg) (x : OpValue) (s : State) : UserDone s (multiplyResult signed d x s) := by
  cases x with
  | word v => exact userDone_done (userEffect_of_registers rfl)
  | byte b =>
    unfold multiplyResult
    by_cases h : d = 0
    · simp only [h, if_true]
      exact userDone_done (userEffect_of_registers rfl)
    · simp only [h, if_false]
      exact userDone_done (userEffect_of_registers rfl)

theorem writeControl_userDone (p : BitVec 3) (v next : Word) (s : State) : UserDone s (writeControl p v next s) := by
  unfold writeControl
  split
  case h_3 =>
    split
    case isTrue supervisor =>
      intro _ _ _ user
      rw [supervisor] at user
      cases user
    case isFalse => exact userDone_trap
  case h_5 => exact userDone_done ((setSp_userEffect s v).trans (userEffect_of_registers rfl))
  case h_6 => exact userDone_trap
  all_goals exact userDone_done (userEffect_of_registers rfl)

theorem dataSegment_data (es : Bool) : dataSegment es = .ds ∨ dataSegment es = .es ∨ dataSegment es = .ss := by
  cases es
  · exact .inl rfl
  · exact .inr (.inl rfl)

theorem operandAddress_data {m : Operand} {s : State} {k : SegKind} {a : Word} {e : Bool} (h : operandAddress m s = some (k, a, e)) :
    k = .ds ∨ k = .es ∨ k = .ss := by
  cases m <;> cases h <;> exact dataSegment_data _

theorem storeOperand_userDone (m : Operand) (v : Word) (s : State) : UserDone s (storeOperand m v s) := by
  have memory : ∀ k a e, operandAddress m s = some (k, a, e) →
      UserDone s ((if e then writeByte k .other a (lowByte v) s else writeWord k .other a v s).andThen fun _ s1 =>
        .done () (s1.setPc (s.pc + operandLength m))) := by
    intro k a e address
    have data := operandAddress_data address
    refine UserDone.andThen (fun ⟨⟩ t done => ?_) fun _ t => userDone_done (userEffect_of_registers rfl)
    cases e
    · exact writeWord_userEffect data done
    · exact writeByte_userEffect data done
  cases m with
  | immediate | register | undefinedMode => exact userDone_trap
  | control _ p => exact writeControl_userDone p v _ s
  | absolute | indirect | indirectOffset | indirectIndexed => exact memory _ _ _ rfl

theorem nearTarget_userDone (m : JumpOperand) (s : State) : UserDone s (nearTarget m s) := by
  cases m with
  | immediate | register => exact userDone_done (UserEffect.refl s)
  | undefinedMode => exact userDone_trap
  | absolute | indirect | indirectOffset | indirectIndexed => exact readWord_userDone _ _ _ s

/-- What only supervisor mode may run has no effect in user mode. -/
theorem userDone_of_supervisor {α : Type} {s : State} {r : Res α} (h : s.supervisor = false → ∃ x t, r = .trap x t) :
    UserDone s r := by
  intro a t done user
  obtain ⟨x, u, trap⟩ := h user
  rw [done] at trap
  cases trap

theorem supervisorOnly_userDone (s : State) (r : Res Unit) : UserDone s (supervisorOnly s r) :=
  userDone_of_supervisor fun user => ⟨.unprivileged, s, by rw [supervisorOnly, user]; rfl⟩

/-- Every far jump raises in user mode, before it reads its operand (45_jump_call.md R280). -/
theorem farTarget_user (m : JumpOperand) {s : State} (user : s.supervisor = false) : ∃ x, farTarget m s = .trap x s := by
  cases m with
  | register | undefinedMode => exact ⟨.undefined, rfl⟩
  | immediate | absolute | indirect | indirectOffset | indirectIndexed => exact ⟨.unprivileged, by simp [farTarget, user]⟩

theorem farTarget_userDone (m : JumpOperand) (k : Word × SegReg → State → Res Unit) (s : State) :
    UserDone s ((farTarget m s).andThen k) :=
  userDone_of_supervisor fun user => by
    obtain ⟨x, trap⟩ := farTarget_user m user
    exact ⟨x, s, by rw [trap]; rfl⟩

/-! ### Instructions -/

/-- The next state, where it is one of user mode, was reached by what user mode may do: an interrupt would have left user mode. -/
def UserNext (s : State) (o : Host.Outcome State Fault Refusal) : Prop :=
  ∀ t, o = .next t → t.supervisor = false → UserEffect s t

theorem userNext_perform {s : State} {w pc : Word} {r : Res Unit} (h : UserDone s r) : UserNext s (perform w pc r) := by
  intro t next user
  cases r with
  | done => cases next; exact h () _ rfl
  | trap =>
    cases next
    rw [(takeInterrupt_effect _ _ _).supervisor] at user
    cases user

theorem userNext_next {s t : State} (h : UserEffect s t) : UserNext s (.next t) := by
  rintro _ ⟨⟩ _; exact h

theorem userNext_aluRun {w : Word} {m : Operand} {s : State} {k : OpValue → State → Res Unit} (hk : ∀ x t, UserDone t (k x t)) :
    UserNext s (aluRun w m s k) :=
  userNext_perform ((readOperand_userDone m s).andThen fun x t =>
    (hk x t).andThen fun _ _ => userDone_done (userEffect_of_registers rfl))

theorem popControl_userNext (mask : BitVec 8) (s : State) : UserNext s (execPopControl mask s) := by
  cases user : s.supervisor with
  | true => intro t _ _ user'; rw [user] at user'; cases user'
  | false =>
    have setPs : (mask.getLsbD 2 && s.supervisor) = false := by rw [user, Bool.and_false]
    refine userNext_perform ?_
    rw [setPs]
    refine (popInto_userDone (fun _ _ => userEffect_of_registers rfl) s).andThen fun _ s1 => ?_
    refine UserDone.andThen ?pc fun newPc s2 => ?_
    case pc =>
      split
      · exact popWord_userDone _ s1
      · exact userDone_done (UserEffect.refl s1)
    refine (userDone_done (UserEffect.refl s2)).andThen fun _ s3 => ?_
    refine (popInto_userDone (fun _ _ => userEffect_of_registers rfl) s3).andThen fun _ s4 => ?_
    refine (popInto_userDone setSp_userEffect s4).andThen fun _ s5 => ?_
    split
    · exact userDone_trap
    · exact userDone_done (userEffect_of_registers rfl)

theorem exec_userNext (i : Instr) (s : State) : UserNext s (exec i s) := by
  cases i with
  | cmp d m => exact userNext_aluRun (compareResult_userDone d)
  | neg d m | add d m | sub d m | adc d m | sbc d m | and d m | orr d m | eor d m | not d m | lod d m =>
    exact userNext_aluRun (writeResult_userDone _ d)
  | mul d m | mli d m => exact userNext_aluRun (multiplyResult_userDone _ d)
  | div d m | dvi d m | mod d m | mdi d m => exact userNext_aluRun (divideResult_userDone _ d)
  | sto d m => exact userNext_perform (storeOperand_userDone m _ s)
  | bcc | bcs | bne | beq | bpl | bmi | bvc | bvs | bug | bsg | baw | asl | lsl | rol | rnl | asr | lsr | ror | rnr
  | btt | btx | btc | bts | set | sef | clf | adi | sbi => exact userNext_next (userEffect_of_registers rfl)
  | undefined9A | undefined9B | undefined9C | undefined9D | undefined9E | undefinedBCtoBF | undefinedC0toFF =>
    exact userNext_perform userDone_trap
  | pshGeneral mask =>
    exact userNext_perform ((pushWords_userDone _ _ s).andThen fun _ t => userDone_done (userEffect_of_registers rfl))
  | pshControl mask =>
    refine userNext_perform ((pushWords_userDone _ _ s).andThen fun _ t => ?_)
    split
    · exact userDone_trap
    · exact userDone_done (userEffect_of_registers rfl)
  | popGeneral mask =>
    exact userNext_perform ((popRegisters_userDone _ s).andThen fun _ t => userDone_done (userEffect_of_registers rfl))
  | popControl mask => exact popControl_userNext mask s
  | rts => exact userNext_perform ((popWord_userDone _ s).andThen fun _ t => userDone_done (userEffect_of_registers rfl))
  | swi =>
    intro t next user
    cases next
    rw [(takeInterrupt_effect _ _ _).supervisor] at user
    cases user
  | rtsF | rti | slp | lsg | ssg | hwq00 | hwq01 | hwq02 | hwq03 | hwq80 | hwq82 | hwq83 =>
    exact userNext_perform (supervisorOnly_userDone s _)
  | stx n => exact userNext_perform (supervisorOnly_userDone s _)
  | jmp m => exact userNext_perform ((nearTarget_userDone m s).andThen fun _ t => userDone_done (userEffect_of_registers rfl))
  | jsr m =>
    exact userNext_perform ((nearTarget_userDone m s).andThen fun _ t =>
      (pushWord_userDone _ _ t).andThen fun _ _ => userDone_done (userEffect_of_registers rfl))
  | jmpF m | jsrF m => exact userNext_perform (farTarget_userDone m _ s)

/-- Settles O12: what user mode may do leaves each of these fields, and of the segment registers all but the A bit. -/
theorem userModeIsConfined : Obligations.UserModeIsConfined := by
  intro i s t user next userAfter
  have confined := exec_userNext i s t next userAfter user
  refine ⟨confined.ps, confined.ssp, confined.rtc, confined.rom, confined.platform, confined.lines, confined.halted,
    confined.script, fun n => ?_⟩
  have accessed : withBit (s.segs.get n) 28 true = s.segs.get n ||| 0x10000000 := rfl
  rcases confined.segs n with same | marked
  · rw [same]
  · rw [marked, accessed, BitVec.or_assoc, BitVec.or_self]

/-- Settles O13: the bytes that user segments do not map for writing are part of what user mode leaves to the devices. -/
theorem userModeStoresStayInUserSegments : Obligations.UserModeStoresStayInUserSegments :=
  fun i s t a wf user mmu unmapped next userAfter => (exec_userNext i s t next userAfter user).ram wf mmu a unmapped

end Sys2Proof.Machine
end

section
/-! PROOFS. The invariant of well-formed states: every shared operation keeps it, whether it is done or raises, so every instruction and every
step does. -/

namespace Sys2Proof.Machine

/-! ### The parts of the invariant -/

/-- RAM as the invariant wants it: in canonical form, with entries at connected addresses only. -/
def State.ramWf (s : State) : Prop := Memory.wf s.ram = true ∧ ∀ c ∈ s.ram, s.ramConnected c.1 = true

theorem State.wf_iff (s : State) :
    s.wf = true ↔ s.ramWf ∧ Memory.wf s.rom = true ∧ s.fl &&& 0x0FFF = 0 ∧ s.ps &&& 0x00FF = 0 ∧
      s.rtc.rate.toNat ≤ s.platform.cpuHz / 1024 := by
  simp only [State.wf, State.ramWf, Bool.and_eq_true, List.all_eq_true, beq_iff_eq, decide_eq_true_eq]
  tauto

/-- Bits that the invariant does not speak of may change. -/
theorem State.wf_of_kept {s t : State} (hs : s.wf = true)
    (kept : t = { s with
      regs := t.regs, pc := t.pc, ssp := t.ssp, usp := t.usp, segs := t.segs, halted := t.halted, lines := t.lines
      script := t.script, deviceStores := t.deviceStores, calls := t.calls, draws := t.draws }) : t.wf = true := by
  rw [kept]; exact hs

theorem State.wf_withRam {s t : State} (hs : s.wf = true) (kept : t = { s with ram := t.ram, deviceStores := t.deviceStores })
    (ram : s.ramWf → t.ramWf) : t.wf = true := by
  rw [State.wf_iff] at hs ⊢
  obtain ⟨hram, hrest⟩ := hs
  refine ⟨ram hram, ?_⟩
  rw [kept]
  exact hrest

theorem State.wf_withFl {s : State} (hs : s.wf = true) {fl : Word} (h : fl &&& 0x0FFF = 0) : ({ s with fl := fl } : State).wf = true := by
  rw [State.wf_iff] at hs ⊢
  obtain ⟨hram, hrom, -, hps, hrate⟩ := hs
  exact ⟨hram, hrom, h, hps, hrate⟩

theorem State.wf_withPs {s : State} (hs : s.wf = true) {ps : Word} (h : ps &&& 0x00FF = 0) : ({ s with ps := ps } : State).wf = true := by
  rw [State.wf_iff] at hs ⊢
  obtain ⟨hram, hrom, hfl, -, hrate⟩ := hs
  exact ⟨hram, hrom, hfl, h, hrate⟩

theorem State.wf_withRate {s : State} (hs : s.wf = true) {rate : Word} (h : rate.toNat ≤ s.platform.cpuHz / 1024) :
    ({ s with rtc := { s.rtc with rate := rate } } : State).wf = true := by
  rw [State.wf_iff] at hs ⊢
  obtain ⟨hram, hrom, hfl, hps, -⟩ := hs
  exact ⟨hram, hrom, hfl, hps, h⟩

/-! ### RAM -/

theorem State.storeRam_ramWf {s : State} (a : Nat) (b : Byte) (h : s.ramWf) : (s.storeRam a b).ramWf := by
  refine ⟨State.storeRam_wf s a b h.1, fun c hc => ?_⟩
  rw [State.storeRam_ramConnected]
  unfold State.storeRam at hc
  split at hc
  case isTrue connected =>
    rcases Memory.mem_write hc with old | new
    · exact h.2 c old
    · rw [new]; exact connected
  case isFalse => exact h.2 c hc

theorem State.storeRam_keepsWf {s : State} (a : Nat) (b : Byte) (hs : s.wf = true) : (s.storeRam a b).wf = true := by
  have eq := State.storeRam_eq s a b
  refine State.wf_withRam hs ?_ (State.storeRam_ramWf a b)
  rw [eq]

theorem State.storeAll_keepsWf : ∀ (cs : List Host.Cell) {s : State}, s.wf = true → (s.storeAll cs).wf = true
  | [], _, h => h
  | (a, b) :: cs, _, h => State.storeAll_keepsWf cs (State.storeRam_keepsWf a b h)

theorem State.deviceTurn_keepsWf {s : State} (hs : s.wf = true) : s.deviceTurn.wf = true := by
  unfold State.deviceTurn
  split
  · exact hs
  · exact State.storeAll_keepsWf _ (State.wf_of_kept hs rfl)

theorem State.afterCycles_keepsWf : ∀ (n : Nat) {s : State}, s.wf = true → (State.afterCycles n s).wf = true
  | 0, _, h => h
  | n + 1, _, h => State.afterCycles_keepsWf n (State.deviceTurn_keepsWf h)

theorem ReadEffect.keepsWf {n : Nat} {s t : State} (h : ReadEffect n s t) (hs : s.wf = true) : t.wf = true := by
  have turns := State.afterCycles_keepsWf n hs
  refine State.wf_of_kept turns ?_
  have eq := h.1
  generalize t.calls = calls at eq
  generalize t.draws = draws at eq
  rw [eq]

theorem writePlace_keepsWf (p : Place) (b : Byte) {s : State} (hs : s.wf = true) : (writePlace p b s).wf = true := by
  cases p with
  | ram a => exact State.storeRam_keepsWf a b hs
  | rom a => exact hs
  | device slot a =>
    rw [writePlace_device]
    split
    · exact State.wf_of_kept hs rfl
    · exact hs

theorem State.markAccessed_keepsWf (k : SegKind) {s : State} (hs : s.wf = true) : (s.markAccessed k).wf = true := by
  rw [State.markAccessed_eq]; exact State.wf_of_kept hs rfl

theorem State.setSp_keepsWf (v : Word) {s : State} (hs : s.wf = true) : (s.setSp v).wf = true := by
  unfold State.setSp; split <;> exact State.wf_of_kept hs rfl

/-! ### Flags and PS -/

/-- The bits under a mask of low bits, one by one. -/
theorem and_lowMask_eq_zero_iff {mask : Word} {k : Nat} (low : ∀ i < 16, mask.getLsbD i = decide (i < k)) (w : Word) :
    w &&& mask = 0 ↔ ∀ i < 16, i < k → w.getLsbD i = false := by
  constructor
  · intro h i hi hk
    have bit := congrArg (·.getLsbD i) h
    simp only [BitVec.getLsbD_and, low i hi, hk, decide_true, Bool.and_true] at bit
    exact bit.trans BitVec.getLsbD_zero
  · intro h
    apply BitVec.eq_of_getLsbD_eq
    intro i hi
    rw [BitVec.getLsbD_and, low i hi]
    refine Eq.trans ?_ BitVec.getLsbD_zero.symm
    by_cases hk : i < k
    · rw [h i hi hk, Bool.false_and]
    · rw [decide_eq_false hk, Bool.and_false]

/-- The reserved bits of FL (10_state.md R43). -/
theorem flReserved_iff (w : Word) : w &&& 0x0FFF = 0 ↔ ∀ i < 16, i < 12 → w.getLsbD i = false :=
  and_lowMask_eq_zero_iff (by decide) w

/-- The reserved bits of PS (10_state.md R46). -/
theorem psReserved_iff (w : Word) : w &&& 0x00FF = 0 ↔ ∀ i < 16, i < 8 → w.getLsbD i = false :=
  and_lowMask_eq_zero_iff (by decide) w

theorem writeFl_keepsWf (v : Word) {s : State} (hs : s.wf = true) : (s.writeFl v).wf = true :=
  State.wf_withFl hs (by rw [BitVec.and_assoc]; exact BitVec.and_zero)

theorem writePs_keepsWf (v : Word) {s : State} (hs : s.wf = true) : (s.writePs v).wf = true :=
  State.wf_withPs hs (by rw [BitVec.and_assoc]; exact BitVec.and_zero)

theorem setFlags_keepsWf (f : Flags) {s : State} (hs : s.wf = true) : (s.setFlags f).wf = true := by
  refine State.wf_withFl hs ((flReserved_iff _).mpr fun i hi low => ?_)
  have kept := congrArg (·.getLsbD i) (State.setFlags_reserved s f)
  rw [reserved_eq_zero ((State.wf_iff s).mp hs).2.2.1] at kept
  simpa [low] using kept

theorem withBit_psReserved {w : Word} (h : w &&& 0x00FF = 0) {j : Nat} (hj : 8 ≤ j) (b : Bool) : withBit w j b &&& 0x00FF = 0 := by
  rw [psReserved_iff] at h ⊢
  intro i hi low
  rw [withBit_getLsbD_ne w b (by omega)]
  exact h i hi low

theorem entryPs_psReserved (iv : Interrupt) {w : Word} (h : w &&& 0x00FF = 0) : iv.entryPs w &&& 0x00FF = 0 := by
  unfold Interrupt.entryPs
  refine withBit_psReserved (withBit_psReserved ?_ (by decide) _) (by decide) _
  cases iv with
  | clock | hwi | busRefresh | debugQuery | swi => exact h
  | doubleFault | divZeroFault | stackFault | segFault | unprivFault | undefFault => exact withBit_psReserved h (by decide) _

/-! ### Parts of instructions -/

/-- The state that a part leaves, done or not, is well-formed. -/
def EndsWf {α : Type} : Res α → Prop
  | .done _ t => t.wf = true
  | .trap _ t => t.wf = true

theorem EndsWf.andThen {α β : Type} {r : Res α} {k : α → State → Res β} (hr : EndsWf r)
    (hk : ∀ a t, t.wf = true → EndsWf (k a t)) : EndsWf (r.andThen k) := by
  cases r with
  | done a t => exact hk a t hr
  | trap x t => exact hr

theorem endsWf_trap {α : Type} {x : Trap} {s : State} (hs : s.wf = true) : EndsWf (.trap x s : Res α) := hs

theorem endsWf_ite {α : Type} {c : Prop} [Decidable c] {a b : Res α} (ha : EndsWf a) (hb : EndsWf b) :
    EndsWf (if c then a else b) := by
  split
  · exact ha
  · exact hb

theorem readByteIn_endsWf (begins : Bool) (k : SegKind) (p : Purpose) (off : Word) {s : State} (hs : s.wf = true) :
    EndsWf (readByteIn begins k p off s) := by
  rcases readByteIn_cases begins k p off s with ⟨v, -, trap⟩ | ⟨b, t, -, done, effect⟩
  · rw [trap]; exact hs
  · rw [done]; exact effect.keepsWf hs

theorem readWord_endsWf (k : SegKind) (p : Purpose) (off : Word) {s : State} (hs : s.wf = true) : EndsWf (readWord k p off s) := by
  cases h : readWord k p off s with
  | done v t => exact (readWord_done h).keepsWf hs
  | trap x t =>
    obtain ⟨n, -, effect⟩ := readWord_trap h
    exact effect.keepsWf hs

theorem readOperand_endsWf (m : Operand) {s : State} (hs : s.wf = true) : EndsWf (readOperand m s) := by
  have effect := readOperand_effect m s
  cases h : readOperand m s with
  | done x t => rw [h] at effect; exact effect.choose_spec.2.keepsWf hs
  | trap x t => rw [h] at effect; exact effect.choose_spec.2.keepsWf hs

theorem writeByte_endsWf (k : SegKind) (p : Purpose) (off : Word) (b : Byte) {s : State} (hs : s.wf = true) :
    EndsWf (writeByte k p off b s) := by
  rcases writeByte_cases k p off b s with ⟨v, -, trap⟩ | ⟨-, done⟩
  · rw [trap]; exact hs
  · rw [done]; exact writePlace_keepsWf _ _ (State.deviceTurn_keepsWf (State.markAccessed_keepsWf k hs))

theorem writeWord_endsWf (k : SegKind) (p : Purpose) (off v : Word) {s : State} (hs : s.wf = true) :
    EndsWf (writeWord k p off v s) := by
  rcases writeWord_cases k p off v s with ⟨x, -, trap⟩ | ⟨-, -, done⟩
  · rw [trap]; exact hs
  · rw [done, State.turnIf_eq]
    exact writePlace_keepsWf _ _ (State.afterCycles_keepsWf _
      (writePlace_keepsWf _ _ (State.deviceTurn_keepsWf (State.markAccessed_keepsWf k hs))))

theorem pushWord_endsWf (p : Purpose) (v : Word) {s : State} (hs : s.wf = true) : EndsWf (pushWord p v s) :=
  writeWord_endsWf .ss p _ v (State.setSp_keepsWf _ hs)

theorem pushWords_endsWf (p : Purpose) : ∀ (ws : List Word) {s : State}, s.wf = true → EndsWf (pushWords p ws s)
  | [], _, hs => hs
  | v :: vs, _, hs => (pushWord_endsWf p v hs).andThen fun _ _ ht => pushWords_endsWf p vs ht

theorem popWord_endsWf (p : Purpose) {s : State} (hs : s.wf = true) : EndsWf (popWord p s) :=
  (readWord_endsWf .ss p s.sp hs).andThen fun _ _ ht => State.setSp_keepsWf _ ht

theorem popRegisters_endsWf : ∀ (rs : List Reg) {s : State}, s.wf = true → EndsWf (popRegisters rs s)
  | [], _, hs => hs
  | _ :: rs, _, hs => (popWord_endsWf .pshPop hs).andThen fun _ _ ht => popRegisters_endsWf rs (State.wf_of_kept ht rfl)

theorem popInto_endsWf {selected : Bool} {write : State → Word → State}
    (hw : ∀ t v, t.wf = true → (write t v).wf = true) {s : State} (hs : s.wf = true) : EndsWf (popInto selected write s) := by
  unfold popInto
  split
  · exact (popWord_endsWf .pshPop hs).andThen fun v t ht => hw t v ht
  · exact hs

/-! ### Taking an interrupt -/

theorem pushSlot_endsWf (iv : Interrupt) {s : State} (hs : s.wf = true) : EndsWf (iv.pushSlot s) := by
  have reserved := ((State.wf_iff s).mp hs).2.2.2.1
  cases iv with
  | hwi slot => exact pushWord_endsWf _ _ (State.wf_withPs hs (withBit_psReserved reserved (by decide) true))
  | _ => exact hs

theorem recordType_keepsWf (iv : Interrupt) {s : State} (hs : s.wf = true) : (iv.recordType s).wf = true := by
  have reserved := ((State.wf_iff s).mp hs).2.2.2.1
  cases iv with
  | segFault v w c =>
    exact State.wf_withPs hs (withBit_psReserved (withBit_psReserved reserved (by decide) v) (by decide) w)
  | _ => exact hs

theorem pushCode_endsWf (iv : Interrupt) {s : State} (hs : s.wf = true) : EndsWf (iv.pushCode s) := by
  unfold Interrupt.pushCode
  split
  · exact pushWord_endsWf _ _ hs
  · exact hs

theorem enterOnce_endsWf (iv : Interrupt) (savedPc : Word) {s : State} (hs : s.wf = true) : EndsWf (enterOnce iv savedPc s) := by
  have mode : ({ s with ps := iv.entryPs s.readPs, halted := false } : State).wf = true :=
    State.wf_of_kept (State.wf_withPs hs (entryPs_psReserved iv (by rw [State.readPs, BitVec.and_assoc]; exact BitVec.and_zero))) rfl
  refine (pushWord_endsWf .other s.readPs mode).andThen fun _ s4 h4 => ?_
  refine (pushWord_endsWf .other savedPc h4).andThen fun _ s5 h5 => ?_
  refine (pushSlot_endsWf iv h5).andThen fun _ s6 h6 => ?_
  refine (pushCode_endsWf iv (recordType_keepsWf iv h6)).andThen fun _ s8 h8 => ?_
  exact (readWord_endsWf .is .other _ h8).andThen fun _ s9 h9 => State.wf_of_kept h9 rfl

theorem performReset_keepsWf {s : State} (hs : s.wf = true) : (performReset s).wf = true :=
  State.wf_of_kept (State.wf_withPs (ps := 0x8000) (State.wf_withRate (rate := 0) hs (Nat.zero_le _)) rfl) rfl

theorem takeInterrupt_keepsWf (iv : Interrupt) (savedPc : Word) {s : State} (hs : s.wf = true) :
    (takeInterrupt iv savedPc s).wf = true := by
  have first := enterOnce_endsWf iv savedPc hs
  unfold takeInterrupt
  cases h1 : enterOnce iv savedPc s with
  | done x t => rw [h1] at first; exact first
  | trap x s1 =>
    rw [h1] at first
    have second := enterOnce_endsWf (.doubleFault (Config.errcode s1.draws)) savedPc (State.wf_of_kept (t := s1.afterDraw) first rfl)
    simp only
    cases h2 : enterOnce (.doubleFault (Config.errcode s1.draws)) savedPc s1.afterDraw with
    | done x t => rw [h2] at second; exact second
    | trap x s2 => rw [h2] at second; exact performReset_keepsWf second

/-! ### Instructions -/

/-- The next state, where there is one, is well-formed. -/
def NextWf (o : Host.Outcome State Fault Refusal) : Prop := ∀ t, o = .next t → t.wf = true

theorem nextWf_next {t : State} (h : t.wf = true) : NextWf (.next t) := by
  rintro _ ⟨⟩; exact h

theorem nextWf_perform {w pc : Word} {r : Res Unit} (h : EndsWf r) : NextWf (perform w pc r) := by
  intro t next
  cases r with
  | done => cases next; exact h
  | trap => cases next; exact takeInterrupt_keepsWf _ _ h

theorem writeResult_endsWf (f : AluOp) (d : Reg) (x : OpValue) {s : State} (hs : s.wf = true) : EndsWf (writeResult f d x s) := by
  cases x <;> exact setFlags_keepsWf _ (State.wf_of_kept hs rfl)

theorem divideResult_endsWf (f : AluOp) (d : Reg) (x : OpValue) {s : State} (hs : s.wf = true) : EndsWf (divideResult f d x s) := by
  unfold divideResult
  split
  · exact hs
  · exact writeResult_endsWf f d x hs

theorem compareResult_endsWf (d : Reg) (x : OpValue) {s : State} (hs : s.wf = true) : EndsWf (compareResult d x s) := by
  cases x <;> exact setFlags_keepsWf _ hs

theorem multiplyResult_endsWf (signed : Bool) (d : Reg) (x : OpValue) {s : State} (hs : s.wf = true) :
    EndsWf (multiplyResult signed d x s) := by
  cases x with
  | word v => exact setFlags_keepsWf _ (State.wf_of_kept hs rfl)
  | byte b =>
    unfold multiplyResult
    refine State.wf_of_kept (setFlags_keepsWf _ ?_) rfl
    split <;> exact State.wf_of_kept hs rfl

theorem writeControl_endsWf (p : BitVec 3) (v next : Word) {s : State} (hs : s.wf = true) : EndsWf (writeControl p v next s) := by
  unfold writeControl
  split
  case h_1 => exact State.wf_of_kept (writeFl_keepsWf v hs) rfl
  case h_2 => exact State.wf_of_kept hs rfl
  case h_3 =>
    split
    · exact State.wf_of_kept (writePs_keepsWf v hs) rfl
    · exact hs
  case h_4 => exact State.wf_of_kept hs rfl
  case h_5 => exact State.wf_of_kept (State.setSp_keepsWf v hs) rfl
  case h_6 => exact hs

theorem storeOperand_endsWf (m : Operand) (v : Word) {s : State} (hs : s.wf = true) : EndsWf (storeOperand m v s) := by
  have memory : ∀ (k : SegKind) (a : Word) (e : Bool),
      EndsWf ((if e then writeByte k .other a (lowByte v) s else writeWord k .other a v s).andThen fun _ s1 =>
        .done () (s1.setPc (s.pc + operandLength m))) := by
    intro k a e
    refine EndsWf.andThen ?_ fun _ _ ht => State.wf_of_kept ht rfl
    cases e
    · exact writeWord_endsWf k _ a v hs
    · exact writeByte_endsWf k _ a _ hs
  cases m with
  | immediate | register | undefinedMode => exact hs
  | control _ p => exact writeControl_endsWf p v _ hs
  | absolute | indirect | indirectOffset | indirectIndexed => exact memory _ _ _

theorem nearTarget_endsWf (m : JumpOperand) {s : State} (hs : s.wf = true) : EndsWf (nearTarget m s) := by
  cases m with
  | immediate | register | undefinedMode => exact hs
  | absolute | indirect | indirectOffset | indirectIndexed => exact readWord_endsWf _ _ _ hs

theorem farTarget_endsWf (m : JumpOperand) {s : State} (hs : s.wf = true) : EndsWf (farTarget m s) := by
  have memory : ∀ k a, EndsWf ((readWord k .other a s).andThen fun t s1 => (readWord k .other (a + 2) s1).andThen fun lo s2 =>
      (readWord k .other (a + 4) s2).andThen fun hi s3 => .done (t, (hi ++ lo : BitVec 32)) s3) := fun k a =>
    (readWord_endsWf k _ a hs).andThen fun _ _ h1 => (readWord_endsWf k _ _ h1).andThen fun _ _ h2 =>
      (readWord_endsWf k _ _ h2).andThen fun _ _ h3 => h3
  cases m with
  | register | undefinedMode => exact hs
  | immediate => exact endsWf_ite hs hs
  | absolute | indirect | indirectOffset | indirectIndexed => exact endsWf_ite (memory _ _) hs

theorem supervisorOnly_endsWf {s : State} {r : Res Unit} (hs : s.wf = true) (hr : EndsWf r) : EndsWf (supervisorOnly s r) :=
  endsWf_ite hr hs

theorem popControl_endsWf (mask : BitVec 8) {s : State} (hs : s.wf = true) : NextWf (execPopControl mask s) := by
  refine nextWf_perform ?_
  refine (popInto_endsWf (fun _ v => writeFl_keepsWf v) hs).andThen fun _ s1 h1 => ?_
  refine EndsWf.andThen (endsWf_ite (popWord_endsWf _ h1) h1) fun newPc s2 h2 => ?_
  refine (popInto_endsWf (fun _ v => writePs_keepsWf v) h2).andThen fun _ s3 h3 => ?_
  refine (popInto_endsWf (fun _ _ ht => State.wf_of_kept ht rfl) h3).andThen fun _ s4 h4 => ?_
  refine (popInto_endsWf (fun _ v => State.setSp_keepsWf v) h4).andThen fun _ s5 h5 => ?_
  exact endsWf_ite h5 (State.wf_of_kept h5 rfl)

/-- A device's reaction to a message (47_processor_functions.md R305). -/
theorem deviceReaction_keepsWf (slot : BitVec 4) (r : DeviceReply) {s : State} (hs : s.wf = true) : (s.deviceReaction slot r).wf = true := by
  have registers : (s.replyRegisters r).wf = true := by
    unfold State.replyRegisters; split <;> exact State.wf_of_kept hs rfl
  exact State.wf_of_kept (State.storeAll_keepsWf r.stores registers) rfl

/-- The rate a query sets is within the cap (47_processor_functions.md R309). -/
theorem cappedRate_le (wished : Word) (cpuHz : Nat) : (cappedRate wished cpuHz).toNat ≤ cpuHz / 1024 := by
  rw [cappedRate, BitVec.toNat_ofNat]
  exact (Nat.mod_le _ _).trans (Nat.min_le_right _ _)

theorem queryDone_endsWf {s : State} (hs : s.wf = true) : EndsWf (queryDone s) := State.wf_of_kept hs rfl

theorem nextWf_aluRun {w : Word} {m : Operand} {s : State} {k : OpValue → State → Res Unit} (hs : s.wf = true)
    (hk : ∀ x t, t.wf = true → EndsWf (k x t)) : NextWf (aluRun w m s k) :=
  nextWf_perform ((readOperand_endsWf m hs).andThen fun x t ht => (hk x t ht).andThen fun _ _ hu => State.wf_of_kept hu rfl)

theorem exec_nextWf (i : Instr) {s : State} (hs : s.wf = true) : NextWf (exec i s) := by
  cases i with
  | cmp d m => exact nextWf_aluRun hs fun x _ => compareResult_endsWf d x
  | neg d m | add d m | sub d m | adc d m | sbc d m | and d m | orr d m | eor d m | not d m | lod d m =>
    exact nextWf_aluRun hs fun x _ => writeResult_endsWf _ d x
  | mul d m | mli d m => exact nextWf_aluRun hs fun x _ => multiplyResult_endsWf _ d x
  | div d m | dvi d m | mod d m | mdi d m => exact nextWf_aluRun hs fun x _ => divideResult_endsWf _ d x
  | sto d m => exact nextWf_perform (storeOperand_endsWf m _ hs)
  | bcc | bcs | bne | beq | bpl | bmi | bvc | bvs | bug | bsg | baw | set => exact nextWf_next (State.wf_of_kept hs rfl)
  | asl | lsl | rol | rnl | asr | lsr | ror | rnr | btx | btc | bts | adi | sbi =>
    exact nextWf_next (State.wf_of_kept (setFlags_keepsWf _ (State.wf_of_kept (t := s.setReg _ _) hs rfl)) rfl)
  | btt => exact nextWf_next (State.wf_of_kept (setFlags_keepsWf _ hs) rfl)
  | sef | clf => exact nextWf_next (State.wf_of_kept (writeFl_keepsWf _ hs) rfl)
  | undefined9A | undefined9B | undefined9C | undefined9D | undefined9E | undefinedBCtoBF | undefinedC0toFF =>
    exact nextWf_perform (endsWf_trap hs)
  | pshGeneral mask => exact nextWf_perform ((pushWords_endsWf _ _ hs).andThen fun _ _ ht => State.wf_of_kept ht rfl)
  | pshControl mask =>
    exact nextWf_perform ((pushWords_endsWf _ _ hs).andThen fun _ _ ht => endsWf_ite ht (State.wf_of_kept ht rfl))
  | popGeneral mask => exact nextWf_perform ((popRegisters_endsWf _ hs).andThen fun _ _ ht => State.wf_of_kept ht rfl)
  | popControl mask => exact popControl_endsWf mask hs
  | rts => exact nextWf_perform ((popWord_endsWf _ hs).andThen fun _ _ ht => State.wf_of_kept ht rfl)
  | rtsF =>
    exact nextWf_perform (supervisorOnly_endsWf hs ((popWord_endsWf _ hs).andThen fun _ _ h1 =>
      (popWord_endsWf _ h1).andThen fun _ _ h2 => (popWord_endsWf _ h2).andThen fun _ _ h3 => State.wf_of_kept h3 rfl))
  | rti =>
    exact nextWf_perform (supervisorOnly_endsWf hs ((popWord_endsWf _ hs).andThen fun _ _ h1 =>
      (popWord_endsWf _ h1).andThen fun _ _ h2 => writePs_keepsWf _ (State.wf_of_kept h2 rfl)))
  | swi => exact nextWf_next (takeInterrupt_keepsWf _ _ hs)
  | slp => exact nextWf_perform (supervisorOnly_endsWf hs (State.wf_of_kept hs rfl))
  | lsg u x r =>
    refine nextWf_perform (supervisorOnly_endsWf hs ?_)
    split
    · exact hs
    · exact (popWord_endsWf _ hs).andThen fun _ _ h1 => (popWord_endsWf _ h1).andThen fun _ _ h2 => State.wf_of_kept h2 rfl
  | ssg u x r =>
    refine nextWf_perform (supervisorOnly_endsWf hs ?_)
    split
    · exact hs
    · exact (pushWords_endsWf _ _ hs).andThen fun _ _ ht => State.wf_of_kept ht rfl
  | jmp m => exact nextWf_perform ((nearTarget_endsWf m hs).andThen fun _ _ ht => State.wf_of_kept ht rfl)
  | jmpF m => exact nextWf_perform ((farTarget_endsWf m hs).andThen fun _ _ ht => State.wf_of_kept ht rfl)
  | jsr m =>
    exact nextWf_perform ((nearTarget_endsWf m hs).andThen fun _ _ ht =>
      (pushWord_endsWf _ _ ht).andThen fun _ _ hu => State.wf_of_kept hu rfl)
  | jsrF m =>
    exact nextWf_perform ((farTarget_endsWf m hs).andThen fun _ _ ht =>
      (pushWords_endsWf _ _ ht).andThen fun _ _ hu => State.wf_of_kept hu rfl)
  | hwq00 | hwq03 | hwq80 | hwq82 =>
    exact nextWf_perform (supervisorOnly_endsWf hs (queryDone_endsWf (State.wf_of_kept hs rfl)))
  | hwq01 =>
    refine nextWf_perform (supervisorOnly_endsWf hs (queryDone_endsWf ?_))
    split <;> exact State.wf_of_kept hs rfl
  | hwq02 =>
    refine nextWf_perform (supervisorOnly_endsWf hs (queryDone_endsWf ?_))
    split
    · exact hs
    · dsimp only
      split
      · exact hs
      · exact deviceReaction_keepsWf _ _ (State.wf_of_kept (t := s.afterCall _) hs rfl)
  | hwq83 =>
    exact nextWf_perform (supervisorOnly_endsWf hs (queryDone_endsWf
      (State.wf_of_kept (State.wf_withRate hs (cappedRate_le _ _)) rfl)))
  | stx n => exact nextWf_perform (endsWf_ite (State.wf_of_kept (State.setSp_keepsWf _ hs) rfl) hs)

/-! ### Steps -/

theorem applyEvent_keepsWf (e : EnvEvent) {s : State} (hs : s.wf = true) : (s.applyEvent e).wf = true := by
  cases e with
  | store a b => exact State.storeRam_keepsWf a b hs
  | clockTick =>
    unfold State.applyEvent
    dsimp only
    split
    · exact hs
    · exact State.wf_of_kept hs rfl
  | time t => exact hs
  | busChange ds n => exact hs
  | resetLine | requests | debugLine => exact State.wf_of_kept hs rfl

theorem applyEvents_keepsWf : ∀ (es : List EnvEvent) {s : State}, s.wf = true → (s.applyEvents es).wf = true
  | [], _, hs => hs
  | e :: es, _, hs => applyEvents_keepsWf es (applyEvent_keepsWf e hs)

theorem environmentTurn_keepsWf {s : State} (hs : s.wf = true) : s.environmentTurn.wf = true := by
  unfold State.environmentTurn
  split
  · exact hs
  · exact applyEvents_keepsWf _ (State.wf_of_kept hs rfl)

theorem takeAsync_keepsWf (a : Async) {s : State} (hs : s.wf = true) : (takeAsync a s).wf = true := by
  cases a with
  | reset => exact performReset_keepsWf (State.wf_of_kept hs rfl)
  | clock | hwi | busRefresh | debugQuery => exact takeInterrupt_keepsWf _ _ (State.wf_of_kept hs rfl)

theorem fetchImmediates_endsWf : ∀ (n : Nat) (off : Word) {s : State}, s.wf = true → EndsWf (fetchImmediates n off s)
  | 0, _, _, hs => hs
  | n + 1, off, _, hs => (readWord_endsWf _ _ off hs).andThen fun _ _ h1 =>
      (fetchImmediates_endsWf n (off + 2) h1).andThen fun _ _ h2 => h2

/-- The state a fetch leaves, with an instruction or after an interrupt, is well-formed. -/
def FetchedWf : Fetched → Prop
  | .instruction _ t => t.wf = true
  | .interrupted t => t.wf = true
  | .refused _ => True

theorem decodeFetched_wf (w : Word) (imms : List Word) {s : State} (hs : s.wf = true) : FetchedWf (decodeFetched w imms s) := by
  unfold decodeFetched
  split
  · exact hs
  · exact takeInterrupt_keepsWf _ _ hs

theorem fetchInstruction_wf {s : State} (hs : s.wf = true) : FetchedWf (fetchInstruction s) := by
  unfold fetchInstruction
  split
  · trivial
  · have word := readWord_endsWf .code .other s.pc hs
    split
    case h_1 fetch => 
      rw [fetchWord] at fetch
      rw [fetch] at word
      exact takeInterrupt_keepsWf _ _ (State.wf_of_kept word rfl)
    case h_2 w s1 fetch =>
      rw [fetchWord] at fetch
      rw [fetch] at word
      have words := fetchImmediates_endsWf (if raisesBeforeImmediates w s1 then 0 else immediateCount w) (s.pc + 2) (s := s1) word
      split
      case h_1 immediates => rw [immediates] at words; exact takeInterrupt_keepsWf _ _ words
      case h_2 immediates => rw [immediates] at words; exact decodeFetched_wf w _ words

/-- Settles O9: the environment, the fetch, the instructions and the taking of interrupts all keep the invariant. -/
theorem stepKeepsWellFormed : Obligations.StepKeepsWellFormed := by
  intro s t hs next
  have turn := environmentTurn_keepsWf hs
  have fetched := fetchInstruction_wf turn
  unfold step at next
  dsimp only at next
  split at next
  · cases next; exact takeAsync_keepsWf _ turn
  · split at next
    · cases next; exact turn
    · split at next
      case h_1 fetch => rw [fetch] at fetched; exact exec_nextWf _ fetched t next
      case h_2 fetch => rw [fetch] at fetched; cases next; exact fetched
      case h_3 => cases next

/-- Settles O10: nothing is listed in RAM or ROM, and FL, the reserved bits of PS and the Clock rate are 0. -/
theorem resetIsWellFormed : Obligations.ResetIsWellFormed := by
  refine (State.wf_iff _).mpr ⟨⟨reset_memory_wf.1, ?_⟩, reset_memory_wf.2, rfl, rfl, Nat.zero_le _⟩
  intro c hc
  cases hc

end Sys2Proof.Machine
end

section
/-! PROOFS. The family of 40_alu.md, the instructions that write all four flags, compare, multiply bytes and divide: what their results and
flags are as numbers, at every width, and the templates that write them. -/

namespace Sys2Proof.Machine

/-! ### Signed numbers of a width -/

/-- A number of `n + 1` bits in terms of half its range: the top bit is what makes it negative. -/
theorem signedValue_succ (n k : Nat) : signedValue (n + 1) k = if k < 2 ^ n then (k : Int) else (k : Int) - 2 * 2 ^ n := by
  rw [signedValue, Nat.add_sub_cancel, pow_succ, mul_comm]

theorem fitsSigned_succ (n : Nat) (i : Int) : fitsSigned (n + 1) i = (decide (-(2 : Int) ^ n ≤ i) && decide (i < (2 : Int) ^ n)) := by
  rw [fitsSigned, Nat.add_sub_cancel]

theorem wrapped_natCast (n k : Nat) : wrapped n (k : Int) = k % 2 ^ n := by
  rw [wrapped, ← Nat.cast_ofNat (n := 2), ← Nat.cast_pow, ← Int.natCast_mod, Int.toNat_natCast]

/-- Numbers that differ by the range of the width are the same number of that width. -/
theorem wrapped_add_range (n : Nat) (i : Int) : wrapped n (i + 2 ^ n) = wrapped n i := by
  rw [wrapped, wrapped, Int.add_emod_right]

/-! ### Addition with carry -/

theorem addc_value {n : Nat} (a b : BitVec n) (cin : Bool) :
    (addc a b cin).value.toNat = (a.toNat + b.toNat + cin.toNat) % 2 ^ n := BitVec.toNat_ofNat _ n

/-- Equal signs in and another sign out: the signed sum does not fit (40_alu.md R173). -/
theorem signOverflow_eq {n : Nat} (hn : 0 < n) (a b : BitVec n) (cin : Bool) :
    signOverflow a b (sumWithCarry a b cin) = !fitsSigned n (signedValue n a.toNat + signedValue n b.toNat + cin.toNat) := by
  obtain ⟨k, rfl⟩ : ∃ k, n = k + 1 := ⟨n - 1, by omega⟩
  have range : 2 ^ (k + 1) = 2 * 2 ^ k := by rw [pow_succ, mul_comm]
  have ha := a.isLt
  have hb := b.isLt
  have hc : cin.toNat ≤ 1 := Bool.toNat_le cin
  have sum : (sumWithCarry a b cin).toNat = (a.toNat + b.toNat + cin.toNat) % 2 ^ (k + 1) := BitVec.toNat_ofNat _ _
  have reduced : (a.toNat + b.toNat + cin.toNat) % 2 ^ (k + 1) =
      if a.toNat + b.toNat + cin.toNat < 2 ^ (k + 1) then a.toNat + b.toNat + cin.toNat
      else a.toNat + b.toNat + cin.toNat - 2 ^ (k + 1) := by
    split
    · exact Nat.mod_eq_of_lt ‹_›
    · rw [Nat.mod_eq_sub_mod (by omega), Nat.mod_eq_of_lt (by omega)]
  have cast : ((2 ^ k : Nat) : Int) = (2 : Int) ^ k := by push_cast; rfl
  rw [signedValue_succ, signedValue_succ, fitsSigned_succ, signOverflow, BitVec.msb_eq_decide, BitVec.msb_eq_decide,
    BitVec.msb_eq_decide, sum, reduced, Nat.add_sub_cancel]
  rw [range] at ha hb ⊢
  rw [← cast]
  generalize 2 ^ k = half at *
  rw [Bool.eq_iff_iff]
  simp only [Bool.and_eq_true, beq_iff_eq, bne_iff_ne, Bool.not_eq_true', Bool.and_eq_false_iff, decide_eq_false_iff_not,
    decide_eq_decide, ne_eq]
  split_ifs <;> omega

/-- The flags of `addc` (40_alu.md R173) on the numbers. -/
theorem addc_flags {n : Nat} (hn : 0 < n) (a b : BitVec n) (cin : Bool) :
    let t := a.toNat + b.toNat + cin.toNat
    (addc a b cin).flags =
      { n := decide (2 ^ (n - 1) ≤ t % 2 ^ n), z := decide (t % 2 ^ n = 0), c := decide (2 ^ n ≤ t)
        v := !fitsSigned n (signedValue n a.toNat + signedValue n b.toNat + cin.toNat) } := by
  have value := addc_value a b cin
  have overflow := signOverflow_eq hn a b cin
  rw [addc] at value ⊢
  dsimp only at value ⊢
  rw [BitVec.msb_eq_decide, BitVec.ofNat_eq_ofNat, beq_zero_eq_decide, value, overflow]
  rfl

/-! ### Subtraction with borrow -/

/-- The complement of a number of a width is its negation, less 1. -/
theorem signedValue_complement {n : Nat} (hn : 0 < n) {m : Nat} (hm : m < 2 ^ n) :
    signedValue n (2 ^ n - 1 - m) = -signedValue n m - 1 := by
  obtain ⟨k, rfl⟩ : ∃ k, n = k + 1 := ⟨n - 1, by omega⟩
  have cast : ((2 ^ k : Nat) : Int) = (2 : Int) ^ k := by push_cast; rfl
  rw [signedValue_succ, signedValue_succ, ← cast]
  rw [pow_succ, mul_comm] at hm ⊢
  generalize 2 ^ k = half at *
  split_ifs <;> omega

/-- `a - m` less the borrow is `addc` of the complement (40_alu.md R178, R180); C is "no borrow". -/
theorem subc_value_flags {n : Nat} (hn : 0 < n) (a m : BitVec n) (cin : Bool) (borrow : Nat) (hb : borrow = 1 - cin.toNat) :
    let r := wrapped n ((a.toNat : Int) - m.toNat - borrow)
    (addc a (~~~m) cin).value.toNat = r ∧ (addc a (~~~m) cin).flags =
      { n := decide (2 ^ (n - 1) ≤ r), z := decide (r = 0), c := decide (m.toNat + borrow ≤ a.toNat)
        v := !fitsSigned n (signedValue n a.toNat - signedValue n m.toNat - borrow) } := by
  intro r
  have hm := m.isLt
  have hc : cin.toNat ≤ 1 := Bool.toNat_le cin
  have complement : (~~~m).toNat = 2 ^ n - 1 - m.toNat := BitVec.toNat_not
  have sum : ((a.toNat + (2 ^ n - 1 - m.toNat) + cin.toNat : Nat) : Int) = (a.toNat : Int) - m.toNat - borrow + 2 ^ n := by
    have cast : ((2 ^ n : Nat) : Int) = (2 : Int) ^ n := by push_cast; rfl
    rw [← cast]
    omega
  have result : (a.toNat + (2 ^ n - 1 - m.toNat) + cin.toNat) % 2 ^ n = r := by
    rw [← wrapped_natCast, sum, wrapped_add_range]
  have noBorrow : 2 ^ n ≤ a.toNat + (2 ^ n - 1 - m.toNat) + cin.toNat ↔ m.toNat + borrow ≤ a.toNat := by omega
  have signed : signedValue n a.toNat + signedValue n (2 ^ n - 1 - m.toNat) + cin.toNat =
      signedValue n a.toNat - signedValue n m.toNat - borrow := by
    rw [signedValue_complement hn hm]
    omega
  refine ⟨by rw [addc_value, complement, result], ?_⟩
  rw [addc_flags hn, complement, result, signed]
  simp only [noBorrow]

/-! ### Operations as functions of numbers -/

/-- What an operation of the ALU does, in numbers, at every width: its value and all four flags. -/
structure AluOp.Yields (op : AluOp) (value : Nat → Nat → Nat → Flags → Nat) (flags : Nat → Nat → Nat → Flags → Flags) : Prop where
  value : ∀ n, 0 < n → ∀ a m f, (op n a m f).value.toNat = value n a.toNat m.toNat f
  flags : ∀ n, 0 < n → ∀ a m f, (op n a m f).flags = flags n a.toNat m.toNat f

section
variable {op : AluOp} {value : Nat → Nat → Nat → Flags → Nat} {flags : Nat → Nat → Nat → Flags → Flags}

/-- In both widths, the result is written zero-extended, with the flags (40_alu.md R170, R172). -/
theorem writeResult_of_yields (h : AluOp.Yields op value flags) (d : Reg) (x : OpValue) (s : State) :
    writeResult op d x s = .done () ((s.setReg d (BitVec.ofNat 16 (value x.width (x.first (s.reg d)) x.nat s.flags))).setFlags
      (flags x.width (x.first (s.reg d)) x.nat s.flags)) := by
  cases x with
  | byte b =>
    have low : (lowByte (s.reg d)).toNat = (OpValue.byte b).first (s.reg d) := BitVec.extractLsb'_toNat ..
    rw [writeResult, h.flags 8 (by decide), ← BitVec.ofNat_toNat, h.value 8 (by decide), low]
    rfl
  | word v =>
    have whole : (s.reg d).toNat = (OpValue.word v).first (s.reg d) := (Nat.mod_eq_of_lt (s.reg d).isLt).symm
    rw [writeResult, h.flags 16 (by decide), ← BitVec.setWidth_eq (op 16 _ _ _).value, ← BitVec.ofNat_toNat,
      h.value 16 (by decide), whole]
    rfl

/-- The whole next state of an instruction that writes the result of such an operation. -/
theorem exec_of_yields {i : Instr} {d : Reg} {m : Operand} {s s1 : State} {x : OpValue} (yields : AluOp.Yields op value flags)
    (template : exec i s = aluRun (opcode i) m s (writeResult op d)) (words : immediates i = m.immediates)
    (read : readOperand m s = .done x s1) :
    exec i s = .next ((s.withBus s1).finish d (value x.width (x.first (s.reg d)) x.nat s.flags)
      (flags x.width (x.first (s.reg d)) x.nat s.flags) (nextPc i s)) :=
  exec_alu_done template words read (writeResult_of_yields yields d x (s.withBus s1))

theorem OpValue.isZero_iff (x : OpValue) : x.isZero = true ↔ x.nat = 0 := by
  cases x with
  | byte b => rw [OpValue.isZero, OpValue.nat, beq_iff_eq, ← BitVec.toNat_inj]; rfl
  | word v => rw [OpValue.isZero, OpValue.nat, beq_iff_eq, ← BitVec.toNat_inj]; rfl

/-- The same for a division by a number that is not 0 (60_exceptions.md R336). -/
theorem exec_divide_of_yields {i : Instr} {d : Reg} {m : Operand} {s s1 : State} {x : OpValue}
    (yields : AluOp.Yields op value flags) (template : exec i s = aluRun (opcode i) m s (divideResult op d))
    (words : immediates i = m.immediates) (read : readOperand m s = .done x s1) (divisor : x.nat ≠ 0) :
    exec i s = .next ((s.withBus s1).finish d (value x.width (x.first (s.reg d)) x.nat s.flags)
      (flags x.width (x.first (s.reg d)) x.nat s.flags) (nextPc i s)) := by
  refine exec_alu_done template words read ?_
  rw [divideResult, if_neg (mt x.isZero_iff.mp divisor)]
  exact writeResult_of_yields yields d x (s.withBus s1)

/-- A division by 0 raises before it writes anything. -/
theorem exec_divide_zero {i : Instr} {d : Reg} {m : Operand} {s s1 : State} {x : OpValue}
    (template : exec i s = aluRun (opcode i) m s (divideResult op d)) (read : readOperand m s = .done x s1) (zero : x.nat = 0) :
    exec i s = .next (takeInterrupt (.divZeroFault (opcode i)) s.pc (s.withBus s1)) := by
  rw [template, aluRun, read, Res.done_andThen, divideResult, if_pos (x.isZero_iff.mpr zero), withBus_of_readOperand read]
  rfl

end

/-! ### Addition and subtraction -/

/-- The sum with a carry in, and its flags (40_alu.md R173). -/
def sumFlags (w a m cin : Nat) : Flags :=
  { n := decide (2 ^ (w - 1) ≤ (a + m + cin) % 2 ^ w), z := decide ((a + m + cin) % 2 ^ w = 0), c := decide (2 ^ w ≤ a + m + cin)
    v := !fitsSigned w (signedValue w a + signedValue w m + cin) }

/-- The difference with a borrow, and its flags (40_alu.md R178). -/
def differenceFlags (w a m borrow : Nat) : Flags :=
  { n := decide (2 ^ (w - 1) ≤ wrapped w ((a : Int) - m - borrow)), z := decide (wrapped w ((a : Int) - m - borrow) = 0)
    c := decide (m + borrow ≤ a), v := !fitsSigned w (signedValue w a - signedValue w m - borrow) }

theorem addOp_yields : AluOp.Yields addOp (fun w a m _ => (a + m + 0) % 2 ^ w) (fun w a m _ => sumFlags w a m 0) where
  value _ _ a m _ := addc_value a m false
  flags _ hn a m _ := addc_flags hn a m false

theorem adcOp_yields :
    AluOp.Yields adcOp (fun w a m f => (a + m + f.c.toNat) % 2 ^ w) (fun w a m f => sumFlags w a m f.c.toNat) where
  value _ _ a m f := addc_value a m f.c
  flags _ hn a m f := addc_flags hn a m f.c

theorem subOp_yields :
    AluOp.Yields subOp (fun w a m _ => wrapped w ((a : Int) - m - (0 : Nat))) (fun w a m _ => differenceFlags w a m 0) where
  value _ hn a m _ := (subc_value_flags hn a m true 0 rfl).1
  flags _ hn a m _ := (subc_value_flags hn a m true 0 rfl).2

theorem sbcOp_yields :
    AluOp.Yields sbcOp (fun w a m f => wrapped w ((a : Int) - m - (1 - f.c.toNat : Nat)))
      (fun w a m f => differenceFlags w a m (1 - f.c.toNat)) where
  value _ hn a m f := (subc_value_flags hn a m f.c _ rfl).1
  flags _ hn a m f := (subc_value_flags hn a m f.c _ rfl).2

/-- Settles O20: both instructions write the sum, with no carry in and with C. -/
theorem additionSetsSumAndFlags : Obligations.AdditionSetsSumAndFlags := by
  rintro d m s s1 x read i cin (⟨rfl, rfl⟩ | ⟨rfl, rfl⟩)
  · exact exec_of_yields addOp_yields rfl rfl read
  · exact exec_of_yields adcOp_yields rfl rfl read

/-- Settles O21: both instructions write the difference, with no borrow and with the borrow that C says. -/
theorem subtractionSetsDifferenceAndFlags : Obligations.SubtractionSetsDifferenceAndFlags := by
  rintro d m s s1 x read i borrow (⟨rfl, rfl⟩ | ⟨rfl, rfl⟩)
  · exact exec_of_yields subOp_yields rfl rfl read
  · exact exec_of_yields sbcOp_yields rfl rfl read

/-! ### Division -/

theorem divOp_yields : AluOp.Yields divOp (fun _ a m _ => a / m) (fun _ a m f => { f with n := false, z := decide (a / m = 0) }) := by
  have value : ∀ n (a m : BitVec n), (BitVec.ofNat n (a.toNat / m.toNat)).toNat = a.toNat / m.toNat := fun n a m =>
    (BitVec.toNat_ofNat _ n).trans (Nat.mod_eq_of_lt ((Nat.div_le_self _ _).trans_lt a.isLt))
  refine ⟨fun n _ a m _ => value n a m, fun n _ a m f => ?_⟩
  rw [divOp]
  dsimp only
  rw [BitVec.ofNat_eq_ofNat, beq_zero_eq_decide, value]

theorem modOp_yields : AluOp.Yields modOp (fun _ a m _ => a % m) (fun w a m f => f.sign w (a % m)) := by
  have value : ∀ n (a m : BitVec n), (BitVec.ofNat n (a.toNat % m.toNat)).toNat = a.toNat % m.toNat := fun n a m =>
    (BitVec.toNat_ofNat _ n).trans (Nat.mod_eq_of_lt ((Nat.mod_le _ _).trans_lt a.isLt))
  refine ⟨fun n _ a m _ => value n a m, fun n _ a m f => ?_⟩
  rw [modOp]
  dsimp only
  rw [Flags.withNZ_eq_sign, value]

/-- Truncating division leaves the range of the width for the most negative number by -1 alone. -/
theorem tdiv_overflow_iff {a m half : Int} (positive : 0 < half) (low : -half ≤ a) (high : a < half) :
    ¬ (-half ≤ a.tdiv m ∧ a.tdiv m < half) ↔ a = -half ∧ m = -1 := by
  have size : (a.tdiv m).natAbs = a.natAbs / m.natAbs := Int.natAbs_tdiv a m
  obtain rfl | rfl | rfl | big : m = 0 ∨ m = 1 ∨ m = -1 ∨ 2 ≤ m.natAbs := by omega
  · rw [Int.tdiv_zero]; omega
  · rw [Int.tdiv_one]; omega
  · rw [Int.tdiv_neg, Int.tdiv_one]; omega
  · have small : a.natAbs / m.natAbs ≤ a.natAbs / 2 := Nat.div_le_div_left big (by decide)
    omega

/-- The one quotient that does not fit is that of the most negative number by -1 (40_alu.md R184). -/
theorem quotient_overflow {n : Nat} (hn : 0 < n) {a m : Nat} (ha : a < 2 ^ n) (hm : m < 2 ^ n) :
    (decide (a = 2 ^ (n - 1)) && decide (m = 2 ^ n - 1)) = !fitsSigned n ((signedValue n a).tdiv (signedValue n m)) := by
  obtain ⟨k, rfl⟩ : ∃ k, n = k + 1 := ⟨n - 1, by omega⟩
  have cast : ((2 ^ k : Nat) : Int) = (2 : Int) ^ k := by push_cast; rfl
  rw [signedValue_succ, signedValue_succ, fitsSigned_succ, Nat.add_sub_cancel, ← cast]
  rw [pow_succ, mul_comm] at ha hm ⊢
  generalize 2 ^ k = half at *
  have dividend : (if a < half then (a : Int) else (a : Int) - 2 * half) = -half ↔ a = half := by split_ifs <;> omega
  have divisor : (if m < half then (m : Int) else (m : Int) - 2 * half) = -1 ↔ m = 2 * half - 1 := by
    rw [← add_eq_zero_iff_eq_neg]
    split_ifs <;> omega
  have overflow := tdiv_overflow_iff (a := if a < half then (a : Int) else (a : Int) - 2 * half)
    (m := if m < half then (m : Int) else (m : Int) - 2 * half) (half := half) (by omega) (by split_ifs <;> omega)
    (by split_ifs <;> omega)
  rw [dividend, divisor] at overflow
  rw [Bool.eq_iff_iff, Bool.and_eq_true, decide_eq_true_eq, decide_eq_true_eq, ← overflow, Bool.not_eq_true', ← Bool.not_eq_true,
    Bool.and_eq_true, decide_eq_true_eq, decide_eq_true_eq]

theorem dviOp_yields :
    AluOp.Yields dviOp (fun w a m _ => wrapped w ((signedValue w a).tdiv (signedValue w m)))
      (fun w a m f => { f.sign w (wrapped w ((signedValue w a).tdiv (signedValue w m))) with
        v := !fitsSigned w ((signedValue w a).tdiv (signedValue w m)) }) := by
  have value : ∀ n (a m : BitVec n), (BitVec.ofInt n (a.toInt.tdiv m.toInt)).toNat =
      wrapped n ((signedValue n a.toNat).tdiv (signedValue n m.toNat)) := fun n a m => by
    rw [toNat_ofInt_eq_wrapped, signedValue_toNat, signedValue_toNat]
  refine ⟨fun n _ a m _ => value n a m, fun n hn a m f => ?_⟩
  rw [dviOp]
  dsimp only
  rw [Flags.withNZ_eq_sign, value, quotient_overflow hn a.isLt m.isLt]

theorem mdiOp_yields :
    AluOp.Yields mdiOp
      (fun w a m _ => wrapped w (signedValue w a - signedValue w m * (signedValue w a).tdiv (signedValue w m)))
      (fun w a m f => f.sign w (wrapped w (signedValue w a - signedValue w m * (signedValue w a).tdiv (signedValue w m)))) := by
  have value : ∀ n (a m : BitVec n), (BitVec.ofInt n (a.toInt - m.toInt * a.toInt.tdiv m.toInt)).toNat =
      wrapped n (signedValue n a.toNat - signedValue n m.toNat * (signedValue n a.toNat).tdiv (signedValue n m.toNat)) :=
    fun n a m => by rw [toNat_ofInt_eq_wrapped, signedValue_toNat, signedValue_toNat]
  refine ⟨fun n _ a m _ => value n a m, fun n _ a m f => ?_⟩
  rw [mdiOp]
  dsimp only
  rw [Flags.withNZ_eq_sign, value]

/-- Settles O26: quotient and remainder of numbers, and the fault of a division by 0. -/
theorem divideUnsigned : Obligations.DivideUnsigned := by
  intro d m s s1 x read a
  refine ⟨fun divisor => ⟨?_, ?_⟩, fun zero i hi => ?_⟩
  · exact exec_divide_of_yields divOp_yields rfl rfl read divisor
  · exact exec_divide_of_yields modOp_yields rfl rfl read divisor
  · obtain rfl | rfl : i = .div d m ∨ i = .mod d m := by simpa using hi
    · exact exec_divide_zero (op := divOp) rfl read zero
    · exact exec_divide_zero (op := modOp) rfl read zero

/-- Settles O27: the truncated quotient and its remainder, and the fault of a division by 0. -/
theorem divideSigned : Obligations.DivideSigned := by
  intro d m s s1 x read w q r
  refine ⟨fun divisor => ⟨?_, ?_⟩, fun zero i hi => ?_⟩
  · exact exec_divide_of_yields dviOp_yields rfl rfl read divisor
  · exact exec_divide_of_yields mdiOp_yields rfl rfl read divisor
  · obtain rfl | rfl : i = .dvi d m ∨ i = .mdi d m := by simpa using hi
    · exact exec_divide_zero (op := dviOp) rfl read zero
    · exact exec_divide_zero (op := mdiOp) rfl read zero

/-! ### Multiplication of bytes -/

theorem product8Low_toNat (signed : Bool) (a m : Byte) :
    (product8Low signed a m).toNat =
      wrapped 8 (if signed then signedValue 8 a.toNat * signedValue 8 m.toNat else (a.toNat : Int) * m.toNat) := by
  cases signed with
  | true => rw [if_pos rfl, signedValue_toNat, signedValue_toNat]; exact toNat_ofInt_eq_wrapped 8 _
  | false =>
    rw [if_neg Bool.false_ne_true, ← Nat.cast_mul, wrapped_natCast]
    exact BitVec.toNat_ofNat _ 8

/-- Writes of two registers commute. -/
theorem State.setReg_comm (s : State) {r q : Reg} (v w : Word) (h : r ≠ q) :
    (s.setReg r v).setReg q w = (s.setReg q w).setReg r v := by
  have index : r.val ≠ q.val := fun e => h (Fin.ext e)
  simp only [State.setReg]
  rw [Vector.set_comm _ _ index]

/-- Rx takes the low byte; R0, where it is not Rx, and N, Z and C are free values (40_alu.md R194). -/
theorem multiplyResult_byte (signed : Bool) (d : Reg) (b : Byte) (s : State) {p : Int}
    (product : (product8Low signed (lowByte (s.reg d)) b).toNat = wrapped 8 p) :
    ∃ (h : Word) (n z c : Bool), multiplyResult signed d (.byte b) s =
      .done () (((if d = 0 then s.afterDraw else s.afterDraw.setReg 0 h).setReg d (BitVec.ofNat 16 (wrapped 8 p))).setFlags
        { s.flags with n := n, z := z, c := c }) := by
  refine ⟨Config.mul8High s.draws, (Config.mul8Flags s.draws).getLsbD 2, (Config.mul8Flags s.draws).getLsbD 1,
    (Config.mul8Flags s.draws).getLsbD 0, ?_⟩
  have low : (product8Low signed (lowByte (s.reg d)) b).setWidth 16 = BitVec.ofNat 16 (wrapped 8 p) := by
    rw [← product, BitVec.ofNat_toNat]
  unfold multiplyResult
  dsimp only
  rw [low]
  by_cases zero : d = 0
  · rw [if_pos zero, if_pos zero]; rfl
  · rw [if_neg zero, if_neg zero, State.setReg_comm _ _ _ zero]; rfl

/-- Settles O25: the low byte of each product is the stated number, whatever the free values are. -/
theorem multiplyBytes : Obligations.MultiplyBytes := by
  intro d m s s1 b read i p instruction
  have low : (lowByte (s.reg d)).toNat = (s.reg d).toNat % 2 ^ 8 := BitVec.extractLsb'_toNat ..
  have bus := withBus_of_readOperand read
  have row : ∃ signed, exec i s = aluRun (opcode i) m s (multiplyResult signed d) ∧ immediates i = m.immediates ∧
      (product8Low signed (lowByte (s.reg d)) b).toNat = wrapped 8 p := by
    obtain ⟨rfl, rfl⟩ | ⟨rfl, rfl⟩ := instruction
    · exact ⟨false, rfl, rfl, by rw [product8Low_toNat, low]; rfl⟩
    · exact ⟨true, rfl, rfl, by rw [product8Low_toNat, low]; rfl⟩
  obtain ⟨signed, template, words, product⟩ := row
  obtain ⟨h, n, z, c, done⟩ := multiplyResult_byte signed d b (s.withBus s1) product
  exact ⟨h, n, z, c, exec_alu_done template words read done⟩

/-! ### Comparison -/

theorem compareResult_eq (d : Reg) (x : OpValue) (s : State) :
    compareResult d x s = .done () (s.setFlags
      { s.flags with
        n := decide (x.int ≤ x.firstInt (s.reg d)), z := decide (x.first (s.reg d) = x.nat)
        c := decide (x.nat ≤ x.first (s.reg d)) }) := by
  have compare : ∀ {n : Nat} (a m : BitVec n), cmpFlags a m s.flags =
      { s.flags with
        n := decide (signedValue n m.toNat ≤ signedValue n a.toNat), z := decide (a.toNat = m.toNat)
        c := decide (m.toNat ≤ a.toNat) } := fun a m => by
    simp only [cmpFlags, signedValue_toNat, beq_eq_decide, BitVec.toNat_inj]
  cases x with
  | byte b =>
    have low : (lowByte (s.reg d)).toNat = (OpValue.byte b).first (s.reg d) := BitVec.extractLsb'_toNat ..
    rw [compareResult, compare, low]
    rfl
  | word v =>
    have whole : (s.reg d).toNat = (OpValue.word v).first (s.reg d) := (Nat.mod_eq_of_lt (s.reg d).isLt).symm
    rw [compareResult, compare, whole]
    rfl

/-- Settles O23: the two comparisons and the equality of numbers. -/
theorem compareSetsFlags : Obligations.CompareSetsFlags := fun d _ s s1 x read =>
  exec_alu_done (i := .cmp d _) rfl rfl read (compareResult_eq d x (s.withBus s1))

/-! ### Operands that cannot be read -/

/-- Settles O19: the template raises before the operation runs. -/
theorem operandFaultIsPrecise : Obligations.OperandFaultIsPrecise := by
  intro d m s s1 x raised
  obtain ⟨n, -, effect⟩ := readOperand_trap raised
  refine ⟨effect.withBus.symm, fun i hi => ?_⟩
  have template : ∃ k, exec i s = aluRun (opcode i) m s k := by
    simp only [List.mem_cons, List.not_mem_nil, or_false] at hi
    rcases hi with rfl | rfl | rfl | rfl | rfl | rfl | rfl | rfl | rfl | rfl | rfl | rfl | rfl | rfl | rfl | rfl | rfl <;>
      exact ⟨_, rfl⟩
  obtain ⟨k, run⟩ := template
  rw [run, aluRun_trap raised]

end Sys2Proof.Machine
end

section
/-! PROOFS. The families of 41_shift.md, 43_branch.md and 44_increment_set.md: instructions of one word that read registers and flags alone. -/

namespace Sys2Proof.Machine

/-! ### Shifts -/

theorem shiftCount_eq_statedCount (n : CountOperand) (s : State) : shiftCount n s = statedCount n s := by
  cases n with
  | constant => rfl
  | register _ r => exact lowNibble_toNat (s.reg r)

/-- An instruction of the shift template whose operation gives the number `r` and the flags `f`. -/
theorem exec_shiftRun {i : Instr} {op : ShiftOp} {d : Reg} {n : CountOperand} {s : State} {r : Nat} {f : Flags}
    (template : exec i s = shiftRun op d n s) (word : nextPc i s = s.pc + 2)
    (value : (op (s.reg d) (statedCount n s) s.flags).value = BitVec.ofNat 16 r)
    (flags : (op (s.reg d) (statedCount n s) s.flags).flags = f) : exec i s = .next (s.finish d r f (nextPc i s)) := by
  rw [template, shiftRun, shiftCount_eq_statedCount, word]
  show Host.Outcome.next (((s.setReg d _).setFlags _).setPc _) = _
  rw [value, flags]
  rfl

theorem shiftLeft_computes (v : Word) (k : Nat) (f : Flags) :
    (shiftLeft v k f).value = BitVec.ofNat 16 (v.toNat * 2 ^ k % 2 ^ 16) ∧
      (shiftLeft v k f).flags =
        { f.sign 16 (v.toNat * 2 ^ k % 2 ^ 16) with c := decide (2 ^ 16 ≤ v.toNat * 2 ^ k) } := by
  have number : (BitVec.ofNat 16 (v.toNat * 2 ^ k)).toNat = v.toNat * 2 ^ k % 2 ^ 16 := BitVec.toNat_ofNat _ _
  refine ⟨?_, ?_⟩
  · rw [← number, BitVec.ofNat_toNat, BitVec.setWidth_eq]; rfl
  · rw [← number, ← Flags.withNZ_eq_sign]; rfl

/-- A bit shifted out was 1 (41_shift.md R223, R225). -/
theorem anyShiftedOut_eq (v : Word) (k : Nat) : anyShiftedOut v k = decide (v.toNat % 2 ^ k ≠ 0) := by
  rw [anyShiftedOut, beq_eq_decide, decide_not]

theorem shiftRightLogical_computes (v : Word) (k : Nat) (f : Flags) :
    (shiftRightLogical v k f).value = BitVec.ofNat 16 (v.toNat / 2 ^ k) ∧
      (shiftRightLogical v k f).flags = { f.sign 16 (v.toNat / 2 ^ k) with c := decide (v.toNat % 2 ^ k ≠ 0) } := by
  have number : (v >>> k).toNat = v.toNat / 2 ^ k := by rw [BitVec.toNat_ushiftRight, Nat.shiftRight_eq_div_pow]
  refine ⟨?_, ?_⟩
  · rw [← number, BitVec.ofNat_toNat, BitVec.setWidth_eq]; rfl
  · rw [← number, ← Flags.withNZ_eq_sign, ← anyShiftedOut_eq]; rfl

/-- The arithmetic shift is the floor of the signed quotient (41_shift.md R223). -/
theorem sshiftRight_toNat (v : Word) (k : Nat) : (v.sshiftRight k).toNat = wrapped 16 (signedValue 16 v.toNat / 2 ^ k) := by
  have quotient : (v.sshiftRight k).toInt = v.toInt / 2 ^ k := by
    rw [BitVec.toInt_sshiftRight, Int.shiftRight_eq_div_pow, Nat.cast_pow, Nat.cast_ofNat]
  rw [← toNat_ofInt_eq_wrapped, signedValue_toNat, ← quotient, BitVec.ofInt_toInt]

theorem shiftRightArithmetic_computes (v : Word) (k : Nat) (f : Flags) :
    let r := wrapped 16 (signedValue 16 v.toNat / 2 ^ k)
    (shiftRightArithmetic v k f).value = BitVec.ofNat 16 r ∧
      (shiftRightArithmetic v k f).flags =
        { f.sign 16 r with c := decide (v.toNat % 2 ^ k ≠ 0), v := decide (v.toNat ≠ 0xFFFF) && decide (r = 0xFFFF) } := by
  have ones : ∀ w : Word, (w == 0xFFFF) = decide (w.toNat = 0xFFFF) := fun w => by
    rw [beq_eq_decide, decide_eq_decide, ← BitVec.toNat_inj]
    rfl
  refine ⟨?_, ?_⟩
  · rw [← sshiftRight_toNat, BitVec.ofNat_toNat, BitVec.setWidth_eq]; rfl
  · rw [← sshiftRight_toNat, ← Flags.withNZ_eq_sign, ← anyShiftedOut_eq]
    simp only [ne_eq, decide_not, ← ones]
    rfl

/-- Settles O30: each operation gives the stated number and flags. -/
theorem shiftResultsAndFlags : Obligations.ShiftResultsAndFlags := by
  intro d n s v k left low right
  obtain ⟨leftValue, leftFlags⟩ := shiftLeft_computes (s.reg d) k s.flags
  obtain ⟨rightValue, rightFlags⟩ := shiftRightLogical_computes (s.reg d) k s.flags
  obtain ⟨signedValue, signedFlags⟩ := shiftRightArithmetic_computes (s.reg d) k s.flags
  refine ⟨fun i hi => ?_, exec_shiftRun rfl rfl rightValue rightFlags, exec_shiftRun rfl rfl signedValue signedFlags⟩
  obtain rfl | rfl : i = .asl d n ∨ i = .lsl d n := by simpa using hi
  · exact exec_shiftRun rfl rfl leftValue leftFlags
  · exact exec_shiftRun rfl rfl leftValue leftFlags

/-! ### Rotates -/

/-- A rotation to the left moves each bit up by the count, around the width. -/
theorem rotateLeft_getLsbD_add {w : Nat} (x : BitVec w) (k : Nat) {j : Nat} (hj : j < w) :
    (x.rotateLeft k).getLsbD ((j + k) % w) = x.getLsbD j := by
  have hk : k % w < w := Nat.mod_lt _ (by omega)
  rw [BitVec.getLsbD_rotateLeft, ← Nat.add_mod_mod]
  rcases Nat.lt_or_ge (j + k % w) w with inside | around
  · rw [Nat.mod_eq_of_lt inside]
    simp [inside]
  · rw [Nat.mod_eq_sub_mod around, Nat.mod_eq_of_lt (by omega)]
    simp [show j + k % w - w < k % w by omega, show w - k % w + (j + k % w - w) = j by omega]

/-- A rotation to the right takes each bit from the place that lies above it by the count, around the width. -/
theorem rotateRight_getLsbD {w : Nat} (x : BitVec w) (k : Nat) {j : Nat} (hj : j < w) :
    (x.rotateRight k).getLsbD j = x.getLsbD ((j + k) % w) := by
  have hk : k % w < w := Nat.mod_lt _ (by omega)
  have place : (j + k) % w = (j + k % w) % w := (Nat.add_mod_mod j k w).symm
  rw [BitVec.getLsbD_rotateRight, place]
  generalize k % w = r at hk
  rcases Nat.lt_or_ge (j + r) w with inside | around
  · simp [Nat.mod_eq_of_lt inside, show j < w - r by omega, Nat.add_comm]
  · have wrap : (j + r) % w = j - (w - r) := by rw [Nat.mod_eq_sub_mod around, Nat.mod_eq_of_lt (by omega)]; omega
    simp [wrap, show ¬ j < w - r by omega, hj]

/-- The ring of C and a register, bit by bit (41_shift.md R228). -/
theorem carryRing_getLsbD (c : Bool) (v : Word) {j : Nat} (hj : j < 17) :
    (carryRing c v).getLsbD j = if j = 16 then c else v.getLsbD j := by
  rw [carryRing, BitVec.getLsbD_append]
  rcases Nat.lt_or_ge j 16 with low | high
  · simp [low, show j ≠ 16 by omega]
  · obtain rfl : j = 16 := by omega
    simp

/-- A ring of 17 bits is its bit 16 and the word below it. -/
theorem ring_getLsbD (t : BitVec 17) {j : Nat} (hj : j < 17) :
    (if j = 16 then t.getLsbD 16 else (t.extractLsb' 0 16).getLsbD j) = t.getLsbD j := by
  split
  case isTrue top => rw [top]
  case isFalse below => simp [show j < 16 by omega]

theorem exec_rotate {i : Instr} {op : ShiftOp} {d : Reg} {n : CountOperand} {s : State} {r : Word} {f : Flags}
    (template : exec i s = shiftRun op d n s) (word : nextPc i s = s.pc + 2)
    (value : op (s.reg d) (statedCount n s) s.flags = ⟨r, f⟩) : exec i s = .next (s.finish d r.toNat f (nextPc i s)) :=
  exec_shiftRun template word (by rw [value, BitVec.ofNat_toNat, BitVec.setWidth_eq]) (by rw [value])

/-- Settles O31: the rotations of the register, and of the ring of C and the register. -/
theorem rotates : Obligations.Rotates := by
  intro d n s k ring
  have modulo : ∀ j, (j + k % 16) % 16 = (j + k) % 16 := fun j => Nat.add_mod_mod j k 16
  refine ⟨⟨(s.reg d).rotateLeft (k % 16), (s.reg d).rotateRight (k % 16), fun j hj => ?_, fun j hj => ?_, ?_, ?_⟩, ?_⟩
  · rw [← modulo, rotateLeft_getLsbD_add _ _ hj]
  · rw [← modulo, rotateRight_getLsbD _ _ hj]
  · exact exec_rotate (op := rotateLeftPlain) rfl rfl (by rw [← Flags.withNZ_eq_sign]; rfl)
  · exact exec_rotate (op := rotateRightPlain) rfl rfl (by rw [← Flags.withNZ_eq_sign]; rfl)
  · refine ⟨((carryRing s.flags.c (s.reg d)).rotateLeft k).extractLsb' 0 16,
      ((carryRing s.flags.c (s.reg d)).rotateRight k).extractLsb' 0 16,
      ((carryRing s.flags.c (s.reg d)).rotateLeft k).getLsbD 16, ((carryRing s.flags.c (s.reg d)).rotateRight k).getLsbD 16,
      fun j hj => ?_, fun j hj => ?_, ?_, ?_⟩
    · rw [ring_getLsbD _ (Nat.mod_lt _ (by decide)), rotateLeft_getLsbD_add _ _ hj, carryRing_getLsbD _ _ hj]
    · rw [ring_getLsbD _ hj, rotateRight_getLsbD _ _ hj, carryRing_getLsbD _ _ (Nat.mod_lt _ (by decide))]
    · exact exec_rotate (op := rotateLeftCarry) rfl rfl (by rw [← Flags.withNZ_eq_sign]; rfl)
    · exact exec_rotate (op := rotateRightCarry) rfl rfl (by rw [← Flags.withNZ_eq_sign]; rfl)

/-! ### Increments and constants -/

theorem incrementValue_toNat (v : BitVec 5) : (incrementValue v).toNat = v.toNat + 1 :=
  (BitVec.toNat_ofNat _ _).trans (Nat.mod_eq_of_lt (by have := v.isLt; omega))

/-- An operand of 1 to 32 is a positive number. -/
theorem signedValue_increment (v : BitVec 5) : signedValue 16 (v.toNat + 1) = (v.toNat + 1 : Nat) :=
  if_pos (show v.toNat + 1 < 2 ^ 15 by have := v.isLt; omega)

theorem exec_incrementRun {i : Instr} {o : AluOut 16} {d : Reg} {s : State} {r : Nat} {f : Flags}
    (template : exec i s = incrementRun o d s) (value : o.value.toNat = r) (flags : o.flags = f) :
    exec i s = .next (s.finish d r f (s.pc + 2)) := by
  rw [template, incrementRun, State.finish, ← value, flags, BitVec.ofNat_toNat, BitVec.setWidth_eq]

/-- Settles O33: ADI and SBI are the sum and the difference of the ALU instructions; SET writes its constant. -/
theorem incrementsAndSet : Obligations.IncrementsAndSet := by
  intro d v alternate s a k r constant
  have step := incrementValue_toNat v
  have signed := signedValue_increment v
  have sumValue := addc_value (s.reg d) (incrementValue v) false
  have sumFlags := addc_flags (by decide) (s.reg d) (incrementValue v) false
  obtain ⟨difference, differenceFlags⟩ := subc_value_flags (by decide) (s.reg d) (incrementValue v) true 0 rfl
  simp only [step, signed, Bool.toNat_false, Nat.cast_zero, Int.add_zero, Nat.add_zero, Int.sub_zero] at *
  refine ⟨exec_incrementRun rfl sumValue sumFlags, exec_incrementRun rfl difference differenceFlags, ?_, ?_⟩
  · have value : setConstant alternate v = BitVec.ofNat 16 constant := by
      cases alternate
      · rfl
      · simp only [setConstant, constant, if_true, Bool.true_eq_false, if_false]
        split <;> rfl
    rw [← value]
    rfl
  · have range := v.isLt
    simp only [constant]
    split
    · omega
    · split
      · exact (Nat.pow_le_pow_right (by decide) (show 5 + v.toNat ≤ 15 by omega)).trans_lt (by decide)
      · omega

/-! ### Branches -/

/-- A taken branch goes to its own address plus twice its signed offset (43_branch.md R250). -/
theorem branchTarget_eq (pc : Word) (b : BitVec 8) :
    branchTarget pc b = BitVec.ofInt 16 (pc.toNat + 2 * signedValue 8 b.toNat) := by
  rw [BitVec.ofInt_add, BitVec.ofInt_mul, signedValue_toNat, BitVec.ofInt_natCast, BitVec.ofNat_toNat, BitVec.setWidth_eq]
  rfl

/-- What every branch does, its condition being `cond`: it writes PC and nothing else. -/
theorem branchRun_eq (cond : Bool) (b : BitVec 8) (s : State) :
    branchRun cond b s =
      .next (s.setPc (if cond then BitVec.ofInt 16 (s.pc.toNat + 2 * signedValue 8 b.toNat) else s.pc + 2)) := by
  rw [branchRun, branchTarget_eq]

/-- Settles O35: the common rule, with the condition of each branch. -/
theorem branches : Obligations.Branches := by
  intro b s i cond n z c v branch
  have template : exec i s = branchRun cond b s := by
    rcases branch with ⟨rfl, rfl⟩ | ⟨rfl, rfl⟩ | ⟨rfl, rfl⟩ | ⟨rfl, rfl⟩ | ⟨rfl, rfl⟩ | ⟨rfl, rfl⟩ | ⟨rfl, rfl⟩ | ⟨rfl, rfl⟩ |
      ⟨rfl, rfl⟩ | ⟨rfl, rfl⟩ | ⟨rfl, rfl⟩ <;> rfl
  have following : s.pc + 2 = BitVec.ofInt 16 (s.pc.toNat + 2) := by
    rw [BitVec.ofInt_add, BitVec.ofInt_natCast, BitVec.ofNat_toNat, BitVec.setWidth_eq]
    rfl
  rw [template, branchRun_eq, following, State.setPc]
  cases cond <;> rfl

theorem signedValue_inj {w a b : Nat} (ha : a < 2 ^ w) (hb : b < 2 ^ w) : signedValue w a = signedValue w b ↔ a = b := by
  have width : ((2 ^ w : Nat) : Int) = 2 ^ w := Nat.cast_pow 2 w
  simp only [signedValue, ← width]
  split <;> split <;> omega

/-- The operands are equal as signed numbers exactly where they are as unsigned ones. -/
theorem OpValue.firstInt_eq_int_iff (x : OpValue) (a : Word) : x.firstInt a = x.int ↔ x.first a = x.nat := by
  have range : x.nat < 2 ^ x.width := by cases x with | byte v | word v => exact v.isLt
  exact signedValue_inj (Nat.mod_lt _ (Nat.two_pow_pos _)) range

/-- Settles O36: the flags of CMP make each condition the comparison itself. -/
theorem compareThenBranch : Obligations.CompareThenBranch := by
  intro d m s s1 t x b read compared i taken branch
  have after := compareSetsFlags d m s s1 x read
  have result := Host.Outcome.next.inj (compared.symm.trans after)
  have flags := (congrArg State.flags result).trans (State.setFlags_flags _ _)
  obtain ⟨cond, run, condition⟩ : ∃ cond, exec i t = branchRun cond b t ∧ (cond = true ↔ taken) := by
    have equal := x.firstInt_eq_int_iff (s.reg d)
    rcases branch with ⟨rfl, rfl⟩ | ⟨rfl, rfl⟩ | ⟨rfl, rfl⟩ | ⟨rfl, rfl⟩ | ⟨rfl, rfl⟩ | ⟨rfl, rfl⟩ | ⟨rfl, rfl⟩ <;>
      refine ⟨_, rfl, ?_⟩ <;> simp only [flags, Bool.and_eq_true, Bool.not_eq_true', decide_eq_true_eq, decide_eq_false_iff_not] <;>
      omega
  rw [run, branchRun_eq]
  exact ⟨fun yes => by rw [condition.mpr yes, if_pos rfl], fun no => by rw [if_neg (mt condition.mp no)]⟩

end Sys2Proof.Machine
end

section
/-! PROOFS. Privilege, undefined encodings, the control registers as targets of STO, STX and SLP, and the hardware queries
(46_stack.md, 47_processor_functions.md). -/

namespace Sys2Proof.Machine

/-! ### Privilege -/

theorem supervisorOnly_supervisor {s : State} (mode : s.supervisor = true) (r : Res Unit) : supervisorOnly s r = r := if_pos mode

theorem supervisorOnly_user {s : State} (mode : s.supervisor = false) (r : Res Unit) :
    supervisorOnly s r = .trap .unprivileged s := if_neg (by simp [mode])

/-- A jump operand that has a far form and is no undefined pattern raises UnprivFault in user mode, before it is read. -/
theorem farTarget_unprivileged {m : JumpOperand} {s : State} (mode : s.supervisor = false) (far : m.wfFar = true)
    (defined : ∀ es x, m ≠ .undefinedMode es x) : farTarget m s = .trap .unprivileged s := by
  have user : ¬ s.supervisor = true := by simp [mode]
  cases m with
  | register es r f => cases far
  | undefinedMode es x => exact absurd rfl (defined es x)
  | immediate | absolute | indirect | indirectOffset | indirectIndexed => exact if_neg user

theorem exec_jmpF (m : JumpOperand) (s : State) :
    exec (.jmpF m) s = perform (opcode (.jmpF m)) s.pc
      ((farTarget m s).andThen fun tg s1 => .done () ((s1.setSeg .css tg.2).setPc tg.1)) := rfl

theorem exec_jsrF (m : JumpOperand) (s : State) :
    exec (.jsrF m) s = perform (opcode (.jsrF m)) s.pc ((farTarget m s).andThen fun tg s1 =>
      (pushWords .other [s1.segs.css.extractLsb' 16 16, s1.segs.css.extractLsb' 0 16, s.pc + jumpLength true m] s1).andThen
        fun _ s2 => .done () ((s2.setSeg .css tg.2).setPc tg.1)) := rfl

/-- Settles O53: each of these instructions is a part that raises before it does anything. -/
theorem privilegedInUserMode : Obligations.PrivilegedInUserMode := by
  intro s i mode privileged
  have guarded : ∀ {r : Res Unit}, exec i s = perform (opcode i) s.pc (supervisorOnly s r) →
      exec i s = .next (takeInterrupt (.unprivFault (opcode i)) s.pc s) := fun run => by
    rw [run, supervisorOnly_user mode]
    rfl
  rcases privileged with listed | ⟨n, rfl⟩ | ⟨u, x, r, rfl⟩ | ⟨u, x, r, rfl⟩ | ⟨d, es, rfl⟩ | ⟨m, jump, far, defined⟩
  · simp only [List.mem_cons, List.not_mem_nil, or_false] at listed
    rcases listed with rfl | rfl | rfl | rfl | rfl | rfl | rfl | rfl | rfl | rfl <;> exact guarded rfl
  · exact guarded (r := .done () ((s.setSp (s.sp + 2 * n.signExtend 16)).setPc (s.pc + 2))) rfl
  · exact guarded rfl
  · exact guarded rfl
  · have control : storeOperand (.control es 2) (s.reg d) s = .trap .unprivileged s := if_neg (by simp [mode])
    exact congrArg (perform (opcode (.sto d (.control es 2))) s.pc) control
  · have raised := farTarget_unprivileged mode far defined
    rcases jump with rfl | rfl
    · rw [exec_jmpF, raised]
      rfl
    · rw [exec_jsrF, raised]
      rfl

/-! ### Undefined encodings -/

/-- The operands that no value is read from (30_encoding.md R156, 40_alu.md R174). -/
theorem readOperand_undefined {m : Operand}
    (undefined : (∃ es x e, m = .undefinedMode es x e) ∨ ∃ es p, m = .control es p ∧ p ∈ [3#3, 4#3, 5#3]) (s : State) :
    readOperand m s = .trap .undefined s := by
  rcases undefined with ⟨es, x, e, rfl⟩ | ⟨es, p, rfl, reserved⟩
  · rfl
  · simp only [List.mem_cons, List.not_mem_nil, or_false] at reserved
    rcases reserved with rfl | rfl | rfl <;> rfl

theorem storeOperand_undefined {m : Operand}
    (undefined : (∃ es x e, m = .undefinedMode es x e) ∨ ∃ es p, m = .control es p ∧ p ∈ [3#3, 4#3, 5#3]) (v : Word) (s : State) :
    storeOperand m v s = .trap .undefined s := by
  rcases undefined with ⟨es, x, e, rfl⟩ | ⟨es, p, rfl, reserved⟩
  · rfl
  · simp only [List.mem_cons, List.not_mem_nil, or_false] at reserved
    rcases reserved with rfl | rfl | rfl <;> rfl

theorem selectSegment_undefined {u : Bool} {r : BitVec 3} (h : 5 ≤ r.toNat ∨ (r.toNat = 4 ∧ u = true)) :
    selectSegment u r = none := by
  have beyond : ∀ (u : Bool) (r : BitVec 3), 5 ≤ r.toNat → selectSegment u r = none := by decide
  rcases h with high | ⟨four, rfl⟩
  · exact beyond u r high
  · simp [selectSegment, four]

/-- The rows of undefined low octets. -/
theorem exec_undefinedOctet (h : BitVec 8) (w : Word) (s : State) :
    ∀ i ∈ [Instr.undefined9A h, .undefined9B h, .undefined9C h, .undefined9D h, .undefined9E h, .undefinedBCtoBF w,
      .undefinedC0toFF w], exec i s = .next (takeInterrupt (.undefFault (opcode i)) s.pc s) := by
  intro i row
  simp only [List.mem_cons, List.not_mem_nil, or_false] at row
  rcases row with rfl | rfl | rfl | rfl | rfl | rfl | rfl <;> rfl

/-- Settles O54: no undefined encoding gets as far as a value, a target or a segment register. -/
theorem undefinedEncodings : Obligations.UndefinedEncodings := by
  intro s d m
  refine ⟨fun h w => exec_undefinedOctet h w s, fun undefined i listed => ?_, fun es x i jump => ?_, fun u x r mode selection i hi => ?_⟩
  · obtain ⟨-, precise⟩ := operandFaultIsPrecise d m s s .undefined (readOperand_undefined undefined s)
    have store := storeOperand_undefined undefined (s.reg d) s
    by_cases sto : i = .sto d m
    · subst sto
      exact congrArg (perform (opcode (.sto d m)) s.pc) store
    · refine precise i ?_
      simp only [List.mem_cons, List.not_mem_nil, or_false] at listed ⊢
      tauto
  · simp only [List.mem_cons, List.not_mem_nil, or_false] at jump
    rcases jump with rfl | rfl | rfl | rfl <;> rfl
  · have none := selectSegment_undefined selection
    simp only [List.mem_cons, List.not_mem_nil, or_false] at hi
    rcases hi with rfl | rfl
    · show perform _ _ (supervisorOnly s _) = _
      rw [supervisorOnly_supervisor mode, none]
      rfl
    · show perform _ _ (supervisorOnly s _) = _
      rw [supervisorOnly_supervisor mode, none]
      rfl

/-! ### STO to a control register, STX, SLP -/

/-- Settles O29: one control register at a time. -/
theorem storeToControlRegister : Obligations.StoreToControlRegister := by
  intro d es p s i v
  show perform (opcode i) s.pc (writeControl p v (s.pc + 2) s) = _
  fin_cases p
  · rfl
  · rfl
  · show perform (opcode i) s.pc (if s.ps.getLsbD 15 then _ else _) = .next (if s.ps.getLsbD 15 then _ else _)
    split <;> rfl
  · rfl
  · rfl
  · rfl
  · rfl
  · show Host.Outcome.next ((s.setSp v).setPc (s.pc + 2)) = .next (if s.ps.getLsbD 15 then _ else _)
    unfold State.setSp State.supervisor
    split <;> rfl

/-- Settles O47. -/
theorem stxAndSlp : Obligations.StxAndSlp := by
  intro s mode
  refine ⟨fun n => ?_, ?_⟩
  · have moved : s.ssp + 2 * n.signExtend 16 = BitVec.ofInt 16 (s.ssp.toNat + 2 * signedValue 8 n.toNat) := branchTarget_eq s.ssp n
    show perform _ _ (if s.supervisor then _ else _) = _
    rw [if_pos mode, State.sp_of_supervisor mode, State.setSp_of_supervisor mode, moved]
    rfl
  · show perform _ _ (supervisorOnly s _) = _
    rw [supervisorOnly_supervisor mode]
    rfl

/-! ### Hardware queries -/

/-- In supervisor mode a query writes what it answers and advances PC. -/
theorem exec_query {i : Instr} {s t : State} (mode : s.supervisor = true)
    (query : exec i s = perform (opcode i) s.pc (supervisorOnly s (queryDone t))) : exec i s = .next (t.setPc (t.pc + 2)) := by
  rw [query, supervisorOnly_supervisor mode]
  rfl

theorem amountWords_eq (bytes : Nat) :
    amountWords bytes =
      (BitVec.ofNat 16 (if bytes = 0 then 0xFFFF else bytes / 2 ^ (16 * 0) % 2 ^ 16),
       BitVec.ofNat 16 (if bytes = 0 then 0xFFFF else bytes / 2 ^ (16 * 1) % 2 ^ 16)) := by
  unfold amountWords
  split
  · rfl
  · congr 1 <;> apply BitVec.eq_of_toNat_eq <;> simp

theorem append_toNat {a b : Nat} (x : BitVec a) (y : BitVec b) : (x ++ y).toNat = x.toNat * 2 ^ b + y.toNat := by
  rw [BitVec.toNat_append, Nat.shiftLeft_eq, Nat.mul_comm, ← Nat.two_pow_add_eq_or_of_lt y.isLt]

/-- The high octet of a word and its low octet, as `HWQ $80` packs them. -/
theorem RtcTime.words_eq (t : RtcTime) :
    t.words = (BitVec.ofNat 16 (t.year.toNat * 256 + t.month.toNat), BitVec.ofNat 16 (t.day.toNat * 256 + t.hour.toNat),
      BitVec.ofNat 16 (t.minute.toNat * 256 + t.second.toNat), t.tick) := by
  have date : (t.year ++ 0#4 ++ t.month : BitVec 16) = BitVec.ofNat 16 (t.year.toNat * 256 + t.month.toNat) := by
    have year := t.year.isLt
    have month := t.month.isLt
    apply BitVec.eq_of_toNat_eq
    simp only [append_toNat, BitVec.toNat_ofNat]
    omega
  have hours : (0#3 ++ t.day ++ 0#3 ++ t.hour : BitVec 16) = BitVec.ofNat 16 (t.day.toNat * 256 + t.hour.toNat) := by
    have day := t.day.isLt
    have hour := t.hour.isLt
    apply BitVec.eq_of_toNat_eq
    simp only [append_toNat, BitVec.toNat_ofNat]
    omega
  have minutes : (0#2 ++ t.minute ++ 0#2 ++ t.second : BitVec 16) =
      BitVec.ofNat 16 (t.minute.toNat * 256 + t.second.toNat) := by
    have minute := t.minute.isLt
    have second := t.second.isLt
    apply BitVec.eq_of_toNat_eq
    simp only [append_toNat, BitVec.toNat_ofNat]
    omega
  rw [words, date, hours, minutes]

/-- Settles O50. -/
theorem hardwareQueries : Obligations.HardwareQueries := by
  intro s mode amount rate
  refine ⟨exec_query mode rfl, ?_, ?_, exec_query mode rfl, exec_query mode rfl⟩
  · rw [exec_query (i := .hwq03) mode rfl]
    simp only [amountWords_eq]
    rfl
  · rw [exec_query (i := .hwq80) mode rfl, RtcTime.words_eq]
    rfl

/-- The device in an occupied or empty slot 1 to 15 (60_exceptions.md R368). -/
theorem State.deviceAt_eq {s : State} {slot : BitVec 4} {d : Option Device} (notZero : slot.toNat ≠ 0)
    (found : s.platform.devices[slot.toNat - 1]? = some d) : s.deviceAt slot = d := by
  rw [State.deviceAt, if_neg (fun zero => notZero (by rw [zero]; rfl)), found]
  rfl

/-- The slot number that R0 holds, where it is at most 15. -/
theorem slotNumber_toNat {v : Word} (h : v.toNat ≤ 15) : (v.setWidth 4).toNat = v.toNat :=
  (BitVec.toNat_setWidth ..).trans (Nat.mod_eq_of_lt (by omega))

/-- HWQ $01 in supervisor mode, by the identification it finds. -/
theorem exec_hwq01 {s : State} (mode : s.supervisor = true) :
    exec .hwq01 s = .next (match slotIdentity (s.reg 0) s with
      | none => (s.setReg 0 0xFFFF).setPc (s.pc + 2)
      | some d =>
        ((((s.setReg 0 d.deviceType).setReg 1 d.manufacturer).setReg 2 d.deviceId).setReg 3 d.flags).setPc (s.pc + 2)) := by
  rw [exec_query (i := .hwq01) mode rfl]
  cases slotIdentity (s.reg 0) s <;> rfl

/-- Settles O51: where the identification of a slot comes from. -/
theorem hardwareIdentification : Obligations.HardwareIdentification := by
  intro s mode slot found
  have small : slot ≤ 15 → slotIdentity (s.reg 0) s =
      if s.reg 0 = 0 then some s.platform.selfDescription else (s.deviceAt ((s.reg 0).setWidth 4)).map Device.identity :=
    fun h => if_neg (Nat.not_lt.mpr h)
  have notZero : slot ≠ 0 → s.reg 0 ≠ 0 := fun h zero => h (congrArg BitVec.toNat zero)
  refine ⟨fun zero => ?_, fun d low high occupied => ?_, fun nonzero absent => ?_⟩
  · have value : s.reg 0 = 0 := BitVec.eq_of_toNat_eq zero
    have own : slotIdentity (s.reg 0) s = some s.platform.selfDescription := by rw [small (by omega), if_pos value]
    rw [exec_hwq01 mode, own]
  · have number := slotNumber_toNat high
    have device : s.deviceAt ((s.reg 0).setWidth 4) = some d :=
      State.deviceAt_eq (by omega) (by rw [number]; exact occupied)
    have its : slotIdentity (s.reg 0) s = some d.identity := by
      rw [small high, if_neg (notZero (by omega)), device]
      rfl
    rw [exec_hwq01 mode, its]
  · have nothing : slotIdentity (s.reg 0) s = none := by
      rcases Nat.lt_or_ge 15 slot with beyond | within
      · exact if_pos beyond
      · have empty := absent.resolve_left (by omega)
        have number := slotNumber_toNat within
        have device : s.deviceAt ((s.reg 0).setWidth 4) = none :=
          State.deviceAt_eq (by omega) (by rw [number]; exact empty)
        rw [small within, if_neg (notZero nonzero), device]
        rfl
    rw [exec_hwq01 mode, nothing]

/-! ### Messages -/

theorem State.replyRegisters_eq (s : State) (r : DeviceReply) : s.replyRegisters r = { s with regs := (s.replyRegisters r).regs } := by
  unfold State.replyRegisters
  split <;> rfl

/-- The answers a device may give (47_processor_functions.md R305). -/
theorem State.replyRegisters_answer (s : State) (r : DeviceReply) :
    let t := s.replyRegisters r
    t.reg 0 = 0x0001 ∨ (t.reg 0 = 0x0002 ∧ t.reg 1 = s.reg 1 ∧ t.reg 2 = s.reg 2) ∨
      (t.reg 0 = 0xFFFF ∧ t.reg 1 = s.reg 1 ∧ t.reg 2 = s.reg 2) := by
  have kept : ∀ v : Word, (s.setReg 0 v).reg 1 = s.reg 1 ∧ (s.setReg 0 v).reg 2 = s.reg 2 := fun v =>
    ⟨State.setReg_reg_other s v (by decide), State.setReg_reg_other s v (by decide)⟩
  intro t
  simp only [t, State.replyRegisters]
  split
  · refine .inl ?_
    rw [State.setReg_reg_other _ _ (by decide), State.setReg_reg_other _ _ (by decide), State.setReg_reg_same]
  · exact .inr (.inl ⟨State.setReg_reg_same .., kept _⟩)
  · exact .inr (.inr ⟨State.setReg_reg_same .., kept _⟩)

/-- An answer leaves R3 to R7. -/
theorem State.replyRegisters_reg (s : State) (r : DeviceReply) {q : Reg} (h : 3 ≤ q.val) : (s.replyRegisters r).reg q = s.reg q := by
  have other : ∀ (u : State) {j : Reg} (v : Word), j.val < 3 → (u.setReg j v).reg q = u.reg q := fun u j v hj =>
    State.setReg_reg_other u v (fun same => by rw [same] at h; omega)
  unfold State.replyRegisters
  split
  · rw [other _ _ (by decide), other _ _ (by decide), other _ _ (by decide)]
  · exact other _ _ (by decide)
  · exact other _ _ (by decide)

/-- A device's reaction writes registers, RAM and its own request line. -/
theorem State.deviceReaction_eq (s : State) (slot : BitVec 4) (r : DeviceReply) :
    s.deviceReaction slot r =
      { s with regs := (s.replyRegisters r).regs, ram := (s.deviceReaction slot r).ram
               lines := { s.lines with irq := withBit s.lines.irq slot.toNat r.irq } } := by
  have stores := State.storeAll_eq r.stores (s.replyRegisters r)
  have registers := State.replyRegisters_eq s r
  simp only [State.deviceReaction]
  generalize State.storeAll (s.replyRegisters r) r.stores = u at stores ⊢
  generalize s.replyRegisters r = v at stores registers ⊢
  rw [stores, registers]

/-- HWQ $02 in supervisor mode, by the slot it names. -/
theorem exec_hwq02 {s : State} (mode : s.supervisor = true) :
    exec .hwq02 s = .next (if 15 < (s.reg 0).toNat then s.setPc (s.pc + 2) else
      match s.deviceAt ((s.reg 0).setWidth 4) with
      | none => s.setPc (s.pc + 2)
      | some _ =>
        ((s.afterCall (.message ((s.reg 0).setWidth 4) (s.reg 1) (s.reg 2))).deviceReaction ((s.reg 0).setWidth 4)
          (Config.deviceReply s.calls s.ram ((s.reg 0).setWidth 4) (s.reg 1) (s.reg 2) s.draws)).setPc (s.pc + 2)) := by
  rw [exec_query (i := .hwq02) mode rfl]
  split
  · rfl
  · dsimp only
    cases s.deviceAt ((s.reg 0).setWidth 4) with
    | none => rfl
    | some d =>
      dsimp only
      rw [State.deviceReaction_eq]
      rfl

/-- Settles O52: the reaction of the device, whatever it is, and that nobody answers for the slots without a device. -/
theorem hardwareMessage : Obligations.HardwareMessage := by
  intro s mode slot
  refine ⟨fun absent => ?_, fun d low high occupied => ?_⟩
  · rw [exec_hwq02 mode]
    rcases Nat.lt_or_ge 15 slot with beyond | within
    · rw [if_pos beyond]
    · have number := slotNumber_toNat within
      have nobody : s.deviceAt ((s.reg 0).setWidth 4) = none := by
        by_cases zero : slot = 0
        · exact if_pos (BitVec.eq_of_toNat_eq (by rw [number]; exact zero))
        · have empty := (absent.resolve_left zero).resolve_left (by omega)
          exact State.deviceAt_eq (by omega) (by rw [number]; exact empty)
      rw [if_neg (Nat.not_lt.mpr within), nobody]
  · have number := slotNumber_toNat high
    have named : (s.reg 0).setWidth 4 = BitVec.ofNat 4 slot := BitVec.eq_of_toNat_eq (by simp [slot])
    have device : s.deviceAt ((s.reg 0).setWidth 4) = some d :=
      State.deviceAt_eq (by omega) (by rw [number]; exact occupied)
    rw [exec_hwq02 mode, if_neg (Nat.not_lt.mpr high), device]
    rw [named] at number ⊢
    dsimp only
    generalize Config.deviceReply s.calls s.ram (BitVec.ofNat 4 slot) (s.reg 1) (s.reg 2) s.draws = r
    have whole := State.deviceReaction_eq (s.afterCall (.message (BitVec.ofNat 4 slot) (s.reg 1) (s.reg 2))) (BitVec.ofNat 4 slot) r
    rw [number] at whole
    refine ⟨_, rfl, ?_, ?_, fun q hq => ?_, fun j hj => ?_⟩
    · rw [whole]; rfl
    · rw [whole]; exact State.replyRegisters_answer _ r
    · rw [whole]; exact State.replyRegisters_reg _ r hq
    · rw [whole]; exact withBit_getLsbD_ne _ _ (Ne.symm hj)

end Sys2Proof.Machine
end

section
/-! PROOFS. The accesses of one byte and of one word (20_memory.md). -/

namespace Sys2Proof.Machine

/-! ### Checks and translation as arithmetic of the segment value -/

theorem segmentSize_toNat (r : SegReg) : segmentSize r = (r.toNat / 2 ^ 20 % 2 ^ 8) * 256 + 256 := by
  rw [segmentSize, BitVec.extractLsb'_toNat, Nat.shiftRight_eq_div_pow]

theorem checkAccess_notPresent {r : SegReg} (off : Word) (write : Bool) (h : r.getLsbD 29 = true) :
    checkAccess r off write = some .notPresent := if_pos h

theorem checkAccess_beyondSize {r : SegReg} {off : Word} (write : Bool) (present : r.getLsbD 29 = false)
    (h : segmentSize r ≤ off.toNat) : checkAccess r off write = some .beyondSize := by
  rw [checkAccess, if_neg (ne_true_of_eq_false present), if_pos h]

theorem checkAccess_protected {r : SegReg} {off : Word} (present : r.getLsbD 29 = false) (inside : off.toNat < segmentSize r)
    (h : r.getLsbD 30 = true) : checkAccess r off true = some .writeProtected := by
  rw [checkAccess, if_neg (ne_true_of_eq_false present), if_neg (Nat.not_le.mpr inside), if_pos (show (true && r.getLsbD 30) = true from h)]

/-- A read looks at presence and size alone (20_memory.md R98). -/
theorem checkAccess_read {r : SegReg} {off : Word} (present : r.getLsbD 29 = false) (inside : off.toNat < segmentSize r) :
    checkAccess r off false = none := by
  rw [checkAccess, if_neg (ne_true_of_eq_false present), if_neg (Nat.not_le.mpr inside), if_neg (by simp)]

/-- An access that may write may read. -/
theorem checkAccess_read_of_write {r : SegReg} {off : Word} (h : checkAccess r off true = none) : checkAccess r off false = none := by
  unfold checkAccess at h ⊢
  split at h
  · cases h
  · split at h
    · cases h
    · rename_i absent beyond
      rw [if_neg absent, if_neg beyond, if_neg (by simp)]

theorem translate_ram {r : SegReg} (off : Word) (h : r.getLsbD 31 = false) :
    translate r off = .ram (r.toNat % 2 ^ 20 * 256 + off.toNat) := by
  rw [translate, if_neg (ne_true_of_eq_false h), BitVec.extractLsb'_toNat, Nat.shiftRight_zero]

theorem slot_toNat (r : SegReg) : (r.extractLsb' 16 4).toNat = r.toNat / 2 ^ 16 % 2 ^ 4 := by
  rw [BitVec.extractLsb'_toNat, Nat.shiftRight_eq_div_pow]

theorem translate_rom {r : SegReg} (off : Word) (h : r.getLsbD 31 = true) (slot : r.toNat / 2 ^ 16 % 2 ^ 4 = 0) :
    translate r off = .rom (r.toNat % 2 ^ 16 * 256 + off.toNat) := by
  have zero : r.extractLsb' 16 4 = 0 := BitVec.eq_of_toNat_eq ((slot_toNat r).trans slot)
  rw [translate, if_pos h]
  dsimp only
  rw [if_pos zero, BitVec.extractLsb'_toNat, Nat.shiftRight_zero]

theorem translate_device {r : SegReg} (off : Word) (h : r.getLsbD 31 = true) (slot : r.toNat / 2 ^ 16 % 2 ^ 4 ≠ 0) :
    translate r off = .device (BitVec.ofNat 4 (r.toNat / 2 ^ 16 % 2 ^ 4)) (r.toNat % 2 ^ 16 * 256 + off.toNat) := by
  have nonzero : r.extractLsb' 16 4 ≠ 0 := fun zero => slot ((slot_toNat r).symm.trans (congrArg BitVec.toNat zero))
  rw [translate, if_pos h]
  dsimp only
  rw [if_neg nonzero, ← slot_toNat, BitVec.ofNat_toNat, BitVec.setWidth_eq, BitVec.extractLsb'_toNat, Nat.shiftRight_zero]

/-- Two offsets of a segment that lead to the same byte of RAM are the same. -/
theorem translate_ram_inj {r : SegReg} {x y : Word} {a : Nat} (hx : translate r x = .ram a) (hy : translate r y = .ram a) : x = y := by
  cases kind : r.getLsbD 31 with
  | false =>
    rw [translate_ram _ kind, Place.ram.injEq] at hx hy
    exact BitVec.eq_of_toNat_eq (by omega)
  | true =>
    by_cases slot : r.toNat / 2 ^ 16 % 2 ^ 4 = 0
    · rw [translate_rom _ kind slot] at hx
      cases hx
    · rw [translate_device _ kind slot] at hx
      cases hx

theorem offset_ne_next (off : Word) : off ≠ off + 1 := by bv_omega

/-- A segment value that leads into RAM or ROM leads to no device. -/
theorem translate_onBoard {r : SegReg} (h : onBoard r = true) (off : Word) (slot : BitVec 4) (a : Nat) :
    translate r off ≠ .device slot a := by
  cases kind : r.getLsbD 31 with
  | false =>
    rw [translate_ram _ kind]
    nofun
  | true =>
    have zero : r.extractLsb' 16 4 = 0 := by
      rw [onBoard, kind] at h
      exact beq_iff_eq.mp h
    rw [translate_rom _ kind ((slot_toNat r).symm.trans (congrArg BitVec.toNat zero))]
    nofun

theorem onBoard_ram {r : SegReg} (h : r.getLsbD 31 = false) : onBoard r = true := by rw [onBoard, h]; rfl

/-! ### Reads -/

theorem readByteIn_refused {begins : Bool} {k : SegKind} {p : Purpose} {off : Word} {s : State} {v : Violation}
    (h : checkAccess (s.segValue k) off false = some v) : readByteIn begins k p off s = .trap (v.trap p) s := by
  rw [readByteIn, h]

theorem readByteIn_passed {begins : Bool} {k : SegKind} {p : Purpose} {off : Word} {s : State}
    (h : checkAccess (s.segValue k) off false = none) :
    readByteIn begins k p off s = readPlace (translate (s.segValue k) off) (s.turnIf begins) := by
  rw [readByteIn, h]

/-- A place in RAM or ROM gives its byte, and nothing changes. -/
theorem readPlace_onBoard {r : SegReg} (h : onBoard r = true) (off : Word) (s : State) :
    readPlace (translate r off) s = .done (s.peek r off) s := by
  cases place : translate r off with
  | ram a | rom a => simp only [State.peek, place, readPlace]
  | device slot a => exact absurd place (translate_onBoard h off slot a)

theorem State.turnIf_segValue (s : State) (begins : Bool) (k : SegKind) : (s.turnIf begins).segValue k = s.segValue k := by
  cases begins with
  | false => rfl
  | true => exact State.deviceTurn_segValue s k

theorem State.afterCycles_segValue (n : Nat) (s : State) (k : SegKind) : (State.afterCycles n s).segValue k = s.segValue k := by
  rw [State.afterCycles_eq]
  rfl

/-- The read of a byte of RAM or ROM that passes its checks. -/
theorem readByteIn_onBoard {begins : Bool} {k : SegKind} {p : Purpose} {off : Word} {s : State}
    (check : checkAccess (s.segValue k) off false = none) (board : onBoard (s.segValue k) = true) :
    readByteIn begins k p off s = .done ((s.turnIf begins).peek (s.segValue k) off) (s.turnIf begins) := by
  rw [readByteIn_passed check, readPlace_onBoard board]

/-- The read of a word of RAM or ROM that passes its checks: its low byte after the first turn of the devices, its high byte after the
last (20_memory.md R106). -/
theorem readWord_onBoard {k : SegKind} {p : Purpose} {off : Word} {s : State}
    (low : checkAccess (s.segValue k) off false = none) (high : checkAccess (s.segValue k) (off + 1) false = none)
    (board : onBoard (s.segValue k) = true) :
    readWord k p off s = .done
      (wordOfBytes (s.deviceTurn.peek (s.segValue k) off) ((State.afterCycles (wordCycles off) s).peek (s.segValue k) (off + 1)))
      (State.afterCycles (wordCycles off) s) := by
  have turns : s.deviceTurn.turnIf (unaligned off) = State.afterCycles (wordCycles off) s := by
    rw [State.turnIf_eq, wordCycles_eq, State.afterCycles_add]
    rfl
  have first : readByte k p off s = .done (s.deviceTurn.peek (s.segValue k) off) s.deviceTurn := readByteIn_onBoard low board
  have same := State.deviceTurn_segValue s k
  rw [readWord, first, Res.done_andThen, readByteIn_onBoard (by rw [same]; exact high) (by rw [same]; exact board), same, turns]
  rfl

/-- The value that governs an access (20_memory.md R90 to R93). -/
theorem State.segValue_eq (s : State) (k : SegKind) :
    s.segValue k =
      if s.mmuOn then
        match k with
        | .code => if s.interruptMode then s.segs.isr else if s.supervisor then s.segs.css else s.segs.csu
        | .ds => if s.supervisor then s.segs.dss else s.segs.dsu
        | .es => if s.supervisor then s.segs.ess else s.segs.esu
        | .ss => if s.supervisor then s.segs.sss else s.segs.ssu
        | .is => s.segs.isr
      else if k = .code ∨ k = .is then 0x8FF00000 else 0x0FF00000 := by
  unfold State.segValue State.segNameOf
  cases s.mmuOn with
  | false => cases k <;> rfl
  | true => cases k <;> cases s.supervisor <;> cases s.interruptMode <;> rfl

/-- The address lies in the window of a device in the slot (20_memory.md R101). -/
theorem State.windowConnected_iff {s : State} {slot : BitVec 4} (notZero : slot.toNat ≠ 0) (a : Nat) :
    s.windowConnected slot a = true ↔
      ∃ d, (s.platform.devices[slot.toNat - 1]?).join = some d ∧ a < d.windowBytes ∧ a < 2 ^ 24 := by
  rw [State.windowConnected, State.deviceAt, if_neg (fun zero => notZero (by rw [zero]; rfl))]
  cases (s.platform.devices[slot.toNat - 1]?).join with
  | none => simp
  | some d => simp

/-- Settles O14: the check that fails, else the place that the offset leads to. -/
theorem readingAByte : Obligations.ReadingAByte := by
  intro k p off s r size device a connected e
  have value : s.segValue k = r := State.segValue_eq s k
  have extent : segmentSize r = size := segmentSize_toNat r
  have passes : r.getLsbD 29 = false → off.toNat < size → readByte k p off s = readPlace (translate r off) e :=
    fun present inside => by
      rw [readByte, readByteIn_passed (by rw [value]; exact checkAccess_read present (extent ▸ inside)), value]
      rfl
  have slot : (BitVec.ofNat 4 device).toNat = device :=
    (BitVec.toNat_ofNat ..).trans (Nat.mod_eq_of_lt (Nat.mod_lt _ (by decide)))
  have window : device ≠ 0 → (e.windowConnected (BitVec.ofNat 4 device) a = true ↔ connected) := fun h => by
    rw [State.windowConnected_iff (by rw [slot]; exact h), slot, State.deviceTurn_platform]
  refine ⟨fun absent => ?_, fun present beyond => ?_, fun present inside ram => ?_, fun present inside other zero => ?_,
    fun present inside other nonzero outside => ?_, fun present inside other nonzero within => ?_⟩
  · exact readByteIn_refused (by rw [value]; exact checkAccess_notPresent off false absent)
  · rw [readByte, readByteIn_refused (by rw [value]; exact checkAccess_beyondSize false present (extent ▸ beyond))]
    cases p <;> rfl
  · have place : translate r off = .ram a := by rw [translate_ram off ram]; simp only [a, ram]; rfl
    rw [passes present inside, place]
    simp only [readPlace, State.ramByte, State.ramConnected, State.deviceTurn_platform, e, Bool.and_eq_true, decide_eq_true_eq]
  · have place : translate r off = .rom a := by rw [translate_rom off other zero]; simp only [a, other]; rfl
    rw [passes present inside, place]
    simp only [readPlace, State.romByte, State.romConnected, State.deviceTurn_platform, State.deviceTurn_rom, e, Bool.and_eq_true,
      decide_eq_true_eq]
  · have place : translate r off = .device (BitVec.ofNat 4 device) a := by
      rw [translate_device off other nonzero]; simp only [a, other]; rfl
    rw [passes present inside, place, readPlace_device, if_neg (mt (window nonzero).mp outside)]
  · have place : translate r off = .device (BitVec.ofNat 4 device) a := by
      rw [translate_device off other nonzero]; simp only [a, other]; rfl
    rw [passes present inside, place, readPlace_device, if_pos ((window nonzero).mpr within)]
    refine ⟨_, congrArg _ ?_⟩
    simp only [State.afterCall, e, State.deviceTurn_calls, State.deviceTurn_draws]

/-! ### Writes -/

theorem WriteFrame.segs {n : Nat} {k : SegKind} {s t : State} (h : WriteFrame n k s t) : t.segs = (s.markAccessed k).segs := by
  rw [h]

theorem WriteFrame.platform {n : Nat} {k : SegKind} {s t : State} (h : WriteFrame n k s t) : t.platform = s.platform := by
  rw [h]

theorem WriteFrame.deviceStores {n : Nat} {k : SegKind} {s t : State} (h : WriteFrame n k s t) :
    t.deviceStores = s.deviceStores.drop n := by
  rw [h]

/-- A write leaves what governs an access, but for an A bit. -/
theorem WriteFrame.segValue {n : Nat} {k : SegKind} {s t : State} (h : WriteFrame n k s t) (j : SegKind) :
    t.segValue j = (s.markAccessed k).segValue j := by
  rw [h, State.markAccessed_eq]
  rfl

theorem writeByte_refused {k : SegKind} {p : Purpose} {off : Word} {b : Byte} {s : State} {v : Violation}
    (h : checkAccess (s.segValue k) off true = some v) : writeByte k p off b s = .trap (v.trap p) s := by
  rw [writeByte, h]

theorem writeByte_passed {k : SegKind} {p : Purpose} {off : Word} {b : Byte} {s : State}
    (h : checkAccess (s.segValue k) off true = none) :
    writeByte k p off b s = .done () (writePlace (translate (s.segValue k) off) b (s.markAccessed k).deviceTurn) := by
  rw [writeByte, h]

theorem writeWord_passed {k : SegKind} {p : Purpose} {off v : Word} {s : State}
    (low : checkAccess (s.segValue k) off true = none) (high : checkAccess (s.segValue k) (off + 1) true = none) :
    writeWord k p off v s = .done () (writePlace (translate (s.segValue k) (off + 1)) (highByte v)
      ((writePlace (translate (s.segValue k) off) (lowByte v) (s.markAccessed k).deviceTurn).turnIf (unaligned off))) := by
  rw [writeWord, low]
  dsimp only
  rw [high]

/-- A write that is done passed its checks. -/
theorem writeByte_checked {k : SegKind} {p : Purpose} {off : Word} {b : Byte} {s t : State} (h : writeByte k p off b s = .done () t) :
    checkAccess (s.segValue k) off true = none ∧
      t = writePlace (translate (s.segValue k) off) b (s.markAccessed k).deviceTurn := by
  rcases writeByte_cases k p off b s with ⟨v, -, refused⟩ | ⟨check, done⟩
  · rw [h] at refused; cases refused
  · rw [h] at done; cases done; exact ⟨check, rfl⟩

theorem writeWord_checked {k : SegKind} {p : Purpose} {off v : Word} {s t : State} (h : writeWord k p off v s = .done () t) :
    checkAccess (s.segValue k) off true = none ∧ checkAccess (s.segValue k) (off + 1) true = none ∧
      t = writePlace (translate (s.segValue k) (off + 1)) (highByte v)
        ((writePlace (translate (s.segValue k) off) (lowByte v) (s.markAccessed k).deviceTurn).turnIf (unaligned off)) := by
  rcases writeWord_cases k p off v s with ⟨x, -, refused⟩ | ⟨low, high, done⟩
  · rw [h] at refused; cases refused
  · rw [h] at done; cases done; exact ⟨low, high, rfl⟩

@[simp] theorem State.markAccessed_calls (s : State) (k : SegKind) : (s.markAccessed k).calls = s.calls := by
  rw [State.markAccessed_eq]

@[simp] theorem State.markAccessed_draws (s : State) (k : SegKind) : (s.markAccessed k).draws = s.draws := by
  rw [State.markAccessed_eq]

@[simp] theorem State.markAccessed_ram (s : State) (k : SegKind) : (s.markAccessed k).ram = s.ram := by
  rw [State.markAccessed_eq]

@[simp] theorem State.markAccessed_platform (s : State) (k : SegKind) : (s.markAccessed k).platform = s.platform := by
  rw [State.markAccessed_eq]

@[simp] theorem State.markAccessed_deviceStores (s : State) (k : SegKind) : (s.markAccessed k).deviceStores = s.deviceStores := by
  rw [State.markAccessed_eq]

theorem State.markAccessed_mmuOff {s : State} (h : s.mmuOn = false) (k : SegKind) : s.markAccessed k = s :=
  if_neg (ne_true_of_eq_false h)

/-- A write into RAM or ROM is no call and takes no draw. -/
theorem writeByte_onBoard {k : SegKind} {p : Purpose} {off : Word} {b : Byte} {s t : State} (h : writeByte k p off b s = .done () t)
    (board : onBoard (s.segValue k) = true) : t.calls = s.calls ∧ t.draws = s.draws := by
  obtain ⟨-, rfl⟩ := writeByte_checked h
  obtain ⟨calls, draws⟩ := writePlace_noCall (p := translate (s.segValue k) off) b (s.markAccessed k).deviceTurn
    (translate_onBoard board off)
  rw [calls, draws]
  simp

theorem State.turnIf_calls (s : State) (begins : Bool) : (s.turnIf begins).calls = s.calls := by
  rw [State.turnIf_eq, State.afterCycles_calls]

theorem State.turnIf_draws (s : State) (begins : Bool) : (s.turnIf begins).draws = s.draws := by
  rw [State.turnIf_eq, State.afterCycles_draws]

theorem writeWord_onBoard {k : SegKind} {p : Purpose} {off v : Word} {s t : State} (h : writeWord k p off v s = .done () t)
    (board : onBoard (s.segValue k) = true) : t.calls = s.calls ∧ t.draws = s.draws := by
  obtain ⟨-, -, rfl⟩ := writeWord_checked h
  have none : ∀ (x : Word) (b : Byte) (u : State), (writePlace (translate (s.segValue k) x) b u).calls = u.calls ∧
      (writePlace (translate (s.segValue k) x) b u).draws = u.draws := fun x b u =>
    writePlace_noCall b u (translate_onBoard board x)
  rw [(none _ _ _).1, (none _ _ _).2, State.turnIf_calls, State.turnIf_draws, (none _ _ _).1, (none _ _ _).2]
  simp

/-! ### The MMU off -/

theorem State.segValue_mmuOff {s : State} (h : s.mmuOn = false) (k : SegKind) : s.segValue k = defaultSegment k :=
  if_neg (ne_true_of_eq_false h)

/-- The fixed segments refuse nothing, and lead into RAM or ROM (20_memory.md R93). -/
theorem defaultSegment_open (k : SegKind) (off : Word) (write : Bool) :
    checkAccess (defaultSegment k) off write = none ∧ onBoard (defaultSegment k) = true := by
  have inside := off.isLt
  have bits : (defaultSegment k).getLsbD 29 = false ∧ (defaultSegment k).getLsbD 30 = false ∧
      segmentSize (defaultSegment k) = 0x10000 ∧ onBoard (defaultSegment k) = true := by cases k <;> decide
  obtain ⟨present, writable, size, board⟩ := bits
  exact ⟨checkAccess_none write present writable (by omega), board⟩

/-- Settles O15. -/
theorem mmuOffNeverFaults : Obligations.MmuOffNeverFaults := by
  intro k p off v b s mode
  have value := State.segValue_mmuOff mode k
  have check : ∀ (x : Word) (write : Bool), checkAccess (s.segValue k) x write = none := fun x write => by
    rw [value]; exact (defaultSegment_open k x write).1
  have board : onBoard (s.segValue k) = true := by rw [value]; exact (defaultSegment_open k off false).2
  have frame : ∀ {n : Nat} {t : State}, WriteFrame n k s t → t.calls = s.calls ∧ t.draws = s.draws →
      t = { s with ram := t.ram, deviceStores := s.deviceStores.drop n } := fun frame calls => by
    rw [WriteFrame, State.markAccessed_mmuOff mode k, calls.1, calls.2] at frame
    exact frame
  have byte := writeByte_passed (p := p) (b := b) (check off true)
  have word := writeWord_passed (p := p) (v := v) (check off true) (check (off + 1) true)
  exact ⟨⟨_, readByteIn_onBoard (check off false) board⟩, ⟨_, readWord_onBoard (check off false) (check (off + 1) false) board⟩,
    ⟨_, byte, frame (writeByte_frame byte) (writeByte_onBoard byte board)⟩,
    ⟨_, word, frame (writeWord_frame word) (writeWord_onBoard word board)⟩⟩

/-! ### The write of a byte -/

theorem withBit_accessed (r : SegReg) : withBit r 28 true = r ||| 0x10000000 := rfl

theorem State.windowConnected_congr {s t : State} (h : t.platform = s.platform) (slot : BitVec 4) (a : Nat) :
    t.windowConnected slot a = s.windowConnected slot a := by
  simp only [State.windowConnected, State.deviceAt, h]

/-- Settles O16: the check that fails, else the place written, after the A bit and the turn of the devices. -/
theorem writingAByte : Obligations.WritingAByte := by
  intro k p off b s r
  refine ⟨fun absent => writeByte_refused (checkAccess_notPresent off true absent), fun present beyond => ?_,
    fun present inside protects => writeByte_refused (checkAccess_protected present inside protects),
    fun present inside writable => ?_⟩
  · rw [writeByte_refused (checkAccess_beyondSize true present beyond)]
    cases p <;> rfl
  · have written := writeByte_passed (p := p) (b := b) (checkAccess_none true present writable inside)
    have marked : ∀ slot a, (s.markAccessed k).deviceTurn.windowConnected slot a = s.windowConnected slot a :=
      State.windowConnected_congr (by simp)
    refine ⟨_, written, fun a elsewhere => writeByte_ramByte written elsewhere, ?_, fun slot a place window => ?_, fun none => ?_,
      fun n => ?_⟩
    · have frame := writeByte_frame written
      rw [frame.segs]
      exact frame
    · rw [place, writePlace_device, if_pos ((marked slot a).trans window)]
      simp
    · cases place : translate r off with
      | ram a | rom a =>
        obtain ⟨calls, draws⟩ := writePlace_noCall (p := translate r off) b (s.markAccessed k).deviceTurn (by rw [place]; nofun)
        rw [← place, calls, draws]
        simp
      | device slot a =>
        rw [writePlace_device, if_neg (ne_true_of_eq_false ((marked slot a).trans (none slot a place)))]
        simp
    · rw [(writeByte_frame written).segs]
      exact State.markAccessed_get s k n

end Sys2Proof.Machine
end

section
/-! PROOFS. Words written and read back, access cycles, operands, and STO to memory (20_memory.md, 40_alu.md). -/

namespace Sys2Proof.Machine

/-! ### Bytes of a word -/

theorem lowByte_eq (v : Word) : lowByte v = BitVec.ofNat 8 v.toNat := by
  apply BitVec.eq_of_toNat_eq
  rw [lowByte, BitVec.extractLsb'_toNat, BitVec.toNat_ofNat, Nat.shiftRight_zero]

theorem highByte_eq (v : Word) : highByte v = BitVec.ofNat 8 (v.toNat / 256) := by
  apply BitVec.eq_of_toNat_eq
  rw [highByte, BitVec.extractLsb'_toNat, BitVec.toNat_ofNat, Nat.shiftRight_eq_div_pow]

theorem State.peek_ram {s : State} {r : SegReg} {off : Word} {a : Nat} (h : translate r off = .ram a) : s.peek r off = s.ramByte a := by
  rw [State.peek, h]

theorem onBoard_of_translate_ram {r : SegReg} {off : Word} {a : Nat} (h : translate r off = .ram a) : onBoard r = true := by
  cases kind : r.getLsbD 31 with
  | false => exact onBoard_ram kind
  | true =>
    by_cases slot : r.toNat / 2 ^ 16 % 2 ^ 4 = 0
    · rw [translate_rom _ kind slot] at h
      cases h
    · rw [translate_device _ kind slot] at h
      cases h

/-- Settles O17: the bytes that the write stored, which no device changes in the cycles of the write or of the read. -/
theorem wordReadsBackAsWritten : Obligations.WordReadsBackAsWritten := by
  intro k p q off v s t a b wf written lowPlace highPlace lowConnected highConnected keepOff
  rw [Nat.two_mul] at keepOff
  have distinct : a ≠ b := fun same => offset_ne_next off (translate_ram_inj lowPlace (same ▸ highPlace))
  obtain ⟨low, high, -, -⟩ := writeWord_stored wf written lowPlace highPlace lowConnected highConnected distinct
    (State.devicesKeepOff_mono keepOff (Nat.le_add_right _ _) fun x hx => .inl hx)
  obtain ⟨lowCheck, highCheck, -⟩ := writeWord_checked written
  have frame := writeWord_frame written
  have still := State.devicesKeepOff_drop keepOff frame.deviceStores
  have check : ∀ x, checkAccess (s.segValue k) x true = none → checkAccess (t.segValue k) x false = none := fun x h => by
    rw [frame.segValue, State.markAccessed_check]
    exact checkAccess_read_of_write h
  have place : ∀ x, translate (t.segValue k) x = translate (s.segValue k) x := fun x => by
    rw [frame.segValue, State.markAccessed_translate]
  have lowAt := (place off).trans lowPlace
  have highAt := (place (off + 1)).trans highPlace
  have board := onBoard_of_translate_ram lowAt
  have kept : ∀ {x : Nat} (n : Nat), (x = a ∨ x = b) → n ≤ wordCycles off → (State.afterCycles n t).ramByte x = t.ramByte x :=
    fun n hx hn => State.afterCycles_keepOff hx n (State.devicesKeepOff_mono still hn fun _ h => h)
  have one : 1 ≤ wordCycles off := by rw [wordCycles_eq]; omega
  have turn : ∀ x, t.deviceTurn.ramByte x = (State.afterCycles 1 t).ramByte x := fun _ => rfl
  refine ⟨?_, ?_, ?_⟩
  · rw [← lowByte_eq, ← low, ← kept 1 (.inl rfl) one, ← turn, ← State.peek_ram lowAt]
    exact readByteIn_onBoard (check off lowCheck) board
  · rw [← highByte_eq, ← high, ← kept 1 (.inr rfl) one, ← turn, ← State.peek_ram highAt]
    exact readByteIn_onBoard (check (off + 1) highCheck) board
  · rw [readWord_onBoard (check off lowCheck) (check (off + 1) highCheck) board, State.peek_ram lowAt, State.peek_ram highAt, turn,
      kept 1 (.inl rfl) one, kept _ (.inr rfl) (Nat.le_refl _), low, high, wordOfBytes_bytes]

/-! ### Turns of the devices -/

/-- A byte of RAM after stores of a device: the last one at its address, else what it was. -/
theorem State.storeAll_ramByte {x : Nat} : ∀ (cs : List Host.Cell) (s : State), Memory.wf s.ram = true → s.ramConnected x = true →
    (s.storeAll cs).ramByte x = ((cs.reverse.find? fun c => c.1 == x).map Prod.snd).getD (s.ramByte x)
  | [], _, _, _ => rfl
  | (a, b) :: cs, s, wf, connected => by
    have tail := State.storeAll_ramByte cs (s.storeRam a b) (State.storeRam_wf s a b wf)
      ((State.storeRam_ramConnected s a b x).trans connected)
    rw [State.storeAll, tail, List.reverse_cons, List.find?_append]
    cases cs.reverse.find? fun c => c.1 == x with
    | some c => rfl
    | none =>
      by_cases same : a = x
      · subst same
        simp [State.storeRam_ramByte_same s b wf connected]
      · simp [same, State.storeRam_ramByte_other s b (Ne.symm same)]

theorem State.deviceTurn_nil {s : State} (h : s.deviceStores = []) : s.deviceTurn = s := by rw [State.deviceTurn, h]

theorem State.deviceTurn_cons {s : State} {cs : List Host.Cell} {rest : List (List Host.Cell)} (h : s.deviceStores = cs :: rest) :
    s.deviceTurn = State.storeAll { s with deviceStores := rest } cs := by rw [State.deviceTurn, h]

theorem unaligned_eq (off : Word) : unaligned off = decide (off.toNat % 2 = 1) := by
  rw [unaligned, BitVec.getLsbD, Nat.testBit_zero]

theorem wordCycles_aligned {off : Word} (h : off.toNat % 2 = 0) : wordCycles off = 1 := if_pos h

theorem wordCycles_unaligned {off : Word} (h : off.toNat % 2 = 1) : wordCycles off = 2 := if_neg (by omega)

theorem writePlace_ram (a : Nat) (b : Byte) (s : State) : writePlace (.ram a) b s = s.storeRam a b := rfl

theorem State.storeRam_platform (s : State) (a : Nat) (b : Byte) : (s.storeRam a b).platform = s.platform := by
  rw [State.storeRam_eq]

theorem State.storeRam_deviceStores (s : State) (a : Nat) (b : Byte) : (s.storeRam a b).deviceStores = s.deviceStores := by
  rw [State.storeRam_eq]

/-- The A bit takes no part in a turn of the devices. -/
theorem State.markedTurn_eq (s : State) (k : SegKind) :
    (s.markAccessed k).deviceTurn.ram = s.deviceTurn.ram ∧
      (s.markAccessed k).deviceTurn.deviceStores = s.deviceStores.drop 1 ∧ (s.markAccessed k).deviceTurn.platform = s.platform :=
  ⟨State.deviceTurn_ram_congr (by simp) (by simp) (by simp), by simp, by simp⟩

theorem State.turnIf_wf (s : State) (begins : Bool) (h : Memory.wf s.ram = true) : Memory.wf (s.turnIf begins).ram = true := by
  rw [State.turnIf_eq]
  exact State.afterCycles_wf _ s h

theorem State.turnIf_ramConnected (s : State) (begins : Bool) (a : Nat) : (s.turnIf begins).ramConnected a = s.ramConnected a := by
  simp only [State.turnIf_eq, State.ramConnected, State.afterCycles_platform]

/-- Settles O60: the reads and the writes of a word by its parity, and a turn of the devices store by store. -/
theorem accessCycles : Obligations.AccessCycles := by
  intro k p off v s r a b t
  refine ⟨fun ram present inside inside' => ⟨fun even => ?_, fun odd => ?_, fun writable wf connected connected' => ?_⟩,
    State.deviceTurn_eq s, State.deviceTurn_nil, fun cs rest stores wf x connected => ?_⟩
  · rw [readWord_onBoard (checkAccess_read present inside) (checkAccess_read present inside') (onBoard_ram ram),
      wordCycles_aligned even, State.peek_ram (translate_ram off ram), State.peek_ram (translate_ram (off + 1) ram)]
    rfl
  · rw [readWord_onBoard (checkAccess_read present inside) (checkAccess_read present inside') (onBoard_ram ram),
      wordCycles_unaligned odd, State.peek_ram (translate_ram off ram), State.peek_ram (translate_ram (off + 1) ram)]
    rfl
  · have written := writeWord_passed (p := p) (v := v) (checkAccess_none true present writable inside)
      (checkAccess_none true present writable inside')
    have lowPlace : translate r off = .ram a := translate_ram off ram
    have highPlace : translate r (off + 1) = .ram b := translate_ram (off + 1) ram
    have distinct : a ≠ b := fun same => offset_ne_next off (translate_ram_inj lowPlace (highPlace.trans (congrArg Place.ram same.symm)))
    rw [lowPlace, highPlace, writePlace_ram, writePlace_ram] at written
    obtain ⟨marked, stores, platform⟩ := State.markedTurn_eq s k
    generalize (s.markAccessed k).deviceTurn = m at written marked stores platform
    have wfTurn := State.deviceTurn_wf s wf
    have wfLow : Memory.wf (m.storeRam a (lowByte v)).ram = true := State.storeRam_wf m a _ (marked ▸ wfTurn)
    have connectedAt : ∀ x, m.ramConnected x = s.ramConnected x := fun x => by simp only [State.ramConnected, platform]
    have low : (m.storeRam a (lowByte v)).ramByte a = lowByte v :=
      State.storeRam_ramByte_same m _ (marked ▸ wfTurn) ((connectedAt a).trans connected)
    refine ⟨_, written, ?_, fun even => ?_, fun odd => ?_⟩
    · rw [← highByte_eq]
      exact State.storeRam_ramByte_same _ _ (State.turnIf_wf _ _ wfLow) (by
        rw [State.turnIf_ramConnected, State.storeRam_ramConnected]
        exact (connectedAt b).trans connected')
    · have whole : unaligned off = false := by rw [unaligned_eq]; exact decide_eq_false (by omega)
      rw [← lowByte_eq, whole]
      exact (State.storeRam_ramByte_other _ _ distinct).trans low
    · have split : unaligned off = true := by rw [unaligned_eq]; exact decide_eq_true odd
      rw [← lowByte_eq, split]
      refine (State.storeRam_ramByte_other _ _ distinct).trans ?_
      refine State.deviceTurn_ramByte_congr (State.storeRam_wf t a _ wfTurn) wfLow ?_ ?_ ?_
      · rw [State.storeRam_platform, State.storeRam_platform, platform, State.deviceTurn_platform]
      · rw [State.storeRam_deviceStores, State.storeRam_deviceStores, stores, State.deviceTurn_deviceStores]
      · rw [low, State.storeRam_ramByte_same t _ wfTurn ((State.deviceTurn_ramConnected s a).trans connected)]
  · have byte := State.storeAll_ramByte cs { s with deviceStores := rest } wf connected
    show s.deviceTurn.ramByte x = _
    rw [State.deviceTurn_cons stores]
    exact byte

/-! ### The second operand -/

theorem sized_value (e : Bool) (v : Word) :
    (sized e v).width = (if e then 8 else 16) ∧ (sized e v).nat = v.toNat % 2 ^ (sized e v).width := by
  cases e with
  | false => exact ⟨rfl, (Nat.mod_eq_of_lt v.isLt).symm⟩
  | true => exact ⟨rfl, BitVec.extractLsb'_toNat ..⟩

/-- Settles O18: mode by mode. -/
theorem operandValue : Obligations.OperandValue := by
  intro m s
  refine ⟨fun x s1 read => ?_, ?_⟩
  · obtain ⟨n, cycles, whole, draws⟩ := readOperand_done read
    exact ⟨⟨n, cycles, whole⟩, draws⟩
  · have sum : ∀ x y : Word, x + y = BitVec.ofNat 16 (x.toNat + y.toNat) := fun _ _ => rfl
    cases m with
    | immediate es e v => exact ⟨_, rfl, sized_value e v⟩
    | register es e r => exact ⟨_, rfl, sized_value e (s.reg r)⟩
    | undefinedMode es x e => rfl
    | control es p => fin_cases p <;> rfl
    | absolute es e a => rfl
    | indirect es e r => rfl
    | indirectOffset es e r off => exact congrArg (readSized (dataSegment es) · e s) (sum _ _)
    | indirectIndexed es e ii r =>
      intro j hj
      obtain rfl : j = indexRegister ii := Fin.ext hj
      exact congrArg (readSized (dataSegment es) · e s) (sum _ _)

/-! ### STO to memory -/

theorem writeByte_trap {k : SegKind} {p : Purpose} {off : Word} {b : Byte} {s t : State} {x : Trap}
    (h : writeByte k p off b s = .trap x t) : t = s := by
  rcases writeByte_cases k p off b s with ⟨v, -, refused⟩ | ⟨-, done⟩
  · rw [h] at refused; cases refused; rfl
  · rw [h] at done; cases done

theorem writeWord_trap {k : SegKind} {p : Purpose} {off v : Word} {s t : State} {x : Trap}
    (h : writeWord k p off v s = .trap x t) : t = s := by
  rcases writeWord_cases k p off v s with ⟨y, -, refused⟩ | ⟨-, -, done⟩
  · rw [h] at refused; cases refused; rfl
  · rw [h] at done; cases done

/-- The write of one byte takes a draw at most. -/
theorem writePlace_draws (p : Place) (b : Byte) (s : State) : (writePlace p b s).draws ≤ s.draws + 1 := by
  cases p with
  | ram a => rw [writePlace_ram, State.storeRam_eq]; exact Nat.le_succ _
  | rom a => exact Nat.le_succ _
  | device slot a =>
    rw [writePlace_device]
    split
    · exact Nat.le_refl _
    · exact Nat.le_succ _

/-- The low byte of a word that was written lies where its offset leads, where devices keep off it. -/
theorem writeWord_low {k : SegKind} {p : Purpose} {off v : Word} {s t : State} {a : Nat} (wf : Memory.wf s.ram = true)
    (h : writeWord k p off v s = .done () t) (place : translate (s.segValue k) off = .ram a) (connected : s.ramConnected a = true)
    (keepOff : s.devicesKeepOff (wordCycles off) (· = a)) : t.ramByte a = lowByte v := by
  obtain ⟨-, -, rfl⟩ := writeWord_checked h
  have elsewhere : translate (s.segValue k) (off + 1) ≠ .ram a := fun same => offset_ne_next off (translate_ram_inj place same)
  obtain ⟨ram, stores, platform⟩ := State.markedTurn_eq s k
  rw [wordCycles_eq] at keepOff
  generalize (s.markAccessed k).deviceTurn = m at ram stores platform ⊢
  have still : (m.storeRam a (lowByte v)).devicesKeepOff (unaligned off).toNat (· = a) :=
    State.devicesKeepOff_drop keepOff ((State.storeRam_deviceStores m a _).trans stores)
  rw [writePlace_ramByte _ _ _ elsewhere, place, writePlace_ram, State.turnIf_eq, State.afterCycles_keepOff (P := (· = a)) rfl _ still]
  exact State.storeRam_ramByte_same m _ (ram ▸ State.deviceTurn_wf s wf) (by rw [State.ramConnected, platform]; exact connected)

/-- Its high byte lies where the next offset leads: it is stored last. -/
theorem writeWord_high {k : SegKind} {p : Purpose} {off v : Word} {s t : State} {a : Nat} (wf : Memory.wf s.ram = true)
    (h : writeWord k p off v s = .done () t) (place : translate (s.segValue k) (off + 1) = .ram a)
    (connected : s.ramConnected a = true) : t.ramByte a = highByte v := by
  obtain ⟨-, -, rfl⟩ := writeWord_checked h
  obtain ⟨ram, -, platform⟩ := State.markedTurn_eq s k
  generalize (s.markAccessed k).deviceTurn = m at ram platform ⊢
  have first := writePlace_eq (translate (s.segValue k) off) (lowByte v) m
  rw [place, writePlace_ram]
  refine State.storeRam_ramByte_same _ _ (State.turnIf_wf _ _ (writePlace_wf _ _ m (ram ▸ State.deviceTurn_wf s wf))) ?_
  rw [State.turnIf_ramConnected, State.ramConnected, first]
  exact (congrArg (fun q : Platform => decide (a < q.ramBytes) && decide (a < 2 ^ 28)) platform).trans connected

theorem writeByte_stored {k : SegKind} {p : Purpose} {off : Word} {b : Byte} {s t : State} {a : Nat} (wf : Memory.wf s.ram = true)
    (h : writeByte k p off b s = .done () t) (place : translate (s.segValue k) off = .ram a) (connected : s.ramConnected a = true) :
    t.ramByte a = b := by
  obtain ⟨-, rfl⟩ := writeByte_checked h
  obtain ⟨ram, -, platform⟩ := State.markedTurn_eq s k
  rw [place, writePlace_ram]
  exact State.storeRam_ramByte_same _ _ (ram ▸ State.deviceTurn_wf s wf) (by rw [State.ramConnected, platform]; exact connected)

theorem writeWord_draws {k : SegKind} {p : Purpose} {off v : Word} {s t : State} (h : writeWord k p off v s = .done () t) :
    t.draws ≤ s.draws + 2 := by
  obtain ⟨-, -, rfl⟩ := writeWord_checked h
  have second := writePlace_draws (translate (s.segValue k) (off + 1)) (highByte v)
    ((writePlace (translate (s.segValue k) off) (lowByte v) (s.markAccessed k).deviceTurn).turnIf (unaligned off))
  have first := writePlace_draws (translate (s.segValue k) off) (lowByte v) (s.markAccessed k).deviceTurn
  rw [State.turnIf_draws] at second
  rw [State.deviceTurn_draws, State.markAccessed_draws] at first
  omega

theorem writeByte_draws {k : SegKind} {p : Purpose} {off : Word} {b : Byte} {s t : State} (h : writeByte k p off b s = .done () t) :
    t.draws ≤ s.draws + 1 := by
  obtain ⟨-, rfl⟩ := writeByte_checked h
  have one := writePlace_draws (translate (s.segValue k) off) b (s.markAccessed k).deviceTurn
  rwa [State.deviceTurn_draws, State.markAccessed_draws] at one

/-- The write of a byte or a word of data, as STO makes it. -/
def storeSized (k : SegKind) (a : Word) (e : Bool) (v : Word) (s : State) : Res Unit :=
  if e then writeByte k .other a (BitVec.ofNat 8 v.toNat) s else writeWord k .other a v s

/-- STO in a memory mode is that write, at the address of its mode. -/
theorem exec_sto_memory {d : Reg} {m : Operand} {s : State} {k : SegKind} {a : Word} {e : Bool}
    (h : operandAddress m s = some (k, a, e)) :
    exec (.sto d m) s = perform (opcode (.sto d m)) s.pc ((storeSized k a e (s.reg d) s).andThen fun _ t =>
      .done () (t.setPc (nextPc (.sto d m) s))) := by
  show perform _ _ (storeOperand m (s.reg d) s) = _
  rw [nextPc_of_immediates (i := .sto d m) (m := m) rfl, storeSized, ← lowByte_eq]
  cases m with
  | immediate | register | undefinedMode | control => cases h
  | absolute | indirect | indirectOffset | indirectIndexed => rw [storeOperand, h]

/-- Settles O28: the write, by its width. -/
theorem storeToMemory : Obligations.StoreToMemory := by
  intro d m s
  refine ⟨fun k a e t address done => ?_, fun k a e x t address refused => ?_, ?_, ?_⟩
  · have run : exec (.sto d m) s = .next (t.setPc (nextPc (.sto d m) s)) := by
      rw [exec_sto_memory address, storeSized, done]
      rfl
    refine ⟨run, ?_⟩
    cases e with
    | true =>
      have done : writeByte k .other a (BitVec.ofNat 8 (s.reg d).toNat) s = .done () t := done
      refine ⟨writeByte_frame done, (writeByte_effect done).draws, Nat.le_succ_of_le (writeByte_draws done), writeByte_onBoard done,
        State.markAccessed_get s k, fun wf p => ⟨fun elsewhere _ => writeByte_ramByte done elsewhere,
          fun place connected _ => writeByte_stored wf done place connected, nofun⟩⟩
    | false =>
      have done : writeWord k .other a (s.reg d) s = .done () t := done
      refine ⟨writeWord_frame done, (writeWord_effect done).draws, writeWord_draws done, writeWord_onBoard done,
        State.markAccessed_get s k, fun wf p =>
          ⟨fun low high => writeWord_ramByte wf done low (high.resolve_left Bool.false_ne_true),
            fun place connected keepOff => ?_, fun _ place connected => ?_⟩⟩
      · rw [← lowByte_eq]; exact writeWord_low wf done place connected keepOff
      · rw [← highByte_eq]; exact writeWord_high wf done place connected
  · have unchanged : t = s := by
      cases e with
      | true => exact writeByte_trap refused
      | false => exact writeWord_trap refused
    rw [exec_sto_memory address, storeSized, refused, unchanged]
    rfl
  · rintro es e v rfl
    rfl
  · rintro es e r rfl
    rfl

end Sys2Proof.Machine
end

section
/-! PROOFS. Jumps, and the instructions that pop (45_jump_call.md, 46_stack.md, 47_processor_functions.md). -/

namespace Sys2Proof.Machine

/-! ### Words read one after the other -/

theorem readWords_zero {k : SegKind} {p : Purpose} {off : Word} {s t : State} {ws : List Word}
    (h : readWords k p 0 off s = some (ws, t)) : ws = [] ∧ t = s := by cases h; exact ⟨rfl, rfl⟩

theorem readWords_succ {k : SegKind} {p : Purpose} {n : Nat} {off : Word} {s t : State} {ws : List Word}
    (h : readWords k p (n + 1) off s = some (ws, t)) :
    ∃ v vs r, ws = v :: vs ∧ readWord k p off s = .done v r ∧ readWords k p n (off + 2) r = some (vs, t) := by
  unfold readWords at h
  split at h
  · cases h
  · rename_i v r first
    split at h
    · cases h
    · rename_i vs u rest
      cases h
      exact ⟨v, vs, r, rfl, first, rest⟩

theorem readWords_withBus {k : SegKind} {p : Purpose} {n : Nat} {off : Word} {s t : State} {ws : List Word}
    (h : readWords k p n off s = some (ws, t)) : s.withBus t = t := (readWords_effect h).1.withBus

theorem readWord_withBus {k : SegKind} {p : Purpose} {off : Word} {s t : State} {v : Word} (h : readWord k p off s = .done v t) :
    s.withBus t = t := (readWord_done h).withBus

theorem readWord_trap_withBus {k : SegKind} {p : Purpose} {off : Word} {s t : State} {x : Trap}
    (h : readWord k p off s = .trap x t) : s.withBus t = t := by
  obtain ⟨n, -, effect⟩ := readWord_trap h
  exact effect.withBus

theorem withBus_trans {s t u : State} (h : s.withBus t = t) (g : t.withBus u = u) : s.withBus u = u := by
  rw [← g, ← h]
  rfl

/-- Words are read the same in a state that shows the same memory. -/
theorem readWords_same {k : SegKind} {p : Purpose} : ∀ {n : Nat} {off : Word} {s t u : State} {ws : List Word}, SameMemory s u →
    readWords k p n off s = some (ws, t) → readWords k p n off u = some (ws, u.withBus t)
  | 0, _, s, t, u, ws, same, h => by
    obtain ⟨rfl, rfl⟩ := readWords_zero h
    rw [readWords, same.withBus_eq]
  | n + 1, off, s, t, u, ws, same, h => by
    obtain ⟨v, vs, r, rfl, first, rest⟩ := readWords_succ h
    have tail := readWords_same (same.afterRead (readWord_done first)) rest
    rw [readWords, readWord_same same, first]
    dsimp only
    rw [tail]
    rfl

/-! ### Pops -/

theorem State.setSp_withBus (s t : State) (v : Word) : (s.setSp v).withBus t = (s.withBus t).setSp v := by
  unfold State.setSp
  rw [State.withBus_supervisor]
  split <;> rfl

theorem State.withBus_setSp (s t : State) (v : Word) : s.withBus (t.setSp v) = s.withBus t := by
  unfold State.withBus
  simp only [State.setSp_ram, State.setSp_deviceStores, State.setSp_calls, State.setSp_draws]

/-- Where the words from SP upward can be read, a pop gives the first of them, and the others can be read after it. -/
theorem popWord_of_readWords {p : Purpose} {n : Nat} {s t : State} {v : Word} {vs : List Word}
    (h : readWords .ss p (n + 1) s.sp s = some (v :: vs, t)) :
    ∃ u, popWord p s = .done v u ∧ readWords .ss p n u.sp u = some (vs, (s.withBus t).setSp (s.sp + 2)) ∧
      ∃ r, u = (s.withBus r).setSp (s.sp + 2) := by
  obtain ⟨w, ws, r, same, first, rest⟩ := readWords_succ h
  cases same
  have effect := readWord_withBus first
  refine ⟨(s.withBus r).setSp (s.sp + 2), by rw [popWord_eq, first], ?_, r, rfl⟩
  have later := readWords_same (sameMemory_setSp r (s.sp + 2)) rest
  rw [← effect] at later
  rw [State.setSp_sp, later, State.setSp_withBus]
  rfl

/-- The pop of one word that can be read. -/
theorem popWord_one {p : Purpose} {s t : State} {v : Word} (h : readWords .ss p 1 s.sp s = some ([v], t)) :
    popWord p s = .done v ((s.withBus t).setSp (s.sp + 2)) := by
  obtain ⟨u, pop, rest, -⟩ := popWord_of_readWords h
  obtain ⟨-, rfl⟩ := readWords_zero rest
  exact pop

/-- The pops of two words that can be read. -/
theorem popWord_two {p : Purpose} {s t : State} {v w : Word} (h : readWords .ss p 2 s.sp s = some ([v, w], t)) :
    ∃ u, popWord p s = .done v u ∧ popWord p u = .done w ((s.withBus t).setSp (s.sp + 4)) := by
  obtain ⟨u, pop, rest, r, rfl⟩ := popWord_of_readWords h
  refine ⟨_, pop, ?_⟩
  rw [popWord_one rest, State.setSp_sp, State.setSp_withBus, State.withBus_setSp, State.setSp_setSp, BitVec.add_assoc]
  rfl

/-- The pops of three words that can be read. -/
theorem popWord_three {p : Purpose} {s t : State} {v w x : Word} (h : readWords .ss p 3 s.sp s = some ([v, w, x], t)) :
    ∃ u1 u2, popWord p s = .done v u1 ∧ popWord p u1 = .done w u2 ∧ popWord p u2 = .done x ((s.withBus t).setSp (s.sp + 6)) := by
  obtain ⟨u, pop, rest, r, rfl⟩ := popWord_of_readWords h
  obtain ⟨u2, second, third⟩ := popWord_two rest
  refine ⟨_, u2, pop, second, ?_⟩
  rw [third, State.setSp_sp, State.setSp_withBus, State.withBus_setSp, State.setSp_setSp, BitVec.add_assoc]
  rfl

theorem words_append (hi lo : Word) : (hi ++ lo : BitVec 32) = BitVec.ofNat 32 (hi.toNat * 2 ^ 16 + lo.toNat) := by
  have high := hi.isLt
  have low := lo.isLt
  apply BitVec.eq_of_toNat_eq
  rw [append_toNat, BitVec.toNat_ofNat, Nat.mod_eq_of_lt (by omega)]

/-- Settles O48: the pops of one, two and three words. -/
theorem returns : Obligations.Returns := by
  intro s s1 t
  refine ⟨fun words => ?_, fun lo hi mode words => ?_, fun p mode words => ?_⟩
  · show perform _ _ ((popWord .other s).andThen _) = _
    rw [popWord_one words]
    rfl
  · rw [← State.sp_of_supervisor mode] at words
    obtain ⟨u1, u2, first, second, third⟩ := popWord_three words
    show perform _ _ (supervisorOnly s ((popWord .other s).andThen _)) = _
    rw [supervisorOnly_supervisor mode, first, Res.done_andThen, second, Res.done_andThen, third, Res.done_andThen, words_append,
      State.sp_of_supervisor mode, State.setSp_of_supervisor (by exact mode)]
    rfl
  · rw [← State.sp_of_supervisor mode] at words
    obtain ⟨u, first, second⟩ := popWord_two words
    show perform _ _ (supervisorOnly s ((popWord .other s).andThen _)) = _
    rw [supervisorOnly_supervisor mode, first, Res.done_andThen, second, State.sp_of_supervisor mode,
      State.setSp_of_supervisor (by exact mode)]
    rfl

/-- LSG of a defined selection, in supervisor mode. -/
theorem exec_lsg {s s1 : State} {u : Bool} {x r : BitVec 3} {n : SegName} {lo hi : Word} (mode : s.supervisor = true)
    (selected : selectSegment u r = some n) (words : readWords .ss .other 2 s.ssp s = some ([lo, hi], s1)) :
    exec (.lsg u x r) s = .next { s.withBus s1 with
      ssp := s.ssp + 4, pc := s.pc + 2, segs := s.segs.set n (BitVec.ofNat 32 (hi.toNat * 2 ^ 16 + lo.toNat)) } := by
  rw [← State.sp_of_supervisor mode] at words
  obtain ⟨middle, first, second⟩ := popWord_two words
  show perform _ _ (supervisorOnly s _) = _
  rw [supervisorOnly_supervisor mode, selected]
  dsimp only
  rw [first, Res.done_andThen, second, Res.done_andThen, words_append, State.sp_of_supervisor mode, State.setSp_of_supervisor (by exact mode)]
  rfl

/-! ### POP -/

theorem setSp_setReg (s : State) (r : Reg) (v w : Word) : (s.setSp w).setReg r v = (s.setReg r v).setSp w := by
  unfold State.setSp
  rw [State.setReg_supervisor]
  split <;> rfl

theorem foldl_setReg_setSp (w : Word) : ∀ (rvs : List (Reg × Word)) (s : State),
    rvs.foldl (fun t rv => t.setReg rv.1 rv.2) (s.setSp w) = (rvs.foldl (fun t rv => t.setReg rv.1 rv.2) s).setSp w
  | [], _ => rfl
  | rv :: rvs, s => by rw [List.foldl_cons, setSp_setReg, foldl_setReg_setSp w rvs]; rfl

/-- The registers popped from words that can be read. -/
theorem popRegisters_readWords : ∀ (rs : List Reg) {s t : State} {ws : List Word},
    readWords .ss .pshPop rs.length s.sp s = some (ws, t) →
    popRegisters rs s = .done ()
      (((rs.zip ws).foldl (fun t rv => t.setReg rv.1 rv.2) (s.withBus t)).setSp (s.sp + BitVec.ofNat 16 (2 * rs.length)))
  | [], s, t, ws, h => by
    obtain ⟨rfl, rfl⟩ := readWords_zero h
    have still : t.setSp (t.sp + 0) = t := by
      rw [show t.sp + 0 = t.sp from BitVec.add_zero _]
      unfold State.setSp State.sp
      split <;> rfl
    exact congrArg (Res.done ()) still.symm
  | r :: rs, s, t, ws, h => by
    obtain ⟨v, vs, -, rfl, -, -⟩ := readWords_succ h
    obtain ⟨u, pop, rest, m, rfl⟩ := popWord_of_readWords h
    have later := readWords_same (sameMemory_setReg _ r v) rest
    have tail := popRegisters_readWords rs (s := ((s.withBus m).setSp (s.sp + 2)).setReg r v) later
    rw [popRegisters, pop, Res.done_andThen, tail]
    have moved : s.sp + 2 + BitVec.ofNat 16 (2 * rs.length) = s.sp + BitVec.ofNat 16 (2 * (r :: rs).length) := by
      rw [word_two, ofNat_add_ofNat, List.length_cons, Nat.mul_add, Nat.add_comm]
    have bus : (((s.withBus m).setSp (s.sp + 2)).setReg r v).withBus
        ((((s.withBus m).setSp (s.sp + 2)).setReg r v).withBus ((s.withBus t).setSp (s.sp + 2))) =
        ((s.withBus t).setReg r v).setSp (s.sp + 2) := by
      rw [← setSp_setReg]
      show (((s.withBus m).setSp (s.sp + 2)).withBus ((s.withBus t).setSp (s.sp + 2))).setReg r v = _
      rw [State.withBus_setSp, State.setSp_withBus]
      rfl
    rw [bus, foldl_setReg_setSp, State.setSp_setSp, State.setReg_sp, State.setSp_sp, moved]
    rfl

/-- Settles O43. -/
theorem popGeneralRegisters : Obligations.PopGeneralRegisters := by
  intro mask s s1 ws rs words
  show perform _ _ ((popRegisters rs s).andThen _) = _
  rw [popRegisters_readWords rs words]
  rfl

/-! ### POP of control registers -/

/-- A write of POP's control list that leaves PC, and does not look at it. -/
def WritesPast (write : State → Word → State) : Prop :=
  ∀ (s : State) (v x : Word), (write s v).pc = s.pc ∧ write (s.setPc x) v = (write s v).setPc x

theorem setSp_writesPast : WritesPast State.setSp := fun s v x => by
  refine ⟨State.setSp_pc s v, ?_⟩
  unfold State.setSp
  rw [State.setPc_supervisor]
  split <;> rfl

/-- One step of POP's control list, in the statement's form with PC at `x` and in the model's with PC unwritten. -/
theorem popInto_of_popControls {mask : BitVec 8} {all : Bool} {number : Nat} {write : State → Word → State}
    {cs : List (Nat × (State → Word → State))} {s t : State} {x : Word} (past : WritesPast write)
    (h : popControls mask all ((number, write) :: cs) (s.setPc x) = some t) :
    ∃ u, popInto (mask.getLsbD number && (number != 2 || all)) write s = .done () u ∧ u.pc = s.pc ∧
      popControls mask all cs (u.setPc x) = some t := by
  rw [popControls] at h
  rw [popInto]
  split at h
  case isFalse unselected => exact ⟨s, if_neg unselected, rfl, h⟩
  case isTrue selected =>
    rw [if_pos selected, popWord_eq]
    rw [readWord_same (sameMemory_setPc s x), State.setPc_sp] at h
    cases read : readWord .ss .pshPop s.sp s with
    | trap y r =>
      rw [read] at h
      cases h
    | done v r =>
      rw [read] at h
      obtain ⟨pc, beside⟩ := past ((s.withBus r).setSp (s.sp + 2)) v x
      refine ⟨_, rfl, pc.trans (State.setSp_pc _ _), ?_⟩
      rw [← beside, ← (setSp_writesPast _ _ x).2]
      exact h

/-- The step that pops PC itself: the statement writes it at once, the model keeps it for the end. -/
theorem popPc_of_popControls {mask : BitVec 8} {all : Bool} {cs : List (Nat × (State → Word → State))} {s t : State} {x : Word}
    (h : popControls mask all ((1, fun t v => { t with pc := v }) :: cs) (s.setPc x) = some t) :
    ∃ v u, (if mask.getLsbD 1 then popWord .pshPop s else .done x s) = .done v u ∧ u.pc = s.pc ∧
      popControls mask all cs (u.setPc v) = some t := by
  rw [popControls] at h
  have selection : (mask.getLsbD 1 && ((1 : Nat) != 2 || all)) = mask.getLsbD 1 := Bool.and_true _
  rw [selection] at h
  split at h
  case isFalse unselected => exact ⟨x, s, if_neg unselected, rfl, h⟩
  case isTrue selected =>
    rw [if_pos selected, popWord_eq]
    rw [readWord_same (sameMemory_setPc s x), State.setPc_sp] at h
    cases read : readWord .ss .pshPop s.sp s with
    | trap y r =>
      rw [read] at h
      cases h
    | done v r =>
      rw [read] at h
      have beside : { ((s.setPc x).withBus r).setSp (s.sp + 2) with pc := v } = ((s.withBus r).setSp (s.sp + 2)).setPc v := by
        rw [show (s.setPc x).withBus r = (s.withBus r).setPc x from rfl, (setSp_writesPast _ _ x).2]
        rfl
      refine ⟨v, _, rfl, State.setSp_pc _ _, ?_⟩
      rw [← beside]
      exact h

/-- Settles O45: the five steps, PC written last by the model. -/
theorem popControlRegisters : Obligations.PopControlRegisters := by
  intro mask s t pops
  obtain ⟨u1, first, pc1, pops⟩ := popInto_of_popControls (write := State.writeFl) (fun _ _ _ => ⟨rfl, rfl⟩) pops
  obtain ⟨newPc, u2, second, pc2, pops⟩ := popPc_of_popControls pops
  obtain ⟨u3, third, pc3, pops⟩ := popInto_of_popControls (write := State.writePs) (fun _ _ _ => ⟨rfl, rfl⟩) pops
  obtain ⟨u4, fourth, pc4, pops⟩ := popInto_of_popControls (write := State.setUsp) (fun _ _ _ => ⟨rfl, rfl⟩) pops
  obtain ⟨u5, fifth, pc5, pops⟩ := popInto_of_popControls (write := State.setSp) setSp_writesPast pops
  obtain rfl : u5.setPc newPc = t := Option.some.inj pops
  have pc : u5.pc = s.pc := by rw [pc5, pc4, pc3, pc2, pc1]
  have plain : ∀ b : Bool, ∀ j : Nat, j ≠ 2 → (b && (j != 2 || s.supervisor)) = b := fun b j h => by simp [h]
  rw [plain _ 0 (by decide)] at first
  rw [plain _ 6 (by decide)] at fourth
  rw [plain _ 7 (by decide)] at fifth
  have ps : (mask.getLsbD 2 && ((2 : Nat) != 2 || s.supervisor)) = (mask.getLsbD 2 && s.supervisor) := rfl
  rw [ps] at third
  show perform _ _ ((popInto (mask.getLsbD 0) State.writeFl s).andThen _) = _
  rw [first, Res.done_andThen, second, Res.done_andThen, third, Res.done_andThen, fourth, Res.done_andThen, fifth, Res.done_andThen]
  have raises : namesPsInUserMode mask s = true ↔ mask.getLsbD 2 = true ∧ s.supervisor = false := by
    rw [namesPsInUserMode, Bool.and_eq_true, Bool.not_eq_true']
  by_cases fault : mask.getLsbD 2 = true ∧ s.supervisor = false
  · rw [if_pos (raises.mpr fault), if_pos fault, ← pc]
    rfl
  · rw [if_neg (mt raises.mp fault), if_neg fault]
    rfl

/-! ### JMP -/

/-- The target of a near jump in a memory mode is the word at the address. -/
theorem nearTarget_memory {m : JumpOperand} {s : State} {k : SegKind} {a : Word} (h : jumpAddress m s = some (k, a)) :
    nearTarget m s = readWord k .other a s := by
  cases m with
  | immediate | register | undefinedMode => cases h
  | absolute | indirect | indirectOffset | indirectIndexed => rw [nearTarget, h]

theorem exec_jmp (m : JumpOperand) (s : State) :
    exec (.jmp m) s = perform (opcode (.jmp m)) s.pc ((nearTarget m s).andThen fun t s1 => .done () (s1.setPc t)) := rfl

/-- Settles O37: the target by the mode of the operand. -/
theorem nearJump : Obligations.NearJump := by
  intro m s
  refine ⟨?_, ?_, ?_, fun k a address => ⟨fun v s1 read => ?_, fun x s1 refused => ?_⟩⟩
  · rintro es t g rfl
    rfl
  · rintro es r f rfl
    rfl
  · rintro es x rfl
    rfl
  · rw [exec_jmp, nearTarget_memory address, read, readWord_withBus read]
    rfl
  · rw [exec_jmp, nearTarget_memory address, refused, readWord_trap_withBus refused]
    rfl

/-- The target of a far jump in a memory mode, in supervisor mode: three words, the second and third at the next even distances. -/
theorem farTarget_memory {m : JumpOperand} {s : State} {k : SegKind} {a : Word} (h : jumpAddress m s = some (k, a))
    (mode : s.supervisor = true) :
    farTarget m s =
      (readWord k .other a s).andThen fun t s1 =>
      (readWord k .other (a + 2) s1).andThen fun lo s2 =>
      (readWord k .other (a + 4) s2).andThen fun hi s3 => .done (t, (hi ++ lo : BitVec 32)) s3 := by
  cases m with
  | immediate | register | undefinedMode => cases h
  | absolute | indirect | indirectOffset | indirectIndexed => rw [farTarget, if_pos mode, h]

theorem offset_two_two (a : Word) : a + 2 + 2 = a + 4 := BitVec.add_assoc a 2 2

/-- The three words of a far target that can be read. -/
theorem farTarget_done {m : JumpOperand} {s s1 : State} {k : SegKind} {a t lo hi : Word} (h : jumpAddress m s = some (k, a))
    (mode : s.supervisor = true) (words : readWords k .other 3 a s = some ([t, lo, hi], s1)) :
    farTarget m s = .done (t, BitVec.ofNat 32 (hi.toNat * 2 ^ 16 + lo.toNat)) s1 := by
  obtain ⟨_, _, u1, same, first, words⟩ := readWords_succ words
  cases same
  obtain ⟨_, _, u2, same, second, words⟩ := readWords_succ words
  cases same
  obtain ⟨_, _, u3, same, third, words⟩ := readWords_succ words
  cases same
  obtain ⟨-, rfl⟩ := readWords_zero words
  rw [offset_two_two] at third
  rw [farTarget_memory h mode, first, Res.done_andThen, second, Res.done_andThen, third, Res.done_andThen, words_append]

/-- A far target raises what the first word raises that cannot be read. -/
theorem farTarget_trap {m : JumpOperand} {s s1 s2 : State} {k : SegKind} {a : Word} {ws : List Word} {x : Trap}
    (h : jumpAddress m s = some (k, a)) (mode : s.supervisor = true) (few : ws.length < 3)
    (words : readWords k .other ws.length a s = some (ws, s1))
    (refused : readWord k .other (a + BitVec.ofNat 16 (2 * ws.length)) s1 = .trap x s2) :
    farTarget m s = .trap x s2 ∧ s.withBus s2 = s2 := by
  refine ⟨?_, withBus_trans (readWords_withBus words) (readWord_trap_withBus refused)⟩
  rw [farTarget_memory h mode]
  match ws, few with
  | [], _ =>
    obtain ⟨-, rfl⟩ := readWords_zero words
    have refused : readWord k .other a s1 = .trap x s2 := (congrArg (readWord k .other · s1) (BitVec.add_zero a)).symm.trans refused
    rw [refused]
    rfl
  | [t], _ =>
    obtain ⟨_, _, u1, same, first, words⟩ := readWords_succ words
    cases same
    obtain ⟨-, rfl⟩ := readWords_zero words
    rw [first, Res.done_andThen]
    exact congrArg (Res.andThen · _) refused
  | [t, lo], _ =>
    obtain ⟨_, _, u1, same, first, words⟩ := readWords_succ words
    cases same
    obtain ⟨_, _, u2, same, second, words⟩ := readWords_succ words
    cases same
    obtain ⟨-, rfl⟩ := readWords_zero words
    rw [first, Res.done_andThen, second, Res.done_andThen]
    exact congrArg (Res.andThen · _) refused

/-- Settles O38: the far target, by the mode of the operand and of the processor. -/
theorem farJump : Obligations.FarJump := by
  intro m s
  refine ⟨?_, fun k a t lo hi s1 address mode words => ?_, fun k a ws s1 s2 x address mode few words refused => ?_,
    fun far defined mode => ?_⟩
  · rintro es t g rfl mode
    have target : farTarget (.immediate es t g) s = .done (t, g) s := if_pos mode
    rw [exec_jmpF, target]
    rfl
  · rw [exec_jmpF, farTarget_done address mode words, readWords_withBus words]
    have segs : s1.segs = s.segs := by rw [← readWords_withBus words]; rfl
    rw [← segs]
    rfl
  · obtain ⟨raised, bus⟩ := farTarget_trap address mode few words refused
    rw [exec_jmpF, raised, bus]
    rfl
  · rw [exec_jmpF, farTarget_unprivileged mode far defined]
    rfl

end Sys2Proof.Machine
end

section
/-! PROOFS. The instructions that push (45_jump_call.md, 46_stack.md, 47_processor_functions.md). -/

namespace Sys2Proof.Machine

/-! ### PSH -/

theorem length_maskedRegisters (mask : BitVec 8) : (maskedRegisters mask).length ≤ 8 :=
  (List.length_filter_le _ _).trans (List.length_finRange).le

/-- Settles O41: a list of pushes, and then PC. -/
theorem pushGeneralRegisters : Obligations.PushGeneralRegisters := by
  intro mask s ws wf room keepOff
  have few : ws.length ≤ 8 := (List.length_map _).le.trans (length_maskedRegisters mask)
  obtain ⟨t, push, pushed, -, -, -⟩ := pushWords_room .pshPop ws (Nat.le_refl _) (by omega) wf room (fun _ h => h) keepOff
  refine ⟨t.setPc (s.pc + 2), ?_, pushed.setPc _⟩
  show perform _ _ ((pushWords .pshPop ws s).andThen _) = _
  rw [push]
  rfl

theorem controlWords_eq (mask : BitVec 8) (s : State) : controlWords mask s = s.statedControlWords mask := rfl

theorem length_statedControlWords (mask : BitVec 8) (s : State) : (s.statedControlWords mask).length ≤ 5 := by
  have one : ∀ (b : Bool) (v : Word), (if b then [v] else []).length ≤ 1 := fun b v => by
    cases b
    · exact Nat.zero_le _
    · exact Nat.le_refl _
  simp only [State.statedControlWords, List.length_append]
  have := one (mask.getLsbD 7) s.sp
  have := one (mask.getLsbD 6) s.usp
  have := one (mask.getLsbD 2 && s.supervisor) (s.ps &&& 0xFF00)
  have := one (mask.getLsbD 1) (s.pc + 2)
  have := one (mask.getLsbD 0) (s.fl &&& 0xF000)
  omega

theorem namesPsInUserMode_iff (mask : BitVec 8) (s : State) :
    namesPsInUserMode mask s = true ↔ mask.getLsbD 2 = true ∧ s.supervisor = false := by
  rw [namesPsInUserMode, Bool.and_eq_true, Bool.not_eq_true']

/-- Settles O42: a list of pushes, and then PC or the fault. -/
theorem pushControlRegisters : Obligations.PushControlRegisters := by
  intro mask s ws wf room keepOff
  have few : ws.length ≤ 5 := length_statedControlWords mask s
  obtain ⟨t, push, pushed, -, -, -⟩ := pushWords_room .pshPop ws (Nat.le_refl _) (by omega) wf room (fun _ h => h) keepOff
  refine ⟨t, pushed, ?_⟩
  show perform _ _ ((pushWords .pshPop ws s).andThen _) = _
  rw [push, Res.done_andThen]
  by_cases fault : mask.getLsbD 2 = true ∧ s.supervisor = false
  · rw [if_pos ((namesPsInUserMode_iff mask s).mpr fault), if_pos fault]
    rfl
  · rw [if_neg (mt (namesPsInUserMode_iff mask s).mp fault), if_neg fault]
    rfl

/-! ### JSR -/

theorem pushWords_singleton (p : Purpose) (v : Word) (s : State) : pushWords p [v] s = pushWord p v s := by
  rw [pushWords]
  cases pushWord p v s <;> rfl

/-- A near target takes two access cycles at most. -/
theorem nearTarget_effect {m : JumpOperand} {s s1 : State} {t : Word} (h : nearTarget m s = .done t s1) :
    ∃ n, n ≤ 2 ∧ ReadEffect n s s1 := by
  cases m with
  | immediate | register => cases h; exact ⟨0, Nat.zero_le _, ReadEffect.refl _⟩
  | undefinedMode => cases h
  | absolute | indirect | indirectOffset | indirectIndexed => exact ⟨_, wordCycles_le _, readWord_done h⟩

/-- A far target takes six access cycles at most. -/
theorem farTarget_effect {m : JumpOperand} {s s1 : State} {t : Word × SegReg} (h : farTarget m s = .done t s1) :
    ∃ n, n ≤ 6 ∧ ReadEffect n s s1 := by
  have mode : s.supervisor = true := by
    by_contra user
    obtain ⟨x, raised⟩ := farTarget_user m (Bool.eq_false_of_not_eq_true user)
    rw [h] at raised
    cases raised
  have memory : ∀ {k : SegKind} {a : Word}, jumpAddress m s = some (k, a) → ∃ n, n ≤ 6 ∧ ReadEffect n s s1 := fun address => by
    rw [farTarget_memory address mode] at h
    obtain ⟨_, u1, first, h⟩ := Res.andThen_done h
    obtain ⟨_, u2, second, h⟩ := Res.andThen_done h
    obtain ⟨_, u3, third, h⟩ := Res.andThen_done h
    cases h
    refine ⟨_, ?_, ((readWord_done first).trans (readWord_done second)).trans (readWord_done third)⟩
    have := wordCycles_le
    exact Nat.add_le_add (Nat.add_le_add (this _) (this _)) (this _)
  cases m with
  | immediate =>
    rw [farTarget, if_pos mode] at h
    cases h
    exact ⟨0, Nat.zero_le _, ReadEffect.refl _⟩
  | undefinedMode | register => cases h
  | absolute | indirect | indirectOffset | indirectIndexed => exact memory rfl

/-- The pushes after a read of `n` access cycles, on a stack that devices keep off in all the cycles. -/
theorem pushWords_after {n l : Nat} {s s1 : State} (effect : ReadEffect n s s1) (ws : List Word) (length : ws.length = l)
    (few : 2 * l < 65536) (wf : Memory.wf s.ram = true) (room : s.stackRoom l) {cycles : Nat}
    (keepOff : s.devicesKeepOff cycles (s.belowSp (2 * l))) (enough : n + 2 * l ≤ cycles) :
    ∃ t, pushWords .other ws s1 = .done () t ∧ ∀ pc, Pushed ws pc (s.withBus s1) (t.setPc pc) := by
  subst length
  have bus := effect.withBus
  have cyclesOf : ws.length * wordCycles s1.sp ≤ 2 * ws.length := by
    rw [Nat.mul_comm]
    exact Nat.mul_le_mul_right _ (wordCycles_le _)
  have still : s1.devicesKeepOff (ws.length * wordCycles s1.sp) (s.belowSp (2 * ws.length)) :=
    State.devicesKeepOff_drop (State.devicesKeepOff_mono keepOff (by omega) fun _ h => h) effect.deviceStores
  have room1 : s1.stackRoom ws.length := by rw [← bus]; exact room
  have below : ∀ a, s1.belowSp (2 * ws.length) a → s.belowSp (2 * ws.length) a := fun a h => by rw [← bus] at h; exact h
  obtain ⟨t, push, pushed, -, -, -⟩ := pushWords_room .other ws (Nat.le_refl _) few (effect.wf wf) room1 below still
  exact ⟨t, push, fun pc => by rw [bus]; exact pushed.setPc pc⟩

theorem nextPc_jsr (m : JumpOperand) (s : State) : nextPc (.jsr m) s = s.pc + jumpLength false m := by
  cases m <;> rfl

theorem nextPc_jsrF (m : JumpOperand) (s : State) : nextPc (.jsrF m) s = s.pc + jumpLength true m := by
  cases m <;> rfl

theorem exec_jsr (m : JumpOperand) (s : State) :
    exec (.jsr m) s = perform (opcode (.jsr m)) s.pc ((nearTarget m s).andThen fun t s1 =>
      (pushWord .other (s.pc + jumpLength false m) s1).andThen fun _ s2 => .done () (s2.setPc t)) := rfl

/-- Settles O39: the target, then one push. -/
theorem nearCall : Obligations.NearCall := by
  intro m s s1
  refine ⟨fun target wf room keepOff read => ?_, fun k a x address refused => ?_⟩
  · obtain ⟨n, cycles, effect⟩ := nearTarget_effect read
    obtain ⟨t, push, pushed⟩ := pushWords_after (l := 1) effect [nextPc (.jsr m) s] rfl (by decide) wf room keepOff (by omega)
    rw [pushWords_singleton, nextPc_jsr] at push
    refine ⟨?_, t.setPc target, ?_, pushed target⟩
    · rw [exec_jmp, read, effect.withBus]
      rfl
    · rw [exec_jsr, read, Res.done_andThen, push]
      rfl
  · rw [exec_jsr, nearTarget_memory address, refused, readWord_trap_withBus refused]
    rfl

theorem highWord_eq (r : SegReg) : r.extractLsb' 16 16 = BitVec.ofNat 16 (r.toNat / 2 ^ 16) := by
  apply BitVec.eq_of_toNat_eq
  rw [BitVec.extractLsb'_toNat, BitVec.toNat_ofNat, Nat.shiftRight_eq_div_pow]

theorem lowWord_eq (r : SegReg) : r.extractLsb' 0 16 = BitVec.ofNat 16 r.toNat := by
  apply BitVec.eq_of_toNat_eq
  rw [BitVec.extractLsb'_toNat, BitVec.toNat_ofNat, Nat.shiftRight_zero]

/-- Settles O40: the target, then three pushes. -/
theorem farCall : Obligations.FarCall := by
  intro m s s1
  refine ⟨fun target g wf room keepOff read => ?_, fun k a ws s2 x address mode few words refused => ?_⟩
  · obtain ⟨n, cycles, effect⟩ := farTarget_effect read
    obtain ⟨t, push, pushed⟩ := pushWords_after (l := 3) effect
      [BitVec.ofNat 16 (s.segs.css.toNat / 2 ^ 16), BitVec.ofNat 16 s.segs.css.toNat, nextPc (.jsrF m) s] rfl (by decide) wf room
      keepOff (by omega)
    have css : s1.segs.css = s.segs.css := by rw [← effect.withBus]; rfl
    refine ⟨?_, t.setPc target, ?_, pushed target⟩
    · rw [exec_jmpF, read, effect.withBus]
      rfl
    · rw [exec_jsrF, read, Res.done_andThen, css, highWord_eq, lowWord_eq, ← nextPc_jsrF, push]
      rfl
  · obtain ⟨raised, bus⟩ := farTarget_trap address mode few words refused
    rw [exec_jsrF, raised, bus]
    rfl

/-! ### LSG and SSG -/

/-- SSG of a defined selection, in supervisor mode. -/
theorem exec_ssg {s : State} {u : Bool} {x r : BitVec 3} {n : SegName} (mode : s.supervisor = true)
    (selected : selectSegment u r = some n) :
    exec (.ssg u x r) s = perform (opcode (.ssg u x r)) s.pc
      ((pushWords .other [BitVec.ofNat 16 ((s.segs.get n).toNat / 2 ^ 16), BitVec.ofNat 16 (s.segs.get n).toNat] s).andThen
        fun _ s1 => .done () (s1.setPc (s.pc + 2))) := by
  show perform _ _ (supervisorOnly s _) = _
  rw [supervisorOnly_supervisor mode, selected]
  dsimp only
  rw [highWord_eq, lowWord_eq]

/-- The nine selections (47_processor_functions.md R311). -/
theorem selectSegment_listed {u : Bool} {r : BitVec 3} {n : SegName} (h : (u, r.toNat, n) ∈
    [(false, 0, SegName.css), (false, 1, .dss), (false, 2, .ess), (false, 3, .sss), (false, 4, .isr),
     (true, 0, .csu), (true, 1, .dsu), (true, 2, .esu), (true, 3, .ssu)]) : selectSegment u r = some n := by
  simp only [List.mem_cons, List.not_mem_nil, or_false, Prod.mk.injEq] at h
  rcases h with ⟨rfl, number, rfl⟩ | ⟨rfl, number, rfl⟩ | ⟨rfl, number, rfl⟩ | ⟨rfl, number, rfl⟩ | ⟨rfl, number, rfl⟩ |
    ⟨rfl, number, rfl⟩ | ⟨rfl, number, rfl⟩ | ⟨rfl, number, rfl⟩ | ⟨rfl, number, rfl⟩ <;> rw [selectSegment, number] <;> rfl

/-- Settles O49: two pops, and two pushes. -/
theorem segmentRegisterLoadAndStore : Obligations.SegmentRegisterLoadAndStore := by
  intro s u x r n mode listed
  have selected := selectSegment_listed listed
  refine ⟨fun lo hi s1 words => exec_lsg mode selected words, fun wf room keepOff => ?_⟩
  obtain ⟨t, push, pushed, -, -, -⟩ :=
    pushWords_room .other [BitVec.ofNat 16 ((s.segs.get n).toNat / 2 ^ 16), BitVec.ofNat 16 (s.segs.get n).toNat]
      (n := 2) (Nat.le_refl 2) (by decide) wf room (fun _ h => h) keepOff
  refine ⟨t.setPc (s.pc + 2), ?_, pushed.setPc _⟩
  rw [exec_ssg mode selected, push]
  rfl

end Sys2Proof.Machine
end

section
/-! PROOFS. The stack at its bounds, and read back (46_stack.md R290, R293). -/

namespace Sys2Proof.Machine

/-! ### A push beyond the stack segment -/

/-- A push whose first byte, or whose second byte alone in a segment that may be written, lies at or beyond the size. -/
theorem pushWord_beyond (p : Purpose) (v : Word) {s : State} (present : (s.segValue .ss).getLsbD 29 = false)
    (beyond : segmentSize (s.segValue .ss) ≤ (s.sp - 2).toNat ∨
      ((s.segValue .ss).getLsbD 30 = false ∧ segmentSize (s.segValue .ss) ≤ (s.sp - 1).toNat)) :
    pushWord p v s = .trap (Violation.beyondSize.trap p) (s.setSp (s.sp - 2)) := by
  have next : s.sp - 2 + 1 = s.sp - 1 := by bv_omega
  have value := State.setSp_segValue s (s.sp - 2) .ss
  rw [pushWord, State.setSp_sp]
  rcases Nat.lt_or_ge (s.sp - 2).toNat (segmentSize (s.segValue .ss)) with inside | outside
  · obtain ⟨writable, second⟩ := beyond.resolve_left (Nat.not_le.mpr inside)
    rw [writeWord, value, checkAccess_none true present writable inside]
    dsimp only
    rw [next, checkAccess_beyondSize true present second]
  · rw [writeWord, value, checkAccess_beyondSize true present outside]

/-- The same after a read of the operand. -/
theorem pushWord_beyond_after {n : Nat} {s s1 : State} (effect : ReadEffect n s s1) (present : (s.segValue .ss).getLsbD 29 = false)
    (beyond : segmentSize (s.segValue .ss) ≤ (s.sp - 2).toNat ∨
      ((s.segValue .ss).getLsbD 30 = false ∧ segmentSize (s.segValue .ss) ≤ (s.sp - 1).toNat)) (v : Word) :
    pushWord .other v s1 = .trap (Violation.beyondSize.trap .other) ((s.withBus s1).setSp (s.sp - 2)) := by
  have first := pushWord_beyond .other v (s := s.withBus s1) present beyond
  rw [effect.withBus] at first
  have sp : s1.sp = s.sp := by rw [← effect.withBus]; rfl
  rw [first, effect.withBus, sp]

theorem pushWords_beyond {p : Purpose} {v : Word} {s t : State} {x : Trap} (h : ∀ v, pushWord p v s = .trap x t) (vs : List Word) :
    pushWords p (v :: vs) s = .trap x t := by
  rw [pushWords, h]
  rfl

/-- A mask of bits that are all clear is 0. -/
theorem mask_eq_zero {mask : BitVec 8} (h : ∀ i < 8, mask.getLsbD i = false) : mask = 0 :=
  BitVec.eq_of_getLsbD_eq fun i hi => (h i hi).trans BitVec.getLsbD_zero.symm

theorem maskedRegisters_ne_nil {mask : BitVec 8} (h : mask ≠ 0) : maskedRegisters mask ≠ [] := fun none => h <| mask_eq_zero fun i hi => by
  have unselected := List.filter_eq_nil_iff.mp none ⟨i, hi⟩ (List.mem_finRange _)
  exact Bool.eq_false_of_not_eq_true unselected

/-- The control masks that access the stack: PS alone does in supervisor mode only. -/
def AccessesStack (mask : BitVec 8) (s : State) : Prop := mask &&& 0xC3 ≠ 0 ∨ (mask.getLsbD 2 = true ∧ s.supervisor = true)

/-- One of the selected registers of such a mask. -/
theorem AccessesStack.selected {mask : BitVec 8} {s : State} (h : AccessesStack mask s) :
    mask.getLsbD 0 = true ∨ mask.getLsbD 1 = true ∨ (mask.getLsbD 2 && s.supervisor) = true ∨ mask.getLsbD 6 = true ∨
      mask.getLsbD 7 = true := by
  have bits : ∀ mask : BitVec 8, mask &&& 0xC3 ≠ 0 →
      (mask.getLsbD 0 || mask.getLsbD 1 || mask.getLsbD 6 || mask.getLsbD 7) = true := by decide
  rcases h with general | ⟨ps, mode⟩
  · have := bits mask general
    simp only [Bool.or_eq_true] at this
    tauto
  · exact .inr (.inr (.inl (by rw [ps, mode]; rfl)))

theorem controlWords_ne_nil {mask : BitVec 8} {s : State} (h : AccessesStack mask s) : controlWords mask s ≠ [] := by
  have unselected : ∀ {b : Bool} {v : Word}, (if b then [v] else []) = [] → b = false := fun {b v} h => by
    cases b with
    | false => rfl
    | true => cases h
  intro none
  simp only [controlWords, List.append_eq_nil_iff] at none
  obtain ⟨⟨⟨⟨sp, usp⟩, ps⟩, pc⟩, fl⟩ := none
  have selected := h.selected
  rw [unselected sp, unselected usp, unselected ps, unselected pc, unselected fl] at selected
  simp at selected

/-! ### A pop beyond the stack segment -/

theorem readByteIn_purpose {begins : Bool} {k : SegKind} {p q : Purpose} {off : Word} {s t : State} {b : Byte}
    (h : readByteIn begins k p off s = .done b t) : readByteIn begins k q off s = .done b t := by
  unfold readByteIn at h ⊢
  split at h
  · cases h
  · exact h

/-- A pop whose first byte, or whose second byte after the read of the first, lies at or beyond the size. -/
theorem popWord_beyond (p : Purpose) {s s1 : State} (present : (s.segValue .ss).getLsbD 29 = false)
    (beyond : (segmentSize (s.segValue .ss) ≤ s.sp.toNat ∧ s1 = s) ∨
      (segmentSize (s.segValue .ss) ≤ (s.sp + 1).toNat ∧ ∃ b, readByte .ss .other s.sp s = .done b s1)) :
    popWord p s = .trap (Violation.beyondSize.trap p) s1 := by
  rw [popWord]
  rcases beyond with ⟨outside, rfl⟩ | ⟨outside, b, first⟩
  · rw [readWord, readByte, readByteIn_refused (checkAccess_beyondSize false present outside)]
    rfl
  · have value : s1.segValue .ss = s.segValue .ss := by rw [← (readByte_done first).withBus]; rfl
    have second : checkAccess (s1.segValue .ss) (s.sp + 1) false = some .beyondSize := by
      rw [value]; exact checkAccess_beyondSize false present outside
    rw [readWord, readByte, readByteIn_purpose first, Res.done_andThen, readByteIn_refused second]
    rfl

theorem popInto_selected {selected : Bool} {write : State → Word → State} {s t : State} {x : Trap} (h : selected = true)
    (pop : popWord .pshPop s = .trap x t) : popInto selected write s = .trap x t := by
  rw [popInto, if_pos h, pop]
  rfl

theorem popInto_unselected {selected : Bool} (write : State → Word → State) (s : State) (h : selected = false) :
    popInto selected write s = .done () s := if_neg (ne_true_of_eq_false h)

/-- POP of control registers raises what its first pop raises. -/
theorem exec_popControl_trap {mask : BitVec 8} {s t : State} {x : Trap} (accesses : AccessesStack mask s)
    (pop : popWord .pshPop s = .trap x t) :
    exec (.popControl mask) s = .next (takeInterrupt (x.interrupt (opcode (.popControl mask))) s.pc t) := by
  have selected := accesses.selected
  show perform _ _ ((popInto (mask.getLsbD 0) State.writeFl s).andThen _) = _
  cases fl : mask.getLsbD 0 with
  | true => rw [popInto_selected rfl pop]; rfl
  | false =>
    rw [popInto_unselected _ _ rfl, Res.done_andThen]
    cases pc : mask.getLsbD 1 with
    | true => rw [if_pos rfl, pop]; rfl
    | false =>
      rw [if_neg Bool.false_ne_true, Res.done_andThen]
      cases ps : mask.getLsbD 2 && s.supervisor with
      | true => rw [popInto_selected rfl pop]; rfl
      | false =>
        rw [popInto_unselected _ _ rfl, Res.done_andThen]
        cases usp : mask.getLsbD 6 with
        | true => rw [popInto_selected rfl pop]; rfl
        | false =>
          rw [popInto_unselected _ _ rfl, Res.done_andThen]
          have sp : mask.getLsbD 7 = true := by
            rw [fl, pc, ps, usp] at selected
            simpa using selected
          rw [popInto_selected sp pop]
          rfl

theorem exec_popGeneral_trap {mask : BitVec 8} {s t : State} {x : Trap} (selects : mask ≠ 0)
    (pop : popWord .pshPop s = .trap x t) :
    exec (.popGeneral mask) s = .next (takeInterrupt (x.interrupt (opcode (.popGeneral mask))) s.pc t) := by
  have some : (maskedRegisters mask).reverse ≠ [] := mt List.reverse_eq_nil_iff.mp (maskedRegisters_ne_nil selects)
  show perform _ _ ((popRegisters (maskedRegisters mask).reverse s).andThen _) = _
  cases list : (maskedRegisters mask).reverse with
  | nil => exact absurd list some
  | cons r rs =>
    rw [popRegisters, pop]
    rfl

/-- The selections that name a register. -/
theorem selectSegment_named {u : Bool} {r : BitVec 3} (h : r.toNat ≤ 3 ∨ (r.toNat = 4 ∧ u = false)) :
    ∃ n, selectSegment u r = some n := by
  have named : ∀ (u : Bool) (r : BitVec 3), (r.toNat ≤ 3 ∨ (r.toNat = 4 ∧ u = false)) → (selectSegment u r).isSome = true := by decide
  exact Option.isSome_iff_exists.mp (named u r h)

/-- Settles O46: the first push, and the first pop, of each instruction. -/
theorem stackBoundsFaults : Obligations.StackBoundsFaults := by
  intro s present size accesses named
  refine ⟨fun beyond => ⟨?_, fun m target s1 read => ?_, fun m target s1 read => ?_, fun u x r selection mode => ?_⟩,
    fun s1 beyond => ⟨?_, ?_⟩⟩
  · have first := fun v => pushWord_beyond .pshPop v present beyond
    rintro i (⟨mask, selects, rfl⟩ | ⟨mask, selects, rfl⟩)
    · show perform _ _ ((pushWords .pshPop ((maskedRegisters mask).map s.reg) s).andThen _) = _
      cases list : maskedRegisters mask with
      | nil => exact absurd list (maskedRegisters_ne_nil selects)
      | cons r rs =>
        rw [List.map_cons, pushWords_beyond first]
        rfl
    · show perform _ _ ((pushWords .pshPop (controlWords mask s) s).andThen _) = _
      cases list : controlWords mask s with
      | nil => exact absurd list (controlWords_ne_nil selects)
      | cons v vs =>
        rw [pushWords_beyond first]
        rfl
  · obtain ⟨n, -, effect⟩ := nearTarget_effect read
    rw [exec_jsr, read, Res.done_andThen, pushWord_beyond_after effect present beyond]
    rfl
  · obtain ⟨n, -, effect⟩ := farTarget_effect read
    rw [exec_jsrF, read, Res.done_andThen, pushWords_beyond (pushWord_beyond_after effect present beyond)]
    rfl
  · obtain ⟨n, selected⟩ := selectSegment_named selection
    rw [exec_ssg mode selected, pushWords_beyond fun v => pushWord_beyond .other v present beyond]
    rfl
  · have first : popWord .pshPop s = .trap .stack s1 := popWord_beyond .pshPop present beyond
    rintro i (⟨mask, selects, rfl⟩ | ⟨mask, selects, rfl⟩)
    · rw [exec_popGeneral_trap selects first]
      rfl
    · rw [exec_popControl_trap selects first]
      rfl
  · have first : popWord .other s = .trap (.segment true false) s1 := popWord_beyond .other present beyond
    rintro i (rfl | ⟨mode, rfl | rfl | ⟨u, x, r, selection, rfl⟩⟩)
    · show perform _ _ ((popWord .other s).andThen _) = _
      rw [first]
      rfl
    · show perform _ _ (supervisorOnly s ((popWord .other s).andThen _)) = _
      rw [supervisorOnly_supervisor mode, first]
      rfl
    · show perform _ _ (supervisorOnly s ((popWord .other s).andThen _)) = _
      rw [supervisorOnly_supervisor mode, first]
      rfl
    · obtain ⟨n, selected⟩ := selectSegment_named selection
      show perform _ _ (supervisorOnly s _) = _
      rw [supervisorOnly_supervisor mode, selected]
      dsimp only
      rw [first]
      rfl

end Sys2Proof.Machine
end

section
/-! PROOFS. Words read back from a stack in RAM: POP after PSH (46_stack.md R293). -/

namespace Sys2Proof.Machine

/-- In RAM that devices keep off, the turns of the devices change no word of the stack. -/
theorem State.peekWord_afterCycles {s : State} {P : Nat → Prop} {n total : Nat} (ram : (s.segValue .ss).getLsbD 31 = false) {off : Word}
    (keepOff : s.devicesKeepOff total P) (within : n ≤ total) (low : P (s.stackAddress off)) (high : P (s.stackAddress (off + 1))) :
    (State.afterCycles n s).peekWord (s.segValue .ss) off = s.peekWord (s.segValue .ss) off := by
  have still := State.devicesKeepOff_mono keepOff within fun _ h => h
  have byte : ∀ {x : Word}, P (s.stackAddress x) → (State.afterCycles n s).peek (s.segValue .ss) x = s.peek (s.segValue .ss) x :=
    fun {x} h => by
      rw [State.peek_ram (State.translate_stack s ram x), State.peek_ram (State.translate_stack s ram x),
        State.afterCycles_keepOff h n still]
  rw [State.peekWord, State.peekWord, byte low, byte high]

theorem State.afterCycles_stackAddress (n : Nat) (s : State) (off : Word) :
    (State.afterCycles n s).stackAddress off = s.stackAddress off := by
  rw [State.stackAddress, State.afterCycles_segValue]
  rfl

theorem offset_zero (x : Word) : x + BitVec.ofNat 16 0 = x := BitVec.add_zero x

/-- Words of a stack in RAM, inside the size and where devices keep off, are read as they lie there. -/
theorem readWords_stack (p : Purpose) {P : Nat → Prop} : ∀ (n : Nat) {s : State} {off : Word},
    (s.segValue .ss).getLsbD 31 = false → (s.segValue .ss).getLsbD 29 = false →
    (∀ j < 2 * n, (off + BitVec.ofNat 16 j).toNat < segmentSize (s.segValue .ss) ∧ P (s.stackAddress (off + BitVec.ofNat 16 j))) →
    s.devicesKeepOff (n * wordCycles off) P →
    readWords .ss p n off s = some
      ((List.range n).map fun k => s.peekWord (s.segValue .ss) (off + BitVec.ofNat 16 (2 * k)),
        State.afterCycles (n * wordCycles off) s)
  | 0, s, off, _, _, _, _ => by rw [Nat.zero_mul]; rfl
  | n + 1, s, off, ram, present, inside, keepOff => by
    have cycles : (n + 1) * wordCycles off = wordCycles off + n * wordCycles (off + 2) := by
      rw [wordCycles_add_two, Nat.succ_mul, Nat.add_comm]
    rw [cycles] at keepOff ⊢
    have first := inside 0 (by omega)
    have second := inside 1 (by omega)
    rw [offset_zero] at first
    rw [← word_one] at second
    have next : ∀ j, off + 2 + BitVec.ofNat 16 j = off + BitVec.ofNat 16 (j + 2) := fun j => by
      rw [word_two, ofNat_add_ofNat, Nat.add_comm]
    have word : readWord .ss p off s =
        .done (s.peekWord (s.segValue .ss) off) (State.afterCycles (wordCycles off) s) := by
      rw [readWord_onBoard (checkAccess_read present first.1) (checkAccess_read present second.1) (onBoard_ram ram)]
      have one : 1 ≤ wordCycles off := by rw [wordCycles_eq]; omega
      have kept : ∀ {m : Nat} {x : Word}, m ≤ wordCycles off → P (s.stackAddress x) →
          (State.afterCycles m s).peek (s.segValue .ss) x = s.peek (s.segValue .ss) x := fun {m x} hm hx => by
        rw [State.peek_ram (State.translate_stack s ram x), State.peek_ram (State.translate_stack s ram x)]
        exact State.afterCycles_keepOff hx m (State.devicesKeepOff_mono keepOff (by omega) fun _ h => h)
      have turn : s.deviceTurn = State.afterCycles 1 s := rfl
      rw [turn, kept one first.2, kept (Nat.le_refl _) second.2, State.peekWord]
    have value := State.afterCycles_segValue (wordCycles off) s .ss
    have rest := readWords_stack p n (s := State.afterCycles (wordCycles off) s) (off := off + 2) (by rw [value]; exact ram)
      (by rw [value]; exact present) (fun j hj => by
        rw [value, State.afterCycles_stackAddress, next]
        exact inside (j + 2) (by omega))
      (State.devicesKeepOff_drop keepOff (State.afterCycles_deviceStores _ _))
    rw [readWords, word]
    dsimp only
    rw [rest, value]
    dsimp only
    rw [← State.afterCycles_add, List.range_succ_eq_map, List.map_cons, List.map_map]
    have words : ∀ k < n, (State.afterCycles (wordCycles off) s).peekWord (s.segValue .ss) (off + 2 + BitVec.ofNat 16 (2 * k)) =
        s.peekWord (s.segValue .ss) (off + BitVec.ofNat 16 (2 * (k + 1))) := fun k hk => by
      rw [next]
      have high := (inside (2 * k + 3) (by omega)).2
      have following : off + BitVec.ofNat 16 (2 * k + 2) + 1 = off + BitVec.ofNat 16 (2 * k + 3) := by
        rw [word_one, ofNat_add_ofNat]
      exact State.peekWord_afterCycles ram keepOff (Nat.le_add_right _ _) (inside (2 * k + 2) (by omega)).2 (by
        rw [following]; exact high)
    rw [List.map_congr_left fun k hk => words k (List.mem_range.mp hk), Nat.mul_zero, offset_zero]
    rfl

/-! ### POP after PSH -/

/-- The registers popped into a list of distinct or repeated registers from their own values. -/
theorem foldl_setReg_reg (f : Reg → Word) : ∀ (rs : List Reg) (s : State) (r : Reg),
    ((rs.zip (rs.map f)).foldl (fun t rv => t.setReg rv.1 rv.2) s).reg r = if r ∈ rs then f r else s.reg r
  | [], _, _ => rfl
  | q :: qs, s, r => by
    rw [List.map_cons, List.zip_cons_cons, List.foldl_cons, foldl_setReg_reg f qs]
    by_cases later : r ∈ qs
    · simp [later]
    · by_cases now : r = q
      · subst now
        simp [later]
      · simp [later, now, State.setReg_reg_other]

theorem mem_maskedRegisters {mask : BitVec 8} {r : Reg} : r ∈ maskedRegisters mask ↔ mask.getLsbD r.val = true := by
  simp [maskedRegisters]

/-- The words that a list of pushes left, read upward from the stack pointer, are the list backward. -/
theorem Pushed.words {ws : List Word} {pc : Word} {s t : State} (h : Pushed ws pc s t) :
    (List.range ws.length).map t.stackWord = ws.reverse := by
  obtain ⟨-, words, -, -⟩ := h
  refine List.ext_getElem? fun k => ?_
  rcases Nat.lt_or_ge k ws.length with inside | outside
  · rw [words k inside]
    simp [inside]
  · rw [List.getElem?_eq_none (by simpa using outside), List.getElem?_eq_none (by simpa using outside)]

/-- After a list of pushes the stack segment register is what it was, but for its A bit. -/
theorem Pushed.segValue {ws : List Word} {pc : Word} {s t : State} (h : Pushed ws pc s t) :
    t.segValue .ss = s.segValue .ss ∨ t.segValue .ss = withBit (s.segValue .ss) 28 true := by
  obtain ⟨-, -, -, whole⟩ := h
  have value : t.segValue .ss = (if ws = [] then s else s.markAccessed .ss).segValue .ss := by
    rw [whole]
    exact State.setSp_segValue _ _ .ss
  rw [value]
  split
  · exact .inl rfl
  · exact State.markAccessed_segValue s .ss .ss

theorem Pushed.deviceStores {ws : List Word} {pc : Word} {s t : State} (h : Pushed ws pc s t) :
    t.deviceStores = s.deviceStores.drop (ws.length * wordCycles s.sp) := by
  obtain ⟨-, -, -, whole⟩ := h
  rw [whole]

theorem wordCycles_sub (x : Word) : ∀ n : Nat, wordCycles (x - BitVec.ofNat 16 (2 * n)) = wordCycles x
  | 0 => congrArg wordCycles (BitVec.sub_zero x)
  | n + 1 => by
    have step : x - BitVec.ofNat 16 (2 * (n + 1)) = x - BitVec.ofNat 16 (2 * n) - 2 := by rw [word_two, sub_ofNat_sub, Nat.mul_succ]
    rw [step, wordCycles_sub_two, wordCycles_sub x n]

/-- The words that lie below a stack pointer with room for them can be read, in a state whose own stack pointer is at the lowest of them and
whose stack segment differs in its A bit at most, where devices keep off them. -/
theorem readWords_below (p : Purpose) {n : Nat} {s u : State} (room : s.stackRoom n)
    (accessed : u.segValue .ss = s.segValue .ss ∨ u.segValue .ss = withBit (s.segValue .ss) 28 true)
    (moved : u.sp = s.sp - BitVec.ofNat 16 (2 * n)) (keepOff : u.devicesKeepOff (n * wordCycles s.sp) (s.belowSp (2 * n))) :
    readWords .ss p n u.sp u = some ((List.range n).map u.stackWord, State.afterCycles (n * wordCycles s.sp) u) := by
  obtain ⟨ram, -, present, inside⟩ := room
  have cycles : wordCycles u.sp = wordCycles s.sp := by rw [moved, wordCycles_sub]
  have upward : ∀ j < 2 * n,
      (u.sp + BitVec.ofNat 16 j).toNat < segmentSize (u.segValue .ss) ∧
        s.belowSp (2 * n) (u.stackAddress (u.sp + BitVec.ofNat 16 j)) := fun j hj => by
    have place : u.sp + BitVec.ofNat 16 j = s.sp - BitVec.ofNat 16 (2 * n - j - 1 + 1) := by
      rw [moved, sub_ofNat_add _ (Nat.le_of_lt hj), show 2 * n - j - 1 + 1 = 2 * n - j by omega]
    rw [place, segmentSize_congr accessed, State.stackAddress_congr accessed]
    exact ⟨(inside _ (by omega)).1, ⟨_, by omega, rfl⟩⟩
  have read := readWords_stack p (s := u) n (by rw [getLsbD_congr_accessed accessed (by decide)]; exact ram)
    (by rw [getLsbD_congr_accessed accessed (by decide)]; exact present) upward (by rw [cycles]; exact keepOff)
  rw [read, cycles]
  rfl

/-- A word of the stack is the same in a state that shows the same memory and has the same stack pointer. -/
theorem State.stackWord_same {t u : State} (memory : SameMemory t u) (sp : u.sp = t.sp) (k : Nat) : u.stackWord k = t.stackWord k := by
  have peek : ∀ x, u.peek (u.segValue .ss) x = t.peek (t.segValue .ss) x := fun x => by
    rw [memory.segValue, State.peek, State.peek]
    simp only [memory.ramByte, memory.romByte]
  rw [State.stackWord, State.peekWord, peek, peek, sp]
  rfl

/-- Words that were pushed can be read upward from the stack pointer, where devices keep off them, in any state that shows the memory
and the stack pointer the pushes left. -/
theorem Pushed.readWords {ws : List Word} {pc : Word} {s t u : State} (p : Purpose) (h : Pushed ws pc s t) (room : s.stackRoom ws.length)
    (memory : SameMemory t u) (sp : u.sp = t.sp)
    (keepOff : u.devicesKeepOff (ws.length * wordCycles s.sp) (s.belowSp (2 * ws.length))) :
    readWords .ss p ws.length u.sp u = some (ws.reverse, State.afterCycles (ws.length * wordCycles s.sp) u) := by
  have accessed := h.segValue
  rw [← memory.segValue] at accessed
  rw [readWords_below p room accessed (sp.trans h.1) keepOff, ← h.words,
    List.map_congr_left fun k _ => State.stackWord_same memory sp k]

theorem State.belowSp_mono {s : State} {m n a : Nat} (h : m ≤ n) (below : s.belowSp m a) : s.belowSp n a := by
  obtain ⟨j, hj, place⟩ := below
  exact ⟨j, by omega, place⟩

theorem State.stackRoom_mono {s : State} {m n : Nat} (h : m ≤ n) (room : s.stackRoom n) : s.stackRoom m := by
  obtain ⟨ram, writable, present, inside⟩ := room
  exact ⟨ram, writable, present, fun j hj => inside j (by omega)⟩

/-- Settles O44: the words pushed are the words popped, and each goes back where it came from. -/
theorem popRestoresWhatPushSaved : Obligations.PopRestoresWhatPushSaved := by
  intro mask s t u wf room keepOff push handled
  obtain ⟨rs, order⟩ : ∃ rs, rs = (maskedRegisters mask).reverse := ⟨_, rfl⟩
  obtain ⟨ws, list⟩ : ∃ ws, ws = (maskedRegisters mask).map s.reg := ⟨_, rfl⟩
  have few : ws.length ≤ 8 := by rw [list, List.length_map]; exact length_maskedRegisters mask
  have same : ws.length = rs.length := by rw [list, order, List.length_map, List.length_reverse]
  have cycles : ws.length * wordCycles s.sp ≤ 16 := Nat.mul_le_mul few (wordCycles_le _)
  have below : ∀ a, s.belowSp (2 * ws.length) a → s.belowSp 16 a := fun a h => State.belowSp_mono (by omega) h
  have off := State.devicesKeepOff_mono keepOff (show ws.length * wordCycles s.sp + ws.length * wordCycles s.sp ≤ 32 by omega) below
  have saved := pushGeneralRegisters mask s wf
  simp only [← maskedRegisters.eq_1, ← list] at saved
  obtain ⟨t', pushExec, pushed⟩ := saved (State.stackRoom_mono few room)
    (State.devicesKeepOff_mono off (Nat.le_add_right _ _) fun _ h => h)
  obtain rfl : t' = t := Host.Outcome.next.inj (pushExec.symm.trans push)
  have memory : SameMemory t' u := by rw [handled]; constructor <;> rfl
  have sp : u.sp = t'.sp := by rw [handled]; rfl
  have still := State.devicesKeepOff_drop off (memory.deviceStores.trans pushed.deviceStores)
  have read := pushed.readWords .pshPop (State.stackRoom_mono few room) memory sp still
  have words : ws.reverse = rs.map s.reg := by rw [list, order, List.map_reverse]
  rw [words, same] at read
  refine ⟨((((rs.zip (rs.map s.reg)).foldl (fun t rv => t.setReg rv.1 rv.2)
    (u.withBus (State.afterCycles (rs.length * wordCycles s.sp) u))).setSp (u.sp + BitVec.ofNat 16 (2 * rs.length))).setPc (u.pc + 2)),
    ?_, ?_, fun r => ?_⟩
  · show perform _ _ ((popRegisters (maskedRegisters mask).reverse u).andThen _) = _
    rw [← order, popRegisters_readWords rs read]
    rfl
  · rw [State.setPc_sp, State.setSp_sp, sp, pushed.1, ← same, sub_ofNat_add _ (Nat.le_refl _), Nat.sub_self]
    exact BitVec.sub_zero _
  · rw [State.setPc_reg, State.setSp_reg, foldl_setReg_reg s.reg rs]
    have selected : r ∈ rs ↔ mask.getLsbD r.val = true := by rw [order, List.mem_reverse, mem_maskedRegisters]
    simp only [selected]
    rfl

end Sys2Proof.Machine
end

section
/-! PROOFS. Taking an interrupt: an entry whose pushes have room (60_exceptions.md R345 to R349). -/

namespace Sys2Proof.Machine

/-! ### Pushes look at PS.S and PS.M alone -/

/-- The state with another PS. -/
def State.withPs (s : State) (ps : Word) : State := { s with ps := ps }

theorem State.withPs_self (s : State) : s.withPs s.ps = s := rfl

theorem State.withPs_withPs (s : State) (a b : Word) : (s.withPs a).withPs b = s.withPs b := rfl

theorem State.storeRam_withPs (s : State) (ps : Word) (a : Nat) (b : Byte) :
    (s.withPs ps).storeRam a b = (s.storeRam a b).withPs ps := by
  have connected : (s.withPs ps).ramConnected a = s.ramConnected a := rfl
  unfold State.storeRam
  rw [connected]
  split <;> rfl

theorem State.storeAll_withPs (ps : Word) : ∀ (cs : List Host.Cell) (s : State),
    (s.withPs ps).storeAll cs = (s.storeAll cs).withPs ps
  | [], _ => rfl
  | (a, b) :: cs, s => by rw [State.storeAll, State.storeRam_withPs, State.storeAll_withPs ps cs]; rfl

theorem State.deviceTurn_withPs (s : State) (ps : Word) : (s.withPs ps).deviceTurn = s.deviceTurn.withPs ps := by
  cases stores : s.deviceStores with
  | nil => rw [State.deviceTurn_nil stores, State.deviceTurn_nil (s := s.withPs ps) stores]
  | cons cs rest =>
    rw [State.deviceTurn_cons stores, State.deviceTurn_cons (s := s.withPs ps) stores, ← State.storeAll_withPs]
    rfl

theorem State.turnIf_withPs (s : State) (ps : Word) (begins : Bool) : (s.withPs ps).turnIf begins = (s.turnIf begins).withPs ps := by
  cases begins with
  | false => rfl
  | true => exact State.deviceTurn_withPs s ps

theorem writePlace_withPs (p : Place) (b : Byte) (s : State) (ps : Word) :
    writePlace p b (s.withPs ps) = (writePlace p b s).withPs ps := by
  cases p with
  | ram a => exact State.storeRam_withPs s ps a b
  | rom a => rfl
  | device slot a =>
    have window : (s.withPs ps).windowConnected slot a = s.windowConnected slot a := rfl
    rw [writePlace_device, writePlace_device, window]
    split <;> rfl

/-- The two values of PS have the same S and M bits. -/
def SameMode (a b : Word) : Prop := a.getLsbD 15 = b.getLsbD 15 ∧ a.getLsbD 14 = b.getLsbD 14

theorem SameMode.supervisor {s : State} {ps : Word} (h : SameMode ps s.ps) : (s.withPs ps).supervisor = s.supervisor := h.1

theorem SameMode.mmuOn {s : State} {ps : Word} (h : SameMode ps s.ps) : (s.withPs ps).mmuOn = s.mmuOn := h.2

theorem SameMode.segNameOf {s : State} {ps : Word} (h : SameMode ps s.ps) : (s.withPs ps).segNameOf .ss = s.segNameOf .ss := by
  rw [State.segNameOf, State.segNameOf, h.supervisor]

theorem SameMode.segValue {s : State} {ps : Word} (h : SameMode ps s.ps) : (s.withPs ps).segValue .ss = s.segValue .ss := by
  rw [State.segValue, State.segValue, h.mmuOn, h.segNameOf]
  rfl

theorem SameMode.sp {s : State} {ps : Word} (h : SameMode ps s.ps) : (s.withPs ps).sp = s.sp := by
  rw [State.sp, State.sp, h.supervisor]
  rfl

theorem SameMode.setSp {s : State} {ps : Word} (h : SameMode ps s.ps) (v : Word) : (s.withPs ps).setSp v = (s.setSp v).withPs ps := by
  unfold State.setSp
  rw [h.supervisor]
  split <;> rfl

theorem SameMode.markAccessed {s : State} {ps : Word} (h : SameMode ps s.ps) :
    (s.withPs ps).markAccessed .ss = (s.markAccessed .ss).withPs ps := by
  unfold State.markAccessed
  rw [h.mmuOn, h.segNameOf]
  split <;> rfl

/-- A push that is done does the same under another PS with the same S and M. -/
theorem pushWord_withPs {p : Purpose} {v : Word} {s t : State} {ps : Word} (same : SameMode ps s.ps)
    (h : pushWord p v s = .done () t) : pushWord p v (s.withPs ps) = .done () (t.withPs ps) := by
  have moved : SameMode ps (s.setSp (s.sp - 2)).ps := by rw [State.setSp_ps]; exact same
  rw [pushWord] at h ⊢
  obtain ⟨low, high, rfl⟩ := writeWord_checked h
  rw [same.sp, same.setSp, moved.sp, writeWord_passed (by rw [moved.segValue]; exact low) (by rw [moved.segValue]; exact high),
    moved.segValue, moved.markAccessed, State.deviceTurn_withPs, writePlace_withPs, State.turnIf_withPs, writePlace_withPs]

/-! ### The sequence as one list of pushes -/

/-- PS at the end of an entry, from the PS before it: what steps 2, 3, 6 and 7 write (60_exceptions.md R345). -/
def Interrupt.finalPs (iv : Interrupt) (tmp : Word) : Word :=
  match iv with
  | .hwi _ => withBit (iv.entryPs tmp) 11 true
  | .segFault v w _ => withBit (withBit (iv.entryPs tmp) 9 v) 8 w
  | .clock | .divZeroFault _ | .doubleFault _ | .stackFault _ | .unprivFault _ | .undefFault _ | .busRefresh | .debugQuery
  | .swi => iv.entryPs tmp

theorem finalPs_getLsbD (iv : Interrupt) (tmp : Word) {i : Nat} (h : 12 ≤ i) :
    (iv.finalPs tmp).getLsbD i = (iv.entryPs tmp).getLsbD i := by
  cases iv with
  | hwi => exact withBit_getLsbD_ne _ _ (by omega)
  | segFault => exact (withBit_getLsbD_ne _ _ (by omega)).trans (withBit_getLsbD_ne _ _ (by omega))
  | clock | divZeroFault | doubleFault | stackFault | unprivFault | undefFault | busRefresh | debugQuery | swi => rfl

/-- The first three steps write S, I and U alone. -/
theorem entryPs_kept (iv : Interrupt) (tmp : Word) {i : Nat} (h : i ≠ 15 ∧ i ≠ 12 ∧ i ≠ 10) :
    (iv.entryPs tmp).getLsbD i = tmp.getLsbD i := by
  obtain ⟨s, mode, u⟩ := h
  refine (withBit_getLsbD_ne _ _ (Ne.symm mode)).trans ((withBit_getLsbD_ne _ _ (Ne.symm s)).trans ?_)
  cases iv with
  | clock | hwi | busRefresh | debugQuery | swi => rfl
  | divZeroFault | doubleFault | stackFault | segFault | unprivFault | undefFault => exact withBit_getLsbD_ne _ _ (Ne.symm u)

/-- What a fault writes in U: whether it was taken from user mode, and 0 for DoubleFault (60_exceptions.md R345, R351). -/
theorem entryPs_user (iv : Interrupt) (tmp : Word) : (iv.entryPs tmp).getLsbD 10 =
    match iv with
    | .doubleFault _ => false
    | _ => if iv.isFault then !tmp.getLsbD 15 else tmp.getLsbD 10 := by
  refine (withBit_getLsbD_ne _ _ (by decide)).trans ((withBit_getLsbD_ne _ _ (by decide)).trans ?_)
  cases iv with
  | clock | hwi | busRefresh | debugQuery | swi => rfl
  | divZeroFault | doubleFault | stackFault | segFault | unprivFault | undefFault => exact withBit_getLsbD_eq _ _ (by decide)

/-- The bits of PS that hold something read back as they are. -/
theorem psMask_getLsbD (ps : Word) {i : Nat} (h : 8 ≤ i) (h' : i < 16) : (ps &&& 0xFF00).getLsbD i = ps.getLsbD i := by
  have mask : (0xFF00 : Word).getLsbD i = true := by
    have all : ∀ j : Fin 16, 8 ≤ j.val → (0xFF00 : Word).getLsbD j.val = true := by decide
    exact all ⟨i, h'⟩ h
  rw [BitVec.getLsbD_and, mask, Bool.and_true]

theorem finalPs_psReserved (iv : Interrupt) {tmp : Word} (h : tmp &&& 0x00FF = 0) : iv.finalPs tmp &&& 0x00FF = 0 := by
  have entry := entryPs_psReserved iv h
  cases iv with
  | hwi => exact withBit_psReserved entry (by decide) _
  | segFault => exact withBit_psReserved (withBit_psReserved entry (by decide) _) (by decide) _
  | clock | divZeroFault | doubleFault | stackFault | unprivFault | undefFault | busRefresh | debugQuery | swi => exact entry

theorem readPs_psReserved (ps : Word) : (ps &&& 0xFF00) &&& 0x00FF = 0 := by
  rw [BitVec.and_assoc]
  exact BitVec.and_zero

/-- PS at the end of an entry is as the statement of R345 says, bit by bit. -/
theorem entryPs_final (iv : Interrupt) (ps : Word) : EntryPs iv ps (iv.finalPs (ps &&& 0xFF00)) := by
  have tmp : ∀ {i : Nat}, 8 ≤ i → i < 16 → (ps &&& 0xFF00).getLsbD i = ps.getLsbD i := fun h h' => psMask_getLsbD ps h h'
  have low : (iv.finalPs (ps &&& 0xFF00)).extractLsb' 0 8 = 0 := by
    have clear := (psReserved_iff _).mp (finalPs_psReserved iv (readPs_psReserved ps))
    refine BitVec.eq_of_getLsbD_eq fun i hi => ?_
    rw [BitVec.getLsbD_extractLsb', Nat.zero_add, clear i (by omega) hi, Bool.and_false]
    exact BitVec.getLsbD_zero.symm
  have kept : ∀ {i : Nat}, 8 ≤ i → i < 12 → i ≠ 10 → (iv.entryPs (ps &&& 0xFF00)).getLsbD i = ps.getLsbD i := fun h h' h10 => by
    rw [entryPs_kept iv _ (by omega), tmp h (by omega)]
  refine ⟨?_, ?_, ?_, ?_, ?_, ?_, ?_, ?_, low⟩
  · rw [finalPs_getLsbD _ _ (by decide), entryPs_supervisor]
  · rw [finalPs_getLsbD _ _ (by decide), entryPs_kept _ _ (by decide), tmp (by decide) (by decide)]
  · rw [finalPs_getLsbD _ _ (by decide), entryPs_kept _ _ (by decide), tmp (by decide) (by decide)]
  · rw [finalPs_getLsbD _ _ (by decide)]
    exact withBit_getLsbD_eq _ _ (by decide)
  · cases iv with
    | hwi => exact withBit_getLsbD_eq _ _ (by decide)
    | segFault =>
      exact (withBit_getLsbD_ne _ _ (by decide)).trans ((withBit_getLsbD_ne _ _ (by decide)).trans
        (kept (by decide) (by decide) (by decide)))
    | clock | divZeroFault | doubleFault | stackFault | unprivFault | undefFault | busRefresh | debugQuery | swi =>
      exact kept (by decide) (by decide) (by decide)
  · have user := entryPs_user iv (ps &&& 0xFF00)
    rw [tmp (by decide) (by decide), tmp (by decide) (by decide)] at user
    cases iv with
    | hwi => exact (withBit_getLsbD_ne _ _ (by decide)).trans user
    | segFault => exact (withBit_getLsbD_ne _ _ (by decide)).trans ((withBit_getLsbD_ne _ _ (by decide)).trans user)
    | clock | divZeroFault | doubleFault | stackFault | unprivFault | undefFault | busRefresh | debugQuery | swi => exact user
  · cases iv with
    | hwi => exact (withBit_getLsbD_ne _ _ (by decide)).trans (kept (by decide) (by decide) (by decide))
    | segFault => exact (withBit_getLsbD_ne _ _ (by decide)).trans (withBit_getLsbD_eq _ _ (by decide))
    | clock | divZeroFault | doubleFault | stackFault | unprivFault | undefFault | busRefresh | debugQuery | swi =>
      exact kept (by decide) (by decide) (by decide)
  · cases iv with
    | hwi => exact (withBit_getLsbD_ne _ _ (by decide)).trans (kept (by decide) (by decide) (by decide))
    | segFault => exact withBit_getLsbD_eq _ _ (by decide)
    | clock | divZeroFault | doubleFault | stackFault | unprivFault | undefFault | busRefresh | debugQuery | swi =>
      exact kept (by decide) (by decide) (by decide)

/-- What an entry pushes after PS and the saved PC: the slot of a hardware interrupt, or the code of a fault. -/
def Interrupt.extra (iv : Interrupt) : List Word :=
  match iv with
  | .hwi slot => [BitVec.ofNat 16 slot.toNat]
  | .divZeroFault c | .doubleFault c | .stackFault c | .segFault _ _ c | .unprivFault c | .undefFault c => [c]
  | .clock | .busRefresh | .debugQuery | .swi => []

theorem frame_reverse (iv : Interrupt) (savedPc ps : Word) : (iv.frame savedPc ps).reverse = ps :: savedPc :: iv.extra := by
  cases iv <;> rfl

/-- The steps after the push of the saved PC, on a state that has PS as step 3 left it: the rest of the frame is pushed with PS as the
sequence leaves it at the end. -/
theorem pushExtra {iv : Interrupt} {tmp : Word} {b t : State} (ps : b.ps = iv.finalPs tmp)
    (push : pushWords .other iv.extra b = .done () t) :
    ((iv.pushSlot (b.withPs (iv.entryPs tmp))).andThen fun _ s6 => iv.pushCode (iv.recordType s6)) = .done () t := by
  have back : b.withPs (iv.finalPs tmp) = b := by rw [← ps]; rfl
  have plain : iv.finalPs tmp = iv.entryPs tmp → b.withPs (iv.entryPs tmp) = b := fun h => by rw [← h]; exact back
  have code : ∀ {c : Word}, pushWords .other [c] b = .done () t → pushWord .other c b = .done () t := fun h => by
    rw [← pushWords_singleton]; exact h
  cases iv with
  | clock | busRefresh | debugQuery | swi =>
    cases push
    exact congrArg (Res.done ()) (plain rfl)
  | divZeroFault c | doubleFault c | stackFault c | unprivFault c | undefFault c =>
    show pushWord .other c (b.withPs _) = _
    rw [plain rfl]
    exact code push
  | segFault v w c =>
    show pushWord .other c (b.withPs (Interrupt.finalPs (.segFault v w c) tmp)) = _
    rw [back]
    exact code push
  | hwi slot =>
    have number : slot.setWidth 16 = BitVec.ofNat 16 slot.toNat := BitVec.eq_of_toNat_eq (by simp)
    show (pushWord .other (slot.setWidth 16) (b.withPs (Interrupt.finalPs (.hwi slot) tmp))).andThen (fun _ s6 => .done () s6) = _
    rw [back, number, code push]
    rfl

theorem Res.andThen_assoc {α β γ : Type} (r : Res α) (k : α → State → Res β) (l : β → State → Res γ) :
    (r.andThen k).andThen l = r.andThen fun a s => (k a s).andThen l := by cases r <;> rfl

/-- The state in which an entry makes its pushes, PS being the one it ends with. -/
def State.entryState (s : State) (iv : Interrupt) : State := { s with ps := iv.finalPs s.readPs, halted := false }

/-- Where the pushes of the whole frame are done in one go, the entry is those pushes and the read of the vector. -/
theorem enterOnce_of_pushes {iv : Interrupt} {savedPc : Word} {s t : State}
    (pushes : pushWords .other (iv.frame savedPc s.readPs).reverse (s.entryState iv) = .done () t) :
    enterOnce iv savedPc s = (readWord .is .other (2 * iv.index) t).andThen fun v u => .done () (u.setPc v) := by
  have start : (s.entryState iv).withPs (iv.entryPs s.readPs) =
      { s with ps := iv.entryPs s.readPs, halted := false } := rfl
  have psBase : (s.entryState iv).ps = iv.finalPs s.readPs := rfl
  generalize s.entryState iv = base at pushes start psBase
  have mode : ∀ {x : State}, x.ps = iv.finalPs s.readPs → SameMode (iv.entryPs s.readPs) x.ps := fun h => by
    rw [h]
    exact ⟨(finalPs_getLsbD _ _ (by decide)).symm, (finalPs_getLsbD _ _ (by decide)).symm⟩
  have effect : ∀ {v : Word} {x y : State}, pushWord .other v x = .done () y → y.ps = x.ps := fun {v x y} h => by
    have step := pushWord_effect .other v x
    rw [h] at step
    exact step.ps
  rw [frame_reverse, pushWords] at pushes
  obtain ⟨_, a, first, pushes⟩ := Res.andThen_done pushes
  rw [pushWords] at pushes
  obtain ⟨_, b, second, pushes⟩ := Res.andThen_done pushes
  have psA := (effect first).trans psBase
  have psB := (effect second).trans psA
  rw [enterOnce, ← start, pushWord_withPs (mode psBase) first, Res.done_andThen, pushWord_withPs (mode psA) second, Res.done_andThen,
    ← Res.andThen_assoc (iv.pushSlot (b.withPs (iv.entryPs s.readPs))), pushExtra psB pushes]
  rfl

end Sys2Proof.Machine
end

section
/-! PROOFS. Interrupt entry, DoubleFault, and the return from an entry (60_exceptions.md R345 to R353). -/

namespace Sys2Proof.Machine

/-! ### The supervisor's view of the stack -/

theorem asSupervisor_sameMode (s : State) (iv : Interrupt) : SameMode (s.entryState iv).ps s.asSupervisor.ps := by
  have set : ∀ i : Nat, (s.ps ||| 0x8000).getLsbD i = (s.ps.getLsbD i || (0x8000 : Word).getLsbD i) := fun i => BitVec.getLsbD_or
  refine ⟨?_, ?_⟩
  · show (iv.finalPs s.readPs).getLsbD 15 = (s.ps ||| 0x8000).getLsbD 15
    rw [finalPs_getLsbD _ _ (by decide), entryPs_supervisor, set]
    exact (Bool.or_true _).symm
  · show (iv.finalPs s.readPs).getLsbD 14 = (s.ps ||| 0x8000).getLsbD 14
    rw [finalPs_getLsbD _ _ (by decide), entryPs_kept _ _ (by decide), State.readPs, psMask_getLsbD _ (by decide) (by decide), set]
    exact (Bool.or_false _).symm

theorem finalPs_mmu (s : State) (iv : Interrupt) : (s.entryState iv).ps.getLsbD 14 = s.ps.getLsbD 14 := by
  show (iv.finalPs s.readPs).getLsbD 14 = _
  rw [finalPs_getLsbD _ _ (by decide), entryPs_kept _ _ (by decide), State.readPs, psMask_getLsbD _ (by decide) (by decide)]

theorem asSupervisor_supervisor (s : State) : s.asSupervisor.supervisor = true := by
  show (s.ps ||| 0x8000).getLsbD 15 = true
  rw [BitVec.getLsbD_or]
  exact Bool.or_true _

/-- An entry sees the stack that the supervisor sees. -/
theorem entryState_view (s : State) (iv : Interrupt) :
    (s.entryState iv).supervisor = true ∧ (s.entryState iv).sp = s.ssp ∧ s.asSupervisor.sp = s.ssp ∧
      (s.entryState iv).segValue .ss = s.asSupervisor.segValue .ss ∧
      ((s.entryState iv).markAccessed .ss).segs = (s.asSupervisor.markAccessed .ss).segs := by
  have same := asSupervisor_sameMode s iv
  have mode := asSupervisor_supervisor s
  have entry : (s.entryState iv).supervisor = true := same.1.trans mode
  refine ⟨entry, State.sp_of_supervisor entry, State.sp_of_supervisor mode, same.segValue (s := s.asSupervisor), ?_⟩
  have marked := congrArg State.segs (same.markAccessed (s := s.asSupervisor))
  have halted : ((s.entryState iv).markAccessed .ss).segs = ((s.asSupervisor.withPs (s.entryState iv).ps).markAccessed .ss).segs := by
    unfold State.markAccessed
    split <;> rename_i on
    · rw [if_pos (show (s.asSupervisor.withPs (s.entryState iv).ps).mmuOn = true from on)]
      rfl
    · rw [if_neg (show ¬ (s.asSupervisor.withPs (s.entryState iv).ps).mmuOn = true from on)]
      rfl
  exact halted.trans marked

theorem entryState_stackAddress (s : State) (iv : Interrupt) (off : Word) :
    (s.entryState iv).stackAddress off = s.asSupervisor.stackAddress off := by
  obtain ⟨-, -, -, value, -⟩ := entryState_view s iv
  rw [State.stackAddress, value]
  rfl

theorem entryState_belowSp (s : State) (iv : Interrupt) (n a : Nat) : (s.entryState iv).belowSp n a ↔ s.asSupervisor.belowSp n a := by
  obtain ⟨-, sp, sp', -, -⟩ := entryState_view s iv
  simp only [State.belowSp, entryState_stackAddress, sp, sp']

theorem entryState_stackRoom {s : State} {iv : Interrupt} {n : Nat} (h : s.asSupervisor.stackRoom n) : (s.entryState iv).stackRoom n := by
  obtain ⟨-, sp, sp', value, -⟩ := entryState_view s iv
  have connected : ∀ a, (s.entryState iv).ramConnected a = s.asSupervisor.ramConnected a := fun _ => rfl
  simp only [State.stackRoom, value, entryState_stackAddress, sp, connected]
  rw [← sp']
  exact h

/-! ### The vector -/

theorem Interrupt.index_offset (iv : Interrupt) :
    2 * iv.index = BitVec.ofNat 16 (2 * iv.entryNumber) ∧ (2 * iv.index).toNat = 2 * iv.entryNumber ∧ iv.entryNumber ≤ 15 := by
  cases iv <;> exact ⟨rfl, rfl, Nat.le_of_ble_eq_true rfl⟩

/-- The read of a vector is one aligned cycle of a present segment in RAM or ROM. -/
theorem readVector {iv : Interrupt} {s : State} (present : (s.segValue .is).getLsbD 29 = false)
    (board : onBoard (s.segValue .is) = true) :
    readWord .is .other (2 * iv.index) s =
      .done (s.deviceTurn.peekWord (s.segValue .is) (BitVec.ofNat 16 (2 * iv.entryNumber))) s.deviceTurn := by
  obtain ⟨offset, number, small⟩ := iv.index_offset
  have least : 256 ≤ segmentSize (s.segValue .is) := by rw [segmentSize]; omega
  have next : (2 * iv.index + 1).toNat = 2 * iv.entryNumber + 1 := by
    rw [BitVec.toNat_add, number]
    exact Nat.mod_eq_of_lt (show 2 * iv.entryNumber + 1 < 2 ^ 16 by omega)
  rw [readWord_onBoard (checkAccess_read present (by omega)) (checkAccess_read present (by omega)) board,
    wordCycles_aligned (by omega), ← offset]
  rfl

theorem length_frame (iv : Interrupt) (savedPc ps : Word) : (iv.frame savedPc ps).length = (iv.frame 0 0).length := by
  cases iv <;> rfl

theorem length_frame_le (iv : Interrupt) : (iv.frame 0 0).length ≤ 3 := by cases iv <;> exact Nat.le_of_ble_eq_true rfl

/-! ### An entry that can complete -/

/-- A list of pushes that is not empty leaves what its last equation says; the parts of it that an entry needs. -/
theorem Pushed.kept {ws : List Word} {pc : Word} {s u : State} (h : Pushed ws pc s u) (some : ws ≠ []) :
    u.ps = s.ps ∧ u.segs = (s.markAccessed .ss).segs ∧ u.platform = s.platform ∧ u.rom = s.rom := by
  obtain ⟨-, -, -, whole⟩ := h
  rw [if_neg some] at whole
  refine ⟨?_, ?_, ?_, ?_⟩
  · rw [whole]
    show ((s.markAccessed .ss).setSp u.sp).ps = s.ps
    rw [State.setSp_ps, State.markAccessed_eq]
  · rw [whole]
    show ((s.markAccessed .ss).setSp u.sp).segs = _
    rw [State.setSp_segs]
  · rw [whole]
    show ((s.markAccessed .ss).setSp u.sp).platform = _
    rw [State.setSp_platform, State.markAccessed_eq]
  · rw [whole]
    show ((s.markAccessed .ss).setSp u.sp).rom = _
    rw [State.setSp_rom, State.markAccessed_eq]

/-- The pushes of an entry's frame leave the interrupt segment. -/
theorem Pushed.segValue_is {ws : List Word} {pc : Word} {s u : State} {iv : Interrupt} (h : Pushed ws pc (s.entryState iv) u)
    (some : ws ≠ []) : u.segValue .is = s.segValue .is := by
  obtain ⟨ps, segs, -, -⟩ := h.kept some
  obtain ⟨supervisor, -, -, -, -⟩ := entryState_view s iv
  have mmu : u.mmuOn = s.mmuOn := by
    rw [State.mmuOn, ps, finalPs_mmu]
    rfl
  have other : SegName.isr ≠ (s.entryState iv).segNameOf .ss := by
    rw [State.segNameOf, supervisor]
    decide
  have register : u.segs.get .isr = s.segs.get .isr := by
    rw [segs, State.markAccessed_get, if_neg fun h => other h.2]
    rfl
  have value : ∀ x : State, x.segValue .is = if x.mmuOn then x.segs.get .isr else defaultSegment .is := fun _ => rfl
  rw [value, value, mmu, register]

/-- An entry that can complete does, and leaves what 60_exceptions.md R345 to R349 say. -/
theorem enterOnce_ready {iv : Interrupt} (savedPc : Word) {s : State} (wf : Memory.wf s.ram = true) (ready : EntryReady iv s) :
    ∃ t, enterOnce iv savedPc s = .done () t ∧ Entered iv savedPc s t := by
  obtain ⟨room, keepOff, present, board⟩ := ready
  obtain ⟨supervisor, sp, sp', -, marked⟩ := entryState_view s iv
  have few := length_frame_le iv
  obtain ⟨ws, list⟩ : ∃ ws, ws = (iv.frame savedPc s.readPs).reverse := ⟨_, rfl⟩
  have length : ws.length = (iv.frame 0 0).length := by rw [list, List.length_reverse, length_frame]
  have some : ws ≠ [] := by rw [list, frame_reverse]; nofun
  have below : ∀ a, (s.entryState iv).belowSp (2 * ws.length) a → s.asSupervisor.belowSp (2 * (iv.frame 0 0).length) a := fun a h => by
    rw [← length]; exact (entryState_belowSp s iv _ a).mp h
  obtain ⟨u, push, pushed, wfU, -, address⟩ := pushWords_room .other ws (s := s.entryState iv) (Nat.le_of_eq length) (by omega) wf
    (entryState_stackRoom (iv := iv) room) below (by
      rw [length, sp]; exact State.devicesKeepOff_mono keepOff (Nat.le_succ _) fun _ h => h)
  have value := pushed.segValue_is some
  have vector := readVector (iv := iv) (s := u) (by rw [value]; exact present) (by rw [value]; exact board)
  have enter := enterOnce_of_pushes (iv := iv) (savedPc := savedPc) (s := s) (by rw [← list]; exact push)
  obtain ⟨ps, segs, platform, rom⟩ := pushed.kept some
  have mode : u.supervisor = true := by rw [State.supervisor, ps]; exact supervisor
  have stores : u.deviceStores = s.deviceStores.drop ((iv.frame 0 0).length * wordCycles s.ssp) := by
    rw [pushed.deviceStores, length, sp]
    rfl
  have still : u.devicesKeepOff 1 (s.asSupervisor.belowSp (2 * (iv.frame 0 0).length)) := State.devicesKeepOff_drop keepOff stores
  have moved : u.sp = s.ssp - BitVec.ofNat 16 (2 * (iv.frame 0 0).length) := by rw [pushed.1, length, sp]
  refine ⟨u.deviceTurn.setPc (u.deviceTurn.peekWord (u.segValue .is) (BitVec.ofNat 16 (2 * iv.entryNumber))), by rw [enter, vector]; rfl,
    ?_, ?_, fun k hk => ?_, fun a outside => ?_, ?_, ?_⟩
  · show EntryPs iv s.ps u.deviceTurn.ps
    rw [State.deviceTurn_ps, ps]
    exact entryPs_final iv s.ps
  · show u.deviceTurn.ssp = _
    rw [State.deviceTurn_ssp, ← State.sp_of_supervisor mode, moved]
  · have words := pushed.2.1 k (by rw [length]; exact hk)
    rw [list, List.reverse_reverse] at words
    refine words.trans (congrArg Option.some ?_)
    have ram : (u.segValue .ss).getLsbD 31 = false := by
      rw [getLsbD_congr_accessed pushed.segValue (by decide)]
      exact (entryState_stackRoom (iv := iv) room).1
    have upward : ∀ i < 2 * (iv.frame 0 0).length, s.asSupervisor.belowSp (2 * (iv.frame 0 0).length)
        (u.stackAddress (u.sp + BitVec.ofNat 16 i)) := fun i hi => by
      refine ⟨2 * (iv.frame 0 0).length - i - 1, by omega, ?_⟩
      rw [address, entryState_stackAddress, moved, sub_ofNat_add _ (Nat.le_of_lt hi), sp',
        show 2 * (iv.frame 0 0).length - i - 1 + 1 = 2 * (iv.frame 0 0).length - i by omega]
    have kept := State.peekWord_afterCycles (n := 1) (off := u.sp + BitVec.ofNat 16 (2 * k)) ram still (Nat.le_refl 1)
      (upward (2 * k) (by omega)) (by rw [word_one, ofNat_add_ofNat]; exact upward (2 * k + 1) (by omega))
    have turned : u.deviceTurn.stackWord k = u.stackWord k := by
      rw [State.stackWord, State.deviceTurn_segValue, show u.deviceTurn.sp = u.sp by simp [State.sp, State.supervisor]]
      exact kept
    exact turned.symm
  · have base : u.ramByte a = (State.afterCycles ((iv.frame 0 0).length * wordCycles s.ssp) s).ramByte a := by
      rw [pushed.2.2.1 a (fun h => outside (below a h)), length, sp]
      exact State.afterCycles_ramByte_congr _ wf wf rfl rfl rfl
    show u.deviceTurn.ramByte a = _
    rw [Interrupt.entryCycles, State.afterCycles_add]
    exact State.deviceTurn_ramByte_congr (State.afterCycles_wf _ s wf) wfU (by rw [platform, State.afterCycles_platform]; rfl)
      (by rw [stores, State.afterCycles_deviceStores]) base
  · show _ = u.deviceTurn.peekWord (u.deviceTurn.segValue .is) _
    rw [State.deviceTurn_segValue]
    rfl
  · have whole := pushed.2.2.2
    have entry : ((s.entryState iv).markAccessed .ss).supervisor = true := by rw [State.markAccessed_eq]; exact supervisor
    rw [if_neg some, State.setSp_of_supervisor entry, State.markAccessed_eq, marked] at whole
    rw [State.markAccessed_eq s.asSupervisor, State.deviceTurn_eq u, stores, List.drop_drop]
    generalize u.deviceTurn.ram = ram
    generalize (s.asSupervisor.markAccessed .ss).segs = g at whole ⊢
    generalize State.peekWord _ _ _ = v
    rw [whole]
    rfl

theorem takeInterrupt_ready {iv : Interrupt} (savedPc : Word) {s : State} (wf : Memory.wf s.ram = true) (ready : EntryReady iv s) :
    Entered iv savedPc s (takeInterrupt iv savedPc s) := by
  obtain ⟨t, enter, entered⟩ := enterOnce_ready savedPc wf ready
  rw [takeInterrupt, enter]
  exact entered

/-- Settles O55. -/
theorem interruptEntry : Obligations.InterruptEntry := by
  intro s wf
  refine ⟨fun iv savedPc ready => takeInterrupt_ready savedPc wf ready, fun ready => ⟨_, rfl, takeInterrupt_ready _ wf ready⟩,
    fun h w i row ready => ⟨_, exec_undefinedOctet h w s i row, takeInterrupt_ready _ wf ready⟩⟩

/-! ### DoubleFault -/

/-- An entry whose first push fails is abandoned with PS as step 3 left it and SSP two lower. -/
theorem enterOnce_abandoned {iv : Interrupt} (savedPc : Word) {s : State}
    (fails : ∃ x t, pushWord .other s.readPs { s with ps := iv.entryPs s.readPs, halted := false } = .trap x t) :
    ∃ x, enterOnce iv savedPc s = .trap x { s with ps := iv.entryPs s.readPs, halted := false, ssp := s.ssp - 2 } := by
  obtain ⟨x, t, fails⟩ := fails
  have mode : ({ s with ps := iv.entryPs s.readPs, halted := false } : State).supervisor = true := entryPs_supervisor iv _
  rcases pushWord_cases .other s.readPs { s with ps := iv.entryPs s.readPs, halted := false } with ⟨y, raised⟩ | ⟨u, done, -, -⟩
  · refine ⟨y, ?_⟩
    rw [enterOnce, raised, State.setSp_of_supervisor mode, State.sp_of_supervisor mode]
    rfl
  · rw [fails] at done
    cases done

/-- In supervisor mode with the MMU on the stack segment register is SSS (20_memory.md R92). -/
theorem State.segValue_ss {s : State} (mode : s.supervisor = true) (mmu : s.mmuOn = true) : s.segValue .ss = s.segs.sss := by
  rw [State.segValue, if_pos mmu, State.segNameOf, mode]
  rfl

/-- A push whose first or second byte lies beyond the size raises, be it for that or for the write protection. -/
theorem pushWord_raises (p : Purpose) (v : Word) {s : State}
    (beyond : segmentSize (s.segValue .ss) ≤ (s.sp - 2).toNat ∨ segmentSize (s.segValue .ss) ≤ (s.sp - 1).toNat) :
    ∃ x t, pushWord p v s = .trap x t := by
  rcases pushWord_cases p v s with ⟨x, raised⟩ | ⟨t, -, written, -⟩
  · exact ⟨x, _, raised⟩
  · obtain ⟨low, high, -⟩ := writeWord_checked written
    have next : s.sp - 2 + 1 = s.sp - 1 := by bv_omega
    rw [State.setSp_segValue] at low high
    rw [next] at high
    have inside : ∀ {r : SegReg} {off : Word}, checkAccess r off true = none → off.toNat < segmentSize r := fun {r off} check => by
      by_contra outside
      cases present : r.getLsbD 29 with
      | true => rw [checkAccess_notPresent off true present] at check; cases check
      | false => rw [checkAccess_beyondSize true present (Nat.not_lt.mp outside)] at check; cases check
    have := inside low
    have := inside high
    omega

/-- Settles O56: the first entry is abandoned at its first push, the second completes. -/
theorem doubleFaultEntry : Obligations.DoubleFaultEntry := by
  intro iv savedPc s s1 _ wf mmu present beyond abandoned ready
  have mode : ({ s with ps := iv.entryPs s.readPs, halted := false } : State).supervisor = true := entryPs_supervisor iv _
  have mmu' : ({ s with ps := iv.entryPs s.readPs, halted := false } : State).mmuOn = true := by
    show (iv.entryPs s.readPs).getLsbD 14 = true
    rw [entryPs_kept _ _ (by decide), State.readPs, psMask_getLsbD _ (by decide) (by decide)]
    exact mmu
  obtain ⟨x, enter⟩ := enterOnce_abandoned savedPc (iv := iv) (s := s) (pushWord_raises .other s.readPs (by
    rw [State.segValue_ss mode mmu', State.sp_of_supervisor mode]
    exact beyond))
  refine ⟨Config.errcode s.draws, ?_⟩
  have start : ({ s with ps := iv.entryPs s.readPs, halted := false, ssp := s.ssp - 2 } : State).afterDraw = s1 := abandoned.symm
  obtain ⟨t, second, entered⟩ := enterOnce_ready (iv := .doubleFault (Config.errcode s.draws)) (s := s1) savedPc
    (by rw [abandoned]; exact wf) ready
  rw [takeInterrupt, enter]
  dsimp only
  rw [start, second]
  exact entered

/-! ### The return from an entry -/

/-- Settles O58: the two words of the frame are what RTI pops. -/
theorem entryThenReturnRestores : Obligations.EntryThenReturnRestores := by
  intro iv savedPc s u wf ready two handled keepOff
  obtain ⟨ps, ssp, frame, -, -, whole⟩ := takeInterrupt_ready savedPc wf ready
  obtain ⟨room, -, -, -⟩ := ready
  have words : iv.frame savedPc (s.ps &&& 0xFF00) = [savedPc, s.ps &&& 0xFF00] := by
    simp only [List.mem_cons, List.not_mem_nil, or_false] at two
    rcases two with rfl | rfl | rfl | rfl <;> rfl
  have length : (iv.frame 0 0).length = 2 := by rw [← length_frame iv savedPc (s.ps &&& 0xFF00), words]; rfl
  generalize takeInterrupt iv savedPc s = t at ps ssp frame whole handled
  rw [length] at ssp frame room
  have memory : SameMemory t u := by rw [handled]; constructor <;> rfl
  have mode : u.supervisor = true := by rw [State.supervisor, memory.ps]; exact ps.1
  have sp : s.asSupervisor.sp = s.ssp := State.sp_of_supervisor (asSupervisor_supervisor s)
  have moved : u.sp = s.asSupervisor.sp - BitVec.ofNat 16 (2 * 2) := by
    rw [State.sp_of_supervisor mode, sp, ← ssp, handled]
  have accessed : u.segValue .ss = s.asSupervisor.segValue .ss ∨ u.segValue .ss = withBit (s.asSupervisor.segValue .ss) 28 true := by
    have segs : u.segs = (s.asSupervisor.markAccessed .ss).segs := by rw [memory.segs, whole]
    have same : SameMode u.ps (s.asSupervisor.markAccessed .ss).ps := by
      rw [State.markAccessed_eq]
      refine ⟨mode.trans (asSupervisor_supervisor s).symm, ?_⟩
      rw [memory.ps, ps.2.1]
      exact ((asSupervisor_sameMode s .clock).2.symm.trans (finalPs_mmu s .clock)).symm
    have value : u.segValue .ss = (s.asSupervisor.markAccessed .ss).segValue .ss := by
      rw [← same.segValue, State.segValue, State.segValue]
      unfold State.segNameOf
      rw [segs]
      rfl
    rw [value]
    exact State.markAccessed_segValue _ .ss .ss
  have read := readWords_below .other room accessed moved (by rw [sp]; exact keepOff)
  have same : u.sp = t.sp := by
    rw [State.sp_of_supervisor mode, State.sp_of_supervisor (show t.supervisor = true from ps.1), handled]
  have first : u.stackWord 0 = savedPc := by
    have word := frame 0 (by decide)
    rw [words] at word
    exact (State.stackWord_same memory same 0).trans (Option.some.inj word).symm
  have second : u.stackWord 1 = s.ps &&& 0xFF00 := by
    have word := frame 1 (by decide)
    rw [words] at word
    exact (State.stackWord_same memory same 1).trans (Option.some.inj word).symm
  have list : (List.range 2).map u.stackWord = [savedPc, s.ps &&& 0xFF00] := by rw [← first, ← second]; rfl
  rw [list, sp, State.sp_of_supervisor mode] at read
  have back := (returns u _ savedPc).2.2 (s.ps &&& 0xFF00) mode read
  have again : (s.ps &&& 0xFF00) &&& 0xFF00 = s.ps &&& 0xFF00 := by rw [BitVec.and_assoc, BitVec.and_self]
  have restored : u.ssp + 4 = s.ssp := by
    rw [← State.sp_of_supervisor mode, moved, sp]
    exact (sub_ofNat_add s.ssp (Nat.le_refl 4)).trans (BitVec.sub_zero _)
  rw [back, readWords_withBus read, again, restored]

end Sys2Proof.Machine
end

section
/-! PROOFS. TripleFault: two abandoned entries end in the reset state (60_exceptions.md R352). -/

namespace Sys2Proof.Machine

/-! ### What abandoned pushes leave -/

/-- The state is in supervisor mode with the MMU on, and its RAM is in canonical form. -/
structure OnSss (s : State) : Prop where
  mode : s.supervisor = true
  mmu : s.mmuOn = true
  wf : Memory.wf s.ram = true

/-- The state `t` is `s` after pushes that moved SSP down by `words`, be they done or not, in `cycles` access cycles: nothing but the
bytes below SSP, PS, the A bit of SSS, the devices' calls and coming stores, and the draws have changed. -/
structure Stacked (words cycles : Nat) (s t : State) : Prop where
  whole : t = { s with
    ps := t.ps, ssp := t.ssp, ram := t.ram, deviceStores := s.deviceStores.drop cycles, calls := t.calls, segs := t.segs
    draws := t.draws }
  base : OnSss t
  ssp : t.ssp = s.ssp - BitVec.ofNat 16 (2 * words)
  draws : s.draws ≤ t.draws
  calls : s.calls <:+ t.calls
  segs : ∀ n, t.segs.get n = s.segs.get n ∨ (n = .sss ∧ t.segs.get n = withBit (s.segs.get n) 28 true)
  ram : ∀ a, ¬ s.belowSp (2 * words) a → t.ramByte a = (State.afterCycles cycles s).ramByte a

theorem OnSss.sp {s : State} (h : OnSss s) : s.sp = s.ssp := State.sp_of_supervisor h.mode

theorem OnSss.segValue {s : State} (h : OnSss s) : s.segValue .ss = s.segs.sss := State.segValue_ss h.mode h.mmu

/-- A change of PS, within supervisor mode and with the MMU on. -/
theorem Stacked.withPs {s : State} (h : OnSss s) {ps : Word} (mode : ps.getLsbD 15 = true) (mmu : ps.getLsbD 14 = true) :
    Stacked 0 0 s (s.withPs ps) where
  whole := rfl
  base := ⟨mode, mmu, h.wf⟩
  ssp := (BitVec.sub_zero s.ssp).symm
  draws := Nat.le_refl _
  calls := List.suffix_refl _
  segs _ := .inl rfl
  ram _ _ := rfl

theorem Stacked.refl {s : State} (h : OnSss s) : Stacked 0 0 s s := Stacked.withPs h h.mode h.mmu

theorem Stacked.afterDraw {s : State} (h : OnSss s) : Stacked 0 0 s s.afterDraw where
  whole := rfl
  base := ⟨h.mode, h.mmu, h.wf⟩
  ssp := (BitVec.sub_zero s.ssp).symm
  draws := Nat.le_succ _
  calls := List.suffix_refl _
  segs _ := .inl rfl
  ram _ _ := rfl

/-- SSS keeps every bit but its A bit. -/
theorem Stacked.sss {words cycles : Nat} {s t : State} (h : Stacked words cycles s t) :
    t.segs.sss = s.segs.sss ∨ t.segs.sss = withBit s.segs.sss 28 true := (h.segs .sss).imp_right And.right

theorem Stacked.isr {words cycles : Nat} {s t : State} (h : Stacked words cycles s t) : t.segs.isr = s.segs.isr :=
  (h.segs .isr).resolve_right (fun same => by cases same.1)

theorem Stacked.stackAddress {words cycles : Nat} {s t : State} (h : Stacked words cycles s t) (hs : OnSss s) (off : Word) :
    t.stackAddress off = s.stackAddress off :=
  State.stackAddress_congr (by rw [h.base.segValue, hs.segValue]; exact h.sss) off

theorem Stacked.trans {w1 w2 c1 c2 : Nat} {s t u : State} (hs : OnSss s) (h : Stacked w1 c1 s t) (g : Stacked w2 c2 t u) :
    Stacked (w1 + w2) (c1 + c2) s u where
  whole := by
    rw [← List.drop_drop]
    have e := g.whole
    rw [h.whole] at e
    exact e
  base := g.base
  ssp := by rw [g.ssp, h.ssp, sub_ofNat_sub, Nat.mul_add]
  draws := Nat.le_trans h.draws g.draws
  calls := h.calls.trans g.calls
  segs n := by
    rcases h.segs n, g.segs n with ⟨first | ⟨name, first⟩, second | ⟨name', second⟩⟩
    · exact .inl (second.trans first)
    · exact .inr ⟨name', by rw [second, first]⟩
    · exact .inr ⟨name, by rw [second, first]⟩
    · exact .inr ⟨name, by rw [second, first, withBit_withBit]⟩
  ram a outside := by
    have lower : ¬ t.belowSp (2 * w2) a := fun ⟨j, hj, place⟩ => outside ⟨2 * w1 + j, by omega, by
      rw [place, h.stackAddress hs, h.base.sp, h.ssp, hs.sp, sub_ofNat_sub, Nat.add_assoc]⟩
    have upper : ¬ s.belowSp (2 * w1) a := fun below => outside (State.belowSp_mono (by omega) below)
    rw [g.ram a lower, State.afterCycles_add]
    have platform : t.platform = s.platform := by rw [h.whole]
    have stores : t.deviceStores = s.deviceStores.drop c1 := by rw [h.whole]
    exact State.afterCycles_ramByte_congr c2 (State.afterCycles_wf c1 s hs.wf) h.base.wf (by rw [platform, State.afterCycles_platform])
      (by rw [stores, State.afterCycles_deviceStores]) (h.ram a upper)

/-- Writing a place makes calls at most one longer. -/
theorem writePlace_calls (p : Place) (b : Byte) (s : State) : s.calls <:+ (writePlace p b s).calls ∧ s.draws ≤ (writePlace p b s).draws := by
  cases p with
  | ram a => rw [writePlace_ram, State.storeRam_eq]; exact ⟨List.suffix_refl _, Nat.le_refl _⟩
  | rom a => exact ⟨List.suffix_refl _, Nat.le_refl _⟩
  | device slot a =>
    rw [writePlace_device]
    split
    · exact ⟨List.suffix_cons _ _, Nat.le_succ _⟩
    · exact ⟨List.suffix_refl _, Nat.le_refl _⟩

theorem writeWord_calls {k : SegKind} {p : Purpose} {off v : Word} {s t : State} (h : writeWord k p off v s = .done () t) :
    s.calls <:+ t.calls := by
  obtain ⟨-, -, rfl⟩ := writeWord_checked h
  have first := (writePlace_calls (translate (s.segValue k) off) (lowByte v) (s.markAccessed k).deviceTurn).1
  rw [State.deviceTurn_calls, State.markAccessed_calls] at first
  refine first.trans ?_
  have second := (writePlace_calls (translate (s.segValue k) (off + 1)) (highByte v)
    ((writePlace (translate (s.segValue k) off) (lowByte v) (s.markAccessed k).deviceTurn).turnIf (unaligned off))).1
  rwa [State.turnIf_calls] at second

/-- A stack offset that leads to RAM leads to its stack address. -/
theorem State.stackAddress_of_translate {s : State} {off : Word} {a : Nat} (h : translate (s.segValue .ss) off = .ram a) :
    a = s.stackAddress off := by
  cases kind : (s.segValue .ss).getLsbD 31 with
  | false =>
    rw [State.translate_stack s kind] at h
    exact (Place.ram.inj h).symm
  | true =>
    by_cases slot : (s.segValue .ss).toNat / 2 ^ 16 % 2 ^ 4 = 0
    · rw [translate_rom _ kind slot] at h
      cases h
    · rw [translate_device _ kind slot] at h
      cases h

/-- A push that raises has moved SSP alone. -/
theorem Stacked.refused {s : State} (h : OnSss s) : Stacked 1 0 s (s.setSp (s.sp - 2)) := by
  rw [h.sp, State.setSp_of_supervisor h.mode]
  exact {
    whole := rfl
    base := ⟨h.mode, h.mmu, h.wf⟩
    ssp := rfl
    draws := Nat.le_refl _
    calls := List.suffix_refl _
    segs := fun _ => .inl rfl
    ram := fun _ _ => rfl }

/-- A push that is done has stored to the two bytes below SSP at most. -/
theorem Stacked.pushed {p : Purpose} {v : Word} {s t : State} (h : OnSss s) (push : pushWord p v s = .done () t) :
    Stacked 1 (wordCycles s.sp) s t := by
  rcases pushWord_cases p v s with ⟨x, raised⟩ | ⟨u, done, written, whole⟩
  · rw [push] at raised
    cases raised
  rw [push] at done
  cases done
  have effect := pushWord_effect p v s
  rw [push] at effect
  have ps : t.ps = s.ps := effect.ps
  have moved := State.setSp_of_supervisor h.mode (s.sp - 2)
  have marked : ((s.markAccessed .ss).setSp (s.sp - 2)).segs = (s.markAccessed .ss).segs := State.setSp_segs _ _
  have mode : (s.markAccessed .ss).supervisor = true := by rw [State.markAccessed_eq]; exact h.mode
  rw [State.setSp_of_supervisor mode, State.markAccessed_eq] at whole
  have segs : t.segs = (s.markAccessed .ss).segs := by rw [whole]
  have ssp := congrArg State.ssp whole
  exact {
    whole := by rw [ps, segs, ssp]; exact whole
    base := ⟨effect.supervisor.trans h.mode, by rw [State.mmuOn, ps]; exact h.mmu, effect.wf h.wf⟩
    ssp := by rw [ssp, h.sp]; rfl
    draws := effect.draws
    calls := by
      have calls := writeWord_calls written
      rwa [State.setSp_calls] at calls
    segs := fun n => by
      rw [segs, State.markAccessed_get]
      split
      · rename_i governs
        refine .inr ⟨?_, rfl⟩
        rw [governs.2, State.segNameOf, h.mode]
        rfl
      · exact .inl rfl
    ram := fun a outside => by
      have next : s.sp - 2 + 1 = s.sp - 1 := by bv_omega
      have value := State.setSp_segValue s (s.sp - 2) .ss
      rw [writeWord_ramByte (a := a) (by rw [State.setSp_ram]; exact h.wf) written
        (fun place => outside ⟨1, by decide, State.stackAddress_of_translate (value ▸ place)⟩)
        (fun place => outside ⟨0, by decide, State.stackAddress_of_translate (by rw [value, next] at place; exact place)⟩),
        wordCycles_sub_two]
      exact State.afterCycles_ramByte_congr _ h.wf (by rw [State.setSp_ram]; exact h.wf) (State.setSp_platform _ _)
        (State.setSp_deviceStores _ _) (by
          unfold State.ramByte State.ramConnected
          rw [State.setSp_ram, State.setSp_platform]) }

/-! ### An entry that cannot complete -/

/-- The part ends, done or not, after at most `n` pushes. -/
def EndsStacked (n : Nat) (s : State) (r : Res Unit) : Prop :=
  ∃ words cycles, words ≤ n ∧ match r with
    | .done _ t => Stacked words cycles s t
    | .trap _ t => Stacked words cycles s t

theorem EndsStacked.andThen {m n : Nat} {s : State} {r : Res Unit} {k : Unit → State → Res Unit} (hs : OnSss s)
    (h : EndsStacked m s r) (hk : ∀ t, r = .done () t → OnSss t → EndsStacked n t (k () t)) : EndsStacked (m + n) s (r.andThen k) := by
  obtain ⟨w, c, few, ends⟩ := h
  cases r with
  | trap x t => exact ⟨w, c, by omega, ends⟩
  | done a t =>
    obtain ⟨w', c', few', later⟩ := hk t rfl ends.base
    refine ⟨w + w', c + c', by omega, ?_⟩
    rw [Res.done_andThen]
    cases hkt : k () t with
    | done b u => rw [hkt] at later; exact ends.trans hs later
    | trap x u => rw [hkt] at later; exact ends.trans hs later

theorem pushWord_endsStacked (p : Purpose) (v : Word) {s : State} (h : OnSss s) : EndsStacked 1 s (pushWord p v s) := by
  cases push : pushWord p v s with
  | done a t => exact ⟨1, _, Nat.le_refl _, Stacked.pushed h push⟩
  | trap x t =>
    rcases pushWord_cases p v s with ⟨y, raised⟩ | ⟨u, done, -, -⟩
    · rw [push] at raised
      cases raised
      exact ⟨1, 0, Nat.le_refl _, Stacked.refused h⟩
    · rw [push] at done
      cases done

theorem EndsStacked.of_stacked {n words cycles : Nat} {s t : State} {r : Res Unit} (hs : OnSss s) (h : Stacked words cycles s t)
    (hr : EndsStacked n t r) : EndsStacked (words + n) s r := by
  obtain ⟨w, c, few, ends⟩ := hr
  refine ⟨words + w, cycles + c, by omega, ?_⟩
  cases r with
  | done a u => exact h.trans hs ends
  | trap x u => exact h.trans hs ends

/-- The number of words an entry pushes after PS and the saved PC. -/
theorem pushExtra_endsStacked (iv : Interrupt) {s : State} (h : OnSss s) :
    EndsStacked 1 s ((iv.pushSlot s).andThen fun _ s6 => iv.pushCode (iv.recordType s6)) := by
  cases iv with
  | clock | busRefresh | debugQuery | swi => exact ⟨0, 0, Nat.zero_le _, Stacked.refl h⟩
  | divZeroFault c | doubleFault c | stackFault c | unprivFault c | undefFault c => exact pushWord_endsStacked .other c h
  | segFault v w c =>
    have bits : ∀ i : Nat, i = 15 ∨ i = 14 → (withBit (withBit s.ps 9 v) 8 w).getLsbD i = s.ps.getLsbD i := fun i hi => by
      rw [withBit_getLsbD_ne _ _ (by omega), withBit_getLsbD_ne _ _ (by omega)]
    have recorded := Stacked.withPs h ((bits 15 (.inl rfl)).trans h.mode) ((bits 14 (.inr rfl)).trans h.mmu)
    exact EndsStacked.of_stacked (words := 0) h recorded (pushWord_endsStacked .other c recorded.base)
  | hwi slot =>
    have bits : ∀ i : Nat, i = 15 ∨ i = 14 → (withBit s.ps 11 true).getLsbD i = s.ps.getLsbD i := fun i hi =>
      withBit_getLsbD_ne _ _ (by omega)
    have blocked := Stacked.withPs h ((bits 15 (.inl rfl)).trans h.mode) ((bits 14 (.inr rfl)).trans h.mmu)
    refine EndsStacked.andThen (m := 1) (n := 0) h
      (EndsStacked.of_stacked (words := 0) h blocked (pushWord_endsStacked .other (slot.setWidth 16) blocked.base)) fun t _ ht => ?_
    exact ⟨0, 0, Nat.le_refl _, Stacked.refl ht⟩

/-- The state in which an entry makes its first push. -/
def State.entryStart (s : State) (iv : Interrupt) : State := { s with ps := iv.entryPs s.readPs, halted := false }

theorem entryStart_onSss {s : State} (iv : Interrupt) (wf : Memory.wf s.ram = true) (mmu : s.mmuOn = true) : OnSss (s.entryStart iv) :=
  ⟨entryPs_supervisor iv _, by
    show (iv.entryPs s.readPs).getLsbD 14 = true
    rw [entryPs_kept _ _ (by decide), State.readPs, psMask_getLsbD _ (by decide) (by decide)]
    exact mmu, wf⟩

/-- The causes of 60_exceptions.md R352 that persist: IS not present, SSS not present, SSS write-protected. -/
def Persists (s : State) : Prop := s.segs.isr.getLsbD 29 = true ∨ s.segs.sss.getLsbD 29 = true ∨ s.segs.sss.getLsbD 30 = true

theorem Stacked.persists {words cycles : Nat} {s t : State} (h : Stacked words cycles s t) (cause : Persists s) : Persists t := by
  have bit : ∀ {i : Nat}, i ≠ 28 → t.segs.sss.getLsbD i = s.segs.sss.getLsbD i := fun hi => getLsbD_congr_accessed h.sss hi
  rw [Persists, h.isr, bit (by decide), bit (by decide)]
  exact cause

/-- With SSS not present or write-protected no push is done. -/
theorem pushWord_persists {p : Purpose} {v : Word} {s : State} (h : OnSss s)
    (cause : s.segs.sss.getLsbD 29 = true ∨ s.segs.sss.getLsbD 30 = true) : ∃ x, pushWord p v s = .trap x (s.setSp (s.sp - 2)) := by
  rcases pushWord_cases p v s with raised | ⟨t, -, written, -⟩
  · exact raised
  · obtain ⟨low, -, -⟩ := writeWord_checked written
    rw [State.setSp_segValue, h.segValue] at low
    exfalso
    unfold checkAccess at low
    split at low
    · cases low
    · rename_i present
      split at low
      · cases low
      · rw [if_pos (show (true && s.segs.sss.getLsbD 30) = true from cause.resolve_left present)] at low
        cases low

/-- The pushes of an entry, from the state in which it makes the first. -/
def entryPushes (iv : Interrupt) (savedPc tmp : Word) (s3 : State) : Res Unit :=
  (pushWord .other tmp s3).andThen fun _ s4 =>
  (pushWord .other savedPc s4).andThen fun _ s5 =>
  (iv.pushSlot s5).andThen fun _ s6 => iv.pushCode (iv.recordType s6)

/-- An entry is its pushes, and the read of the vector. -/
theorem enterOnce_eq (iv : Interrupt) (savedPc : Word) (s : State) :
    enterOnce iv savedPc s = (entryPushes iv savedPc s.readPs (s.entryStart iv)).andThen fun _ s8 =>
      (readWord .is .other (2 * iv.index) s8).andThen fun v s9 => .done () (s9.setPc v) := by
  simp only [enterOnce, entryPushes, Res.andThen_assoc]
  rfl

theorem entryPushes_endsStacked (iv : Interrupt) (savedPc tmp : Word) {s : State} (h : OnSss s) :
    EndsStacked 3 s (entryPushes iv savedPc tmp s) :=
  EndsStacked.andThen (m := 1) (n := 2) h (pushWord_endsStacked .other tmp h) fun _ _ h4 =>
    EndsStacked.andThen (m := 1) (n := 1) h4 (pushWord_endsStacked .other savedPc h4) fun _ _ h5 => pushExtra_endsStacked iv h5

/-- With such a cause an entry is abandoned, after three pushes at most. -/
theorem enterOnce_persists {iv : Interrupt} (savedPc : Word) {s : State} (wf : Memory.wf s.ram = true) (mmu : s.mmuOn = true)
    (cause : Persists s) :
    ∃ x t words cycles, enterOnce iv savedPc s = .trap x t ∧ words ≤ 3 ∧ Stacked words cycles (s.entryStart iv) t := by
  have start := entryStart_onSss iv wf mmu
  rcases cause with vector | stack
  · obtain ⟨words, cycles, few, left⟩ := entryPushes_endsStacked iv savedPc s.readPs start
    rw [enterOnce_eq]
    generalize entryPushes iv savedPc s.readPs (s.entryStart iv) = pushes at left
    cases pushes with
    | trap x t => exact ⟨x, t, words, cycles, rfl, few, left⟩
    | done a t =>
      have absent : (t.segValue .is).getLsbD 29 = true := by
        have value : t.segValue .is = t.segs.isr := if_pos left.base.mmu
        rw [value, left.isr]
        exact vector
      have read : readWord .is .other (2 * iv.index) t = .trap (.segment false false) t := by
        rw [readWord, readByte, readByteIn_refused (checkAccess_notPresent _ false absent)]
        rfl
      refine ⟨.segment false false, t, words, cycles, ?_, few, left⟩
      rw [Res.done_andThen, read]
      rfl
  · obtain ⟨x, raised⟩ := pushWord_persists (p := .other) (v := s.readPs) start stack
    refine ⟨x, _, 1, 0, ?_, by decide, Stacked.refused start⟩
    rw [enterOnce]
    exact congrArg (Res.andThen · _) raised

theorem entryStart_running {s : State} {iv : Interrupt} (h : s.halted = false) : s.entryStart iv = s.withPs (iv.entryPs s.readPs) := by
  rw [State.entryStart, ← h]
  rfl

/-- The pushes of an entry lie where the supervisor's stack does. -/
theorem entryStart_belowSp {s : State} {iv : Interrupt} (start : OnSss (s.entryStart iv)) (mmu : s.mmuOn = true) {m n a : Nat}
    (few : m ≤ n) (below : (s.entryStart iv).belowSp m a) : s.asSupervisor.belowSp n a := by
  have mode := asSupervisor_supervisor s
  have on : s.asSupervisor.mmuOn = true := by
    show (s.ps ||| 0x8000).getLsbD 14 = true
    rw [BitVec.getLsbD_or]
    exact (congrArg (· || false) mmu).trans rfl
  obtain ⟨j, hj, place⟩ := below
  refine ⟨j, by omega, ?_⟩
  rw [place, State.stackAddress, State.stackAddress, start.segValue, start.sp, State.segValue_ss mode on, State.sp_of_supervisor mode]
  rfl

/-- Settles O57: the entry and the entry of DoubleFault are both abandoned. -/
theorem tripleFaultResets : Obligations.TripleFaultResets := by
  intro iv savedPc s wf mmu cause t
  have start := entryStart_onSss iv wf mmu
  obtain ⟨x, u, w1, c1, first, few1, left1⟩ := enterOnce_persists (iv := iv) savedPc wf mmu cause
  have drawn := Stacked.afterDraw left1.base
  have cause2 : Persists u.afterDraw := drawn.persists (left1.persists cause)
  obtain ⟨y, z, w2, c2, second, few2, left2⟩ :=
    enterOnce_persists (iv := .doubleFault (Config.errcode u.draws)) savedPc drawn.base.wf drawn.base.mmu cause2
  have reset : t = performReset z := by
    simp only [t, takeInterrupt, first]
    rw [second]
  have running : u.halted = false := by rw [left1.whole]; rfl
  rw [entryStart_running (s := u.afterDraw) running] at left2
  have start2 := entryStart_onSss (.doubleFault (Config.errcode u.draws)) drawn.base.wf drawn.base.mmu
  have again := (Stacked.withPs drawn.base start2.mode start2.mmu).trans drawn.base left2
  have few : w1 + (0 + (0 + w2)) ≤ 6 := by omega
  have draws : s.draws < z.draws := Nat.lt_of_le_of_lt left1.draws again.draws
  obtain ⟨whole, -, ssp, -, calls, segs, ram⟩ := left1.trans start (drawn.trans left1.base again)
  refine ⟨z, w1 + (0 + (0 + w2)), _, by rw [reset]; exact performReset_resetFrom z, few, ssp, draws, calls, whole, segs,
    fun a outside => ?_⟩
  rw [ram a fun below => outside (entryStart_belowSp start mmu (by omega) below)]
  exact State.afterCycles_ramByte_congr _ wf wf rfl rfl rfl

end Sys2Proof.Machine
end

section
/-! PROOFS. The family of 60_exceptions.md section 4: what one step does at an instruction boundary. -/

namespace Sys2Proof.Machine

/-! ### The three ways of a step -/

theorem step_async {s : State} {a : Async} (pending : s.environmentTurn.pendingAsync = some a) :
    step s = .next (takeAsync a s.environmentTurn) := by
  simp only [step, pending]

theorem step_halted {s : State} (nothing : s.environmentTurn.pendingAsync = none) (halted : s.environmentTurn.halted = true) :
    step s = .next s.environmentTurn := by
  simp only [step, nothing, halted, if_true]

/-- What a fetch makes of a step. -/
def Fetched.outcome : Fetched → Host.Outcome State Fault Refusal
  | .instruction i t => exec i t
  | .interrupted t => .next t
  | .refused r => .refused r

theorem runsInstruction_iff (s : State) :
    s.runsInstruction = true ↔ s.environmentTurn.pendingAsync = none ∧ s.environmentTurn.halted = false := by
  rw [State.runsInstruction, Bool.and_eq_true, Option.isNone_iff_eq_none, Bool.not_eq_true']

theorem step_runs {s : State} (runs : s.runsInstruction = true) :
    step s = (fetchInstruction s.environmentTurn).outcome := by
  obtain ⟨nothing, awake⟩ := (runsInstruction_iff s).mp runs
  simp only [step, nothing, awake]
  cases fetchInstruction s.environmentTurn <;> rfl

/-- A step that runs no instruction answers a next state. -/
theorem step_next_of_not_runs {s : State} (idle : s.runsInstruction ≠ true) : ∃ t, step s = .next t := by
  rw [Ne, runsInstruction_iff, not_and, Bool.not_eq_false] at idle
  cases pending : s.environmentTurn.pendingAsync with
  | some a => exact ⟨_, step_async pending⟩
  | none => exact ⟨_, step_halted pending (idle pending)⟩

/-! ### Every instruction answers a next state -/

theorem exec_next (i : Instr) (s : State) : ∃ t, exec i s = .next t := by
  cases i with
  | cmp | neg | add | sub | adc | sbc | and | orr | eor | not | lod | mul | mli | div | dvi | mod | mdi | sto
  | pshGeneral | pshControl | popGeneral | popControl | rts | rtsF | rti | slp | lsg | ssg
  | hwq00 | hwq01 | hwq02 | hwq03 | hwq80 | hwq82 | hwq83 | stx | jmp | jmpF | jsr | jsrF => exact perform_next _ _ _
  | bcc | bcs | bne | beq | bpl | bmi | bvc | bvs | bug | bsg | baw | asl | lsl | rol | rnl | asr | lsr | ror | rnr
  | btt | btx | btc | bts | set | sef | clf | adi | sbi | swi
  | undefined9A | undefined9B | undefined9C | undefined9D | undefined9E | undefinedBCtoBF | undefinedC0toFF => exact ⟨_, rfl⟩

theorem fetchInstruction_odd {s : State} (odd : s.pc.getLsbD 0 = true) : fetchInstruction s = .refused .oddProgramCounter :=
  if_pos odd

theorem decodeFetched_next (w : Word) (imms : List Word) (s : State) : ∃ t, (decodeFetched w imms s).outcome = .next t := by
  unfold decodeFetched
  split
  · exact exec_next _ _
  · exact ⟨_, rfl⟩

theorem fetchInstruction_next {s : State} (even : s.pc.getLsbD 0 = false) : ∃ t, (fetchInstruction s).outcome = .next t := by
  rw [fetchInstruction, if_neg (ne_true_of_eq_false even)]
  split
  · exact ⟨_, rfl⟩
  · split
    · exact ⟨_, rfl⟩
    · exact decodeFetched_next _ _ _

/-- Settles O8: the odd PC is the one refusal of the fetch, and every other part of a step ends in a state. -/
theorem onlyAnOddPcIsRefused : Obligations.OnlyAnOddPcIsRefused := by
  intro s
  by_cases atOdd : s.runsInstruction = true ∧ s.environmentTurn.pc.getLsbD 0 = true
  · have refused : step s = .refused .oddProgramCounter := by
      rw [step_runs atOdd.1, fetchInstruction_odd atOdd.2]
      rfl
    rw [refused]
    refine ⟨fun _ h => (nomatch h), fun _ h => (Host.Outcome.refused.inj h).symm, ?_⟩
    exact iff_of_false (fun ⟨_, h⟩ => nomatch h) (fun h => h atOdd)
  · obtain ⟨t, next⟩ : ∃ t, step s = .next t := by
      by_cases runs : s.runsInstruction = true
      · rw [step_runs runs]
        exact fetchInstruction_next (Bool.eq_false_of_not_eq_true fun odd => atOdd ⟨runs, odd⟩)
      · exact step_next_of_not_runs runs
    rw [next]
    exact ⟨fun _ h => (nomatch h), fun _ h => (nomatch h), iff_of_true ⟨t, rfl⟩ atOdd⟩

/-! ### The order at a boundary -/

/-- The slot has a device that asserts its request (60_exceptions.md R371). -/
def State.Requests (s : State) (k : Nat) : Prop :=
  1 ≤ k ∧ k ≤ 15 ∧ s.lines.irq.getLsbD k = true ∧ ∃ d, s.platform.devices[k - 1]? = some (some d)

theorem requests_iff (s : State) {k : BitVec 4} (slot : 1 ≤ k.toNat) :
    ((s.deviceAt k).isSome && s.lines.irq.getLsbD k.toNat) = true ↔ s.Requests k.toNat := by
  have device : (s.deviceAt k).isSome = true ↔ ∃ d, s.platform.devices[k.toNat - 1]? = some (some d) := by
    have notZero : k ≠ 0 := fun zero => by rw [zero] at slot; exact absurd slot (by decide)
    rw [State.deviceAt, if_neg notZero]
    rcases s.platform.devices[k.toNat - 1]? with _ | _ | d <;> simp
  have last : k.toNat ≤ 15 := Nat.le_of_lt_succ k.isLt
  rw [Bool.and_eq_true, device]
  exact ⟨fun ⟨d, r⟩ => ⟨slot, last, r, d⟩, fun ⟨_, _, r, d⟩ => ⟨d, r⟩⟩

/-- The slots that may request, in the order they are asked. -/
def slots : List (BitVec 4) := [1, 2, 3, 4, 5, 6, 7, 8, 9, 10, 11, 12, 13, 14, 15]

theorem mem_slots_iff : ∀ k : BitVec 4, k ∈ slots ↔ 1 ≤ k.toNat := by decide

theorem slots_rising : slots.Pairwise fun j k => j.toNat < k.toNat := by decide

theorem lowestRequest_some {s : State} {k : BitVec 4} (asks : s.Requests k.toNat) (lowest : ∀ j, s.Requests j → k.toNat ≤ j) :
    s.lowestRequest = some k := by
  obtain ⟨before, after, order⟩ := List.append_of_mem ((mem_slots_iff k).mpr asks.1)
  have earlier : ∀ j ∈ before, j.toNat < k.toNat := fun j hj =>
    (List.pairwise_append.mp (order ▸ slots_rising)).2.2 j hj k List.mem_cons_self
  refine List.find?_eq_some_iff_append.mpr ⟨(requests_iff s asks.1).mpr asks, before, after, order, fun j hj => ?_⟩
  have slot : 1 ≤ j.toNat := (mem_slots_iff j).mp (order ▸ List.mem_append_left _ hj)
  have quiet : ¬ s.Requests j.toNat := fun asked => Nat.not_lt.mpr (lowest _ asked) (earlier j hj)
  rw [Bool.not_eq_true', Bool.eq_false_iff]
  exact mt (requests_iff s slot).mp quiet

theorem lowestRequest_none {s : State} (quiet : ∀ j, ¬ s.Requests j) : s.lowestRequest = none :=
  List.find?_eq_none.mpr fun k slot => mt (requests_iff s ((mem_slots_iff k).mp slot)).mp (quiet _)

/-- A Clock tick is pending at a rate that is not 0 (60_exceptions.md R367). -/
def State.ClockPending (s : State) : Prop := s.lines.clockTick = true ∧ s.rtc.rate ≠ 0

/-- H is set and Q clear: HWI is enabled (60_exceptions.md R355). -/
def State.TakesHwi (s : State) : Prop := s.ps.getLsbD 13 = true ∧ s.ps.getLsbD 11 = false

theorem clockPending_iff (s : State) : (s.lines.clockTick && !(s.rtc.rate == 0)) = true ↔ s.ClockPending := by
  simp [State.ClockPending]

theorem takesHwi_iff (s : State) : (s.hwiEnabled && !s.hwiBlocked) = true ↔ s.TakesHwi := by
  rw [Bool.and_eq_true, Bool.not_eq_true']
  rfl

/-- The request that HWI takes up, where it is enabled. -/
def State.hwiRequest (s : State) : Option (BitVec 4) := if s.hwiEnabled && !s.hwiBlocked then s.lowestRequest else none

theorem hwiRequest_some {s : State} {k : BitVec 4} (enabled : s.TakesHwi) (asks : s.Requests k.toNat)
    (lowest : ∀ j, s.Requests j → k.toNat ≤ j) : s.hwiRequest = some k :=
  (if_pos ((takesHwi_iff s).mpr enabled)).trans (lowestRequest_some asks lowest)

theorem hwiRequest_none {s : State} (quiet : ¬ (s.TakesHwi ∧ ∃ k, s.Requests k)) : s.hwiRequest = none := by
  unfold State.hwiRequest
  split
  · next enabled => exact lowestRequest_none fun j asks => quiet ⟨(takesHwi_iff s).mp enabled, j, asks⟩
  · rfl

/-- What is pending behind Reset and Clock. -/
theorem pendingAsync_ungated {s : State} (noReset : s.lines.reset = false) (noClock : ¬ s.ClockPending) :
    s.pendingAsync = match s.hwiRequest with
      | some slot => some (.hwi slot)
      | none => if s.lines.busChanged then some .busRefresh else if s.lines.debug then some .debugQuery else none := by
  unfold State.pendingAsync
  rw [if_neg (ne_true_of_eq_false noReset), if_neg (mt (clockPending_iff s).mp noClock)]
  rfl

/-- Settles O59: each clause names the first cause of the list that is pending and enabled. -/
theorem boundaryOrder : Obligations.BoundaryOrder := by
  intro s
  have behind {a : Option Async} (noReset : s.environmentTurn.lines.reset = false) (noClock : ¬ s.environmentTurn.ClockPending)
      (quiet : ¬ (s.environmentTurn.TakesHwi ∧ ∃ k, s.environmentTurn.Requests k))
      (rest : (if s.environmentTurn.lines.busChanged then some .busRefresh
        else if s.environmentTurn.lines.debug then some .debugQuery else none) = a) : s.environmentTurn.pendingAsync = a := by
    rw [pendingAsync_ungated noReset noClock, hwiRequest_none quiet]
    exact rest
  refine ⟨fun reset => ?_, fun noReset clock => ?_, fun noReset noClock enabled k asks lowest => ?_,
    fun noReset noClock quiet bus => ?_, fun noReset noClock quiet noBus debug => ?_,
    fun noReset noClock quiet noBus noDebug halted => ?_⟩
  · exact ⟨_, step_async (a := .reset) (if_pos reset), performReset_resetFrom _⟩
  · exact step_async (a := .clock)
      ((if_neg (ne_true_of_eq_false noReset)).trans (if_pos ((clockPending_iff _).mpr clock)))
  · refine step_async (a := .hwi k) ?_
    rw [pendingAsync_ungated noReset noClock, hwiRequest_some enabled asks lowest]
  · exact step_async (behind noReset noClock quiet (if_pos bus))
  · exact step_async (behind noReset noClock quiet ((if_neg (ne_true_of_eq_false noBus)).trans (if_pos debug)))
  · exact step_halted (behind noReset noClock quiet
      ((if_neg (ne_true_of_eq_false noBus)).trans (if_neg (ne_true_of_eq_false noDebug)))) halted

end Sys2Proof.Machine
end

section
/-! PROOFS. The family of 60_exceptions.md section 4: the fetch of one instruction. -/

namespace Sys2Proof.Machine

section
open Sys2Proof.Laws.Encoding Sys2Proof.Laws.WordCount

/-! ### Immediate words -/

theorem fetchImmediates_of_readWords : ∀ {n : Nat} {off : Word} {s t : State} {ws : List Word},
    readWords .code .other n off s = some (ws, t) → fetchImmediates n off s = .done ws t
  | 0, _, _, _, _, read => by
    obtain ⟨rfl, rfl⟩ := readWords_zero read
    rfl
  | n + 1, _, _, _, _, read => by
    obtain ⟨v, vs, r, rfl, first, rest⟩ := readWords_succ read
    rw [fetchImmediates, fetchWord, first, Res.andThen, fetchImmediates_of_readWords rest]
    rfl

/-- The fetch raises at the first of the immediate words that cannot be read. -/
theorem fetchImmediates_trap {n m : Nat} {off : Word} {s s2 s3 : State} {ws : List Word} {x : Trap} (fewer : n < m)
    (read : readWords .code .other n off s = some (ws, s2))
    (fault : readWord .code .other (off + BitVec.ofNat 16 (2 * n)) s2 = .trap x s3) : fetchImmediates m off s = .trap x s3 := by
  induction n generalizing m off s ws with
  | zero =>
    obtain ⟨m, rfl⟩ : ∃ k, m = k + 1 := ⟨m - 1, by omega⟩
    obtain ⟨rfl, rfl⟩ := readWords_zero read
    rw [Nat.mul_zero, BitVec.add_zero] at fault
    rw [fetchImmediates, fetchWord, fault]
    rfl
  | succ n ih =>
    obtain ⟨m, rfl⟩ : ∃ k, m = k + 1 := ⟨m - 1, by omega⟩
    obtain ⟨v, vs, r, rfl, first, rest⟩ := readWords_succ read
    have next : off + BitVec.ofNat 16 (2 * (n + 1)) = off + 2 + BitVec.ofNat 16 (2 * n) := by
      rw [Nat.mul_succ, Nat.add_comm, BitVec.ofNat_add, ← BitVec.add_assoc]
      rfl
    rw [next] at fault
    rw [fetchImmediates, fetchWord, first, Res.andThen, ih (by omega) rest fault]
    rfl

/-! ### What raises before the immediate words -/

/-- STO in Immediate mode, and a far jump in user mode (60_exceptions.md R360). -/
def RaisesFirst (s : State) (i : Instr) : Prop :=
  (∃ d es x v, i = .sto d (.immediate es x v)) ∨ (s.supervisor = false ∧ ∃ m, i = .jmpF m ∨ i = .jsrF m)

/-- The opcode word is one of STO in Immediate mode. -/
def StoImmediateWord (w : Word) : Prop := w.extractLsb' 3 5 = 17#5 ∧ w.extractLsb' 9 6 = 0#6

/-- The opcode word is one of a far jump. -/
def FarJumpWord (w : Word) : Prop := (lowOctet w = 0xB8#8 ∨ lowOctet w = 0xB9#8) ∧ isFarJump w = true

theorem raisesBeforeImmediates_iff (w : Word) (s : State) :
    raisesBeforeImmediates w s = true ↔ StoImmediateWord w ∨ (FarJumpWord w ∧ s.supervisor = false) := by
  simp [raisesBeforeImmediates, StoImmediateWord, FarJumpWord]

/-- The opcode words of the instructions that raise first are the words that the fetch stops at. -/
theorem raisesBeforeImmediates_opcode {s : State} {i : Instr} (wf : i.wf = true) (raises : RaisesFirst s i) :
    raisesBeforeImmediates (opcode i) s = true := by
  have far (l : BitVec 8) (m : JumpOperand) (fits : fitsRow true m = true) : isFarJump (octetWord l (m.high true)) = true :=
    (jump_fields true m fits l []).1
  rw [raisesBeforeImmediates_iff]
  rcases raises with ⟨d, es, x, v, rfl⟩ | ⟨user, m, rfl | rfl⟩
  · refine .inl ⟨(aluWord_fields 17 d _).1, ?_⟩
    rw [opcode, aluWord_eq, octetWord_mode]
    exact (show ∀ es x : Bool, (BitVec.ofBool es ++ 0#6 ++ BitVec.ofBool x : BitVec 8).extractLsb' 1 6 = 0#6 by decide) es x
  · exact .inr ⟨⟨.inl (lowOctet_octetWord _ _), far 0xB8 m wf⟩, user⟩
  · exact .inr ⟨⟨.inr (lowOctet_octetWord _ _), far 0xB9 m wf⟩, user⟩

/-- The six mode bits of Immediate mode are clear. -/
theorem decodeOperand_immediate {w : Word} (mode : w.extractLsb' 9 6 = 0#6) (i1 : Word) :
    decodeOperand w i1 = .immediate (w.getLsbD 15) (w.getLsbD 8) i1 := by
  have clear (k : Nat) (h : k < 6) : w.getLsbD (9 + k) = false := by
    have bit := congrArg (fun v => v.getLsbD k) mode
    simpa [h] using bit
  have b14 := clear 5 (by decide)
  have b13 := clear 4 (by decide)
  have b12 := clear 3 (by decide)
  have b11 := clear 2 (by decide)
  have b10 := clear 1 (by decide)
  have b9 := clear 0 (by decide)
  simp only [decodeOperand, b14, b13, b12, b11, b10, b9]
  rfl

theorem decodeWords_stoImmediate {w : Word} (word : StoImmediateWord w) (i1 i2 i3 : Word) :
    decodeWords w i1 i2 i3 = .ok (.sto (regField w 0) (.immediate (w.getLsbD 15) (w.getLsbD 8) i1)) := by
  obtain ⟨operation, mode⟩ := word
  rw [decodeWords, operation, decodeOperand_immediate mode]
  rfl

/-- The two far jumps. -/
def farJumpInstr (call : Bool) (m : JumpOperand) : Instr := if call then .jsrF m else .jmpF m

theorem decodeWords_farJump {w : Word} (word : FarJumpWord w) : ∃ call, ∀ i1 i2 i3,
    decodeWords w i1 i2 i3 = .ok (farJumpInstr call (decodeJumpOperand w i1 i2 i3)) := by
  obtain ⟨l, h, rfl⟩ : ∃ l h, w = octetWord l h := ⟨_, _, word_octets w⟩
  obtain ⟨low, far⟩ := word
  rw [lowOctet_octetWord] at low
  rcases low with rfl | rfl
  · refine ⟨false, fun i1 i2 i3 => ?_⟩
    rw [decodeWords_other h _ _ _ (by decide), decodeOther, lowOctet_octetWord]
    simp only [BitVec.reduceToNat, far]
    rfl
  · refine ⟨true, fun i1 i2 i3 => ?_⟩
    rw [decodeWords_other h _ _ _ (by decide), decodeOther, lowOctet_octetWord]
    simp only [BitVec.reduceToNat, far]
    rfl

theorem farTarget_withTarget {s : State} (user : s.supervisor = false) (t : Word) (g : SegReg) (m : JumpOperand) :
    farTarget (withTarget t g m) s = farTarget m s := by
  cases m with
  | register | undefinedMode => rfl
  | immediate | absolute | indirect | indirectOffset | indirectIndexed => simp [farTarget, withTarget, user]

theorem exec_farJumpInstr_trap {s : State} {m : JumpOperand} {x : Trap} (trap : farTarget m s = .trap x s) (call : Bool) :
    exec (farJumpInstr call m) s = .next (takeInterrupt (x.interrupt (opcode (farJumpInstr call m))) s.pc s) := by
  cases call with
  | false => rw [farJumpInstr, if_neg Bool.false_ne_true, exec_jmpF, trap]; rfl
  | true => rw [farJumpInstr, if_pos rfl, exec_jsrF, trap]; rfl

/-- Where the fetch stops at the opcode word, the word stands for an instruction that raises first, and whose meaning is the same for
all immediate words (log 21). -/
theorem decodeWords_raisesFirst {w : Word} {s : State} (raises : raisesBeforeImmediates w s = true) :
    ∃ o, ∀ i1 i2 i3, ∃ i, decodeWords w i1 i2 i3 = .ok i ∧ RaisesFirst s i ∧ exec i s = o := by
  rcases (raisesBeforeImmediates_iff w s).mp raises with store | ⟨jump, user⟩
  · refine ⟨.next (takeInterrupt (.undefFault w) s.pc s), fun i1 i2 i3 => ?_⟩
    have decoded := decodeWords_stoImmediate store i1 i2 i3
    refine ⟨_, decoded, .inl ⟨_, _, _, _, rfl⟩, ?_⟩
    show perform (opcode _) s.pc (.trap .undefined s) = _
    rw [(decodeWords_readFrom decoded).opcode]
    rfl
  · obtain ⟨call, decoded⟩ := decodeWords_farJump jump
    obtain ⟨x, trap⟩ := farTarget_user (decodeJumpOperand (octetWord 0 (highOctet w)) 0 0 0) user
    refine ⟨.next (takeInterrupt (x.interrupt w) s.pc s), fun i1 i2 i3 => ⟨_, decoded i1 i2 i3, .inr ⟨user, ?_⟩, ?_⟩⟩
    · cases call with
      | false => exact ⟨_, .inl rfl⟩
      | true => exact ⟨_, .inr rfl⟩
    · have target : farTarget (decodeJumpOperand w i1 i2 i3) s = .trap x s := by
        rw [word_octets w, decodeJumpOperand_octetWord, farTarget_withTarget user, trap]
      rw [exec_farJumpInstr_trap target, (decodeWords_readFrom (decoded i1 i2 i3)).opcode]

/-- The fetch stops at the opcode word exactly of the instructions that raise first. -/
theorem raisesBeforeImmediates_of_decodeWords {w i1 i2 i3 : Word} {i : Instr} (s : State)
    (read : decodeWords w i1 i2 i3 = .ok i) : raisesBeforeImmediates w s = true ↔ RaisesFirst s i := by
  constructor
  · intro raises
    obtain ⟨_, fixed⟩ := decodeWords_raisesFirst raises
    obtain ⟨j, decoded, first, -⟩ := fixed i1 i2 i3
    rw [read] at decoded
    cases decoded
    exact first
  · intro first
    obtain ⟨wf, word, -⟩ := decodeWords_readFrom read
    exact word ▸ raisesBeforeImmediates_opcode wf first

/-! ### The fetch of one instruction -/

theorem fetchInstruction_opcodeTrap {s s1 : State} {x : Trap} (even : s.pc.getLsbD 0 = false)
    (fault : readWord .code .other s.pc s = .trap x s1) :
    fetchInstruction s = .interrupted (takeInterrupt (x.interrupt (Config.errcode s1.draws)) s.pc s1.afterDraw) := by
  rw [fetchInstruction, if_neg (ne_true_of_eq_false even), fetchWord, fault]

/-- What the immediate words make of the fetch. -/
def fetchedWords (w pc : Word) : Res (List Word) → Fetched
  | .trap t s => .interrupted (takeInterrupt (t.interrupt w) pc s)
  | .done imms s => decodeFetched w imms s

theorem fetchInstruction_opcode {s s1 : State} {w : Word} (even : s.pc.getLsbD 0 = false)
    (word : readWord .code .other s.pc s = .done w s1) :
    fetchInstruction s = fetchedWords w s.pc
      (fetchImmediates (if raisesBeforeImmediates w s1 then 0 else immediateCount w) (s.pc + 2) s1) := by
  rw [fetchInstruction, if_neg (ne_true_of_eq_false even), fetchWord, word]
  dsimp only
  cases fetchImmediates (if raisesBeforeImmediates w s1 then 0 else immediateCount w) (s.pc + 2) s1 <;> rfl

theorem decodeFetched_instruction {w : Word} {imms : List Word} {i : Instr}
    (read : decodeWords w (imms.getD 0 0) (imms.getD 1 0) (imms.getD 2 0) = .ok i) (s : State) :
    decodeFetched w imms s = .instruction i s := by
  rw [decodeFetched, read]

/-- The words of an instruction that does not raise first, read one after the other, are fetched as that instruction. -/
theorem fetchInstruction_words {s s1 : State} {w : Word} {imms : List Word} {i : Instr} (even : s.pc.getLsbD 0 = false)
    (read : decodeWords w (imms.getD 0 0) (imms.getD 1 0) (imms.getD 2 0) = .ok i) (count : imms.length = immediateCount w)
    (plain : ¬ RaisesFirst s i) (words : readWords .code .other (imms.length + 1) s.pc s = some (w :: imms, s1)) :
    fetchInstruction s = .instruction i s1 := by
  obtain ⟨v, vs, r, both, first, rest⟩ := readWords_succ words
  obtain ⟨rfl, rfl⟩ := List.cons.inj both
  have mode : r.supervisor = s.supervisor := by rw [← readWord_withBus first, State.withBus_supervisor]
  have going : raisesBeforeImmediates w r ≠ true := by
    rw [Ne, raisesBeforeImmediates_of_decodeWords r read, RaisesFirst, mode]
    exact plain
  rw [fetchInstruction_opcode even first, if_neg going, ← count, fetchImmediates_of_readWords rest]
  exact decodeFetched_instruction read s1

/-- The opcode word of an instruction that raises first is fetched as one of the same meaning. -/
theorem fetchInstruction_raisesFirst {s s1 : State} {w i1 i2 i3 : Word} {i : Instr} (even : s.pc.getLsbD 0 = false)
    (read : decodeWords w i1 i2 i3 = .ok i) (raises : RaisesFirst s i) (word : readWord .code .other s.pc s = .done w s1) :
    ∃ j, fetchInstruction s = .instruction j s1 ∧ exec j s1 = exec i s1 := by
  have mode : s1.supervisor = s.supervisor := by rw [← readWord_withBus word, State.withBus_supervisor]
  have stops : raisesBeforeImmediates w s1 = true := by
    rw [raisesBeforeImmediates_of_decodeWords s1 read, RaisesFirst, mode]
    exact raises
  obtain ⟨o, fixed⟩ := decodeWords_raisesFirst stops
  obtain ⟨j, decoded, -, meaning⟩ := fixed 0 0 0
  obtain ⟨i', same, -, meaning'⟩ := fixed i1 i2 i3
  rw [read] at same
  cases same
  refine ⟨j, ?_, meaning.trans meaning'.symm⟩
  rw [fetchInstruction_opcode even word, if_pos stops]
  exact decodeFetched_instruction (imms := []) decoded s1

/-- The bytes of the words, as numbers. -/
theorem bytesOfWords_eq (ws : List Word) :
    (ws.flatMap fun v => [BitVec.ofNat 8 v.toNat, BitVec.ofNat 8 (v.toNat / 256)]) = bytesOfWords ws := by
  induction ws with
  | nil => rfl
  | cons w ws ih => rw [List.flatMap_cons, ih, bytesOfWords, lowByte_eq, highByte_eq]; rfl

/-- Words that decode to one instruction, with nothing left, are its opcode word and as many immediate words as that says. -/
theorem decodeBytes_whole {ws : List Word} {i : Instr} (read : decodeBytes (bytesOfWords ws) = .ok (i, [])) :
    ∃ w imms, ws = w :: imms ∧ imms.length = immediateCount w ∧
      decodeWords w (imms.getD 0 0) (imms.getD 1 0) (imms.getD 2 0) = .ok i := by
  have words : wordsOfBytes (bytesOfWords ws) = ws := by
    have words := wordsOfBytes_bytesOfWords ws []
    rw [List.append_nil] at words
    exact words.trans (List.append_nil ws)
  rw [decodeBytes, words] at read
  cases ws with
  | nil => cases read
  | cons w imms =>
    dsimp only at read
    split at read
    · cases read
    · rename_i enough
      split at read
      · cases read
      · rename_i j decoded
        obtain ⟨rfl, left⟩ := Prod.mk.inj (Except.ok.inj read)
        have length := congrArg List.length left
        rw [List.length_drop, length_bytesOfWords, List.length_cons, List.length_nil, instrLength] at length
        exact ⟨w, imms, rfl, by omega, decoded⟩

/-- Settles O6: the words read are the ones the fetch reads, and where it stops at the opcode word the meaning is the same. -/
theorem stepRunsTheDecodedInstruction : Obligations.StepRunsTheDecodedInstruction := by
  intro s s1 ws i runs even bytes e raisesFirst read
  rw [bytesOfWords_eq] at bytes
  obtain ⟨w, imms, rfl, count, decoded⟩ := decodeBytes_whole bytes
  rw [step_runs runs]
  rcases read with ⟨plain, words⟩ | ⟨raises, v, head, word⟩
  · refine ⟨(readWords_withBus words).symm, ?_⟩
    rw [fetchInstruction_words even decoded count plain words]
    rfl
  · cases head
    obtain ⟨j, fetched, meaning⟩ := fetchInstruction_raisesFirst even decoded raises word
    refine ⟨(readWord_withBus word).symm, ?_⟩
    rw [fetched]
    exact meaning

/-! ### Interrupts of the fetch -/

/-- A rejected word has no immediate words. -/
theorem immediateCount_rejected {w i1 i2 i3 : Word} {r : Reject} (rejected : decodeWords w i1 i2 i3 = .error r) :
    immediateCount w = 0 := by
  have low : w.toNat % 256 = 0xB4 ∨ w.toNat % 256 = 0xBA := by
    rcases (decodeWords_error w i1 i2 i3 r).mp rejected with ⟨low, -⟩ | ⟨low, -⟩
    · exact .inl low
    · exact .inr low
  have length := instrLength_eq w
  rw [if_neg (by omega), instrLength] at length
  omega

theorem rejectTrap_interrupt (r : Reject) (w : Word) (s : State) : (rejectTrap r s).interrupt w =
    if r = .undefinedHwqIndex ∧ s.supervisor = false then .unprivFault w else .undefFault w := by
  cases r with
  | undefinedHwqIndex => cases mode : s.supervisor <;> simp [rejectTrap, mode, Trap.interrupt]
  | undefinedProcessorFunction | truncated => rfl

theorem fetchInstruction_rejected {s s1 : State} {w i1 i2 i3 : Word} {r : Reject} (even : s.pc.getLsbD 0 = false)
    (word : readWord .code .other s.pc s = .done w s1) (rejected : decodeWords w i1 i2 i3 = .error r) :
    fetchInstruction s = .interrupted (takeInterrupt
      (if r = .undefinedHwqIndex ∧ s.supervisor = false then .unprivFault w else .undefFault w) s.pc s1) := by
  have bus := readWord_withBus word
  have mode : s1.supervisor = s.supervisor := by rw [← bus, State.withBus_supervisor]
  have pc : s1.pc = s.pc := by rw [← bus]; rfl
  have always : decodeWords w 0 0 0 = .error r := by
    rw [decodeWords_error] at rejected ⊢
    exact rejected
  rw [fetchInstruction_opcode even word, immediateCount_rejected rejected, ite_self, fetchImmediates, ← mode, ← pc,
    ← rejectTrap_interrupt]
  show decodeFetched w [] s1 = _
  rw [decodeFetched]
  simp only [List.getD_nil, always]

/-- The opcode words the fetch stops at, as numbers. -/
theorem raisesBeforeImmediates_numbers {w : Word} {s : State} (raises : raisesBeforeImmediates w s = true) :
    (w.toNat % 256 / 8 = 17 ∧ w.toNat / 512 % 64 = 0) ∨
      ((w.toNat % 256 = 0xB8 ∨ w.toNat % 256 = 0xB9) ∧ w.toNat / 256 % 2 = 1 ∧ s.supervisor = false) := by
  rcases (raisesBeforeImmediates_iff w s).mp raises with ⟨operation, mode⟩ | ⟨⟨low, far⟩, user⟩
  · rw [field_eq_iff] at operation mode
    exact .inl ⟨by change w.toNat / 8 % 32 = 17 at operation; omega, mode⟩
  · refine .inr ⟨?_, ?_, user⟩
    · rw [← BitVec.toNat_inj, ← BitVec.toNat_inj, lowOctet_toNat] at low
      exact low
    · rw [isFarJump, Bool.and_eq_true, bit_eq_true_iff] at far
      exact far.1

theorem fetchInstruction_immediateTrap {s s1 s2 s3 : State} {w : Word} {ws : List Word} {x : Trap} (even : s.pc.getLsbD 0 = false)
    (word : readWord .code .other s.pc s = .done w s1) (going : raisesBeforeImmediates w s1 ≠ true)
    (fewer : ws.length < immediateCount w) (words : readWords .code .other ws.length (s.pc + 2) s1 = some (ws, s2))
    (fault : readWord .code .other (s.pc + 2 + BitVec.ofNat 16 (2 * ws.length)) s2 = .trap x s3) :
    fetchInstruction s = .interrupted (takeInterrupt (x.interrupt w) s.pc s3) := by
  rw [fetchInstruction_opcode even word, if_neg going, fetchImmediates_trap fewer words fault]
  rfl

/-- Settles O7: each clause is one of the ways the fetch ends in an interrupt. -/
theorem fetchRaisesInterrupts : Obligations.FetchRaisesInterrupts := by
  intro s runs even
  refine ⟨fun w i1 i2 i3 r s1 word rejected => ?_, fun v w s1 fault => ⟨Config.errcode s1.draws, ?_⟩,
    fun w ws s1 s2 s3 v x word fewer words fault notStore notFar => ?_⟩
  · rw [step_runs runs, fetchInstruction_rejected even word rejected]
    rfl
  · rw [step_runs runs, fetchInstruction_opcodeTrap even fault]
    rfl
  · have mode : s1.supervisor = s.environmentTurn.supervisor := by rw [← readWord_withBus word, State.withBus_supervisor]
    have going : raisesBeforeImmediates w s1 ≠ true := fun raises => by
      rcases raisesBeforeImmediates_numbers raises with store | far
      · exact notStore store
      · exact notFar (mode ▸ far)
    rw [step_runs runs, fetchInstruction_immediateTrap even word going fewer words fault]
    rfl

end

end Sys2Proof.Machine
end
